-- ==== Sys2Proof/Word.lean ====
section
/-! DEFINITION. The words of the JW2460: bytes, the station clock, the counters that wrap, and the type of a
sparse table. Nothing here is arithmetic of the spec's own; that stands under Machine/. -/

namespace Sys2Proof

/-- One byte of a payload or of the configuration image (R162, section 9.5). -/
abbrev Byte := BitVec 8

/-- A value of the station clock: milliseconds, 32 bits, wrapping (R178). -/
abbrev Clock := BitVec 32

/-- A request serial: 16 bits, wrapping (R108). -/
abbrev Serial := BitVec 16

/-- A period number: 16 bits, wrapping (R148, R155). -/
abbrev Period := BitVec 16

/-- The generation of a hold slot: 4 bits, wrapping (R58). -/
abbrev Generation := BitVec 4

/-- A sparse table: keys and values, the keys strictly rising (`Tab.wf` in Machine/Table.lean). A key that is not
listed stands for the table's empty value. -/
abbrev Tab (α : Type) := List (Nat × α)

end Sys2Proof
end

