-- ==== Sys2Proof/Config.lean ====
section
/-! DEFINITION. The fixed capacities of the part (00_scope, Capacities) and the free values: what the spec leaves
open, as constants without a body. -/

namespace Sys2Proof

/-- Transmit queue: 32 frames (R170). -/
abbrev Config.txCapacity : Nat := 32
/-- Receive queue: 16 frames (R169). -/
abbrev Config.rxCapacity : Nat := 16
/-- Hold slots: 64 (R57). -/
abbrev Config.holdSlots : Nat := 64
/-- Call records: 512 (R99). -/
abbrev Config.callRecords : Nat := 512
/-- Suspect list: 16 terminals (R23). -/
abbrev Config.suspectCapacity : Nat := 16
/-- Candidates per route list: 6 (R80). -/
abbrev Config.routeCandidates : Nat := 6
/-- Pair entries per tally bank: 96 (R148). -/
abbrev Config.pairEntries : Nat := 96
/-- Attempts per call: 4 (R105). -/
abbrev Config.maxAttempts : Nat := 4
/-- Terminal budget per engine: 1024 (R182). -/
abbrev Config.terminalBudget : Nat := 1024
/-- The greatest value of a status counter (R192). -/
abbrev Config.counterMax : Nat := 65535
/-- The broadcast address (00_scope, Station addresses). -/
abbrev Config.broadcast : Nat := 63

/-- FREE VALUE (assumption 8). The rank of a circuit in the order in which one reset, or one entry to HALTED,
releases the circuits of the own groups: draw number, local index, circuit. The spec fixes no order (R7, R8, R59). -/
opaque Config.releaseRank : Nat → Nat → Nat → Nat

/-- FREE VALUE (assumption 9). Which of several records that match one HOLD-LOST is the matched one (R120): draw
number to a position, taken modulo their number. -/
opaque Config.lostPick : Nat → Nat

end Sys2Proof
end

