-- ==== Sys2Proof/Syntax.lean ====
section
/-! DEFINITION. The commands: one constructor per row of spec/opcode_table.json, in the table's order. The rows carry
no fields; the operands below are what the rule of each row takes from outside the block. -/

namespace Sys2Proof

/-- A frame as it stands on the line (R162), from the arbitration field to the CRC. -/
structure WireFrame where
  /-- class (2 bits, more significant), then source address (6 bits) -/
  arb : BitVec 8
  dest : BitVec 6
  kind : BitVec 6
  length : BitVec 6
  payload : List Byte
  crc : BitVec 16
  deriving DecidableEq, Repr

/-- How the reception of a frame came to its end (R165, R172). -/
inductive Reception where
  /-- the frame's end was seen, and the station took frames from its first bit to its end -/
  | whole
  /-- the frame's end is missing -/
  | noEnd
  /-- a reset or an entry to HALTED was taken while the frame was being received (R172; assumption 30) -/
  | overtaken
  deriving DecidableEq, Repr

/-- The commands. A command that takes a received frame has no operand: its frame is the oldest of the receive
queue (R169; assumption 1). -/
inductive Instr where
  /-- POWER_ON (R179) -/
  | powerOn
  /-- BPRST_ASSERTED (R179) -/
  | bprstAsserted
  /-- BPRST_RELEASED (R179) -/
  | bprstReleased
  /-- CONFIG_READ_COMPLETE (R180), with the bytes the configuration memory returned -/
  | configReadComplete (image : List Byte)
  /-- LISTEN_DEADLINE (R184) -/
  | listenDeadline
  /-- ANNOUNCE_DEADLINE (R51) -/
  | announceDeadline
  /-- REACH_DEADLINE (R88) -/
  | reachDeadline
  /-- HOLD_EXPIRY (R70) of a hold slot -/
  | holdExpiry (slot : Nat)
  /-- ANSWER_TIMEOUT (R112) of a call record -/
  | answerTimeout (record : Nat)
  /-- OFFER_TIMEOUT (R119) of a call record -/
  | offerTimeout (record : Nat)
  /-- STALENESS_EVENT (R92) of the view entry of a global group -/
  | stalenessEvent (group : Nat)
  /-- ABSENCE_EVENT (R188) of the roster entry of an engine address -/
  | absenceEvent (peer : Nat)
  /-- FRAME_RECEIVED (R165): the frame on the line, and how its reception ended -/
  | frameReceived (frame : WireFrame) (ended : Reception)
  /-- BUS_IDLE_CONTENTION (R163), with the arbitration values the other stations send at this idle bus -/
  | busIdleContention (others : List (BitVec 8))
  /-- BIT_MISMATCH (R164) -/
  | bitMismatch
  /-- FRAME_SENT (R164) -/
  | frameSent
  /-- HOLD_ASK (R60) -/
  | holdAsk
  /-- HOLD_TAKE (R65) -/
  | holdTake
  /-- HOLD_DROP (R68) -/
  | holdDrop
  /-- HOLD_FAULT (R69) -/
  | holdFault
  /-- HOLD_GIVE (R109) -/
  | holdGive
  /-- HOLD_DENY (R111) -/
  | holdDeny
  /-- HOLD_LOST (R120) -/
  | holdLost
  /-- ROUTE_ASK (R101) -/
  | routeAsk
  /-- SEIZED (R116): SEIZE-DONE with that outcome -/
  | seized
  /-- ANSWERED (R117): SEIZE-DONE with that outcome -/
  | answered
  /-- SEIZE_FAILED (R118): SEIZE-DONE with that outcome -/
  | seizeFailed
  /-- ABANDONED (R118): SEIZE-DONE with that outcome -/
  | abandoned
  /-- CALL_CLEAR (R122) -/
  | callClear
  /-- LOAD (R90) -/
  | load
  /-- REACH (R86) -/
  | reach
  /-- PROBE (R54) -/
  | probe
  /-- PRESENT (R189) -/
  | present
  /-- BLOCK (R18): CIRCUIT-CONTROL with that action -/
  | block
  /-- UNBLOCK (R19): CIRCUIT-CONTROL with that action -/
  | unblock
  /-- FORCE_RELEASE (R20): CIRCUIT-CONTROL with that action -/
  | forceRelease
  /-- RESTORE (R34): CIRCUIT-CONTROL with that action -/
  | restore
  /-- RATE_SET (R130) -/
  | rateSet
  /-- RATE_CLEAR (R131) -/
  | rateClear
  /-- PERIOD_CLOSE (R155) -/
  | periodClose
  /-- TALLY_READ (R156) -/
  | tallyRead
  /-- TALLY_ACK (R157) -/
  | tallyAck
  /-- STATUS_READ (R191) -/
  | statusRead
  /-- STATION_RESET (R185) -/
  | stationReset
  deriving DecidableEq, Repr

end Sys2Proof
end

