-- ==== Sys2Proof/WellFormed.lean ====
section
/-! DEFINITION. Which commands are well formed: an operand that numbers something is below the number of such things,
and the image read is as long as the image is. -/

namespace Sys2Proof

/-- The length of the configuration image in bytes (section 9.5, Configuration image). -/
abbrev imageLength : Nat := 290

/-- A command's operands are in their ranges. An ill-formed command numbers nothing the block has. -/
def Instr.wellFormed : Instr → Bool
  | .configReadComplete image => image.length == imageLength
  | .holdExpiry slot => decide (slot < Config.holdSlots)
  | .answerTimeout record => decide (record < Config.callRecords)
  | .offerTimeout record => decide (record < Config.callRecords)
  | .stalenessEvent group => decide (group < 512)
  | .absenceEvent peer => decide (peer < 32)
  | .frameReceived frame _ => decide (frame.payload.length < 64)
  | .powerOn | .bprstAsserted | .bprstReleased | .listenDeadline | .announceDeadline | .reachDeadline => true
  | .busIdleContention _ | .bitMismatch | .frameSent => true
  | .holdAsk | .holdTake | .holdDrop | .holdFault | .holdGive | .holdDeny | .holdLost => true
  | .routeAsk | .seized | .answered | .seizeFailed | .abandoned | .callClear => true
  | .load | .reach | .probe | .present => true
  | .block | .unblock | .forceRelease | .restore => true
  | .rateSet | .rateClear | .periodClose | .tallyRead | .tallyAck | .statusRead | .stationReset => true

end Sys2Proof
end

