-- ==== Sys2Proof/Decode.lean ====
section
/-! DEFINITION. The command a table word spells. No row of spec/opcode_table.json gives bits, so no word spells one
(assumption 17). The frames of the bus have their own layouts (Machine/Operands.lean: `parseMsg`, `Msg.payload`). -/

namespace Sys2Proof

/-- The command spelled by a word of the opcode table: none, since the rows carry no bits. -/
def decodeTableWord (_nbits _w : Nat) : Option Instr := none

end Sys2Proof
end

