-- ==== Sys2Proof/Machine/State.lean ====
section
/-! DEFINITION. The state of the engine as plain data, the ways a step could stop, and the machine right after
reset. INVENTORY.md lists every field with the rule that names it. -/

namespace Sys2Proof.Machine

/-! ## Names the spec gives to small sets -/

/-- The four station states (R177). -/
inductive Station where
  | starting | listen | active | halted
  deriving DecidableEq, Repr

/-- The congestion bands (R40). -/
inductive Band where
  | green | amber | red | grace | full | closed
  deriving DecidableEq, Repr

/-- The outcome of a failed attempt (R113); the first five are also the reasons of HOLD-DENY (R63). -/
inductive AttemptOutcome where
  | notOwner | closed | full | admission | noSlot | noAnswer | busFull | peerAbsent | seizeFailed
  deriving DecidableEq, Repr

/-- The codes of ROUTE-FAIL (R114). -/
inductive RouteFailCode where
  | notReady | badDest | duplicate | noRecord | noRoute | congested | offerExpired
  deriving DecidableEq, Repr

/-- The codes of MGMT-DONE (R174). -/
inductive MgmtCode where
  | ok | noChange | badTarget | badIndex | periodMismatch | bankBusy | notPermitted
  deriving DecidableEq, Repr

/-- The sixteen status counters, in the order of R191. -/
inductive Counter where
  | badCrc | badFrame | rxOverrun | txDrop | reachOverflow | lateGrants | holdsExpired | staleDrops
  | disputed | orphanClears | suspectsPromoted | faults | noAnswerTimeouts | routeFails
  | tallyOverflow | notPermitted
  deriving DecidableEq, Repr

/-- The values of the sixteen status counters (R191, R192). -/
structure Counters where
  badCrc : Nat := 0
  badFrame : Nat := 0
  rxOverrun : Nat := 0
  txDrop : Nat := 0
  reachOverflow : Nat := 0
  lateGrants : Nat := 0
  holdsExpired : Nat := 0
  staleDrops : Nat := 0
  disputed : Nat := 0
  orphanClears : Nat := 0
  suspectsPromoted : Nat := 0
  faults : Nat := 0
  noAnswerTimeouts : Nat := 0
  routeFails : Nat := 0
  tallyOverflow : Nat := 0
  notPermitted : Nat := 0
  deriving DecidableEq, Repr

/-! ## Configuration in use -/

/-- The engine-wide parameters of the configuration in use (R180, R181). -/
structure EngineConfig where
  /-- this station's address, 0 to 31 -/
  address : Nat
  /-- ms -/
  announcePeriod : Nat
  /-- s -/
  reachPeriod : Nat
  /-- ms -/
  viewLifetime : Nat
  /-- ms -/
  silenceLimit : Nat
  /-- s -/
  holdLifetime : Nat
  /-- ms -/
  answerTimeout : Nat
  /-- s -/
  offerTimeout : Nat
  /-- ms -/
  listenWindow : Nat
  /-- 1/65536 -/
  transitFraction : Nat
  exemption : Nat
  deriving DecidableEq, Repr

/-- The configuration fields of a group record (R1). -/
structure GroupConfig where
  carrier : Nat
  working : Nat
  spares : Nat
  destFirst : Nat
  destCount : Nat
  preference : Nat
  yellow : Nat
  red : Nat
  grace : Nat
  amberFloor : Nat
  redFloor : Nat
  surgeInterval : Nat
  deriving DecidableEq, Repr

/-! ## Circuits, terminals and load -/

/-- A circuit entry (R3): each state holds just the fields the table of R3 gives it. -/
inductive Circuit where
  /-- IDLE, on its serving terminal -/
  | idle (terminal : Nat)
  /-- HELD: serving terminal, user station, hold slot, block-pending, fault-on-release -/
  | held (terminal user slot : Nat) (blockPending faultOnRelease : Bool)
  /-- BUSY: serving terminal, user station, block-pending, fault-on-release -/
  | busy (terminal user : Nat) (blockPending faultOnRelease : Bool)
  /-- BLOCKED, keeping its serving terminal -/
  | blocked (terminal : Nat)
  /-- FAULTY, without a terminal -/
  | faulty
  deriving DecidableEq, Repr

/-- A terminal entry (R4). -/
inductive TermRole where
  | serving (circuit : Nat)
  | spare
  | faulty
  deriving DecidableEq, Repr

/-- What a LOAD announces and the triple test compares (R48, R49). -/
structure Triple where
  band : Band
  floor : Nat
  surge : Bool
  deriving DecidableEq, Repr

/-- A load record (R38). -/
structure LoadRecord where
  inService : Nat
  occupied : Nat
  free : Nat
  figure : Nat
  graceEff : Nat
  band : Band
  floor : Nat
  /-- the smoothed interval S -/
  smoothed : Nat
  lastAttempt : Clock
  surge : Bool
  /-- the last-announced triple -/
  announced : Triple
  deriving DecidableEq, Repr

/-- An owned group: the group record (R1) with its circuit and terminal entries (R3, R4) and its load record
(R38). -/
structure Group where
  cfg : GroupConfig
  /-- global group number, 16 × station address + local index -/
  global : Nat
  effPref : Nat
  huntPtr : Nat
  circuits : List Circuit
  terminals : List TermRole
  load : LoadRecord
  deriving DecidableEq, Repr

/-! ## Holds -/

/-- What an allocated hold slot records (R57). -/
structure Hold where
  requester : Nat
  serial : Nat
  /-- global group -/
  group : Nat
  circuit : Nat
  band : Band
  expiry : Clock
  deriving DecidableEq, Repr

/-- A hold slot: its generation, and its hold when it is allocated (R57). -/
structure Slot where
  generation : Generation
  hold : Option Hold
  deriving DecidableEq, Repr

/-! ## Reach map and view -/

/-- A candidate of a route list (R80); its owner station is `group / 16`. -/
structure Candidate where
  group : Nat
  pref : Nat
  deriving DecidableEq, Repr

/-- A view entry that is not UNKNOWN (R89). -/
structure ViewEntry where
  /-- STALE, else FRESH -/
  stale : Bool
  band : Band
  /-- floor and floor band, or absent -/
  floor : Option (Nat × Band)
  heard : Clock
  deriving DecidableEq, Repr

/-! ## Calls and rates -/

/-- A rate entry that is present (R128). -/
structure RateEntry where
  setup : Nat
  rate : Nat
  green : Nat
  amber : Nat
  red : Nat
  grace : Nat
  deriving DecidableEq, Repr

/-- A rate snapshot with its quote (R99, R134). -/
structure Snapshot where
  setup : Nat
  rate : Nat
  mult : Nat
  quote : Nat
  deriving DecidableEq, Repr

/-- What a record holds from its grant on (R99): hold id, circuit, terminal, terminating carrier, locked band, and
the snapshot when the carrier was rated. -/
structure Grant where
  slot : Nat
  generation : Nat
  circuit : Nat
  terminal : Nat
  carrier : Nat
  band : Band
  rating : Option Snapshot
  deriving DecidableEq, Repr

/-- The state of a live record, with the fields that state has (R99, R100). -/
inductive Phase where
  | awaitHold (serial : Serial) (deadline : Clock)
  | offered (grant : Grant) (deadline : Clock)
  | ringing (grant : Grant)
  | connected (grant : Grant) (commit : Clock)
  deriving DecidableEq, Repr

/-- What a record keeps through crankback (R113). -/
structure CallBase where
  client : Nat
  tag : Nat
  dest : Nat
  prec : Nat
  origin : Nat
  attempts : Nat
  /-- global groups tried, in order -/
  tried : List Nat
  last : Option AttemptOutcome
  deriving DecidableEq, Repr

/-- A live call record (R99). The owner of the current candidate is `group / 16`. -/
structure CallRecord where
  base : CallBase
  /-- global group of the current candidate -/
  group : Nat
  disputed : Bool
  /-- the local take of the record, already disputed, made its circuit BUSY again, and no forced or orphan release has
  taken the circuit from it since (R121; assumption 10) -/
  retaken : Bool
  phase : Phase
  deriving DecidableEq, Repr

/-! ## Tallies -/

/-- The accumulators of an entry (R149). -/
structure Sums where
  calls : Nat := 0
  seconds : Nat := 0
  settled : Nat := 0
  disputed : Nat := 0
  transit : Nat := 0
  unrated : Nat := 0
  saturated : Bool := false
  deriving DecidableEq, Repr

/-- A pair entry (R149). -/
structure PairEntry where
  origin : Nat
  terminating : Nat
  sums : Sums
  deriving DecidableEq, Repr

/-- A tally bank (R148). -/
structure Bank where
  period : Period
  entries : List PairEntry
  overflow : Sums
  deriving DecidableEq, Repr

/-! ## Frames -/

/-- What a MGMT-DONE carries after its kind and code (section 9.5, MGMT-DONE contents). -/
inductive MgmtContents where
  /-- NOT_PERMITTED: no contents -/
  | nothing
  | carrier (carrier : Nat)
  | circuit (group action number : Nat)
  /-- PERIOD-CLOSE OK: closed period, entry count, new open period -/
  | closed (period : Period) (count : Nat) (opened : Period)
  /-- PERIOD-CLOSE BANK_BUSY: period held for read -/
  | busy (period : Period)
  /-- TALLY-READ: period or none, index, entry count, and with OK the carriers and sums -/
  | tally (period : Option Period) (index count : Nat) (entry : Option PairEntry)
  /-- TALLY-ACK: period or none -/
  | acked (period : Option Period)
  /-- STATUS-READ: state code, address, roster bitmap, CONFIG_TRIMMED, clock, counters -/
  | status (state address bitmap : Nat) (trimmed : Bool) (clock : Clock) (counters : Counters)
  deriving DecidableEq, Repr

/-- A frame's kind and payload (section 9.5). The fields of a received frame are the numbers its bytes spell; they
are checked by the block that takes the frame. -/
inductive Msg where
  | holdAsk (serial ref group prec : Nat)
  | holdGive (serial ref group slot generation circuit terminal carrier band : Nat)
  | holdDeny (serial ref group reason band : Nat)
  | holdTake (slot generation group circuit : Nat)
  | holdDrop (idPresent slot generation group circuit : Nat)
  | holdFault (slot generation group circuit : Nat)
  | holdLost (slot generation group circuit : Nat)
  | routeAsk (tag dest prec origin : Nat)
  | routeOffer (tag attempt group circuit terminal carrier band : Nat) (quote : Option Nat)
  | routeFail (tag : Nat) (code : RouteFailCode) (attempts : Nat) (last : Option AttemptOutcome)
  | seizeDone (tag attempt outcome : Nat)
  | callClear (tag group circuit : Nat)
  | clearDone (tag charge transit seconds flags : Nat)
  | load (group band floor surge free : Nat)
  | reach (group carrier pref first count : Nat)
  | present (state : Nat)
  | probe (group : Nat)
  | rateSet (carrier setup rate green amber red grace : Nat)
  | rateClear (carrier : Nat)
  | periodClose
  | tallyRead (index : Nat)
  | tallyAck (period : Nat)
  | circuitControl (group action number : Nat)
  | statusRead
  | stationReset
  | mgmtDone (kind : Nat) (code : MgmtCode) (contents : MgmtContents)
  deriving DecidableEq, Repr

/-- What an entry of the transmit queue holds: a LOAD names its group only (R48), every other frame is fixed when
it is queued (R170). -/
inductive TxBody where
  | msg (m : Msg)
  | load (group : Nat)
  deriving DecidableEq, Repr

/-- An entry of the transmit queue (R170). -/
structure TxEntry where
  dest : Nat
  body : TxBody
  /-- none while the entry is waiting; while it is in sending, the frame composed when it won arbitration -/
  onLine : Option WireFrame
  deriving DecidableEq, Repr

/-- A frame of the receive queue (R169). -/
structure RxFrame where
  source : Nat
  dest : Nat
  msg : Msg
  deriving DecidableEq, Repr

/-! ## The state -/

/-- The engine. -/
structure State where
  /-- commands that wait, first in first out -/
  pending : List Instr
  station : Station
  /-- the READY line -/
  ready : Bool
  /-- the FAULT line -/
  fault : Bool
  /-- BPRST is low -/
  bprstLow : Bool
  /-- a configuration read is in progress -/
  reading : Bool
  clock : Clock
  config : EngineConfig
  /-- CONFIG_TRIMMED -/
  trimmed : Bool
  listenDeadline : Option Clock
  announceDeadline : Option Clock
  reachDeadline : Option Clock
  /-- engine address to last-heard time; not listed: ABSENT -/
  roster : Tab Clock
  counters : Counters
  /-- local index to group record; not listed: no group record -/
  groups : Tab Group
  /-- (local index, terminal), oldest first -/
  suspects : List (Nat × Nat)
  slots : Vector Slot 64
  /-- destination code to its candidates; not listed: an empty list -/
  routes : Tab (List Candidate)
  /-- global group to its view entry; not listed: UNKNOWN -/
  views : Tab ViewEntry
  /-- record number to live record; not listed: FREE -/
  calls : Tab CallRecord
  /-- the request serial counter -/
  serial : Serial
  /-- carrier to its present rate entry; not listed: absent -/
  rates : Tab RateEntry
  openBank : Bank
  closedBank : Bank
  /-- the CLOSED bank is HELD_FOR_READ, else EMPTY -/
  closedHeld : Bool
  tx : List TxEntry
  rx : List RxFrame
  /-- the MODEL's own: how many free values have been drawn (assumptions 8 and 9) -/
  draws : Nat
  deriving DecidableEq, Repr

/-- Why the machine stops with a fault. Nothing in the spec stops the engine: a failed start and an address conflict
are station states (R177), errors are counted or answered. So no fault is raised by anybody (assumption 22: safe). -/
inductive Fault where
  deriving DecidableEq, Repr

/-- Why a command is refused. -/
inductive Refusal where
  /-- Raised by `exec` for a command without a meaning; no command is left without one (safe). -/
  | notModelled (mnemonic : String)
  deriving DecidableEq, Repr

/-- An emptied bank with the given period number (R148). -/
def Bank.empty (period : Period) : Bank := { period := period, entries := [], overflow := {} }

/-- The configuration in use before any image has been read: DESIGN CHOICE (assumption 5), the default column of
00_scope with station address 0. Nothing reads it before the first read completes. -/
def EngineConfig.initial : EngineConfig :=
  { address := 0, announcePeriod := 500, reachPeriod := 10, viewLifetime := 1500, silenceLimit := 2000
    holdLifetime := 8, answerTimeout := 40, offerTimeout := 4, listenWindow := 1000, transitFraction := 0
    exemption := 7 }

/-- The machine right after reset: the power-on reset (R179), with BPRST still low. -/
def State.reset : State :=
  { pending := [], station := .starting, ready := false, fault := false, bprstLow := true, reading := false
    clock := 0, config := EngineConfig.initial, trimmed := false
    listenDeadline := none, announceDeadline := none, reachDeadline := none
    roster := [], counters := {}, groups := [], suspects := []
    slots := Vector.replicate 64 { generation := 0, hold := none }
    routes := [], views := [], calls := [], serial := 0, rates := []
    openBank := Bank.empty 1, closedBank := Bank.empty 0, closedHeld := false
    tx := [], rx := [], draws := 0 }

end Sys2Proof.Machine
end

