-- ==== Sys2Proof/Machine/Table.lean ====
section
/-! DEFINITION. Sparse tables, modulo arithmetic of the station clock, and the evaluation helper of the folds. -/

namespace Sys2Proof

/-- The value of a key, if the key is listed. -/
def Tab.find {α : Type} : Tab α → Nat → Option α
  | [], _ => none
  | (j, v) :: t, k => if j = k then some v else Tab.find t k

/-- Write a key. -/
def Tab.put {α : Type} : Tab α → Nat → α → Tab α
  | [], k, v => [(k, v)]
  | (j, w) :: t, k, v =>
    if k < j then (k, v) :: (j, w) :: t
    else if j = k then (k, v) :: t
    else (j, w) :: Tab.put t k v

/-- Take a key out. -/
def Tab.del {α : Type} (t : Tab α) (k : Nat) : Tab α := t.filter fun p => p.1 ≠ k

/-- The canonical form of a table: the keys strictly rise. -/
abbrev Tab.wf {α : Type} (t : Tab α) : Prop := t.Pairwise fun p q => p.1 < q.1

namespace Machine

/-- A deadline is reached when now − deadline, modulo 2^32, is below 2^31 (00_scope, Station clock and
deadlines). -/
def reached (now deadline : Clock) : Bool := decide ((now - deadline).toNat < 2 ^ 31)

/-- The age now − time, modulo 2^32, exceeds a limit (00_scope, Station clock and deadlines). -/
def ageExceeds (now time : Clock) (limit : Nat) : Bool := decide (limit < (now - time).toNat)

/-- A clock value some milliseconds later. -/
def after (now : Clock) (ms : Nat) : Clock := now + BitVec.ofNat 32 ms

/-- `k n`, with `n` evaluated first: it keeps the kernel's evaluation of long folds shallow (`force_eq`). -/
def force {α : Type} (n : Nat) (k : Nat → α) : α :=
  match n with
  | 0 => k 0
  | m + 1 => k (m + 1)

/-- Insert into a list sorted by a rank. -/
def insertRank {α : Type} (rank : α → Nat) (c : α) : List α → List α
  | [] => [c]
  | d :: ds => if rank c < rank d then c :: d :: ds else d :: insertRank rank c ds

/-- A list in the order of a rank. -/
def sortRank {α : Type} (rank : α → Nat) : List α → List α
  | [] => []
  | c :: cs => insertRank rank c (sortRank rank cs)

end Machine
end Sys2Proof
end

