-- ==== Sys2Proof/Machine/Operands.lean ====
section
/-! DEFINITION. The layouts of section 9.5: bytes, CRC, kinds, classes, payloads of frames both ways, and the decoding
of the configuration image with its defaults and clamps. -/

namespace Sys2Proof.Machine

/-! ## Bytes and CRC (R162) -/

/-- A number as `width` bytes, most significant byte first (section 9.5). -/
def toBytes : Nat → Nat → List Byte
  | 0, _ => []
  | w + 1, n => BitVec.ofNat 8 (n / 256 ^ w) :: toBytes w n

/-- The number bytes spell, most significant byte first. -/
def fromBytes (bs : List Byte) : Nat := bs.foldl (fun a b => a * 256 + b.toNat) 0

/-- A number as bits, most significant first. -/
def bitsOf (width n : Nat) : List Bool := (List.range width).map fun i => n.testBit (width - 1 - i)

/-- One bit into the CRC register: x^16 + x^12 + x^5 + 1. -/
def crcStep (r : Nat) (bit : Bool) : Nat :=
  if decide (32768 ≤ r) != bit then ((r * 2) % 65536) ^^^ 0x1021 else (r * 2) % 65536

/-- Bits into the CRC register. -/
def crcBits (bits : List Bool) (r : Nat) : Nat := bits.foldl crcStep r

/-- Bytes into the CRC register. -/
def crcBytes : List Byte → Nat → Nat
  | [], r => r
  | b :: bs, r => force (crcBits (bitsOf 8 b.toNat) r) (crcBytes bs)

/-- The CRC of a frame, over the arbitration field, destination, kind, length and payload; the register starts at
all ones and is sent without inversion. -/
def frameCrc (w : WireFrame) : Nat :=
  crcBytes w.payload (crcBits (bitsOf 8 w.arb.toNat ++ bitsOf 6 w.dest.toNat ++ bitsOf 6 w.kind.toNat ++
    bitsOf 6 w.length.toNat) 0xFFFF)

/-! ## Codes (section 9.5, Codes) -/

def Band.code : Band → Nat
  | .green => 0 | .amber => 1 | .red => 2 | .grace => 3 | .full => 4 | .closed => 5

def bandOfCode : Nat → Option Band
  | 0 => some .green | 1 => some .amber | 2 => some .red | 3 => some .grace
  | 4 => some .full | 5 => some .closed | _ => none

/-- Last outcome codes; those of NOT_OWNER to NO_SLOT are also the HOLD-DENY reasons. -/
def AttemptOutcome.code : AttemptOutcome → Nat
  | .notOwner => 1 | .closed => 2 | .full => 3 | .admission => 4 | .noSlot => 5
  | .noAnswer => 6 | .busFull => 7 | .peerAbsent => 8 | .seizeFailed => 9

/-- The reason a HOLD-DENY carries. -/
def denyReasonOfCode : Nat → Option AttemptOutcome
  | 1 => some .notOwner | 2 => some .closed | 3 => some .full | 4 => some .admission | 5 => some .noSlot
  | _ => none

/-- The last outcome byte: NONE is 0. -/
def lastCode : Option AttemptOutcome → Nat
  | none => 0
  | some o => o.code

def RouteFailCode.code : RouteFailCode → Nat
  | .notReady => 1 | .badDest => 2 | .duplicate => 3 | .noRecord => 4 | .noRoute => 5 | .congested => 6
  | .offerExpired => 7

def MgmtCode.code : MgmtCode → Nat
  | .ok => 0 | .noChange => 1 | .badTarget => 2 | .badIndex => 3 | .periodMismatch => 4 | .bankBusy => 5
  | .notPermitted => 6

/-- The state byte of PRESENT and STATUS-READ: 1 LISTEN, 2 ACTIVE. The other states send nothing. -/
def Station.code : Station → Nat
  | .listen => 1 | .active => 2 | .starting => 0 | .halted => 0

/-- A flag byte. -/
def flagByte (b : Bool) : Nat := if b then 1 else 0

/-! ## Kinds and classes (R163, section 9.5) -/

/-- The kind number of a frame. -/
def Msg.kind : Msg → Nat
  | .holdAsk .. => 1 | .holdGive .. => 2 | .holdDeny .. => 3 | .holdTake .. => 4 | .holdDrop .. => 5
  | .holdFault .. => 6 | .holdLost .. => 7
  | .routeAsk .. => 16 | .routeOffer .. => 17 | .routeFail .. => 18 | .seizeDone .. => 19 | .callClear .. => 20
  | .clearDone .. => 21
  | .load .. => 32 | .reach .. => 33 | .present .. => 34 | .probe .. => 35
  | .rateSet .. => 48 | .rateClear .. => 49 | .periodClose => 50 | .tallyRead .. => 51 | .tallyAck .. => 52
  | .circuitControl .. => 53 | .statusRead => 54 | .stationReset => 55 | .mgmtDone .. => 56

/-- The class of a kind: URGENT 0, CALL 1, ANNOUNCE 2, BULK 3. -/
def classOfKind (kind : Nat) : Nat :=
  if kind < 16 then 0 else if kind < 32 then 1 else if kind < 48 then 2 else 3

/-- The class of a frame (R163). -/
def Msg.cls (m : Msg) : Nat := classOfKind m.kind

/-- The class of a transmit entry: a LOAD is ANNOUNCE (R48). -/
def TxBody.cls : TxBody → Nat
  | .msg m => m.cls
  | .load _ => 2

/-! ## Payloads (section 9.5) -/

/-- The counters in the order of R191. -/
def Counters.toList (c : Counters) : List Nat :=
  [c.badCrc, c.badFrame, c.rxOverrun, c.txDrop, c.reachOverflow, c.lateGrants, c.holdsExpired, c.staleDrops,
   c.disputed, c.orphanClears, c.suspectsPromoted, c.faults, c.noAnswerTimeouts, c.routeFails, c.tallyOverflow,
   c.notPermitted]

/-- A period field with its present byte: where it is absent the period bytes are 0. -/
def periodBytes : Option Period → List Byte
  | none => toBytes 1 0 ++ toBytes 2 0
  | some p => toBytes 1 1 ++ toBytes 2 p.toNat

/-- An entry in a TALLY-READ answer. Calls of 2^32 or more (the overflow entry's) are carried as FFFFFFFFH with the
saturated byte 1. -/
def entryBytes (e : PairEntry) : List Byte :=
  toBytes 1 e.origin ++ toBytes 1 e.terminating ++
  toBytes 4 (if e.sums.calls < 2 ^ 32 then e.sums.calls else 0xFFFFFFFF) ++
  toBytes 6 e.sums.seconds ++ toBytes 6 e.sums.settled ++ toBytes 6 e.sums.disputed ++ toBytes 6 e.sums.transit ++
  toBytes 4 e.sums.unrated ++ toBytes 1 (flagByte (e.sums.saturated || decide (2 ^ 32 ≤ e.sums.calls)))

/-- The contents of a MGMT-DONE. -/
def MgmtContents.bytes : MgmtContents → List Byte
  | .nothing => []
  | .carrier c => toBytes 1 c
  | .circuit g a n => toBytes 2 g ++ toBytes 1 a ++ toBytes 1 n
  | .closed p count p' => toBytes 2 p.toNat ++ toBytes 1 count ++ toBytes 2 p'.toNat
  | .busy p => toBytes 2 p.toNat
  | .tally p i count e =>
    periodBytes p ++ toBytes 1 i ++ toBytes 1 count ++ (match e with | none => [] | some e => entryBytes e)
  | .acked p => periodBytes p
  | .status st a roster trimmed clock counters =>
    toBytes 1 st ++ toBytes 1 a ++ toBytes 4 roster ++ toBytes 1 (flagByte trimmed) ++ toBytes 4 clock.toNat ++
    counters.toList.flatMap (toBytes 2)

/-- A hold id, group and circuit as HOLD-TAKE, HOLD-FAULT and HOLD-LOST lay them out. -/
def holdBytes (slot generation group circuit : Nat) : List Byte :=
  toBytes 1 slot ++ toBytes 1 generation ++ toBytes 2 group ++ toBytes 1 circuit

/-- The quote bytes of a ROUTE-OFFER, with their present byte. -/
def quoteBytes : Option Nat → List Byte
  | none => toBytes 1 0 ++ toBytes 4 0
  | some q => toBytes 1 1 ++ toBytes 4 q

/-- The payload of a frame. -/
def Msg.payload : Msg → List Byte
  | .holdAsk serial ref g p => toBytes 2 serial ++ toBytes 2 ref ++ toBytes 2 g ++ toBytes 1 p
  | .holdGive serial ref g slot gen c t carrier band =>
    toBytes 2 serial ++ toBytes 2 ref ++ toBytes 2 g ++ toBytes 1 slot ++ toBytes 1 gen ++ toBytes 1 c ++
    toBytes 1 t ++ toBytes 1 carrier ++ toBytes 1 band
  | .holdDeny serial ref g reason band =>
    toBytes 2 serial ++ toBytes 2 ref ++ toBytes 2 g ++ toBytes 1 reason ++ toBytes 1 band
  | .holdTake slot gen g c => holdBytes slot gen g c
  | .holdDrop idp slot gen g c =>
    toBytes 1 idp ++ toBytes 1 slot ++ toBytes 1 gen ++ toBytes 2 g ++ toBytes 1 c
  | .holdFault slot gen g c => holdBytes slot gen g c
  | .holdLost slot gen g c => holdBytes slot gen g c
  | .routeAsk tag dest p origin => toBytes 2 tag ++ toBytes 2 dest ++ toBytes 1 p ++ toBytes 1 origin
  | .routeOffer tag attempt g c t carrier band quote =>
    toBytes 2 tag ++ toBytes 1 attempt ++ toBytes 2 g ++ toBytes 1 c ++ toBytes 1 t ++ toBytes 1 carrier ++
    toBytes 1 band ++ quoteBytes quote
  | .routeFail tag code attempts last =>
    toBytes 2 tag ++ toBytes 1 code.code ++ toBytes 1 attempts ++ toBytes 1 (lastCode last)
  | .seizeDone tag attempt outcome => toBytes 2 tag ++ toBytes 1 attempt ++ toBytes 1 outcome
  | .callClear tag g c => toBytes 2 tag ++ toBytes 2 g ++ toBytes 1 c
  | .clearDone tag charge transit d flags =>
    toBytes 2 tag ++ toBytes 4 charge ++ toBytes 4 transit ++ toBytes 2 d ++ toBytes 1 flags
  | .load g band floor surge free =>
    toBytes 2 g ++ toBytes 1 band ++ toBytes 1 floor ++ toBytes 1 surge ++ toBytes 1 free
  | .reach g carrier pref first count =>
    toBytes 2 g ++ toBytes 1 carrier ++ toBytes 1 pref ++ toBytes 2 first ++ toBytes 1 count
  | .present st => toBytes 1 st
  | .probe g => toBytes 2 g
  | .rateSet carrier a r m0 m1 m2 m3 =>
    toBytes 1 carrier ++ toBytes 2 a ++ toBytes 2 r ++ toBytes 2 m0 ++ toBytes 2 m1 ++ toBytes 2 m2 ++ toBytes 2 m3
  | .rateClear carrier => toBytes 1 carrier
  | .periodClose => []
  | .tallyRead index => toBytes 1 index
  | .tallyAck period => toBytes 2 period
  | .circuitControl g action number => toBytes 2 g ++ toBytes 1 action ++ toBytes 1 number
  | .statusRead => []
  | .stationReset => []
  | .mgmtDone kind code contents => toBytes 1 kind ++ toBytes 1 code.code ++ contents.bytes

/-- Read one big-endian field of `width` bytes at `offset`. -/
def field (payload : List Byte) (offset width : Nat) : Nat := fromBytes ((payload.drop offset).take width)

/-- A received payload as the fields of its kind: none when an engine does not take the kind, or when the length is
not the payload length of the kind (R166, check 2). -/
def parseMsg (kind : Nat) (p : List Byte) : Option Msg :=
  match kind, p.length with
  | 1, 7 => some (.holdAsk (field p 0 2) (field p 2 2) (field p 4 2) (field p 6 1))
  | 2, 12 => some (.holdGive (field p 0 2) (field p 2 2) (field p 4 2) (field p 6 1) (field p 7 1) (field p 8 1)
      (field p 9 1) (field p 10 1) (field p 11 1))
  | 3, 8 => some (.holdDeny (field p 0 2) (field p 2 2) (field p 4 2) (field p 6 1) (field p 7 1))
  | 4, 5 => some (.holdTake (field p 0 1) (field p 1 1) (field p 2 2) (field p 4 1))
  | 5, 6 => some (.holdDrop (field p 0 1) (field p 1 1) (field p 2 1) (field p 3 2) (field p 5 1))
  | 6, 5 => some (.holdFault (field p 0 1) (field p 1 1) (field p 2 2) (field p 4 1))
  | 7, 5 => some (.holdLost (field p 0 1) (field p 1 1) (field p 2 2) (field p 4 1))
  | 16, 6 => some (.routeAsk (field p 0 2) (field p 2 2) (field p 4 1) (field p 5 1))
  | 19, 4 => some (.seizeDone (field p 0 2) (field p 2 1) (field p 3 1))
  | 20, 5 => some (.callClear (field p 0 2) (field p 2 2) (field p 4 1))
  | 32, 6 => some (.load (field p 0 2) (field p 2 1) (field p 3 1) (field p 4 1) (field p 5 1))
  | 33, 7 => some (.reach (field p 0 2) (field p 2 1) (field p 3 1) (field p 4 2) (field p 6 1))
  | 34, 1 => some (.present (field p 0 1))
  | 35, 2 => some (.probe (field p 0 2))
  | 48, 13 => some (.rateSet (field p 0 1) (field p 1 2) (field p 3 2) (field p 5 2) (field p 7 2) (field p 9 2)
      (field p 11 2))
  | 49, 1 => some (.rateClear (field p 0 1))
  | 50, 0 => some .periodClose
  | 51, 1 => some (.tallyRead (field p 0 1))
  | 52, 2 => some (.tallyAck (field p 0 2))
  | 53, 4 => some (.circuitControl (field p 0 2) (field p 2 1) (field p 3 1))
  | 54, 0 => some .statusRead
  | 55, 0 => some .stationReset
  | _, _ => none

/-- Every field of a frame fits the width section 9.5 gives it, and the frame is of a kind an engine takes. -/
def Msg.fits : Msg → Bool
  | .holdAsk serial ref g p => decide (serial < 65536 ∧ ref < 65536 ∧ g < 65536 ∧ p < 256)
  | .holdGive serial ref g slot gen c t carrier band =>
    decide (serial < 65536 ∧ ref < 65536 ∧ g < 65536 ∧ slot < 256 ∧ gen < 256 ∧ c < 256 ∧ t < 256 ∧ carrier < 256 ∧
      band < 256)
  | .holdDeny serial ref g reason band =>
    decide (serial < 65536 ∧ ref < 65536 ∧ g < 65536 ∧ reason < 256 ∧ band < 256)
  | .holdTake slot gen g c => decide (slot < 256 ∧ gen < 256 ∧ g < 65536 ∧ c < 256)
  | .holdDrop idp slot gen g c => decide (idp < 256 ∧ slot < 256 ∧ gen < 256 ∧ g < 65536 ∧ c < 256)
  | .holdFault slot gen g c => decide (slot < 256 ∧ gen < 256 ∧ g < 65536 ∧ c < 256)
  | .holdLost slot gen g c => decide (slot < 256 ∧ gen < 256 ∧ g < 65536 ∧ c < 256)
  | .routeAsk tag dest p origin => decide (tag < 65536 ∧ dest < 65536 ∧ p < 256 ∧ origin < 256)
  | .seizeDone tag attempt outcome => decide (tag < 65536 ∧ attempt < 256 ∧ outcome < 256)
  | .callClear tag g c => decide (tag < 65536 ∧ g < 65536 ∧ c < 256)
  | .load g band floor surge free => decide (g < 65536 ∧ band < 256 ∧ floor < 256 ∧ surge < 256 ∧ free < 256)
  | .reach g carrier pref first count =>
    decide (g < 65536 ∧ carrier < 256 ∧ pref < 256 ∧ first < 65536 ∧ count < 256)
  | .present st => decide (st < 256)
  | .probe g => decide (g < 65536)
  | .rateSet carrier a r m0 m1 m2 m3 =>
    decide (carrier < 256 ∧ a < 65536 ∧ r < 65536 ∧ m0 < 65536 ∧ m1 < 65536 ∧ m2 < 65536 ∧ m3 < 65536)
  | .rateClear carrier => decide (carrier < 256)
  | .tallyRead index => decide (index < 256)
  | .tallyAck period => decide (period < 65536)
  | .circuitControl g action number => decide (g < 65536 ∧ action < 256 ∧ number < 256)
  | .periodClose | .statusRead | .stationReset => true
  | .routeOffer .. | .routeFail .. | .clearDone .. | .mgmtDone .. => false

/-- The frame on the line (R162): class and source, destination, kind, length, payload, CRC. -/
def wireFrame (source dest : Nat) (m : Msg) : WireFrame :=
  let w : WireFrame :=
    { arb := BitVec.ofNat 8 (m.cls * 64 + source), dest := BitVec.ofNat 6 dest, kind := BitVec.ofNat 6 m.kind
      length := BitVec.ofNat 6 m.payload.length, payload := m.payload, crc := 0 }
  { w with crc := BitVec.ofNat 16 (frameCrc w) }

/-- A CIRCUIT-CONTROL action the spec names (section 9.5). -/
def knownAction (action : Nat) : Bool := decide (1 ≤ action ∧ action ≤ 4)

/-- A SEIZE-DONE outcome the spec names (section 9.5). -/
def knownOutcome (outcome : Nat) : Bool := decide (1 ≤ outcome ∧ outcome ≤ 4)

/-! ## The configuration image (section 9.5, R175, R180, R181) -/

/-- A value set to the nearest end of its range (R181). -/
def clamp (low high v : Nat) : Nat := max low (min v high)

/-- A field with a default: all bytes FFH stand for the default (R175). -/
def fieldOr (image : List Byte) (offset width default : Nat) : Nat :=
  let v := field image offset width
  if v = 256 ^ width - 1 then default else v

/-- The image is whole and its CRC is good (R175, R180 step 2). -/
def imageGood (image : List Byte) : Bool :=
  decide (image.length = imageLength) && decide (crcBytes (image.take 288) 0xFFFF = field image 288 2)

/-- The engine-wide parameters of the image, with defaults and clamps (R175, R181). The address is checked before
(R180 step 3). -/
def decodeEngine (image : List Byte) : EngineConfig :=
  let hold := clamp 1 60 (fieldOr image 8 1 8)
  { address := field image 0 1
    announcePeriod := clamp 100 5000 (fieldOr image 1 2 500)
    reachPeriod := clamp 1 60 (fieldOr image 3 1 10)
    viewLifetime := clamp 300 20000 (fieldOr image 4 2 1500)
    silenceLimit := clamp 300 20000 (fieldOr image 6 2 2000)
    holdLifetime := hold
    answerTimeout := clamp 5 250 (fieldOr image 9 1 40)
    offerTimeout := min (clamp 1 60 (fieldOr image 10 1 4)) hold
    listenWindow := clamp 100 5000 (fieldOr image 11 2 1000)
    transitFraction := field image 13 2
    exemption := clamp 0 8 (fieldOr image 15 1 7) }

/-- The group slot of a local index, if its present byte is 1, with defaults and clamps (R175, R181). -/
def decodeGroup (image : List Byte) (li : Nat) : Option GroupConfig :=
  let o := 16 + 17 * li
  let first := clamp 0 1023 (field image (o + 4) 2)
  let yellow := clamp 0 256 (fieldOr image (o + 8) 2 192)
  let amberFloor := clamp 0 7 (fieldOr image (o + 13) 1 0)
  if field image o 1 = 1 then
    some
      { carrier := clamp 0 63 (field image (o + 1) 1)
        working := clamp 1 240 (field image (o + 2) 1)
        spares := clamp 0 15 (field image (o + 3) 1)
        destFirst := first
        destCount := min (clamp 1 32 (field image (o + 6) 1)) (1024 - first)
        preference := clamp 0 14 (field image (o + 7) 1)
        yellow := yellow
        red := max yellow (clamp 0 256 (fieldOr image (o + 10) 2 230))
        grace := clamp 0 15 (fieldOr image (o + 12) 1 2)
        amberFloor := amberFloor
        redFloor := max amberFloor (clamp 0 7 (fieldOr image (o + 14) 1 3))
        surgeInterval := field image (o + 15) 2 }
  else none

/-- The present group slots, in order of local index (R182). -/
def presentGroups (image : List Byte) : Tab GroupConfig :=
  (List.range 16).filterMap fun li => (decodeGroup image li).map fun g => (li, g)

/-- The terminal budget check (R182): the groups configured, and whether some group was left out. The first group
that would pass the budget, and every group after it, is left unconfigured. -/
def withinBudget : Nat → Tab GroupConfig → Tab GroupConfig × Bool
  | _, [] => ([], false)
  | used, (li, g) :: rest =>
    if used + g.working + g.spares ≤ Config.terminalBudget then
      let r := withinBudget (used + g.working + g.spares) rest
      ((li, g) :: r.1, r.2)
    else ([], true)

end Sys2Proof.Machine
end

