-- ==== Sys2Proof/Machine/Flags.lean ====
section
/-! DEFINITION. What is computed from a group's entries and from a call: counts, load figure, band, floor, surge
estimator, demotion; the rating pipeline; the flags of CLEAR-DONE. -/

namespace Sys2Proof.Machine

/-! ## Counts (R5) -/

def Circuit.isIdle : Circuit → Bool | .idle _ => true | _ => false
def Circuit.isHeld : Circuit → Bool | .held .. => true | _ => false
def Circuit.isBusy : Circuit → Bool | .busy .. => true | _ => false
def Circuit.isBlocked : Circuit → Bool | .blocked _ => true | _ => false
def Circuit.isFaulty : Circuit → Bool | .faulty => true | _ => false

/-- HELD or BUSY. -/
def Circuit.inUse (c : Circuit) : Bool := c.isHeld || c.isBusy

/-- The serving terminal (R3): absent when FAULTY. -/
def Circuit.terminal : Circuit → Option Nat
  | .idle t => some t
  | .held t _ _ _ _ => some t
  | .busy t _ _ _ => some t
  | .blocked t => some t
  | .faulty => none

/-- The user station (R3): present while HELD and BUSY. -/
def Circuit.user : Circuit → Option Nat
  | .held _ u _ _ _ => some u
  | .busy _ u _ _ => some u
  | _ => none

/-- The in-service count n = working − (FAULTY + BLOCKED) (R5). -/
def Group.inService (g : Group) : Nat :=
  g.cfg.working - (g.circuits.countP (·.isFaulty) + g.circuits.countP (·.isBlocked))

/-- The occupied count o = HELD + BUSY (R5). -/
def Group.occupied (g : Group) : Nat := g.circuits.countP (·.isHeld) + g.circuits.countP (·.isBusy)

/-! ## Load figure, band and floor (R39 to R42) -/

/-- L = floor(256 o / n), 256 when n = 0 (R39). -/
def loadFigure (n o : Nat) : Nat := if n = 0 then 256 else 256 * o / n

/-- Geff = min(grace reserve, n − 1), 0 when n = 0 (R39). -/
def graceEffective (reserve n : Nat) : Nat := if n = 0 then 0 else min reserve (n - 1)

/-- The base band: the first condition of R40 that holds. -/
def baseBand (n f geff figure yellow red : Nat) : Band :=
  if n = 0 then .closed
  else if f = 0 then .full
  else if f ≤ geff then .grace
  else if red ≤ figure then .red
  else if yellow ≤ figure then .amber
  else .green

/-- One step up while in surge: GREEN and AMBER only (R41). -/
def raiseBand (surge : Bool) (b : Band) : Band :=
  match surge, b with
  | true, .green => .amber
  | true, .amber => .red
  | _, b => b

/-- The admission floor of a band (R42). -/
def floorOf (cfg : GroupConfig) : Band → Nat
  | .green => 0
  | .amber => cfg.amberFloor
  | .red => cfg.redFloor
  | .grace => 7
  | .full => 8
  | .closed => 8

/-- The triple of a load record (R49). -/
def LoadRecord.triple (l : LoadRecord) : Triple := { band := l.band, floor := l.floor, surge := l.surge }

/-- The recomputation of a group's load record from its circuit entries and surge flag (R39). -/
def Group.recomputed (g : Group) : Group :=
  let n := g.inService
  let o := g.occupied
  let f := n - o
  let figure := loadFigure n o
  let geff := graceEffective g.cfg.grace n
  let band := raiseBand g.load.surge (baseBand n f geff figure g.cfg.yellow g.cfg.red)
  { g with load := { g.load with
      inService := n, occupied := o, free := f, figure := figure, graceEff := geff, band := band
      floor := floorOf g.cfg band } }

/-! ## Surge estimator (R45, R46) -/

/-- S after an attempt whose interval, limited to 65535, is x (R45 steps 2 and 3). -/
def smooth (s x : Nat) : Nat := if s ≤ x then s + (x - s) / 8 else s - (s - x + 7) / 8

/-- The interval of an attempt (R45 step 1). -/
def attemptInterval (now last : Clock) : Nat := min (now - last).toNat 65535

/-- The surge flag (R46). -/
def surgeFlag (interval s : Nat) : Bool := decide (0 < interval ∧ s < interval)

/-- The estimator after an attempt at clock value now (R45, R46). -/
def Group.attempted (g : Group) (now : Clock) : Group :=
  let s := smooth g.load.smoothed (attemptInterval now g.load.lastAttempt)
  { g with load := { g.load with
      smoothed := s, lastAttempt := now, surge := surgeFlag g.cfg.surgeInterval s } }

/-! ## Demotion (R2, R35) -/

def TermRole.isSpare : TermRole → Bool | .spare => true | _ => false
def TermRole.isFaulty : TermRole → Bool | .faulty => true | _ => false

/-- A group is demoted while it has no SPARE terminal and one or more FAULTY terminals (R35). -/
def demoted (terminals : List TermRole) : Bool := !terminals.any (·.isSpare) && terminals.any (·.isFaulty)

/-- The effective preference (R2). -/
def effectivePref (preference : Nat) (isDemoted : Bool) : Nat :=
  if isDemoted then min 15 (preference + 1) else preference

/-- The lowest-numbered SPARE terminal (R32). -/
def lowestSpare (terminals : List TermRole) : Option Nat := terminals.findIdx? (·.isSpare)

/-- The lowest-numbered FAULTY circuit (R34). -/
def lowestFaulty (circuits : List Circuit) : Option Nat := circuits.findIdx? (·.isFaulty)

/-! ## Rating (R135, R139 to R145) -/

/-- The band whose multiplier prices the handover (R135). -/
def pricingBand (exemption prec : Nat) (locked : Band) : Band := if exemption ≤ prec then .green else locked

/-- The entry's multiplier for a pricing band (R128). FULL and CLOSED have none: no record locks them (R110). -/
def RateEntry.mult (e : RateEntry) : Band → Nat
  | .green => e.green
  | .amber => e.amber
  | .red => e.red
  | .grace => e.grace
  | .full => e.grace
  | .closed => e.grace

/-- Stage 1, seconds begun, at most 65535 (R139). -/
def ratedSeconds (commit now : Clock) : Nat := min (((now - commit).toNat + 999) / 1000) 65535

/-- Stage 2, U (R140). -/
def usage (d r : Nat) : Nat := (d * r + 128) / 256

/-- Stages 3 and 4, C from B = A + U (R141). -/
def charge (setup u mult : Nat) : Nat := ((setup + u) * mult + 2048) / 4096

/-- Stage 5, T (R142). -/
def transit (c fraction : Nat) : Nat := (c * fraction + 32768) / 65536

/-- C of a snapshot's rates for d seconds. -/
def chargeOf (setup rate mult d : Nat) : Nat := charge setup (usage d rate) mult

/-- C + T for 60 seconds (R145). -/
def quoteOf (setup rate mult fraction : Nat) : Nat :=
  chargeOf setup rate mult 60 + transit (chargeOf setup rate mult 60) fraction

/-! ## CLEAR-DONE flags (section 9.5) -/

/-- unrated 1, disputed 2, unanswered 4, orphan 8, summed. -/
def clearFlags (unrated disputed unanswered orphan : Bool) : Nat :=
  flagByte unrated + 2 * flagByte disputed + 4 * flagByte unanswered + 8 * flagByte orphan

end Sys2Proof.Machine
end

