-- ==== Sys2Proof/Machine/Ops.lean ====
section
/-! DEFINITION. The named operations shared by the commands: counters, station state, the transmit queue, the circuit
and load units, the fault unit, and the hold table. -/

namespace Sys2Proof.Machine

/-! ## Station control's own: counters and lines -/

/-- One more, stopping at 65535 (R192). -/
def satSucc (n : Nat) : Nat := min (n + 1) Config.counterMax

/-- A counter rises by one (R192). -/
def Counters.bump (c : Counters) : Counter → Counters
  | .badCrc => { c with badCrc := satSucc c.badCrc }
  | .badFrame => { c with badFrame := satSucc c.badFrame }
  | .rxOverrun => { c with rxOverrun := satSucc c.rxOverrun }
  | .txDrop => { c with txDrop := satSucc c.txDrop }
  | .reachOverflow => { c with reachOverflow := satSucc c.reachOverflow }
  | .lateGrants => { c with lateGrants := satSucc c.lateGrants }
  | .holdsExpired => { c with holdsExpired := satSucc c.holdsExpired }
  | .staleDrops => { c with staleDrops := satSucc c.staleDrops }
  | .disputed => { c with disputed := satSucc c.disputed }
  | .orphanClears => { c with orphanClears := satSucc c.orphanClears }
  | .suspectsPromoted => { c with suspectsPromoted := satSucc c.suspectsPromoted }
  | .faults => { c with faults := satSucc c.faults }
  | .noAnswerTimeouts => { c with noAnswerTimeouts := satSucc c.noAnswerTimeouts }
  | .routeFails => { c with routeFails := satSucc c.routeFails }
  | .tallyOverflow => { c with tallyOverflow := satSucc c.tallyOverflow }
  | .notPermitted => { c with notPermitted := satSucc c.notPermitted }

def State.bump (s : State) (k : Counter) : State := { s with counters := s.counters.bump k }

/-- The station state changes, and the two lines with it in the same step (R177). -/
def State.setStation (s : State) (st : Station) : State :=
  { s with station := st, ready := decide (st = .active), fault := decide (st = .halted) }

/-- LISTEN or ACTIVE: the station takes and sends frames (R172). -/
def State.running (s : State) : Bool := decide (s.station = .listen ∨ s.station = .active)

/-- This station's address. -/
def State.address (s : State) : Nat := s.config.address

/-! ## The transmit queue (R170) -/

/-- A block offers a frame: accepted as the newest entry, or refused and counted "tx drop". In STARTING and HALTED the
queue takes no offer and nothing is counted (R172). -/
def State.offer (s : State) (dest : Nat) (m : Msg) : State × Bool :=
  if s.running then
    if s.tx.length < Config.txCapacity then
      ({ s with tx := s.tx ++ [{ dest := dest, body := .msg m, onLine := none }] }, true)
    else (s.bump .txDrop, false)
  else (s, false)

/-- An offer whose refusal the offering block does not act on. -/
def State.send (s : State) (dest : Nat) (m : Msg) : State := (s.offer dest m).1

/-- The entry is a waiting LOAD for the group; one in sending is not (R170). -/
def TxEntry.waitingLoad (group : Nat) (e : TxEntry) : Bool := e.onLine.isNone && decide (e.body = .load group)

/-- A LOAD is offered for a global group: coalesced with a waiting one, accepted, or refused (R50, R170). -/
def State.offerLoad (s : State) (group : Nat) : State :=
  if s.running then
    if s.tx.any (·.waitingLoad group) then s
    else if s.tx.length < Config.txCapacity then
      { s with tx := s.tx ++ [{ dest := Config.broadcast, body := .load group, onLine := none }] }
    else s.bump .txDrop
  else s

/-! ## The receive queue (R169) -/

/-- The owning block takes the oldest frame of the receive queue: `act` says, for a frame of the command's kind, what
the block does with it once it has left the queue. A frame of another kind is not this command's to take, and an
empty queue has none: nothing happens (assumption 3). Outside LISTEN and ACTIVE the block discards the frame. -/
def State.takeFrame (s : State) (act : RxFrame → Option (State → State)) : State :=
  match s.rx with
  | [] => s
  | f :: rest =>
    match act f with
    | none => s
    | some k =>
      let s : State := { s with rx := rest }
      if s.running then k s else s

/-! ## Own groups -/

def State.setGroup (s : State) (li : Nat) (g : Group) : State := { s with groups := Tab.put s.groups li g }

/-- The local index and record of a global group owned here (R1): the owner is group div 16, the local index group
mod 16, and a local index without a record names no group here. -/
def State.ownGroup (s : State) (group : Nat) : Option (Nat × Group) :=
  if group / 16 = s.address then (Tab.find s.groups (group % 16)).map fun g => (group % 16, g) else none

/-- The entry of a circuit named by global group and number, when there is such a circuit here (R64). -/
def State.ownCircuit (s : State) (group circuit : Nat) : Option (Nat × Group × Circuit) :=
  match s.ownGroup group with
  | none => none
  | some (li, g) => if circuit < g.cfg.working then (g.circuits[circuit]?).map fun x => (li, g, x) else none

/-- A group record is written with circuit entries or estimator changed: its counts are handed to the load unit, the
load record is recomputed (R5, R39), and the triple test follows (R49). The test is made while LISTEN or ACTIVE
(R55), which is when the transmit queue takes offers. -/
def State.handGroup (s : State) (li : Nat) (g : Group) : State :=
  let s := s.setGroup li g.recomputed
  if g.recomputed.load.triple ≠ g.recomputed.load.announced then s.offerLoad g.global else s

/-! ## The reach map's own lists (R80 to R83) -/

/-- The order of a route list: effective preference, then global group (R80). -/
def Candidate.before (a b : Candidate) : Bool := decide (a.pref < b.pref ∨ (a.pref = b.pref ∧ a.group < b.group))

/-- Insert by the ordering of R80. -/
def insertCandidate (c : Candidate) : List Candidate → List Candidate
  | [] => [c]
  | d :: ds => if c.before d then c :: d :: ds else d :: insertCandidate c ds

/-- A candidate is rewritten, inserted, or compared with the last of a full list (R81 step 1, R82): the list, and
whether the insertion met 6 candidates. -/
def enterCandidate (c : Candidate) (l : List Candidate) : List Candidate × Bool :=
  if l.any (fun d => decide (d.group = c.group)) then
    (insertCandidate c (l.filter fun d => decide (d.group ≠ c.group)), false)
  else if l.length < Config.routeCandidates then (insertCandidate c l, false)
  else
    match l.getLast? with
    | some z => if c.before z then (insertCandidate c l.dropLast, true) else (l, true)
    | none => (insertCandidate c l, false)

/-- The route list of a destination code. -/
def State.routeList (s : State) (dest : Nat) : List Candidate := (Tab.find s.routes dest).getD []

/-- One destination of R81 step 1; "reach overflow" rises where an insertion meets 6 candidates (R82). -/
def State.enterReach (s : State) (c : Candidate) (dest : Nat) : State :=
  let r := enterCandidate c (s.routeList dest)
  let s := { s with routes := Tab.put s.routes dest r.1 }
  if r.2 then s.bump .reachOverflow else s

/-- The destination range of a reach, ending at 1023 (R81). -/
def reachDests (first count : Nat) : List Nat :=
  ((List.range count).map (first + ·)).filter fun d => decide (d < 1024)

/-- Candidates are removed from the route lists (R83); an empty list is no longer listed. -/
def pruneRoutes (gone : Nat → Candidate → Bool) (t : Tab (List Candidate)) : Tab (List Candidate) :=
  t.filterMap fun p =>
    let l := p.2.filter fun c => !gone p.1 c
    if l.isEmpty then none else some (p.1, l)

/-- A reach is applied: entered in its range in ascending order, removed elsewhere (R81). -/
def State.applyReach (s : State) (group pref first count : Nat) : State :=
  let s := (reachDests first count).foldl (fun s d => s.enterReach { group := group, pref := pref } d) s
  { s with routes :=
      pruneRoutes (fun d c => decide (c.group = group) && !decide (first ≤ d ∧ d < first + count)) s.routes }

/-- The reach of an own group is applied from its record (R84, R85). -/
def State.applyOwnReach (s : State) (g : Group) : State :=
  s.applyReach g.global g.effPref g.cfg.destFirst g.cfg.destCount

/-- The REACH frame of an own group, its contents as they stand now (R87). -/
def reachMsg (g : Group) : Msg := .reach g.global g.cfg.carrier g.effPref g.cfg.destFirst g.cfg.destCount

/-! ## The fault unit (R23 to R35) -/

/-- The demotion condition is evaluated after a change of the group's terminal roles (R35): when it turned, the
effective preference is recomputed, handed to the reach map, and one REACH is queued (R2, R85). -/
def State.evalDemotion (s : State) (li : Nat) (was : Bool) : State :=
  match Tab.find s.groups li with
  | none => s
  | some g =>
    if demoted g.terminals = was then s
    else
      let g := { g with effPref := effectivePref g.cfg.preference (demoted g.terminals) }
      ((s.setGroup li g).applyOwnReach g).send Config.broadcast (reachMsg g)

/-- The circuit and terminal entries after fault handling of terminal `t` of circuit `c` (R31 parts 3 to 5, R32,
R33): `c` moves to the lowest SPARE terminal, IDLE or, for a promoted BLOCKED circuit, BLOCKED; without a spare it
is FAULTY. -/
def Group.faulted (g : Group) (c t : Nat) (blocked : Bool) : Group :=
  let terms := g.terminals.set t .faulty
  match lowestSpare terms with
  | some sp =>
    { g with
      terminals := terms.set sp (.serving c)
      circuits := g.circuits.set c (if blocked then .blocked sp else .idle sp) }
  | none => { g with terminals := terms, circuits := g.circuits.set c .faulty }

/-- Fault handling (R31). -/
def State.faultHandle (s : State) (li c t : Nat) (blocked : Bool) : State :=
  let s := s.bump .faults
  match Tab.find s.groups li with
  | none => s
  | some g => (s.handGroup li (g.faulted c t blocked)).evalDemotion li (demoted g.terminals)

/-- What a promotion does to the circuit that the condemned terminal serves (R28 to R30): fault handling at once when
IDLE or BLOCKED, fault-on-release when HELD or BUSY. -/
def State.condemn (s : State) (li t : Nat) : State :=
  match Tab.find s.groups li with
  | none => s
  | some g =>
    match g.terminals[t]? with
    | some (.serving c) =>
      match g.circuits[c]? with
      | some (.idle _) => s.faultHandle li c t false
      | some (.blocked _) => s.faultHandle li c t true
      | some (.held t u k bp _) => s.setGroup li { g with circuits := g.circuits.set c (.held t u k bp true) }
      | some (.busy t u bp _) => s.setGroup li { g with circuits := g.circuits.set c (.busy t u bp true) }
      | some .faulty => s
      | none => s
    | _ => s

/-- The oldest suspect is removed and promoted (R28). -/
def State.promoteOldest (s : State) : State :=
  match s.suspects with
  | [] => s
  | (li, t) :: rest => (({ s with suspects := rest } : State).bump .suspectsPromoted).condemn li t

/-- A terminal is appended to the suspect list, after a promotion when the list is full (R25 step 3). -/
def State.appendSuspect (s : State) (li t : Nat) : State :=
  let s := if s.suspects.length < Config.suspectCapacity then s else s.promoteOldest
  { s with suspects := s.suspects ++ [(li, t)] }

/-- An entry leaves the suspect list (R26, R27). -/
def State.removeSuspect (s : State) (li t : Nat) : State :=
  { s with suspects := s.suspects.filter fun e => decide (e ≠ (li, t)) }

/-! ## Leaving use (R15, R16) -/

/-- The release order (R15) for a circuit with its serving terminal and flags. -/
def State.endUse (s : State) (li : Nat) (g : Group) (c t : Nat) (blockPending faultOnRelease : Bool) : State :=
  if faultOnRelease then s.faultHandle li c t false
  else s.handGroup li { g with circuits := g.circuits.set c (if blockPending then .blocked t else .idle t) }

/-- A circuit that is HELD or BUSY is released in the release order (R15). -/
def State.release (s : State) (li c : Nat) : State :=
  match Tab.find s.groups li with
  | none => s
  | some g =>
    match g.circuits[c]? with
    | some (.held t _ _ bp fr) => s.endUse li g c t bp fr
    | some (.busy t _ bp fr) => s.endUse li g c t bp fr
    | _ => s

/-- A seizure failure on a circuit that has just left HELD (R16, R25, R26, R30). -/
def State.treatFailure (s : State) (li : Nat) (g : Group) (c t : Nat) (blockPending faultOnRelease : Bool) : State :=
  if faultOnRelease then s.faultHandle li c t false
  else if s.suspects.contains (li, t) then (s.removeSuspect li t).faultHandle li c t false
  else
    (s.handGroup li { g with circuits := g.circuits.set c (if blockPending then .blocked t else .idle t) }).appendSuspect
      li t

/-! ## The hold table (R57 to R59) -/

def State.setSlot (s : State) (k : Nat) (x : Slot) : State := { s with slots := s.slots.setIfInBounds k x }

/-- The hold a slot records, if it is allocated. -/
def State.holdAt (s : State) (k : Nat) : Option Hold := (s.slots[k]?).bind (·.hold)

/-- A slot becomes free and keeps its generation (R57). -/
def State.freeSlot (s : State) (k : Nat) : State :=
  match s.slots[k]? with
  | some x => s.setSlot k { x with hold := none }
  | none => s

/-- The lowest-numbered free slot (R58). -/
def State.lowestFreeSlot (s : State) : Option Nat :=
  (List.range Config.holdSlots).find? fun k => (s.holdAt k).isNone

/-- A hold id matches a slot (R58). -/
def State.matchHold (s : State) (sender slot generation group circuit : Nat) : Bool :=
  match s.slots[slot]? with
  | some { generation := gen, hold := some h } =>
    decide (gen.toNat = generation ∧ h.group = group ∧ h.circuit = circuit ∧ h.requester = sender)
  | _ => false

/-- Every slot free with generation 0 (R59). -/
def emptySlots : Vector Slot 64 := Vector.replicate 64 { generation := 0, hold := none }

/-- The hold of a slot ends, and its circuit is released by slot (R14, R62, R70, R75). -/
def State.endHold (s : State) (k : Nat) : State :=
  match s.holdAt k with
  | none => s
  | some h =>
    let s := s.freeSlot k
    match s.ownCircuit h.group h.circuit with
    | some (li, g, .held t _ k' bp fr) => if k' = k then s.endUse li g h.circuit t bp fr else s
    | _ => s

/-- The holds of an absent or restarted requester are freed, in ascending slot order (R75, R76). -/
def State.freeHoldsOf (s : State) (peer : Nat) : State :=
  (List.range Config.holdSlots).foldl
    (fun s k => match s.holdAt k with
      | some h => if h.requester = peer then s.endHold k else s
      | none => s) s

/-- The circuits of the groups with the given local indices that satisfy a test, each with its local index, in the
order in which a reset releases them: the spec fixes none, so it is the rank of a free value (assumption 8). -/
def State.resetOrder (s : State) (indices : List Nat) (test : Circuit → Bool) : List (Nat × Nat) :=
  sortRank (fun p : Nat × Nat => Config.releaseRank s.draws p.1 p.2) <| indices.flatMap fun li =>
    match Tab.find s.groups li with
    | none => []
    | some g =>
      ((List.range g.circuits.length).filter fun c => match g.circuits[c]? with | some x => test x | none => false).map
        fun c => (li, c)

/-- The reset releases of the groups with the given local indices (R7, R8, R59); one draw is used up. -/
def State.releaseGroups (s : State) (indices : List Nat) (test : Circuit → Bool) : State :=
  let s := (s.resetOrder indices test).foldl (fun s p => s.release p.1 p.2) s
  { s with draws := s.draws + 1 }

/-! ## Hunting, granting, taking, dropping (R9 to R14, R60 to R74) -/

/-- The order of a scan: from the hunt pointer upward, modulo the working count (R9). -/
def Group.scanOrder (g : Group) : List Nat :=
  (List.range g.cfg.working).map fun i => (g.huntPtr + i) % g.cfg.working

/-- The serving terminal of an IDLE circuit. -/
def Group.idleTerminal (g : Group) (c : Nat) : Option Nat :=
  match g.circuits[c]? with
  | some (.idle t) => some t
  | _ => none

/-- The circuit and terminal a hunt takes: the first IDLE circuit with a terminal off the suspect list (R9), else the
first IDLE circuit (R10). -/
def Group.hunt (g : Group) (suspects : List (Nat × Nat)) (li : Nat) : Option (Nat × Nat) :=
  let good := g.scanOrder.findSome? fun c =>
    match g.idleTerminal c with
    | some t => if suspects.contains (li, t) then none else some (c, t)
    | none => none
  match good with
  | some r => some r
  | none => g.scanOrder.findSome? fun c => (g.idleTerminal c).map fun t => (c, t)

/-- The answer to a hold request: a denial with its reason and decision band, or the contents of a grant (R63, R62,
R72). -/
inductive HoldAnswer where
  | denied (reason : AttemptOutcome) (band : Band)
  | granted (grant : Grant)
  deriving DecidableEq, Repr

/-- A grant, in one step (R61 steps 1 to 3). A band other than FULL and CLOSED means an IDLE circuit (R5), so the hunt
takes one; without one the group is full (assumption 19). -/
def State.grantHold (s : State) (li : Nat) (g : Group) (k requester serial group : Nat) : State × HoldAnswer :=
  match g.hunt s.suspects li, s.slots[k]? with
  | some (c, t), some x =>
    let gen := x.generation + 1
    let hold : Hold :=
      { requester := requester, serial := serial, group := group, circuit := c, band := g.load.band
        expiry := after s.clock (1000 * s.config.holdLifetime) }
    let s := s.setSlot k { generation := gen, hold := some hold }
    (s.handGroup li { g with
        huntPtr := (c + 1) % g.cfg.working
        circuits := g.circuits.set c (.held t requester k false false) },
      .granted { slot := k, generation := gen.toNat, circuit := c, terminal := t, carrier := g.cfg.carrier
                 band := g.load.band, rating := none })
  | _, _ => (s, .denied .full g.load.band)

/-- The checks of R60 in their order, for a HOLD-ASK and for a local hold (R72) alike. -/
def State.requestHold (s : State) (requester serial group prec : Nat) : State × HoldAnswer :=
  match s.ownGroup group with
  | none => (s, .denied .notOwner .closed)
  | some (li, g0) =>
    let g := (g0.attempted s.clock).recomputed
    let s := s.handGroup li (g0.attempted s.clock)
    if g.load.band = .closed then (s, .denied .closed g.load.band)
    else if g.load.band = .full then (s, .denied .full g.load.band)
    else if prec < g.load.floor then (s, .denied .admission g.load.band)
    else
      match s.lowestFreeSlot with
      | none => (s, .denied .noSlot g.load.band)
      | some k => s.grantHold li g k requester serial group

/-- A circuit becomes BUSY; its serving terminal is verified (R12, R13, R27). -/
def State.makeBusy (s : State) (li : Nat) (g : Group) (c t user : Nat) (blockPending faultOnRelease : Bool) : State :=
  (s.handGroup li { g with circuits := g.circuits.set c (.busy t user blockPending faultOnRelease) }).removeSuspect li t

/-- A HOLD-TAKE or local take (R65, R66, R73): by slot when the hold id matches, else by name; true when taken. -/
def State.takeHold (s : State) (sender slot generation group circuit : Nat) : State × Bool :=
  match s.ownCircuit group circuit with
  | none => (s, false)
  | some (li, g, x) =>
    if s.matchHold sender slot generation group circuit then
      match x with
      | .held t u k bp fr => if k = slot then ((s.freeSlot slot).makeBusy li g circuit t u bp fr, true) else (s, false)
      | _ => (s, false)
    else
      match x with
      | .idle t => (s.makeBusy li g circuit t sender false false, true)
      | _ => (s, false)

/-- A HOLD-DROP or local drop, with its hold id if it names one (R14, R68, R74): by slot when the id matches, else by
user; true when a circuit was released, else "stale drops" rises. -/
def State.dropHold (s : State) (sender : Nat) (id : Option (Nat × Nat)) (group circuit : Nat) : State × Bool :=
  match s.ownCircuit group circuit with
  | none => (s.bump .staleDrops, false)
  | some (li, g, x) =>
    let bySlot : Bool := match id with
      | some (k, gen) => s.matchHold sender k gen group circuit
      | none => false
    match x with
    | .held t u k bp fr =>
      if u = sender ∧ ((bySlot ∧ id.map (·.1) = some k) ∨ id = none) then
        ((s.freeSlot k).endUse li g circuit t bp fr, true)
      else (s.bump .staleDrops, false)
    | .busy t u bp fr =>
      if u = sender ∧ ¬ bySlot then (s.endUse li g circuit t bp fr, true) else (s.bump .staleDrops, false)
    | _ => (s.bump .staleDrops, false)

/-- A HOLD-FAULT or local fault (R69, R74). -/
def State.faultHold (s : State) (sender slot generation group circuit : Nat) : State :=
  match s.ownCircuit group circuit with
  | some (li, g, .held t _ k bp fr) =>
    if s.matchHold sender slot generation group circuit ∧ k = slot then
      (s.freeSlot slot).treatFailure li g circuit t bp fr
    else s.bump .staleDrops
  | _ => s.bump .staleDrops

/-! ## Sets of frames and peer notices -/

/-- A set of REACH: for each own group in order of local index its reach is re-applied and one REACH queued (R85,
R87). -/
def State.setOfReach (s : State) : State :=
  s.groups.foldl (fun s p => (s.applyOwnReach p.2).send Config.broadcast (reachMsg p.2)) s

/-- A set of LOADs: one LOAD offered for each own group in order of local index (R52). -/
def State.setOfLoads (s : State) : State := s.groups.foldl (fun s p => s.offerLoad p.2.global) s

/-- The peer notice to the reach map and the view unit (R94). -/
def State.forgetPeer (s : State) (peer : Nat) : State :=
  { s with
    routes := pruneRoutes (fun _ c => decide (c.group / 16 = peer)) s.routes
    views := s.views.filter fun p => decide (p.1 / 16 ≠ peer) }

/-! ## Entering LISTEN and HALTED (R183, R190) -/

/-- A group's estimator starts over at a clock value, its record is recomputed, and its last-announced triple is the
current one (R47, R55, R56). -/
def Group.restarted (g : Group) (now : Clock) : Group :=
  let g := Group.recomputed
    { g with load := { g.load with smoothed := 65535, surge := false, lastAttempt := now } }
  { g with load := { g.load with announced := g.load.triple } }

/-- Entry to LISTEN (R183). -/
def State.enterListen (s : State) : State :=
  let s := s.setStation .listen
  let s : State := { s with
    roster := [(s.address, s.clock)]
    routes := [], views := []
    groups := s.groups.map fun p => (p.1, p.2.restarted s.clock)
    announceDeadline := some (after s.clock s.config.announcePeriod)
    listenDeadline := some (after s.clock s.config.listenWindow)
    reachDeadline := none }
  let s := s.groups.foldl (fun s p => s.applyOwnReach p.2) s
  s.send Config.broadcast (.present Station.listen.code)

/-- What every reset and the entry to HALTED end at once: both queues, the call table, the deadlines, the roster
(R127, R172, R177, R187; assumption 20). -/
def State.quiet (s : State) (st : Station) : State :=
  { s.setStation st with
    tx := [], rx := [], calls := [], roster := []
    listenDeadline := none, announceDeadline := none, reachDeadline := none }

/-- The hold table is emptied and its HELD circuits are released (R8, R59). -/
def State.emptyHolds (s : State) : State :=
  let s := s.releaseGroups (s.groups.map (·.1)) (·.isHeld)
  { s with slots := emptySlots }

/-- An address conflict sends the station to HALTED (R190). -/
def State.halt (s : State) : State := (s.quiet .halted).emptyHolds

end Sys2Proof.Machine
end

