-- ==== Sys2Proof/Machine/CallOps.lean ====
section
/-! DEFINITION. The operations of the call unit (file 06) and what they ask of the rating unit (file 07) and the tally
unit (file 08): judging, selection, attempts, offers, crankback, disputes, drops at the end of a call, posting. -/

namespace Sys2Proof.Machine

/-! ## Call records (R99, R121) -/

def State.putRecord (s : State) (r : Nat) (rec : CallRecord) : State := { s with calls := Tab.put s.calls r rec }

def State.freeRecord (s : State) (r : Nat) : State := { s with calls := Tab.del s.calls r }

/-- The lowest-numbered FREE record (R102). -/
def State.lowestFreeRecord (s : State) : Option Nat :=
  (List.range Config.callRecords).find? fun r => (Tab.find s.calls r).isNone

/-- The live record with a key (R99: the key is unique among live records). -/
def State.recordOfKey (s : State) (client tag : Nat) : Option (Nat × CallRecord) :=
  s.calls.find? fun p => decide (p.2.base.client = client ∧ p.2.base.tag = tag)

/-- The grant a record holds: from grant until it is freed or cranks back (R99). -/
def Phase.grant : Phase → Option Grant
  | .awaitHold _ _ => none
  | .offered g _ => some g
  | .ringing g => some g
  | .connected g _ => some g

/-- A record is marked disputed; the counter rises when the flag goes from clear to set (R121). -/
def State.markRecord (s : State) (r : Nat) : State :=
  match Tab.find s.calls r with
  | none => s
  | some rec => if rec.disputed then s else (s.putRecord r { rec with disputed := true }).bump .disputed

/-- The record is in OFFERED, RINGING or CONNECTED and names the group and circuit (R121). -/
def CallRecord.names (rec : CallRecord) (group circuit : Nat) : Bool :=
  match rec.phase.grant with
  | some gr => decide (rec.group = group ∧ gr.circuit = circuit)
  | none => false

/-- A record whose circuit has been released under it is marked disputed (R121). It is no longer the user of a circuit
that its local take had made BUSY again (assumption 10). -/
def State.markReleased (s : State) (r : Nat) : State :=
  match Tab.find s.calls r with
  | none => s
  | some rec =>
    let s' := s.putRecord r { rec with disputed := true, retaken := false }
    if rec.disputed then s' else s'.bump .disputed

/-- Every live record that names the group and circuit of a forced or orphan release is marked disputed (R121). -/
def State.markCircuit (s : State) (group circuit : Nat) : State :=
  s.calls.foldl (fun s p => if p.2.names group circuit then s.markReleased p.1 else s) s

/-! ## Rating at the offer (R134 to R137, R145) -/

/-- The rate snapshot and quote for a carrier, locked band and precedence; none when the carrier is unrated (R134). -/
def State.snapshot (s : State) (carrier : Nat) (locked : Band) (prec : Nat) : Option Snapshot :=
  (Tab.find s.rates carrier).map fun e =>
    let m := e.mult (pricingBand s.config.exemption prec locked)
    { setup := e.setup, rate := e.rate, mult := m, quote := quoteOf e.setup e.rate m s.config.transitFraction }

/-! ## Judging and selection (R93, R103 to R105) -/

/-- What selection knows of a candidate (R103). -/
inductive Judged where
  | band (b : Band) (floor : Option Nat)
  | stale
  | unknown
  deriving DecidableEq, Repr

/-- The view unit's reading of a remote group (R93). -/
def readView : Option ViewEntry → Judged
  | none => .unknown
  | some v =>
    if v.stale then .stale
    else
      match v.band with
      | .green => .band .green (some 0)
      | .grace => .band .grace (some 7)
      | .full => .band .full (some 8)
      | .closed => .band .closed (some 8)
      | b => .band b (match v.floor with | some (fl, fb) => if fb = b then some fl else none | none => none)

/-- The judged band and floor of a candidate: the load unit's live reading for an own group, the view unit's for a
remote one (R103). An own group without a record is no group here and is judged CLOSED. -/
def State.judge (s : State) (c : Candidate) : Judged :=
  if c.group / 16 = s.address then
    match s.ownGroup c.group with
    | some (_, g) => .band g.load.band (some g.load.floor)
    | none => .band .closed (some 8)
  else readView (Tab.find s.views c.group)

/-- The pass that takes a judged band (R105); none takes FULL or CLOSED (R104). -/
def Judged.pass : Judged → Option Nat
  | .band .green _ => some 1
  | .band .amber _ => some 2
  | .band .red _ => some 3
  | .band .grace _ => some 4
  | .band .full _ => none
  | .band .closed _ => none
  | .stale => some 5
  | .unknown => some 5

/-- The precedence reaches the judged floor, or there is none (R104). -/
def Judged.admits : Judged → Nat → Bool
  | .band _ (some fl), p => decide (fl ≤ p)
  | .band _ none, _ => true
  | .stale, _ => true
  | .unknown, _ => true

/-- A roster entry is PRESENT (R186). -/
def State.isPresent (s : State) (engine : Nat) : Bool := (Tab.find s.roster engine).isSome

/-- A candidate is eligible for a record (R104); the test that its band is not FULL and not CLOSED is `Judged.pass`. -/
def State.eligible (s : State) (b : CallBase) (c : Candidate) : Bool :=
  (decide (c.group / 16 = s.address) || s.isPresent (c.group / 16)) && !b.tried.contains c.group &&
    (s.judge c).admits b.prec

/-- The candidate that the five passes take (R105). -/
def State.pick (s : State) (b : CallBase) : Option Candidate :=
  [1, 2, 3, 4, 5].findSome? fun pass =>
    (s.routeList b.dest).find? fun c => s.eligible b c && decide ((s.judge c).pass = some pass)

/-! ## Attempts, offers and the end of selection (R106 to R113) -/

/-- The record takes the offer of a grant (R110 steps 2 to 6; R137). -/
def State.offerCall (s : State) (r : Nat) (b : CallBase) (group : Nat) (gr : Grant) : State :=
  let gr : Grant := { gr with rating := s.snapshot gr.carrier gr.band b.prec }
  let s := s.send b.client (.routeOffer b.tag b.attempts group gr.circuit gr.terminal gr.carrier gr.band.code
    (gr.rating.map (·.quote)))
  s.putRecord r
    { base := b, group := group, disputed := false, retaken := false
      phase := .offered gr (after s.clock (1000 * s.config.offerTimeout)) }

/-- Selection has ended without a candidate: ROUTE-FAIL CONGESTED, "route fails", the record is freed (R113). -/
def State.congested (s : State) (r : Nat) (b : CallBase) : State :=
  ((s.send b.client (.routeFail b.tag .congested b.attempts b.last)).bump .routeFails).freeRecord r

/-- What a record keeps when a candidate is taken (R106). -/
def CallBase.trying (b : CallBase) (group : Nat) : CallBase :=
  { b with attempts := b.attempts + 1, tried := b.tried ++ [group] }

/-- Selection and attempts of a record until a grant, an outstanding HOLD-ASK, or the end of selection (R105 to R108,
R113). `fuel` is the number of attempts left. -/
def State.select (s : State) (r : Nat) (b : CallBase) : Nat → State
  | 0 => s.congested r b
  | fuel + 1 =>
    match s.pick b with
    | none => s.congested r b
    | some c =>
      let b := b.trying c.group
      if c.group / 16 = s.address then
        match s.requestHold s.address 0 c.group b.prec with
        | (s, .granted gr) => s.offerCall r b c.group gr
        | (s, .denied reason _) => State.select s r { b with last := some reason } fuel
      else
        let s : State := { s with serial := s.serial + 1 }
        match s.offer (c.group / 16) (.holdAsk s.serial.toNat r c.group b.prec) with
        | (s, true) =>
          s.putRecord r
            { base := b, group := c.group, disputed := false, retaken := false
              phase := .awaitHold s.serial (after s.clock s.config.answerTimeout) }
        | (s, false) => State.select s r { b with last := some .busFull } fuel

/-- A failed attempt returns the record to selection (R113). -/
def State.crankback (s : State) (r : Nat) (b : CallBase) (outcome : AttemptOutcome) : State :=
  s.select r { b with last := some outcome } (Config.maxAttempts - b.attempts)

/-! ## The end of a circuit's use (R74, R118, R119, R121 to R123) -/

/-- The drop at a record's end: HOLD-DROP to the owner, or a local drop, with group, circuit and hold id; a disputed
record makes none, save one whose local take made its circuit BUSY again (R121). -/
def State.endDrop (s : State) (rec : CallRecord) (gr : Grant) : State :=
  if rec.disputed && !rec.retaken then s
  else if rec.group / 16 = s.address then
    (s.dropHold s.address (some (gr.slot, gr.generation)) rec.group gr.circuit).1
  else s.send (rec.group / 16) (.holdDrop 1 gr.slot gr.generation rec.group gr.circuit)

/-- SEIZED in OFFERED (R116): HOLD-TAKE or a local take, and the record enters RINGING. A refused HOLD-TAKE and a local
take answered "lost" mark the record disputed (R73, R121). -/
def State.seize (s : State) (r : Nat) (rec : CallRecord) (gr : Grant) : State :=
  if rec.group / 16 = s.address then
    match s.takeHold s.address gr.slot gr.generation rec.group gr.circuit with
    | (s, true) => s.putRecord r { rec with phase := .ringing gr, retaken := rec.disputed }
    | (s, false) => (s.putRecord r { rec with phase := .ringing gr }).markRecord r
  else
    match s.offer (rec.group / 16) (.holdTake gr.slot gr.generation rec.group gr.circuit) with
    | (s, true) => s.putRecord r { rec with phase := .ringing gr }
    | (s, false) => (s.putRecord r { rec with phase := .ringing gr }).markRecord r

/-! ## Posting (R149 to R152) -/

/-- The greatest value of a 32-bit accumulator. -/
abbrev max32 : Nat := 2 ^ 32 - 1
/-- The greatest value of a 48-bit accumulator. -/
abbrev max48 : Nat := 2 ^ 48 - 1

/-- An addition that stops at a maximum (R150). -/
def addTo (top a x : Nat) : Nat := min (a + x) top

/-- What a clear adds (R151). -/
structure Posting where
  seconds : Nat
  charge : Nat
  transit : Nat
  disputed : Bool
  unrated : Bool
  deriving DecidableEq, Repr

/-- The amounts a posting adds to settled, disputed, transit and unrated calls (R152). -/
def Posting.settled (p : Posting) : Nat := if !p.unrated && !p.disputed then p.charge else 0
def Posting.disputedCharge (p : Posting) : Nat := if !p.unrated && p.disputed then p.charge else 0
def Posting.transitShare (p : Posting) : Nat := if p.unrated then 0 else p.transit
def Posting.unratedCalls (p : Posting) : Nat := flagByte p.unrated

/-- An entry after a posting: every addition saturates, and a sum past its maximum sets the saturated flag (R150,
R152). `topCalls` is the maximum of the calls accumulator: 32 bits in a pair entry, 48 in the overflow entry. -/
def Sums.posted (topCalls : Nat) (e : Sums) (p : Posting) : Sums :=
  { calls := addTo topCalls e.calls 1
    seconds := addTo max48 e.seconds p.seconds
    settled := addTo max48 e.settled p.settled
    disputed := addTo max48 e.disputed p.disputedCharge
    transit := addTo max48 e.transit p.transitShare
    unrated := addTo max32 e.unrated p.unratedCalls
    saturated := e.saturated || decide (topCalls < e.calls + 1 ∨ max48 < e.seconds + p.seconds ∨
      max48 < e.settled + p.settled ∨ max48 < e.disputed + p.disputedCharge ∨ max48 < e.transit + p.transitShare ∨
      max32 < e.unrated + p.unratedCalls) }

/-- The overflow entry of a bank takes a posting (R151 cases 2 and 4). -/
def Bank.postOverflow (b : Bank) (p : Posting) : Bank := { b with overflow := b.overflow.posted max48 p }

/-- The index of the pair entry of a pair. -/
def Bank.pairIndex (b : Bank) (origin terminating : Nat) : Option Nat :=
  b.entries.findIdx? fun e => decide (e.origin = origin ∧ e.terminating = terminating)

/-- A posting to a bank, and whether the overflow entry took it (R151). -/
def Bank.post (b : Bank) (origin terminating : Nat) (p : Posting) : Bank × Bool :=
  match b.pairIndex origin terminating with
  | some i =>
    match b.entries[i]? with
    | some e =>
      if e.sums.calls < max32 then
        ({ b with entries := b.entries.set i { e with sums := e.sums.posted max32 p } }, false)
      else (b.postOverflow p, true)
    | none => (b.postOverflow p, true)
  | none =>
    if b.entries.length < Config.pairEntries then
      ({ b with entries := b.entries ++
          [{ origin := origin, terminating := terminating, sums := Sums.posted max32 {} p }] }, false)
    else (b.postOverflow p, true)

/-- A posting reaches the OPEN bank (R153); "tally overflow postings" counts those the overflow entry takes. -/
def State.post (s : State) (origin terminating : Nat) (p : Posting) : State :=
  let r := s.openBank.post origin terminating p
  let s := { s with openBank := r.1 }
  if r.2 then s.bump .tallyOverflow else s

end Sys2Proof.Machine
end

