-- ==== Sys2Proof/Machine/BusCommands.lean ====
section
/-! DEFINITION. The commands of the bus interface (file 09): FRAME_RECEIVED, BUS_IDLE_CONTENTION, BIT_MISMATCH,
FRAME_SENT. -/

namespace Sys2Proof.Machine

/-! ## Receiving (R165 to R168) -/

/-- The end was seen, the length field agrees with the payload bytes, and the CRC is good (R165). -/
def frameIntact (w : WireFrame) (ended : Reception) : Bool :=
  decide (ended = .whole) && decide (w.length.toNat = w.payload.length) && decide (frameCrc w = w.crc.toNat)

/-- The source address and the class field of the arbitration field (R162). -/
def frameSource (w : WireFrame) : Nat := w.arb.toNat % 64
def frameClass (w : WireFrame) : Nat := w.arb.toNat / 64

/-- The roster entry of an engine address is refreshed; the own entry is not aged and not affected (R186). -/
def State.refresh (s : State) (source : Nat) : State :=
  if source < 32 ∧ source ≠ s.address then { s with roster := Tab.put s.roster source s.clock } else s

/-- A management request (R168). -/
def Msg.isManagement (m : Msg) : Bool := decide (48 ≤ m.kind ∧ m.kind ≤ 55)

/-- Check 3 of R166: the source suits the kind and the destination suits the class (R167). -/
def Msg.suits (m : Msg) (source dest own : Nat) : Bool :=
  if m.cls = 0 then decide (source < 32 ∧ dest = own)
  else if m.cls = 1 then decide (32 ≤ source ∧ source ≤ 62 ∧ dest = own)
  else if m.cls = 2 then decide (source < 32)
  else if m = .stationReset then decide (dest = own)
  else true

/-- Checks 2 to 5 of R166 on a frame for this station, with its answer NOT_PERMITTED (R168). -/
def State.admitFrame (s : State) (w : WireFrame) : State :=
  match (if (frameSource w) = 63 then none else parseMsg w.kind.toNat w.payload) with
  | none => s.bump .badFrame
  | some m =>
    if frameClass w ≠ m.cls then s.bump .badFrame
    else if !m.suits (frameSource w) w.dest.toNat s.address then s.bump .badFrame
    else if m.isManagement && decide ((frameSource w) < 48) then
      let s := s.bump .notPermitted
      if w.dest.toNat = s.address then s.send (frameSource w) (.mgmtDone m.kind .notPermitted .nothing) else s
    else if s.rx.length < Config.rxCapacity then
      { s with rx := s.rx ++ [{ source := (frameSource w), dest := w.dest.toNat, msg := m }] }
    else s.bump .rxOverrun

/-- FRAME_RECEIVED: a frame of another station ends on the bus (R165, R166). A frame that was being received when a
reset or an entry to HALTED was taken is discarded without a count, and refreshes nothing (R172). -/
def execFrameReceived (w : WireFrame) (ended : Reception) (s : State) : Host.Outcome State Fault Refusal :=
  .next <|
    if !s.running || decide (ended = .overtaken) then s
    else if !frameIntact w ended then s.bump .badCrc
    else
      let s := s.refresh (frameSource w)
      if w.dest.toNat = s.address ∨ w.dest.toNat = Config.broadcast then s.admitFrame w else s

/-! ## Sending (R48, R163, R164, R170) -/

/-- The entry the queue puts forward: the oldest waiting entry of the lowest class (R170). -/
def contender (tx : List TxEntry) : Option Nat :=
  [0, 1, 2, 3].findSome? fun c => tx.findIdx? fun e => e.onLine.isNone && decide (e.body.cls = c)

/-- An entry is in sending. -/
def State.sending (s : State) : Bool := s.tx.any (·.onLine.isSome)

/-- The arbitration value of an entry of this station (R163). -/
def State.arbitration (s : State) (e : TxEntry) : BitVec 8 := BitVec.ofNat 8 (e.body.cls * 64 + s.address)

/-- The LOAD of a group as the load unit gives it at the moment of sending (R48). A waiting LOAD always names a group
with a record, since the queue is emptied wherever records go (R172). -/
def State.loadMsg (s : State) (group : Nat) : Msg :=
  match s.ownGroup group with
  | some (_, g) => .load group g.load.band.code g.load.floor (flagByte g.load.surge) g.load.free
  | none => .load group Band.closed.code 8 0 0

/-- The frame an entry sends. -/
def State.msgOf (s : State) : TxBody → Msg
  | .msg m => m
  | .load group => s.loadMsg group

/-- When the sending of a LOAD begins, the triple it carries becomes the group's last-announced triple (R48). -/
def State.announce (s : State) : TxBody → State
  | .msg _ => s
  | .load group =>
    match s.ownGroup group with
    | some (li, g) => s.setGroup li { g with load := { g.load with announced := g.load.triple } }
    | none => s

/-- BUS_IDLE_CONTENTION: the contender wins when its arbitration value is the lowest (R163), and is then in sending. -/
def execBusIdleContention (others : List (BitVec 8)) (s : State) : Host.Outcome State Fault Refusal :=
  .next <|
    if s.running && !s.sending then
      match contender s.tx with
      | none => s
      | some i =>
        match s.tx[i]? with
        | none => s
        | some e =>
          if others.all fun o => decide (s.arbitration e ≤ o) then
            let w := wireFrame s.address e.dest (s.msgOf e.body)
            ({ s with tx := s.tx.set i { e with onLine := some w } } : State).announce e.body
          else s
    else s

/-- The queue after the entry in sending has returned to waiting in its old place; a LOAD absorbs a newer waiting LOAD
for the same group (R164, R170). -/
def returnToWaiting : List TxEntry → List TxEntry
  | [] => []
  | e :: rest =>
    if e.onLine.isSome then
      { e with onLine := none } ::
        (match e.body with
          | .load group => rest.filter fun d => !d.waitingLoad group
          | .msg _ => rest)
    else e :: returnToWaiting rest

/-- BIT_MISMATCH (R164). -/
def execBitMismatch (s : State) : Host.Outcome State Fault Refusal :=
  .next { s with tx := returnToWaiting s.tx }

/-- FRAME_SENT: the entry in sending leaves the queue (R164). -/
def execFrameSent (s : State) : Host.Outcome State Fault Refusal :=
  .next { s with tx := s.tx.filter (·.onLine.isNone) }

end Sys2Proof.Machine
end

