-- ==== Sys2Proof/Machine/HoldCommands.lean ====
section
/-! DEFINITION. The commands of the hold unit (file 04): HOLD_ASK, HOLD_TAKE, HOLD_DROP, HOLD_FAULT, HOLD_EXPIRY. -/

namespace Sys2Proof.Machine

/-- The HOLD-GIVE of a grant (R62). -/
def giveMsg (serial ref group : Nat) (gr : Grant) : Msg :=
  .holdGive serial ref group gr.slot gr.generation gr.circuit gr.terminal gr.carrier gr.band.code

/-- A HOLD-ASK taken by the hold unit (R60 to R63). -/
def State.answerAsk (s : State) (sender serial ref group prec : Nat) : State :=
  if 7 < prec then s.bump .badFrame
  else
    match s.requestHold sender serial group prec with
    | (s, .denied reason band) => s.send sender (.holdDeny serial ref group reason.code band.code)
    | (s, .granted gr) =>
      match s.offer sender (giveMsg serial ref group gr) with
      | (s, true) => s
      | (s, false) => s.endHold gr.slot

/-- HOLD_ASK (R60). -/
def execHoldAsk (s : State) : Host.Outcome State Fault Refusal :=
  .next <| s.takeFrame fun f =>
    match f.msg with
    | .holdAsk serial ref g p => some fun s => s.answerAsk f.source serial ref g p
    | _ => none

/-- A HOLD-TAKE taken by the hold unit: taken without a reply, or HOLD-LOST (R65 to R67). -/
def State.answerTake (s : State) (sender slot generation group circuit : Nat) : State :=
  match s.takeHold sender slot generation group circuit with
  | (s, true) => s
  | (s, false) => s.send sender (.holdLost slot generation group circuit)

/-- HOLD_TAKE (R65). -/
def execHoldTake (s : State) : Host.Outcome State Fault Refusal :=
  .next <| s.takeFrame fun f =>
    match f.msg with
    | .holdTake slot gen g c => some fun s => s.answerTake f.source slot gen g c
    | _ => none

/-- A HOLD-DROP taken by the hold unit (R68). -/
def State.answerDrop (s : State) (sender idPresent slot generation group circuit : Nat) : State :=
  if 1 < idPresent then s.bump .badFrame
  else (s.dropHold sender (if idPresent = 1 then some (slot, generation) else none) group circuit).1

/-- HOLD_DROP (R68). -/
def execHoldDrop (s : State) : Host.Outcome State Fault Refusal :=
  .next <| s.takeFrame fun f =>
    match f.msg with
    | .holdDrop idp slot gen g c => some fun s => s.answerDrop f.source idp slot gen g c
    | _ => none

/-- HOLD_FAULT (R69). -/
def execHoldFault (s : State) : Host.Outcome State Fault Refusal :=
  .next <| s.takeFrame fun f =>
    match f.msg with
    | .holdFault slot gen g c => some fun s => s.faultHold f.source slot gen g c
    | _ => none

/-- HOLD_EXPIRY (R70). -/
def execHoldExpiry (k : Nat) (s : State) : Host.Outcome State Fault Refusal :=
  .next <|
    match s.holdAt k with
    | none => s
    | some h => if s.running && reached s.clock h.expiry then (s.endHold k).bump .holdsExpired else s

end Sys2Proof.Machine
end

