-- ==== Sys2Proof/Machine/CallCommands.lean ====
section
/-! DEFINITION. The commands of the call unit (file 06): HOLD_GIVE, HOLD_DENY, HOLD_LOST, ROUTE_ASK, the four SEIZE-DONE
outcomes, CALL_CLEAR, ANSWER_TIMEOUT, OFFER_TIMEOUT. -/

namespace Sys2Proof.Machine

/-! ## Answers to a HOLD-ASK (R109 to R112) -/

/-- What a record in AWAIT_HOLD keeps, when the record a frame refers to awaits that serial and group (R109, R111). -/
def State.awaiting (s : State) (ref serial group : Nat) : Option CallBase :=
  match Tab.find s.calls ref with
  | some rec =>
    match rec.phase with
    | .awaitHold ser _ => if ser.toNat = serial ∧ rec.group = group then some rec.base else none
    | _ => none
  | none => none

/-- The fields of a HOLD-GIVE lie in their ranges, and its band is not FULL or CLOSED (R109; assumption 13). -/
def giveInRange (ref group slot generation circuit terminal carrier band : Nat) : Bool :=
  decide (ref < 512 ∧ group < 512 ∧ slot < 64 ∧ generation < 16 ∧ circuit < 240 ∧ terminal < 255 ∧ carrier < 64 ∧
    band < 4)

/-- A HOLD-GIVE taken by the call unit: accepted, or a late grant answered by HOLD-DROP (R109, R110). -/
def State.takeGive (s : State) (source serial ref group slot generation circuit terminal carrier band : Nat) : State :=
  match giveInRange ref group slot generation circuit terminal carrier band, bandOfCode band with
  | true, some bd =>
    match (if source = group / 16 then s.awaiting ref serial group else none) with
    | some b =>
      s.offerCall ref b group
        { slot := slot, generation := generation, circuit := circuit, terminal := terminal, carrier := carrier
          band := bd, rating := none }
    | none => (s.send source (.holdDrop 1 slot generation group circuit)).bump .lateGrants
  | _, _ => s.bump .badFrame

/-- HOLD_GIVE (R109). -/
def execHoldGive (s : State) : Host.Outcome State Fault Refusal :=
  .next <| s.takeFrame fun f =>
    match f.msg with
    | .holdGive serial ref g slot gen c t carrier band =>
      some fun s => s.takeGive f.source serial ref g slot gen c t carrier band
    | _ => none

/-- The band of a HOLD-DENY is written into the view entry of its group (R91). This station's own groups have no
entries (R89). -/
def State.viewDeny (s : State) (group : Nat) (band : Band) : State :=
  if group / 16 = s.address then s
  else
    let v : ViewEntry :=
      { stale := false, band := band, floor := (Tab.find s.views group).bind (·.floor), heard := s.clock }
    { s with views := Tab.put s.views group v }

/-- A HOLD-DENY taken by the view unit and the call unit (R91, R111). -/
def State.takeDeny (s : State) (source serial ref group reason band : Nat) : State :=
  match denyReasonOfCode reason, bandOfCode band with
  | some o, some bd =>
    if source ≠ group / 16 then s.bump .badFrame
    else
      let s := s.viewDeny group bd
      match s.awaiting ref serial group with
      | some b => s.crankback ref b o
      | none => s
  | _, _ => s.bump .badFrame

/-- HOLD_DENY (R111). -/
def execHoldDeny (s : State) : Host.Outcome State Fault Refusal :=
  .next <| s.takeFrame fun f =>
    match f.msg with
    | .holdDeny serial ref g reason band => some fun s => s.takeDeny f.source serial ref g reason band
    | _ => none

/-- A record in RINGING or CONNECTED names the circuit and hold id of a HOLD-LOST from its owner (R120). -/
def CallRecord.lostBy (rec : CallRecord) (source slot generation group circuit : Nat) : Bool :=
  let same := fun (gr : Grant) => decide (rec.group = group ∧ gr.circuit = circuit ∧ gr.slot = slot ∧
    gr.generation = generation ∧ rec.group / 16 = source)
  match rec.phase with
  | .ringing gr => same gr
  | .connected gr _ => same gr
  | _ => false

/-- A HOLD-LOST taken by the call unit (R120). When several records match, which one is meant is a free value
(assumption 9). -/
def State.takeLost (s : State) (source slot generation group circuit : Nat) : State :=
  match s.calls.filter fun p => p.2.lostBy source slot generation group circuit with
  | [] => s
  | [p] => s.markRecord p.1
  | p :: ps =>
    let q := (p :: ps).getD (Config.lostPick s.draws % (p :: ps).length) p
    ({ s with draws := s.draws + 1 } : State).markRecord q.1

/-- HOLD_LOST (R120). -/
def execHoldLost (s : State) : Host.Outcome State Fault Refusal :=
  .next <| s.takeFrame fun f =>
    match f.msg with
    | .holdLost slot gen g c => some fun s => s.takeLost f.source slot gen g c
    | _ => none

/-- ANSWER_TIMEOUT (R112). -/
def execAnswerTimeout (r : Nat) (s : State) : Host.Outcome State Fault Refusal :=
  .next <|
    match Tab.find s.calls r with
    | none => s
    | some rec =>
      match rec.phase with
      | .awaitHold _ deadline =>
        if s.running && reached s.clock deadline then
          (s.bump .noAnswerTimeouts).crankback r rec.base .noAnswer
        else s
      | _ => s

/-! ## ROUTE-ASK (R101, R102) -/

/-- The record a ROUTE-ASK is given (R102). -/
def freshCall (client tag dest prec origin : Nat) : CallBase :=
  { client := client, tag := tag, dest := dest, prec := prec, origin := origin, attempts := 0, tried := []
    last := none }

/-- A refusal: ROUTE-FAIL with attempt count 0 and no last outcome (R101). -/
def State.refuseRoute (s : State) (client tag : Nat) (code : RouteFailCode) : State :=
  s.send client (.routeFail tag code 0 none)

/-- A ROUTE-ASK taken by the call unit: refused at the first check that holds, or given a record on which selection
runs (R101, R102). -/
def State.takeRouteAsk (s : State) (client tag dest prec origin : Nat) : State :=
  if 7 < prec ∨ 63 < origin then s.bump .badFrame
  else if s.station ≠ .active then s.refuseRoute client tag .notReady
  else if 1023 < dest then s.refuseRoute client tag .badDest
  else if (s.recordOfKey client tag).isSome then s.refuseRoute client tag .duplicate
  else
    match s.lowestFreeRecord with
    | none => s.refuseRoute client tag .noRecord
    | some r =>
      if (s.routeList dest).isEmpty then s.refuseRoute client tag .noRoute
      else s.select r (freshCall client tag dest prec origin) Config.maxAttempts

/-- ROUTE_ASK (R101). -/
def execRouteAsk (s : State) : Host.Outcome State Fault Refusal :=
  .next <| s.takeFrame fun f =>
    match f.msg with
    | .routeAsk tag dest prec origin => some fun s => s.takeRouteAsk f.source tag dest prec origin
    | _ => none

/-! ## Seizure reports (R115 to R118) -/

/-- A SEIZE-DONE taken by the call unit. `act` answers, for the matched record, what the outcome does in the record's
state, or none where that state does not take it; a SEIZE-DONE that is not matched is counted "stale drops" (R115).
An outcome the spec does not name matches nothing; any of the four commands may take it (assumption 11). -/
def State.seizeFrame (s : State) (want : Nat) (act : State → Nat → CallRecord → Option State) : State :=
  s.takeFrame fun f =>
    match f.msg with
    | .seizeDone tag attempt outcome =>
      if outcome = want then
        some fun s =>
          match s.recordOfKey f.source tag with
          | some (r, rec) =>
            if rec.base.attempts = attempt then (act s r rec).getD (s.bump .staleDrops) else s.bump .staleDrops
          | none => s.bump .staleDrops
      else if knownOutcome outcome then none
      else some fun s => s.bump .staleDrops
    | _ => none

/-- SEIZED (R116). -/
def execSeized (s : State) : Host.Outcome State Fault Refusal :=
  .next <| s.seizeFrame 1 fun s r rec =>
    match rec.phase with
    | .offered gr _ => some (s.seize r rec gr)
    | _ => none

/-- A RINGING record enters CONNECTED; the commit time is now (R117). -/
def State.connect (s : State) (r : Nat) : State :=
  match Tab.find s.calls r with
  | some rec =>
    match rec.phase with
    | .ringing gr => s.putRecord r { rec with phase := .connected gr s.clock }
    | _ => s
  | none => s

/-- ANSWERED (R117). -/
def execAnswered (s : State) : Host.Outcome State Fault Refusal :=
  .next <| s.seizeFrame 2 fun s r rec =>
    match rec.phase with
    | .offered gr _ => some ((s.seize r rec gr).connect r)
    | .ringing _ => some (s.connect r)
    | _ => none

/-- The report of a seizure failure: HOLD-FAULT to the owner, or a local fault (R118, R74). -/
def State.reportFault (s : State) (rec : CallRecord) (gr : Grant) : State :=
  if rec.group / 16 = s.address then s.faultHold s.address gr.slot gr.generation rec.group gr.circuit
  else s.send (rec.group / 16) (.holdFault gr.slot gr.generation rec.group gr.circuit)

/-- SEIZE_FAILED (R118). -/
def execSeizeFailed (s : State) : Host.Outcome State Fault Refusal :=
  .next <| s.seizeFrame 3 fun s r rec =>
    match rec.phase with
    | .offered gr _ => some ((s.reportFault rec gr).crankback r rec.base .seizeFailed)
    | _ => none

/-- ABANDONED (R118). -/
def execAbandoned (s : State) : Host.Outcome State Fault Refusal :=
  .next <| s.seizeFrame 4 fun s r rec =>
    match rec.phase with
    | .offered gr _ => some ((s.endDrop rec gr).freeRecord r)
    | .ringing gr => some ((s.endDrop rec gr).freeRecord r)
    | _ => none

/-- OFFER_TIMEOUT (R119). -/
def execOfferTimeout (r : Nat) (s : State) : Host.Outcome State Fault Refusal :=
  .next <|
    match Tab.find s.calls r with
    | none => s
    | some rec =>
      match rec.phase with
      | .offered gr deadline =>
        if s.running && reached s.clock deadline then
          (((s.endDrop rec gr).send rec.base.client
            (.routeFail rec.base.tag .offerExpired rec.base.attempts rec.base.last)).bump .routeFails).freeRecord r
        else s
      | _ => s

/-! ## Clearing a call (R122 to R125, R136, R139, R144) -/

/-- What the clear of a CONNECTED record posts (R122, R136, R144). -/
def State.posting (s : State) (rec : CallRecord) (gr : Grant) (commit : Clock) : Posting :=
  let d := ratedSeconds commit s.clock
  match gr.rating with
  | some sn =>
    let c := chargeOf sn.setup sn.rate sn.mult d
    { seconds := d, charge := c, transit := transit c s.config.transitFraction, disputed := rec.disputed
      unrated := false }
  | none => { seconds := d, charge := 0, transit := 0, disputed := rec.disputed, unrated := true }

/-- The clear of a CONNECTED record (R122). -/
def State.clearConnected (s : State) (r : Nat) (rec : CallRecord) (gr : Grant) (commit : Clock) : State :=
  let p := s.posting rec gr commit
  let s := (s.post rec.base.origin gr.carrier p).endDrop rec gr
  (s.send rec.base.client
    (.clearDone rec.base.tag p.charge p.transit p.seconds (clearFlags p.unrated p.disputed false false))).freeRecord r

/-- The clear of a record that has not been answered (R123). -/
def State.clearUnanswered (s : State) (r : Nat) (rec : CallRecord) : State :=
  let s := match rec.phase.grant with
    | some gr => s.endDrop rec gr
    | none => s
  (s.send rec.base.client (.clearDone rec.base.tag 0 0 0 (clearFlags false rec.disputed true false))).freeRecord r

/-- An orphan clear (R124). -/
def State.clearOrphan (s : State) (client tag group circuit : Nat) : State :=
  let s := s.bump .orphanClears
  let s :=
    if group / 16 = s.address then
      match s.dropHold s.address none group circuit with
      | (s, true) => s.markCircuit group circuit
      | (s, false) => s
    else s.send (group / 16) (.holdDrop 0 0 0 group circuit)
  s.send client (.clearDone tag 0 0 0 (clearFlags false false false true))

/-- A CALL-CLEAR taken by the call unit, matched by its key alone (R122). -/
def State.takeClear (s : State) (client tag group circuit : Nat) : State :=
  if 511 < group then s.bump .badFrame
  else
    match s.recordOfKey client tag with
    | some (r, rec) =>
      match rec.phase with
      | .connected gr commit => s.clearConnected r rec gr commit
      | _ => s.clearUnanswered r rec
    | none => s.clearOrphan client tag group circuit

/-- CALL_CLEAR (R122). -/
def execCallClear (s : State) : Host.Outcome State Fault Refusal :=
  .next <| s.takeFrame fun f =>
    match f.msg with
    | .callClear tag g c => some fun s => s.takeClear f.source tag g c
    | _ => none

end Sys2Proof.Machine
end

