-- ==== Sys2Proof/Machine/AnnounceCommands.lean ====
section
/-! DEFINITION. The commands of the announce path (files 03 and 05): LOAD, REACH, PROBE, ANNOUNCE_DEADLINE,
REACH_DEADLINE, STALENESS_EVENT. -/

namespace Sys2Proof.Machine

/-- The contents of a LOAD that R90 checks. -/
def loadValid (source group band floor surge free : Nat) : Bool :=
  decide (group / 16 = source ∧ band ≤ 5 ∧ floor ≤ 8 ∧ surge ≤ 1 ∧ free ≤ 240)

/-- A LOAD taken by the view unit (R90). A LOAD that names a group of this station's own address and also fails
another check is counted "bad frame": the model's choice, since R90 gives both outcomes and no order (assumption
29). -/
def State.takeLoad (s : State) (source group band floor surge free : Nat) : State :=
  match loadValid source group band floor surge free, bandOfCode band with
  | true, some b =>
    if group / 16 = s.address then s
    else
      let v : ViewEntry := { stale := false, band := b, floor := some (floor, b), heard := s.clock }
      { s with views := Tab.put s.views group v }
  | _, _ => s.bump .badFrame

/-- LOAD (R90). -/
def execLoad (s : State) : Host.Outcome State Fault Refusal :=
  .next <| s.takeFrame fun f =>
    match f.msg with
    | .load g band floor surge free => some fun s => s.takeLoad f.source g band floor surge free
    | _ => none

/-- A REACH taken by the reach map: the first check that fails discards it (R86), else it is applied (R81). -/
def State.takeReach (s : State) (source group carrier pref first count : Nat) : State :=
  if group / 16 ≠ source then s.bump .badFrame
  else if group / 16 = s.address then s
  else if carrier ≤ 63 ∧ pref ≤ 15 ∧ first ≤ 1023 ∧ 1 ≤ count ∧ count ≤ 32 then s.applyReach group pref first count
  else s.bump .badFrame

/-- REACH (R86). -/
def execReach (s : State) : Host.Outcome State Fault Refusal :=
  .next <| s.takeFrame fun f =>
    match f.msg with
    | .reach g carrier pref first count => some fun s => s.takeReach f.source g carrier pref first count
    | _ => none

/-- PROBE (R54): one LOAD is offered for an own group; for any other group the frame is discarded. -/
def execProbe (s : State) : Host.Outcome State Fault Refusal :=
  .next <| s.takeFrame fun f =>
    match f.msg with
    | .probe g => some fun s => match s.ownGroup g with
      | some (_, grp) => s.offerLoad grp.global
      | none => s
    | _ => none

/-- A deadline advanced by whole periods from its previous value until it is no longer reached (R51, R88). For a
reached deadline that is one period more than the whole periods it is late (the obligation `DeadlinesAdvance`). -/
def advance (now deadline : Clock) (period : Nat) : Clock :=
  after deadline (period * ((now - deadline).toNat / period + 1))

/-- A station without a group record queues a PRESENT in place of a set of LOADs (R53). -/
def State.announceSet (s : State) : State :=
  if s.groups.isEmpty then s.send Config.broadcast (.present s.station.code) else s.setOfLoads

/-- ANNOUNCE_DEADLINE (R51). -/
def execAnnounceDeadline (s : State) : Host.Outcome State Fault Refusal :=
  .next <|
    match s.announceDeadline with
    | none => s
    | some d =>
      if s.running && reached s.clock d then
        { s.announceSet with announceDeadline := some (advance s.clock d s.config.announcePeriod) }
      else s

/-- REACH_DEADLINE (R88). -/
def execReachDeadline (s : State) : Host.Outcome State Fault Refusal :=
  .next <|
    match s.reachDeadline with
    | none => s
    | some d =>
      if decide (s.station = .active) && reached s.clock d then
        { s.setOfReach with reachDeadline := some (advance s.clock d (1000 * s.config.reachPeriod)) }
      else s

/-- STALENESS_EVENT (R92): a FRESH entry becomes STALE, and a PROBE goes to an owner that is PRESENT (R95). -/
def execStalenessEvent (group : Nat) (s : State) : Host.Outcome State Fault Refusal :=
  .next <|
    match Tab.find s.views group with
    | none => s
    | some v =>
      if s.running && !v.stale && ageExceeds s.clock v.heard s.config.viewLifetime then
        let s : State := { s with views := Tab.put s.views group { v with stale := true } }
        if s.isPresent (group / 16) then s.send (group / 16) (.probe group) else s
      else s

end Sys2Proof.Machine
end

