-- ==== Sys2Proof/Machine/ControlCommands.lean ====
section
/-! DEFINITION. CIRCUIT-CONTROL (files 01 and 02): BLOCK, UNBLOCK, FORCE_RELEASE, RESTORE. -/

namespace Sys2Proof.Machine

/-- The answer to a CIRCUIT-CONTROL (R17, R174). -/
def State.answerControl (s : State) (source : Nat) (code : MgmtCode) (group action number : Nat) : State :=
  s.send source (.mgmtDone 53 code (.circuit group action number))

/-- A CIRCUIT-CONTROL taken by the circuit unit: the target check of R17, then the action, then the answer. `act`
answers the state after the action and whether it changed the circuit's state or flags. -/
def State.control (s : State) (source dest group action number : Nat)
    (act : State → Nat → Group → Nat → State × Bool) : State :=
  if dest = Config.broadcast ∧ group / 16 ≠ s.address then s
  else
    match s.ownGroup group with
    | none => s.answerControl source .badTarget group action number
    | some (li, g) =>
      if !knownAction action ∨ (if action = 4 then g.cfg.working + g.cfg.spares else g.cfg.working) ≤ number then
        s.answerControl source .badTarget group action number
      else
        match act s li g number with
        | (s, true) => s.answerControl source .ok group action number
        | (s, false) => s.answerControl source .noChange group action number

/-- The frame of a CIRCUIT-CONTROL command. An action the spec does not name is answered BAD_TARGET; any of the four
commands may take it (assumption 11). -/
def State.controlFrame (s : State) (want : Nat) (act : State → Nat → Group → Nat → State × Bool) : State :=
  s.takeFrame fun f =>
    match f.msg with
    | .circuitControl g a n =>
      if a = want ∨ knownAction a = false then some fun s => s.control f.source f.dest g a n act else none
    | _ => none

/-- The effect of BLOCK on a circuit (R18). -/
def blockCircuit (s : State) (li : Nat) (g : Group) (c : Nat) : State × Bool :=
  match g.circuits[c]? with
  | some (.idle t) => (s.handGroup li { g with circuits := g.circuits.set c (.blocked t) }, true)
  | some (.held t u k false fr) => (s.setGroup li { g with circuits := g.circuits.set c (.held t u k true fr) }, true)
  | some (.busy t u false fr) => (s.setGroup li { g with circuits := g.circuits.set c (.busy t u true fr) }, true)
  | _ => (s, false)

/-- BLOCK (R18). -/
def execBlock (s : State) : Host.Outcome State Fault Refusal := .next (s.controlFrame 1 blockCircuit)

/-- The effect of UNBLOCK on a circuit (R19). -/
def unblockCircuit (s : State) (li : Nat) (g : Group) (c : Nat) : State × Bool :=
  match g.circuits[c]? with
  | some (.blocked t) => (s.handGroup li { g with circuits := g.circuits.set c (.idle t) }, true)
  | some (.held t u k true fr) => (s.setGroup li { g with circuits := g.circuits.set c (.held t u k false fr) }, true)
  | some (.busy t u true fr) => (s.setGroup li { g with circuits := g.circuits.set c (.busy t u false fr) }, true)
  | _ => (s, false)

/-- UNBLOCK (R19). -/
def execUnblock (s : State) : Host.Outcome State Fault Refusal := .next (s.controlFrame 2 unblockCircuit)

/-- The records of an own call on a circuit released by force are marked disputed (R20, R121). -/
def State.markForced (s : State) (user group circuit : Nat) : State :=
  if user = s.address then s.markCircuit group circuit else s

/-- The effect of FORCE-RELEASE on a circuit (R20). -/
def forceCircuit (s : State) (li : Nat) (g : Group) (c : Nat) : State × Bool :=
  match g.circuits[c]? with
  | some (.held t u k bp fr) => (((s.freeSlot k).endUse li g c t bp fr).markForced u g.global c, true)
  | some (.busy t u bp fr) => ((s.endUse li g c t bp fr).markForced u g.global c, true)
  | _ => (s, false)

/-- FORCE_RELEASE (R20). -/
def execForceRelease (s : State) : Host.Outcome State Fault Refusal := .next (s.controlFrame 3 forceCircuit)

/-- The entries after a FAULTY terminal is restored: it serves the lowest FAULTY circuit, or becomes SPARE (R34). -/
def Group.restoredTerminal (g : Group) (t : Nat) : Group :=
  match lowestFaulty g.circuits with
  | some c => { g with terminals := g.terminals.set t (.serving c), circuits := g.circuits.set c (.idle t) }
  | none => { g with terminals := g.terminals.set t .spare }

/-- The effect of RESTORE on a terminal (R34, R35). -/
def restoreTerminal (s : State) (li : Nat) (g : Group) (t : Nat) : State × Bool :=
  match g.terminals[t]? with
  | some .faulty => ((s.handGroup li (g.restoredTerminal t)).evalDemotion li (demoted g.terminals), true)
  | _ => (s, false)

/-- RESTORE (R34). -/
def execRestore (s : State) : Host.Outcome State Fault Refusal := .next (s.controlFrame 4 restoreTerminal)

end Sys2Proof.Machine
end

