-- ==== Sys2Proof/Machine/RateTallyCommands.lean ====
section
/-! DEFINITION. The commands of the rating unit (file 07) and the tally unit (file 08): RATE_SET, RATE_CLEAR,
PERIOD_CLOSE, TALLY_READ, TALLY_ACK. -/

namespace Sys2Proof.Machine

/-- A RATE-SET taken by the rating unit: the entry is written whole, multipliers below 4096 raised to 4096 (R129,
R130). -/
def State.takeRateSet (s : State) (source carrier setup rate green amber red grace : Nat) : State :=
  if 63 < carrier then s.send source (.mgmtDone 48 .badTarget (.carrier carrier))
  else
    let e : RateEntry :=
      { setup := setup, rate := rate, green := max 4096 green, amber := max 4096 amber, red := max 4096 red
        grace := max 4096 grace }
    ({ s with rates := Tab.put s.rates carrier e } : State).send source (.mgmtDone 48 .ok (.carrier carrier))

/-- RATE_SET (R130). -/
def execRateSet (s : State) : Host.Outcome State Fault Refusal :=
  .next <| s.takeFrame fun f =>
    match f.msg with
    | .rateSet carrier a r m0 m1 m2 m3 => some fun s => s.takeRateSet f.source carrier a r m0 m1 m2 m3
    | _ => none

/-- A RATE-CLEAR taken by the rating unit (R129, R131). -/
def State.takeRateClear (s : State) (source carrier : Nat) : State :=
  if 63 < carrier then s.send source (.mgmtDone 49 .badTarget (.carrier carrier))
  else
    match Tab.find s.rates carrier with
    | some _ =>
      ({ s with rates := Tab.del s.rates carrier } : State).send source (.mgmtDone 49 .ok (.carrier carrier))
    | none => s.send source (.mgmtDone 49 .noChange (.carrier carrier))

/-- RATE_CLEAR (R131). -/
def execRateClear (s : State) : Host.Outcome State Fault Refusal :=
  .next <| s.takeFrame fun f =>
    match f.msg with
    | .rateClear carrier => some fun s => s.takeRateClear f.source carrier
    | _ => none

/-- A PERIOD-CLOSE taken by the tally unit (R155). -/
def State.takePeriodClose (s : State) (source : Nat) : State :=
  if s.closedHeld then s.send source (.mgmtDone 50 .bankBusy (.busy s.closedBank.period))
  else
    let closed := s.openBank
    let opened := Bank.empty (closed.period + 1)
    ({ s with openBank := opened, closedBank := closed, closedHeld := true } : State).send source
      (.mgmtDone 50 .ok (.closed closed.period closed.entries.length opened.period))

/-- PERIOD_CLOSE (R155). -/
def execPeriodClose (s : State) : Host.Outcome State Fault Refusal :=
  .next <| s.takeFrame fun f =>
    match f.msg with
    | .periodClose => some fun s => s.takePeriodClose f.source
    | _ => none

/-- The answer to a TALLY-READ (R156). -/
def State.tallyAnswer (s : State) (index : Nat) : Msg :=
  let b := s.closedBank
  if s.closedHeld then
    match b.entries[index]? with
    | some e => .mgmtDone 51 .ok (.tally (some b.period) index b.entries.length (some e))
    | none =>
      if index = 255 then
        .mgmtDone 51 .ok (.tally (some b.period) 255 b.entries.length
          (some { origin := 255, terminating := 255, sums := b.overflow }))
      else .mgmtDone 51 .badIndex (.tally (some b.period) index b.entries.length none)
  else .mgmtDone 51 .badIndex (.tally none index 0 none)

/-- TALLY_READ (R156). -/
def execTallyRead (s : State) : Host.Outcome State Fault Refusal :=
  .next <| s.takeFrame fun f =>
    match f.msg with
    | .tallyRead index => some fun s => s.send f.source (s.tallyAnswer index)
    | _ => none

/-- A TALLY-ACK taken by the tally unit (R157). -/
def State.takeTallyAck (s : State) (source period : Nat) : State :=
  if s.closedHeld then
    if s.closedBank.period.toNat = period then
      ({ s with closedBank := Bank.empty s.closedBank.period, closedHeld := false } : State).send source
        (.mgmtDone 52 .ok (.acked (some s.closedBank.period)))
    else s.send source (.mgmtDone 52 .periodMismatch (.acked (some s.closedBank.period)))
  else s.send source (.mgmtDone 52 .periodMismatch (.acked none))

/-- TALLY_ACK (R157). -/
def execTallyAck (s : State) : Host.Outcome State Fault Refusal :=
  .next <| s.takeFrame fun f =>
    match f.msg with
    | .tallyAck period => some fun s => s.takeTallyAck f.source period
    | _ => none

end Sys2Proof.Machine
end

