-- ==== Sys2Proof/Machine/StationCommands.lean ====
section
/-! DEFINITION. The commands of station control (file 10): POWER_ON, BPRST_ASSERTED, BPRST_RELEASED,
CONFIG_READ_COMPLETE, LISTEN_DEADLINE, STATION_RESET, PRESENT, ABSENCE_EVENT, STATUS_READ. -/

namespace Sys2Proof.Machine

/-! ## Power-on and the backplane reset (R178, R179) -/

/-- POWER_ON: every block takes its power-on value (R179). The queue of commands and the count of free values drawn
are not the engine's. -/
def execPowerOn (s : State) : Host.Outcome State Fault Refusal :=
  .next { State.reset with pending := s.pending, draws := s.draws }

/-- BPRST_ASSERTED: what the step of the assertion does (R179). The rest of the hard reset waits for the completed
read. -/
def execBprstAsserted (s : State) : Host.Outcome State Fault Refusal :=
  .next { s.quiet .starting with clock := 0, bprstLow := true, reading := false }

/-- BPRST_RELEASED: the clock counts, the read begins, CONFIG_TRIMMED is cleared (R178, R179, R182). -/
def execBprstReleased (s : State) : Host.Outcome State Fault Refusal :=
  .next <| if s.bprstLow then { s with bprstLow := false, reading := true, trimmed := false } else s

/-! ## The configuration read (R180 to R182, R6, R7) -/

/-- A group is continued when it was configured before the reset with the same working and spare counts (R7). -/
def continues (old : Option Group) (cfg : GroupConfig) : Bool :=
  match old with
  | some g => decide (g.cfg.working = cfg.working ∧ g.cfg.spares = cfg.spares)
  | none => false

/-- A group built from its configuration (R6). Its load record is recomputed at entry to LISTEN (R56). -/
def builtGroup (address li : Nat) (cfg : GroupConfig) (now : Clock) : Group :=
  Group.recomputed
    { cfg := cfg, global := 16 * address + li, effPref := cfg.preference, huntPtr := 0
      circuits := (List.range cfg.working).map .idle
      terminals := (List.range cfg.working).map .serving ++ List.replicate cfg.spares .spare
      load := { inService := 0, occupied := 0, free := 0, figure := 0, graceEff := 0, band := .green, floor := 0
                smoothed := 65535, lastAttempt := now, surge := false
                announced := { band := .green, floor := 0, surge := false } } }

/-- A configured group before the reset releases: continued with the new image's fields, or built (R6, R7). -/
def establishedGroup (old : Option Group) (address li : Nat) (cfg : GroupConfig) (now : Clock) : Group :=
  match old with
  | some g =>
    if continues old cfg then { g with cfg := cfg, global := 16 * address + li } else builtGroup address li cfg now
  | none => builtGroup address li cfg now

/-- A group after the reset releases: the hunt pointer is 0 and the effective preference follows the demotion
condition (R7, R36). -/
def Group.settled (g : Group) : Group :=
  { g with huntPtr := 0, effPref := effectivePref g.cfg.preference (demoted g.terminals) }

/-- A read that fails halts the station with no group records (R180 steps 2 and 3). What else of the reset it takes is
assumption 6. -/
def State.readFailed (s : State) : State :=
  { s.quiet .halted with
    groups := [], suspects := [], slots := emptySlots, routes := [], views := [], counters := {} }

/-- A read with a good CRC and address: the configuration is in use, the groups are established, the hard reset's
effects are taken, and the station enters LISTEN (R7, R24, R180 to R183, R192). -/
def State.readGood (s : State) (image : List Byte) : State :=
  let cfg := decodeEngine image
  let r := withinBudget 0 (presentGroups image)
  let kept := r.1.filter fun p => continues (Tab.find s.groups p.1) p.2
  let s : State := { s with
    config := cfg, trimmed := r.2
    groups := r.1.map fun p => (p.1, establishedGroup (Tab.find s.groups p.1) cfg.address p.1 p.2 s.clock)
    suspects := s.suspects.filter fun e => kept.any fun p => decide (p.1 = e.1) }
  let s := s.releaseGroups (kept.map (·.1)) (·.inUse)
  let s : State := { s with
    slots := emptySlots, counters := {}, groups := s.groups.map fun p => (p.1, p.2.settled) }
  s.enterListen

/-- CONFIG_READ_COMPLETE (R180). -/
def execConfigReadComplete (image : List Byte) (s : State) : Host.Outcome State Fault Refusal :=
  .next <|
    if decide (s.station = .starting) && s.reading then
      let s : State := { s with reading := false }
      if imageGood image && decide (field image 0 1 ≤ 31) then s.readGood image else s.readFailed
    else s

/-! ## Activation and soft reset (R184, R185) -/

/-- LISTEN_DEADLINE (R184). -/
def execListenDeadline (s : State) : Host.Outcome State Fault Refusal :=
  .next <|
    match s.listenDeadline with
    | none => s
    | some d =>
      if decide (s.station = .listen) && reached s.clock d then
        let s : State := { s.setStation .active with
          listenDeadline := none, reachDeadline := some (after s.clock (1000 * s.config.reachPeriod)) }
        ((s.send Config.broadcast (.present Station.active.code)).setOfReach).setOfLoads
      else s

/-- A soft reset (R185, R8). -/
def State.softReset (s : State) : State :=
  let s := (s.quiet .starting).emptyHolds
  ({ s with groups := s.groups.map fun p => (p.1, { p.2 with huntPtr := 0 }) } : State).enterListen

/-- STATION_RESET (R185). It is not answered. -/
def execStationReset (s : State) : Host.Outcome State Fault Refusal :=
  .next <| s.takeFrame fun f =>
    match f.msg with
    | .stationReset => some fun s => s.softReset
    | _ => none

/-! ## The census (R126, R188 to R190) -/

/-- An attempt toward an absent or restarted peer fails (R126). -/
def State.failAttempt (s : State) (r : Nat) : State :=
  match Tab.find s.calls r with
  | none => s
  | some rec =>
    match rec.phase with
    | .awaitHold _ _ => s.crankback r rec.base .peerAbsent
    | _ => s

/-- The record is in AWAIT_HOLD toward a peer (R126). -/
def CallRecord.awaits (rec : CallRecord) (peer : Nat) : Bool :=
  match rec.phase with
  | .awaitHold _ _ => decide (rec.group / 16 = peer)
  | _ => false

/-- Every attempt toward the peer fails, in ascending record order (R126). -/
def State.failAttempts (s : State) (peer : Nat) : State :=
  ((s.calls.filter fun p => p.2.awaits peer).map (·.1)).foldl (fun s r => s.failAttempt r) s

/-- The notices of a peer's absence or restart: to the reach map and the view unit, then the call unit, then the hold
unit (R188, R189). -/
def State.peerGone (s : State) (peer : Nat) : State := ((s.forgetPeer peer).failAttempts peer).freeHoldsOf peer

/-- ABSENCE_EVENT (R188). -/
def execAbsenceEvent (peer : Nat) (s : State) : Host.Outcome State Fault Refusal :=
  .next <|
    match Tab.find s.roster peer with
    | none => s
    | some heard =>
      if s.running && decide (peer ≠ s.address) && ageExceeds s.clock heard s.config.silenceLimit then
        ({ s with roster := Tab.del s.roster peer } : State).peerGone peer
      else s

/-- A PRESENT taken by station control (R189). -/
def State.takePresent (s : State) (source code : Nat) : State :=
  if source = s.address then s.halt
  else if code = Station.listen.code then ((s.peerGone source).setOfReach).setOfLoads
  else if code = Station.active.code then s
  else s.bump .badFrame

/-- PRESENT (R189). -/
def execPresent (s : State) : Host.Outcome State Fault Refusal :=
  .next <| s.takeFrame fun f =>
    match f.msg with
    | .present code => some fun s => s.takePresent f.source code
    | _ => none

/-! ## Status read (R191) -/

/-- The roster as a bitmap with bit n set when engine n is PRESENT. -/
def rosterBitmap (roster : Tab Clock) : Nat := (roster.map fun p => 2 ^ p.1).sum

/-- The answer to a STATUS-READ (R191). -/
def State.statusMsg (s : State) : Msg :=
  .mgmtDone 54 .ok
    (.status s.station.code s.address (rosterBitmap s.roster) s.trimmed s.clock s.counters)

/-- STATUS_READ (R191). -/
def execStatusRead (s : State) : Host.Outcome State Fault Refusal :=
  .next <| s.takeFrame fun f =>
    match f.msg with
    | .statusRead => some fun s => s.send f.source s.statusMsg
    | _ => none

/-! ## The passing of time (R178; assumption 2) -/

/-- One millisecond: the clock counts, unless it is held while BPRST is low (R178). -/
def State.tick (s : State) : State := if s.bprstLow then s else { s with clock := s.clock + 1 }

end Sys2Proof.Machine
end

