-- ==== Sys2Proof/Machine/Dispatch.lean ====
section
/-! DEFINITION. One arm per command: each calls its own meaning. -/

namespace Sys2Proof.Machine

def exec (i : Instr) (s : State) : Host.Outcome State Fault Refusal :=
  match i with
  | .powerOn => Sys2Proof.Machine.execPowerOn s
  | .bprstAsserted => Sys2Proof.Machine.execBprstAsserted s
  | .bprstReleased => Sys2Proof.Machine.execBprstReleased s
  | .configReadComplete image => Sys2Proof.Machine.execConfigReadComplete image s
  | .listenDeadline => Sys2Proof.Machine.execListenDeadline s
  | .announceDeadline => Sys2Proof.Machine.execAnnounceDeadline s
  | .reachDeadline => Sys2Proof.Machine.execReachDeadline s
  | .holdExpiry slot => Sys2Proof.Machine.execHoldExpiry slot s
  | .answerTimeout record => Sys2Proof.Machine.execAnswerTimeout record s
  | .offerTimeout record => Sys2Proof.Machine.execOfferTimeout record s
  | .stalenessEvent group => Sys2Proof.Machine.execStalenessEvent group s
  | .absenceEvent peer => Sys2Proof.Machine.execAbsenceEvent peer s
  | .frameReceived frame ended => Sys2Proof.Machine.execFrameReceived frame ended s
  | .busIdleContention others => Sys2Proof.Machine.execBusIdleContention others s
  | .bitMismatch => Sys2Proof.Machine.execBitMismatch s
  | .frameSent => Sys2Proof.Machine.execFrameSent s
  | .holdAsk => Sys2Proof.Machine.execHoldAsk s
  | .holdTake => Sys2Proof.Machine.execHoldTake s
  | .holdDrop => Sys2Proof.Machine.execHoldDrop s
  | .holdFault => Sys2Proof.Machine.execHoldFault s
  | .holdGive => Sys2Proof.Machine.execHoldGive s
  | .holdDeny => Sys2Proof.Machine.execHoldDeny s
  | .holdLost => Sys2Proof.Machine.execHoldLost s
  | .routeAsk => Sys2Proof.Machine.execRouteAsk s
  | .seized => Sys2Proof.Machine.execSeized s
  | .answered => Sys2Proof.Machine.execAnswered s
  | .seizeFailed => Sys2Proof.Machine.execSeizeFailed s
  | .abandoned => Sys2Proof.Machine.execAbandoned s
  | .callClear => Sys2Proof.Machine.execCallClear s
  | .load => Sys2Proof.Machine.execLoad s
  | .reach => Sys2Proof.Machine.execReach s
  | .probe => Sys2Proof.Machine.execProbe s
  | .present => Sys2Proof.Machine.execPresent s
  | .block => Sys2Proof.Machine.execBlock s
  | .unblock => Sys2Proof.Machine.execUnblock s
  | .forceRelease => Sys2Proof.Machine.execForceRelease s
  | .restore => Sys2Proof.Machine.execRestore s
  | .rateSet => Sys2Proof.Machine.execRateSet s
  | .rateClear => Sys2Proof.Machine.execRateClear s
  | .periodClose => Sys2Proof.Machine.execPeriodClose s
  | .tallyRead => Sys2Proof.Machine.execTallyRead s
  | .tallyAck => Sys2Proof.Machine.execTallyAck s
  | .statusRead => Sys2Proof.Machine.execStatusRead s
  | .stationReset => Sys2Proof.Machine.execStationReset s

end Sys2Proof.Machine
end

