-- ==== Sys2Proof/Safety.lean ====
section
/-! DEFINITION. What every step keeps true of the state, component by component, in the terms the spec uses; and the
words in which the statements speak of a frame that a block offers. -/

namespace Sys2Proof.Machine

/-! ## Offers -/

/-- Nothing but the transmit queue and the counters differs. -/
def OnlyQueue (s t : State) : Prop := t = { s with tx := t.tx, counters := t.counters }

/-- What one offer of a frame does while the station is LISTEN or ACTIVE: it becomes the newest entry of the transmit
queue, or it is refused and counted (R170). -/
def Offered (s t : State) (dest : Nat) (m : Msg) : Prop :=
  OnlyQueue s t ∧
    if s.tx.length < Config.txCapacity then
      t.tx = s.tx ++ [{ dest := dest, body := .msg m, onLine := none }] ∧ t.counters = s.counters
    else t.tx = s.tx ∧ t.counters = s.counters.bump .txDrop

/-- What one offer of a LOAD does while the station is LISTEN or ACTIVE: a waiting LOAD of the group takes it in, or it
becomes the newest entry, broadcast, or it is refused and counted (R50, R170). -/
def LoadOffered (s t : State) (group : Nat) : Prop :=
  OnlyQueue s t ∧
    if ∃ e ∈ s.tx, e.onLine = none ∧ e.body = .load group then t.tx = s.tx ∧ t.counters = s.counters
    else if s.tx.length < Config.txCapacity then
      t.tx = s.tx ++ [{ dest := Config.broadcast, body := .load group, onLine := none }] ∧ t.counters = s.counters
    else t.tx = s.tx ∧ t.counters = s.counters.bump .txDrop

/-- The triple test of a group after its record has been written: a LOAD is offered when the current triple is not the
last-announced one (R49). -/
def TripleTested (s t : State) (g : Group) : Prop :=
  if g.load.triple = g.load.announced then t = s else LoadOffered s t g.global

/-- A frame waiting in the transmit queue. -/
def waiting (dest : Nat) (m : Msg) : TxEntry := { dest := dest, body := .msg m, onLine := none }

/-- The REACH of an own group, waiting (R87). -/
def waitingReach (g : Group) : TxEntry := waiting Config.broadcast (reachMsg g)

/-- The LOAD of an own group, waiting: it names the group only (R48). -/
def waitingLoadOf (g : Group) : TxEntry := { dest := Config.broadcast, body := .load g.global, onLine := none }

/-- A group record is written and handed to the load unit (R5, R39), and its triple is tested (R49). -/
def GroupHanded (s t : State) (li : Nat) (g : Group) : Prop :=
  TripleTested { s with groups := Tab.put s.groups li g.recomputed } t g.recomputed

/-- Bytes are fields of the given widths and values, one behind the other, each most significant byte first (section
9.5). -/
def Spells : List Byte → List (Nat × Nat) → Prop
  | p, [] => p = []
  | p, (width, value) :: rest => width ≤ p.length ∧ field p 0 width = value ∧ Spells (p.drop width) rest

/-- A frame is the oldest of the receive queue of a station that takes frames (R169, R172). -/
def State.takes (s : State) (source dest : Nat) (m : Msg) (rest : List RxFrame) : Prop :=
  s.running = true ∧ s.rx = { source := source, dest := dest, msg := m } :: rest

/-- A frame with a good CRC from a source has been heard: an engine's roster entry is refreshed, but for the own one
(R165, R186). -/
def State.heardFrom (s : State) (source : Nat) : State :=
  { s with roster := if source < 32 ∧ source ≠ s.address then Tab.put s.roster source s.clock else s.roster }

/-! ## Lines, deadlines and what is kept only in some station states -/

/-- READY and FAULT follow the station state (R177). -/
def State.LinesFollow (s : State) : Prop :=
  s.ready = decide (s.station = .active) ∧ s.fault = decide (s.station = .halted)

/-- The queues are empty outside LISTEN and ACTIVE (R172), call records exist in ACTIVE only (R100), the roster is kept
in LISTEN and ACTIVE only and then holds the own entry (R186, R187), and each deadline is kept in just the station
states its rule gives (R55, R88, R183). -/
def State.KeptInState (s : State) : Prop :=
  (s.running = false → s.tx = [] ∧ s.rx = [] ∧ s.roster = []) ∧
  (s.station ≠ .active → s.calls = []) ∧
  (s.running = true → s.isPresent s.address = true) ∧
  (s.listenDeadline.isSome = decide (s.station = .listen)) ∧
  (s.announceDeadline.isSome = s.running) ∧
  (s.reachDeadline.isSome = decide (s.station = .active))

/-! ## Queues and counters -/

/-- The transmit queue holds at most 32 entries, at most one of them in sending, and no entry for a group's LOAD behind
a waiting LOAD of that group, so at most one waiting LOAD of any group (R163, R170). -/
def State.TxSound (s : State) : Prop :=
  s.tx.length ≤ Config.txCapacity ∧ s.tx.countP (·.onLine.isSome) ≤ 1 ∧
    s.tx.Pairwise fun a b => ∀ g, a.waitingLoad g = true → b.body ≠ .load g

/-- The receive queue holds at most 16 frames, each of which has passed checks 2 to 4 of R166. -/
def State.RxSound (s : State) : Prop :=
  s.rx.length ≤ Config.rxCapacity ∧
    ∀ f ∈ s.rx, f.source < 63 ∧ f.msg.fits = true ∧ f.msg.suits f.source f.dest s.address = true ∧
      (f.msg.isManagement = true → 48 ≤ f.source)

/-- Every counter holds 0 to 65535 (R192). -/
def State.CountersSound (s : State) : Prop := ∀ n ∈ s.counters.toList, n ≤ Config.counterMax

/-! ## Configuration -/

/-- The engine-wide parameters lie in their ranges (R181; 00_scope, Engine-wide parameters). -/
def EngineConfig.InRange (c : EngineConfig) : Prop :=
  c.address ≤ 31 ∧ (100 ≤ c.announcePeriod ∧ c.announcePeriod ≤ 5000) ∧ (1 ≤ c.reachPeriod ∧ c.reachPeriod ≤ 60) ∧
  (300 ≤ c.viewLifetime ∧ c.viewLifetime ≤ 20000) ∧ (300 ≤ c.silenceLimit ∧ c.silenceLimit ≤ 20000) ∧
  (1 ≤ c.holdLifetime ∧ c.holdLifetime ≤ 60) ∧ (5 ≤ c.answerTimeout ∧ c.answerTimeout ≤ 250) ∧
  (1 ≤ c.offerTimeout ∧ c.offerTimeout ≤ 60 ∧ c.offerTimeout ≤ c.holdLifetime) ∧
  (100 ≤ c.listenWindow ∧ c.listenWindow ≤ 5000) ∧ c.transitFraction ≤ 65535 ∧ c.exemption ≤ 8

/-- A group's configuration fields lie in their ranges (R181; 00_scope, Per-group parameters). -/
def GroupConfig.InRange (c : GroupConfig) : Prop :=
  c.carrier ≤ 63 ∧ (1 ≤ c.working ∧ c.working ≤ 240) ∧ c.spares ≤ 15 ∧ c.destFirst ≤ 1023 ∧
  (1 ≤ c.destCount ∧ c.destCount ≤ 32 ∧ c.destFirst + c.destCount ≤ 1024) ∧ c.preference ≤ 14 ∧
  (c.yellow ≤ c.red ∧ c.red ≤ 256) ∧ c.grace ≤ 15 ∧ (c.amberFloor ≤ c.redFloor ∧ c.redFloor ≤ 7) ∧
  c.surgeInterval ≤ 65535

/-- The configuration in use and every group record's configuration lie in their ranges, and the groups' working and
spare counts fit the terminal budget (R181, R182). -/
def State.ConfigSound (s : State) : Prop :=
  s.config.InRange ∧ (∀ p ∈ s.groups, p.1 < 16 ∧ p.2.cfg.InRange) ∧
    (s.groups.map fun p => p.2.cfg.working + p.2.cfg.spares).sum ≤ Config.terminalBudget

/-! ## Tables -/

/-- Every sparse table is in its canonical form, so that equal tables are equal data. -/
def State.TablesSound (s : State) : Prop :=
  Tab.wf s.roster ∧ Tab.wf s.groups ∧ Tab.wf s.routes ∧ Tab.wf s.views ∧ Tab.wf s.calls ∧ Tab.wf s.rates

/-- A route list as R80 gives it: at most 6 candidates, sorted by effective preference and then by group, no group
twice; and a list without candidates is not listed. -/
def routeListSound (l : List Candidate) : Prop :=
  l ≠ [] ∧ l.length ≤ Config.routeCandidates ∧ l.Pairwise (fun a b => a.before b = true) ∧ (l.map (·.group)).Nodup

/-- Every route list is as R80 gives it, and stands under one of the 1024 destination codes. -/
def State.RoutesSound (s : State) : Prop := ∀ p ∈ s.routes, p.1 < 1024 ∧ routeListSound p.2

/-- Every candidate names a global group 0 to 511 at an effective preference 0 to 15 (R80). -/
def State.RoutesInRange (s : State) : Prop := ∀ p ∈ s.routes, ∀ c ∈ p.2, c.group ≤ 511 ∧ c.pref ≤ 15

/-- The first six, by R80, of the own groups that reach each destination make up its route list (R82, R84). -/
def State.OwnRoutes (s : State) : Prop :=
  ∀ d < 1024, ∃ l : List Candidate,
    l.Perm ((s.groups.filter fun p => decide (p.2.cfg.destFirst ≤ d ∧ d < p.2.cfg.destFirst + p.2.cfg.destCount)).map
      fun p => { group := p.2.global, pref := p.2.effPref }) ∧
    l.Pairwise (fun a b => a.before b = true) ∧ s.routeList d = l.take Config.routeCandidates

/-- Every rate entry stands under a carrier 0 to 63, with no multiplier below 4096 (R128). -/
def State.RatesSound (s : State) : Prop :=
  ∀ p ∈ s.rates, p.1 < 64 ∧ 4096 ≤ p.2.green ∧ 4096 ≤ p.2.amber ∧ 4096 ≤ p.2.red ∧ 4096 ≤ p.2.grace

/-- Setup charge, rate and multipliers of every rate entry are 0 to 65535 (R128). -/
def State.RatesInRange (s : State) : Prop :=
  ∀ p ∈ s.rates, p.2.setup ≤ 65535 ∧ p.2.rate ≤ 65535 ∧ p.2.green ≤ 65535 ∧ p.2.amber ≤ 65535 ∧ p.2.red ≤ 65535 ∧
    p.2.grace ≤ 65535

/-! ## Calls -/

/-- A live record: its tried list holds no group twice and at most 4, its length is the attempt count, its newest group
is the current candidate (R99, R106), and its locked band is neither FULL nor CLOSED (R110). -/
def CallRecord.Sound (rec : CallRecord) : Prop :=
  rec.base.tried.length = rec.base.attempts ∧ 1 ≤ rec.base.attempts ∧ rec.base.attempts ≤ Config.maxAttempts ∧
  rec.base.tried.Nodup ∧ rec.base.tried.getLast? = some rec.group ∧
  rec.base.prec ≤ 7 ∧ rec.base.origin ≤ 63 ∧ rec.base.dest ≤ 1023 ∧
  ∀ gr, rec.phase.grant = some gr → gr.band ≠ .full ∧ gr.band ≠ .closed

/-- Every live record is sound, stands under a record number below 512, and has a key of its own (R99). -/
def State.CallsSound (s : State) : Prop :=
  (∀ p ∈ s.calls, p.1 < Config.callRecords ∧ p.2.Sound) ∧
  (s.calls.map fun p => (p.2.base.client, p.2.base.tag)).Nodup

/-- Every grant that a live record holds names a carrier 0 to 63 (R99, R109). -/
def State.CarriersSound (s : State) : Prop :=
  ∀ p ∈ s.calls, ∀ gr, p.2.phase.grant = some gr → gr.carrier ≤ 63

/-! ## Tallies -/

/-- The sums of an entry lie within their accumulators (R149). -/
def Sums.InRange (topCalls : Nat) (e : Sums) : Prop :=
  e.calls ≤ topCalls ∧ e.seconds ≤ max48 ∧ e.settled ≤ max48 ∧ e.disputed ≤ max48 ∧ e.transit ≤ max48 ∧
  e.unrated ≤ max32

/-- A bank holds at most 96 pair entries, no two for one pair, and sums within their accumulators (R148, R149). -/
def Bank.Sound (b : Bank) : Prop :=
  b.entries.length ≤ Config.pairEntries ∧ (b.entries.map fun e => (e.origin, e.terminating)).Nodup ∧
  (∀ e ∈ b.entries, e.sums.InRange max32) ∧ b.overflow.InRange max48

/-- Both banks are sound, an EMPTY closed bank holds nothing, and the open period is the one after the period most
recently closed (R148, R159). -/
def State.TallySound (s : State) : Prop :=
  s.openBank.Sound ∧ s.closedBank.Sound ∧
  (s.closedHeld = false → s.closedBank = Bank.empty s.closedBank.period) ∧
  s.openBank.period = s.closedBank.period + 1

/-- Every pair entry of both banks names two carriers 0 to 63 (R149). -/
def State.PairsInRange (s : State) : Prop :=
  ∀ e ∈ s.openBank.entries ++ s.closedBank.entries, e.origin ≤ 63 ∧ e.terminating ≤ 63

/-! ## Load records -/

/-- Every group's load record is what its circuit entries and surge flag give (R5, R39). -/
def State.LoadSound (s : State) : Prop := ∀ p ∈ s.groups, p.2.recomputed = p.2

/-! ## Circuits, terminals, holds and suspects -/

/-- A group has one circuit entry per working circuit and one terminal entry per terminal, circuit and terminal name
each other, no group has a FAULTY circuit and a SPARE terminal at once, and the effective preference follows the
demotion condition (R1 to R4, R33, R35). -/
def Group.Sound (address li : Nat) (g : Group) : Prop :=
  g.global = 16 * address + li ∧ g.circuits.length = g.cfg.working ∧
  g.terminals.length = g.cfg.working + g.cfg.spares ∧ g.huntPtr < g.cfg.working ∧
  (∀ c t, (g.circuits[c]?).bind Circuit.terminal = some t ↔ g.terminals[t]? = some (TermRole.serving c)) ∧
  ¬ (Circuit.faulty ∈ g.circuits ∧ TermRole.spare ∈ g.terminals) ∧
  g.effPref = effectivePref g.cfg.preference (demoted g.terminals)

/-- The circuit a terminal of an own group serves. -/
def State.servedBy (s : State) (li t : Nat) : Option Circuit :=
  (Tab.find s.groups li).bind fun g =>
    match g.terminals[t]? with
    | some (.serving c) => g.circuits[c]?
    | _ => none

/-- A circuit that a suspect's terminal may serve: IDLE, BLOCKED, or HELD without fault-on-release (R23 note 1,
R30). -/
def Circuit.maySuspect : Circuit → Bool
  | .idle _ => true
  | .blocked _ => true
  | .held _ _ _ _ fr => !fr
  | .busy .. => false
  | .faulty => false

/-- Every group record is sound and stands under a local index 0 to 15 of an engine address. -/
def State.GroupsSound (s : State) : Prop :=
  s.address ≤ 31 ∧ ∀ p ∈ s.groups, p.1 < 16 ∧ p.2.Sound s.address p.1

/-- A HELD circuit and its hold slot name each other, with one user (R11, R57). -/
def State.HoldsLinked (s : State) : Prop :=
  (∀ k h, s.holdAt k = some h → ∃ li g t bp fr, Tab.find s.groups li = some g ∧ h.group = g.global ∧
    g.circuits[h.circuit]? = some (.held t h.requester k bp fr)) ∧
  (∀ li g c t u k bp fr, Tab.find s.groups li = some g → g.circuits[c]? = some (.held t u k bp fr) →
    ∃ h, s.holdAt k = some h ∧ h.group = g.global ∧ h.circuit = c ∧ h.requester = u)

/-- A hold id matches a slot (R58). -/
def State.HoldMatches (s : State) (sender slot generation group circuit : Nat) : Prop :=
  ∃ x h, s.slots[slot]? = some x ∧ x.hold = some h ∧ x.generation.toNat = generation ∧ h.group = group ∧
    h.circuit = circuit ∧ h.requester = sender

/-- The record drops its circuit at its end: it is not disputed, or its local take has made the circuit BUSY again (R121;
assumption 10). -/
def CallRecord.dropsAtEnd (rec : CallRecord) : Bool := !rec.disputed || rec.retaken

/-- RINGING or CONNECTED (R116, R117). -/
def Phase.seized : Phase → Bool
  | .awaitHold .. => false
  | .offered .. => false
  | .ringing _ => true
  | .connected .. => true

/-- The circuit of an own group that a record is to drop at its end is this station's: HELD under the record's hold id
while the record is OFFERED, and BUSY in RINGING and CONNECTED (R110, R116, R117). -/
def State.Backs (s : State) (rec : CallRecord) (gr : Grant) : Prop :=
  ∃ li g t bp fr,
    if rec.phase.seized then
      s.ownCircuit rec.group gr.circuit = some (li, g, .busy t s.address bp fr)
    else
      s.ownCircuit rec.group gr.circuit = some (li, g, .held t s.address gr.slot bp fr) ∧
        s.HoldMatches s.address gr.slot gr.generation rec.group gr.circuit

/-- Every record of a call on an own group that is to drop its circuit at its end has that circuit, and no two such
records have one circuit (R121). -/
def State.CallsBacked (s : State) : Prop :=
  (∀ p ∈ s.calls, ∀ gr, p.2.phase.grant = some gr → p.2.group / 16 = s.address → p.2.dropsAtEnd = true →
    s.Backs p.2 gr) ∧
  ∀ p ∈ s.calls, ∀ q ∈ s.calls, ∀ gr gr', p.2.phase.grant = some gr → q.2.phase.grant = some gr' →
    p.2.group / 16 = s.address → p.2.group = q.2.group → gr.circuit = gr'.circuit → p.2.dropsAtEnd = true →
    q.2.dropsAtEnd = true → p.1 = q.1

/-- The suspect list holds at most 16 entries, none twice, each a terminal that serves a circuit which may be suspect
(R23). -/
def State.SuspectsSound (s : State) : Prop :=
  s.suspects.length ≤ Config.suspectCapacity ∧ s.suspects.Nodup ∧
  ∀ e ∈ s.suspects, ∃ x, s.servedBy e.1 e.2 = some x ∧ x.maySuspect = true

/-! ## Reset releases -/

/-- Fault-on-release is set (R3). -/
def Circuit.faultWaits : Circuit → Bool
  | .held _ _ _ _ fr => fr
  | .busy _ _ _ fr => fr
  | _ => false

/-- What the release order makes of a circuit in use without fault-on-release (R15, steps 2 and 3). -/
def Circuit.released : Circuit → Circuit
  | .held t _ _ bp _ => if bp then .blocked t else .idle t
  | .busy t _ bp _ => if bp then .blocked t else .idle t
  | x => x

/-- What the releases of a reset make of a group's circuits and terminals, in whatever order they are taken: a circuit
that the test does not name stays as it is; one that it names is released; with fault-on-release its terminal is FAULTY
and it is IDLE on a terminal that was SPARE, or FAULTY where no SPARE terminal is left. The spares are taken from the
lowest up, and every other terminal stays as it is (R7, R8, R15, R31 to R33). -/
def ReleasedGroup (test : Circuit → Bool) (old new : Group) : Prop :=
  new.circuits.length = old.circuits.length ∧ new.terminals.length = old.terminals.length ∧
  (∀ (c : Nat) (x : Circuit), old.circuits[c]? = some x →
    (test x = false → new.circuits[c]? = some x) ∧
    (test x = true → x.faultWaits = false → new.circuits[c]? = some x.released) ∧
    (test x = true → x.faultWaits = true →
      (∀ t, x.terminal = some t → new.terminals[t]? = some TermRole.faulty) ∧
      ((∃ sp : Nat, old.terminals[sp]? = some TermRole.spare ∧ new.terminals[sp]? = some (TermRole.serving c) ∧
          new.circuits[c]? = some (Circuit.idle sp)) ∨
        (new.circuits[c]? = some Circuit.faulty ∧ TermRole.spare ∉ new.terminals)))) ∧
  (∀ t : Nat, old.terminals[t]? ≠ some TermRole.spare →
    (∀ (c : Nat) (x : Circuit), old.circuits[c]? = some x → x.terminal = some t → test x = true → x.faultWaits = false) →
      new.terminals[t]? = old.terminals[t]?) ∧
  (∀ t : Nat, old.terminals[t]? = some TermRole.spare → new.terminals[t]? = some TermRole.spare ∨
    ∃ (c : Nat) (x : Circuit), old.circuits[c]? = some x ∧ test x = true ∧ x.faultWaits = true ∧
      new.terminals[t]? = some (TermRole.serving c)) ∧
  (∀ a b : Nat, a < b → old.terminals[a]? = some TermRole.spare → new.terminals[a]? = some TermRole.spare →
    old.terminals[b]? = some TermRole.spare → new.terminals[b]? = some TermRole.spare)

end Sys2Proof.Machine
end

