-- ==== Sys2Proof/Certificates/Slice0/Obligations.lean ====
section
/-! DEFINITION. The statements for the provers. -/

open Sys2Proof Sys2Proof.Machine

/-! ## Steps -/

/-- A step takes the command at the front of the queue and runs it on the state with the queue's rest. On an empty
queue the model's choice (assumption 2): one millisecond passes, and the clock counts unless BPRST holds it at its
value (R178). -/
def Obligations.StepTakesFront : Prop :=
  ∀ s : State,
    (∀ c rest, s.pending = c :: rest → step s = exec c { s with pending := rest }) ∧
    (s.pending = [] → s.bprstLow = false → step s = .next { s with clock := s.clock + 1 }) ∧
    (s.pending = [] → s.bprstLow = true → step s = .next s)

/-- No command faults or is refused, in any state: the model's reading, since the spec gives every row an effect
(assumption 22). None touches the queue of commands, which is the model's own; that POWER_ON keeps it is the model's
choice (assumption 28). -/
def Obligations.CommandsComplete : Prop :=
  ∀ (c : Instr) (s : State), ∃ t, exec c s = .next t ∧ t.pending = s.pending

/-- Every property that the steps keep holds of the machine right after reset. What that machine is, is the model's
reading (assumption 4); the configuration that stands in it before the first read, and so ConfigSound, is the model's
choice (assumption 5). -/
def Obligations.ResetIsSound : Prop :=
  State.reset.LinesFollow ∧ State.reset.KeptInState ∧ State.reset.TxSound ∧ State.reset.RxSound ∧
  State.reset.CountersSound ∧ State.reset.ConfigSound ∧ State.reset.TablesSound ∧ State.reset.RoutesSound ∧
  State.reset.RoutesInRange ∧ State.reset.RatesSound ∧ State.reset.RatesInRange ∧ State.reset.CallsSound ∧
  State.reset.CarriersSound ∧ State.reset.TallySound ∧ State.reset.PairsInRange ∧ State.reset.LoadSound ∧
  State.reset.GroupsSound ∧ State.reset.HoldsLinked ∧ State.reset.SuspectsSound ∧ State.reset.CallsBacked

/-! ## The bus -/

/-- Every kind of frame, those that an engine takes and those that it only sends: its class (R163), its kind number, and
its payload fields in the order, widths and codes of the tables, MGMT-DONE with each of its contents (section 9.5).
Calls of 2^32 or more, which only the overflow entry holds, go out as FFFFFFFFH with the saturated byte 1. Every frame
an engine takes is read back from its payload as it was laid out, so no bit of a field is dropped; and a payload that is
read at all is, byte for byte, the payload of what was read, under its own kind number. -/
def Obligations.PayloadReadBack : Prop :=
  (∀ m : Msg, m.fits = true → parseMsg m.kind m.payload = some m) ∧
  (∀ (k : Nat) (p : List Byte) (m : Msg), parseMsg k p = some m → m.kind = k ∧ m.payload = p ∧ m.fits = true) ∧
  let laid := fun (m : Msg) (cls kind : Nat) (fields : List (Nat × Nat)) =>
    m.cls = cls ∧ m.kind = kind ∧ ((∀ f ∈ fields, f.2 < 256 ^ f.1) → Spells m.payload fields)
  let flag := fun (b : Bool) => if b = true then 1 else 0
  let failCodes := [RouteFailCode.notReady, .badDest, .duplicate, .noRecord, .noRoute, .congested, .offerExpired]
  let outcomes := [none, some AttemptOutcome.notOwner, some .closed, some .full, some .admission, some .noSlot,
    some .noAnswer, some .busFull, some .peerAbsent, some .seizeFailed]
  let mgmtCodes := [MgmtCode.ok, .noChange, .badTarget, .badIndex, .periodMismatch, .bankBusy, .notPermitted]
  (∀ serial ref group prec : Nat, laid (.holdAsk serial ref group prec) 0 1
    [(2, serial), (2, ref), (2, group), (1, prec)]) ∧
  (∀ serial ref group slot gen circuit terminal carrier band : Nat,
    laid (.holdGive serial ref group slot gen circuit terminal carrier band) 0 2 [(2, serial), (2, ref), (2, group),
      (1, slot), (1, gen), (1, circuit), (1, terminal), (1, carrier), (1, band)]) ∧
  (∀ serial ref group reason band : Nat, laid (.holdDeny serial ref group reason band) 0 3
    [(2, serial), (2, ref), (2, group), (1, reason), (1, band)]) ∧
  (∀ slot gen group circuit : Nat,
    let fields := [(1, slot), (1, gen), (2, group), (1, circuit)]
    laid (.holdTake slot gen group circuit) 0 4 fields ∧
    (∀ idPresent : Nat, laid (.holdDrop idPresent slot gen group circuit) 0 5 ((1, idPresent) :: fields)) ∧
    laid (.holdFault slot gen group circuit) 0 6 fields ∧ laid (.holdLost slot gen group circuit) 0 7 fields) ∧
  (∀ tag dest prec origin : Nat, laid (.routeAsk tag dest prec origin) 1 16
    [(2, tag), (2, dest), (1, prec), (1, origin)]) ∧
  (∀ tag attempt outcome : Nat, laid (.seizeDone tag attempt outcome) 1 19
    [(2, tag), (1, attempt), (1, outcome)]) ∧
  (∀ tag group circuit : Nat, laid (.callClear tag group circuit) 1 20 [(2, tag), (2, group), (1, circuit)]) ∧
  (∀ group band floor surge free : Nat, laid (.load group band floor surge free) 2 32
    [(2, group), (1, band), (1, floor), (1, surge), (1, free)]) ∧
  (∀ group carrier pref first count : Nat, laid (.reach group carrier pref first count) 2 33
    [(2, group), (1, carrier), (1, pref), (2, first), (1, count)]) ∧
  (∀ state : Nat, laid (.present state) 2 34 [(1, state)]) ∧ (∀ group : Nat, laid (.probe group) 2 35 [(2, group)]) ∧
  (∀ carrier setup rate green amber red grace : Nat, laid (.rateSet carrier setup rate green amber red grace) 3 48
    [(1, carrier), (2, setup), (2, rate), (2, green), (2, amber), (2, red), (2, grace)]) ∧
  (∀ carrier : Nat, laid (.rateClear carrier) 3 49 [(1, carrier)]) ∧ laid .periodClose 3 50 [] ∧
  (∀ index : Nat, laid (.tallyRead index) 3 51 [(1, index)]) ∧
  (∀ period : Nat, laid (.tallyAck period) 3 52 [(2, period)]) ∧
  (∀ group action number : Nat, laid (.circuitControl group action number) 3 53
    [(2, group), (1, action), (1, number)]) ∧
  laid .statusRead 3 54 [] ∧ laid .stationReset 3 55 [] ∧
  (∀ (tag attempt group circuit terminal carrier band : Nat) (quote : Option Nat),
    laid (.routeOffer tag attempt group circuit terminal carrier band quote) 1 17 [(2, tag), (1, attempt), (2, group),
      (1, circuit), (1, terminal), (1, carrier), (1, band), (1, flag quote.isSome), (4, quote.getD 0)]) ∧
  (∀ (tag attempts i j : Nat) code last, failCodes[i]? = some code → outcomes[j]? = some last →
    laid (.routeFail tag code attempts last) 1 18 [(2, tag), (1, i + 1), (1, attempts), (1, j)]) ∧
  (∀ tag charge transit seconds flags : Nat, laid (.clearDone tag charge transit seconds flags) 1 21
    [(2, tag), (4, charge), (4, transit), (2, seconds), (1, flags)]) ∧
  ∀ (kind k : Nat) code, mgmtCodes[k]? = some code →
    let done := fun (x : MgmtContents) (fields : List (Nat × Nat)) =>
      laid (.mgmtDone kind code x) 3 56 ((1, kind) :: (1, k) :: fields)
    let period := fun (p : Option Period) => [(1, flag p.isSome), (2, (p.map (·.toNat)).getD 0)]
    done .nothing [] ∧ (∀ carrier, done (.carrier carrier) [(1, carrier)]) ∧
    (∀ group action number, done (.circuit group action number) [(2, group), (1, action), (1, number)]) ∧
    (∀ p n q, done (.closed p n q) [(2, p.toNat), (1, n), (2, q.toNat)]) ∧ (∀ p, done (.busy p) [(2, p.toNat)]) ∧
    (∀ p, done (.acked p) (period p)) ∧ (∀ p i n, done (.tally p i n none) (period p ++ [(1, i), (1, n)])) ∧
    (∀ p i n (e : PairEntry), (e.sums.calls < 2 ^ 32 ∨ (e.origin = 255 ∧ e.terminating = 255)) →
      done (.tally p i n (some e)) (period p ++ [(1, i), (1, n), (1, e.origin),
      (1, e.terminating), (4, if e.sums.calls < 2 ^ 32 then e.sums.calls else 0xFFFFFFFF), (6, e.sums.seconds),
      (6, e.sums.settled), (6, e.sums.disputed), (6, e.sums.transit), (4, e.sums.unrated),
      (1, if e.sums.calls < 2 ^ 32 then flag e.sums.saturated else 1)])) ∧
    ∀ state address roster trimmed (clock : Clock) (c : Counters),
      done (.status state address roster trimmed clock c) ([(1, state), (1, address), (4, roster), (1, flag trimmed),
        (4, clock.toNat)] ++ [c.badCrc, c.badFrame, c.rxOverrun, c.txDrop, c.reachOverflow, c.lateGrants,
          c.holdsExpired, c.staleDrops, c.disputed, c.orphanClears, c.suspectsPromoted, c.faults, c.noAnswerTimeouts,
          c.routeFails, c.tallyOverflow, c.notPermitted].map fun n => (2, n))

/-- FRAME_RECEIVED: the frame that a station composes for a kind an engine takes, from a source and to a destination
that suit it, comes through every check and enters the receive queue as what was composed, and the roster is
refreshed; nothing else changes (R162, R165 to R169, R186). -/
def Obligations.FrameReceivedWhole : Prop :=
  ∀ (s : State) (source dest : Nat) (m : Msg), s.running = true → s.address ≤ 31 → m.fits = true → source < 63 →
    (dest = s.address ∨ dest = Config.broadcast) → m.suits source dest s.address = true →
    (m.isManagement = true → 48 ≤ source) → s.rx.length < Config.rxCapacity →
    exec (.frameReceived (wireFrame source dest m) .whole) s =
      .next { s.heardFrom source with rx := s.rx ++ [{ source := source, dest := dest, msg := m }] }

/-- FRAME_RECEIVED: what becomes of any frame, by the first check it fails (R165, R166, R168), from a frame in a
station state that takes none, and a frame that a reset or an entry to HALTED overtook (R172), neither of which is
counted, to a frame that enters the receive queue. Which source and which destination suit each kind, where the frame is
for this station, STATION-RESET never broadcast (R167), and which kinds are management requests (R168). That the command
says whether a frame was overtaken is the model's
reading (assumption 30). -/
def Obligations.ReceiveChecks : Prop :=
  (∀ (s : State) (w : WireFrame) (ended : Reception), ∃ t, exec (.frameReceived w ended) s = .next t ∧
    ((s.running = false ∨ ended = .overtaken) → t = s) ∧
    (s.running = true → ended ≠ .overtaken →
      (¬ (ended = .whole ∧ w.length.toNat = w.payload.length ∧ frameCrc w = w.crc.toNat) → t = s.bump .badCrc) ∧
      ((ended = .whole ∧ w.length.toNat = w.payload.length ∧ frameCrc w = w.crc.toNat) →
        (w.dest.toNat ≠ s.address → w.dest.toNat ≠ Config.broadcast → t = s.heardFrom (frameSource w)) ∧
        ((w.dest.toNat = s.address ∨ w.dest.toNat = Config.broadcast) →
          ((frameSource w = 63 ∨ parseMsg w.kind.toNat w.payload = none) →
            t = (s.heardFrom (frameSource w)).bump .badFrame) ∧
          (∀ m, frameSource w ≠ 63 → parseMsg w.kind.toNat w.payload = some m →
            ((frameClass w ≠ m.cls ∨ m.suits (frameSource w) w.dest.toNat s.address = false) →
              t = (s.heardFrom (frameSource w)).bump .badFrame) ∧
            (frameClass w = m.cls → m.suits (frameSource w) w.dest.toNat s.address = true →
              (m.isManagement = true → frameSource w < 48 → w.dest.toNat ≠ s.address →
                t = (s.heardFrom (frameSource w)).bump .notPermitted) ∧
              (m.isManagement = true → frameSource w < 48 → w.dest.toNat = s.address →
                Offered ((s.heardFrom (frameSource w)).bump .notPermitted) t (frameSource w)
                  (.mgmtDone m.kind .notPermitted .nothing)) ∧
              ((m.isManagement = true → 48 ≤ frameSource w) → Config.rxCapacity ≤ s.rx.length →
                t = (s.heardFrom (frameSource w)).bump .rxOverrun) ∧
              ((m.isManagement = true → 48 ≤ frameSource w) → s.rx.length < Config.rxCapacity →
                t = { s.heardFrom (frameSource w) with
                        rx := s.rx ++ [{ source := frameSource w, dest := w.dest.toNat, msg := m }] }))))))) ∧
  ∀ (own source dest : Nat) (m : Msg),
    (m.isManagement = true ↔ m.kind ∈ [48, 49, 50, 51, 52, 53, 54, 55]) ∧
    (source ≤ 62 → (dest = own ∨ dest = Config.broadcast) →
      (m.kind ∈ [1, 2, 3, 4, 5, 6, 7] → (m.suits source dest own = true ↔ source ≤ 31 ∧ dest = own)) ∧
      (m.kind ∈ [16, 19, 20] → (m.suits source dest own = true ↔ 32 ≤ source ∧ dest = own)) ∧
      (m.kind ∈ [32, 33, 34, 35] → (m.suits source dest own = true ↔ source ≤ 31)) ∧
      (m.kind ∈ [48, 49, 50, 51, 52, 53, 54] → m.suits source dest own = true) ∧
      (m.kind = 55 → (m.suits source dest own = true ↔ dest = own)))

/-- The transmit queue takes each offer by R170 while the station is LISTEN or ACTIVE, a LOAD by R50 as well, and
answers the offering block whether it took the frame; in STARTING and HALTED it takes none, uncounted (R172). A group
record handed over is recomputed and its triple tested (R5, R39, R49); the test is made in LISTEN and ACTIVE only
(R55). -/
def Obligations.OffersAnswered : Prop :=
  ∀ (s : State) (dest group li : Nat) (m : Msg) (g : Group),
    (s.running = true →
      Offered s (s.offer dest m).1 dest m ∧ ((s.offer dest m).2 = true ↔ s.tx.length < Config.txCapacity) ∧
      LoadOffered s (s.offerLoad group) group ∧
      TripleTested { s with groups := Tab.put s.groups li g.recomputed } (s.handGroup li g) g.recomputed) ∧
    (s.running = false → s.offer dest m = (s, false) ∧ s.offerLoad group = s ∧
      s.handGroup li g = { s with groups := Tab.put s.groups li g.recomputed })

/-- BUS_IDLE_CONTENTION: with no frame of its own in sending, the station contends with the oldest waiting entry of
the lowest class. Where no other station sends a lower arbitration value, class × 64 + source address, the entry is in
sending: a LOAD with the band, floor, surge flag and free count of this moment, which become the group's
last-announced triple, any other frame as it was queued. Where another sends a lower one, nothing changes (R48, R163,
R170). -/
def Obligations.ContentionDecides : Prop :=
  ∀ (s : State) (others : List (BitVec 8)) (i : Nat) (e : TxEntry), s.running = true → s.address ≤ 31 →
    (∀ d ∈ s.tx, d.onLine = none) → s.tx[i]? = some e →
    (∀ j d, s.tx[j]? = some d → e.body.cls < d.body.cls ∨ (e.body.cls = d.body.cls ∧ i ≤ j)) →
    ((∃ o ∈ others, o.toNat < e.body.cls * 64 + s.address) → exec (.busIdleContention others) s = .next s) ∧
    ((∀ o ∈ others, e.body.cls * 64 + s.address ≤ o.toNat) →
      (∀ m, e.body = .msg m → exec (.busIdleContention others) s =
        .next { s with tx := s.tx.set i { e with onLine := some (wireFrame s.address e.dest m) } }) ∧
      (∀ group li g, e.body = .load group → group / 16 = s.address → li = group % 16 → Tab.find s.groups li = some g →
        exec (.busIdleContention others) s =
          .next { s with
            tx := s.tx.set i { e with onLine := some (wireFrame s.address e.dest
              (.load group g.load.band.code g.load.floor (if g.load.surge then 1 else 0) g.load.free)) }
            groups := Tab.put s.groups li
              { g with load := { g.load with
                  announced := { band := g.load.band, floor := g.load.floor, surge := g.load.surge } } } }))

/-- BIT_MISMATCH and FRAME_SENT, for the entry in sending: the one returns it to waiting in its old place, a LOAD
taking in a newer waiting LOAD of its group; the other takes it out of the queue (R164, R170). No counter rises, and
nothing else changes. That a mismatch leaves the last-announced triple of a LOAD as its sending set it is the model's
reading (assumption 21). -/
def Obligations.SendingEnds : Prop :=
  ∀ (s : State) (older newer : List TxEntry) (e : TxEntry), s.tx = older ++ e :: newer → e.onLine.isSome = true →
    (∀ d ∈ older, d.onLine = none) → (∀ d ∈ newer, d.onLine = none) →
    exec .frameSent s = .next { s with tx := older ++ newer } ∧
    (∀ m, e.body = .msg m →
      exec .bitMismatch s = .next { s with tx := older ++ { e with onLine := none } :: newer }) ∧
    (∀ group, e.body = .load group →
      exec .bitMismatch s = .next { s with
        tx := older ++ { e with onLine := none } :: newer.filter fun d => decide (d.body ≠ .load group) })

/-! ## Station control -/

/-- POWER_ON: every block takes its power-on value, whatever stood before, and the station waits in STARTING with
BPRST low (R179, and the reset tables of the blocks). BPRST_ASSERTED and BPRST_RELEASED: the step of the assertion and
the start of the read; all else waits for the read to complete (R178, R179, R182). A release of a line that is not low
changes nothing: the model's choice (assumption 3). That POWER_ON keeps the waiting commands and the draws, and clears
the counters and CONFIG_TRIMMED at once, is the model's choice (assumption 28); that the assertion empties the
roster and the three deadlines, which are not kept in STARTING, is its reading (assumption 20), and so is that an
assertion of a line that is low has the effects of an assertion again (assumption 27). -/
def Obligations.PowerAndBackplane : Prop :=
  (∀ s : State, ∃ t, exec .powerOn s = .next t ∧ t.station = .starting ∧ t.ready = false ∧ t.fault = false ∧
    t.bprstLow = true ∧ t.reading = false ∧ t.clock = 0 ∧ t.trimmed = false ∧
    t.listenDeadline = none ∧ t.announceDeadline = none ∧ t.reachDeadline = none ∧
    t.roster = [] ∧ (∀ n ∈ t.counters.toList, n = 0) ∧ t.groups = [] ∧ t.suspects = [] ∧
    (∀ k < Config.holdSlots, t.slots[k]? = some { generation := 0, hold := none }) ∧
    t.routes = [] ∧ t.views = [] ∧ t.calls = [] ∧ t.serial = 0 ∧ t.rates = [] ∧
    t.openBank = { period := 1, entries := [], overflow := {} } ∧
    t.closedBank = { period := 0, entries := [], overflow := {} } ∧ t.closedHeld = false ∧ t.tx = [] ∧ t.rx = [] ∧
    t.pending = s.pending ∧ t.draws = s.draws) ∧
  (∀ s : State,
    exec .bprstAsserted s = .next { s with
      station := .starting, ready := false, fault := false, tx := [], rx := [], calls := [], roster := []
      listenDeadline := none, announceDeadline := none, reachDeadline := none
      clock := 0, bprstLow := true, reading := false } ∧
    (s.bprstLow = true →
      exec .bprstReleased s = .next { s with bprstLow := false, reading := true, trimmed := false }) ∧
    (s.bprstLow = false → exec .bprstReleased s = .next s))

/-- The fields of an image: all bytes FFH stand for the default, any others for themselves (R175); every parameter is
the field at its offset, with its width and default, clamped to its range and to the values it depends on (R181, section
9.5), so every decoded value is in its range; the present groups are the group slots whose present byte is 1, in order
of local index; and they are taken in order up to the first that would pass the terminal budget (R182). -/
def Obligations.ImageDecoded : Prop :=
  (∀ (image : List Byte) (offset width default : Nat), 1 ≤ width → offset + width ≤ image.length →
    ((∀ i < width, image[offset + i]? = some 0xFF#8) → fieldOr image offset width default = default) ∧
    ((∃ i < width, image[offset + i]? ≠ some 0xFF#8) →
      fieldOr image offset width default = field image offset width)) ∧
  (∀ low high v : Nat, low ≤ high →
    low ≤ clamp low high v ∧ clamp low high v ≤ high ∧ (low ≤ v → v ≤ high → clamp low high v = v) ∧
    (v < low → clamp low high v = low) ∧ (high < v → clamp low high v = high)) ∧
  (∀ image : List Byte,
    let c := decodeEngine image
    c.address = field image 0 1 ∧ c.announcePeriod = clamp 100 5000 (fieldOr image 1 2 500) ∧
    c.reachPeriod = clamp 1 60 (fieldOr image 3 1 10) ∧ c.viewLifetime = clamp 300 20000 (fieldOr image 4 2 1500) ∧
    c.silenceLimit = clamp 300 20000 (fieldOr image 6 2 2000) ∧ c.holdLifetime = clamp 1 60 (fieldOr image 8 1 8) ∧
    c.answerTimeout = clamp 5 250 (fieldOr image 9 1 40) ∧
    c.offerTimeout = min (clamp 1 60 (fieldOr image 10 1 4)) c.holdLifetime ∧
    c.listenWindow = clamp 100 5000 (fieldOr image 11 2 1000) ∧ c.transitFraction = field image 13 2 ∧
    c.exemption = clamp 0 8 (fieldOr image 15 1 7) ∧ (c.address ≤ 31 → c.InRange)) ∧
  (∀ (image : List Byte) (li : Nat),
    let o := 16 + 17 * li
    ((decodeGroup image li).isSome = true ↔ field image o 1 = 1) ∧
    ∀ g, decodeGroup image li = some g →
      g.carrier = clamp 0 63 (field image (o + 1) 1) ∧ g.working = clamp 1 240 (field image (o + 2) 1) ∧
      g.spares = clamp 0 15 (field image (o + 3) 1) ∧ g.destFirst = clamp 0 1023 (field image (o + 4) 2) ∧
      g.destCount = min (clamp 1 32 (field image (o + 6) 1)) (1024 - g.destFirst) ∧
      g.preference = clamp 0 14 (field image (o + 7) 1) ∧ g.yellow = clamp 0 256 (fieldOr image (o + 8) 2 192) ∧
      g.red = max g.yellow (clamp 0 256 (fieldOr image (o + 10) 2 230)) ∧
      g.grace = clamp 0 15 (fieldOr image (o + 12) 1 2) ∧ g.amberFloor = clamp 0 7 (fieldOr image (o + 13) 1 0) ∧
      g.redFloor = max g.amberFloor (clamp 0 7 (fieldOr image (o + 14) 1 3)) ∧
      g.surgeInterval = field image (o + 15) 2 ∧ g.InRange) ∧
  (∀ image : List Byte, Tab.wf (presentGroups image) ∧
    ∀ li cfg, (li, cfg) ∈ presentGroups image ↔ li < 16 ∧ decodeGroup image li = some cfg) ∧
  (∀ l : Tab GroupConfig, ∃ k ≤ l.length,
    (withinBudget 0 l).1 = l.take k ∧ ((withinBudget 0 l).2 = true ↔ k < l.length) ∧
    ((l.take k).map fun p => p.2.working + p.2.spares).sum ≤ Config.terminalBudget ∧
    (k < l.length → Config.terminalBudget < ((l.take (k + 1)).map fun p => p.2.working + p.2.spares).sum))

/-- CONFIG_READ_COMPLETE with an image that is not 290 bytes long, whose CRC fails or whose address is above 31: the
station enters HALTED with no group records, and keeps its rate table, its tallies, its serial counter and the clock
(R180). That the lists, the views, the suspects, the holds and the counters are cleared as by a hard reset is the
model's reading (assumption 6), as is that an image of another length fails (assumption 24). -/
def Obligations.ReadFails : Prop :=
  ∀ (s : State) (image : List Byte), s.station = .starting → s.reading = true →
    ¬ (image.length = 290 ∧ crcBytes (image.take 288) 0xFFFF = field image 288 2 ∧ field image 0 1 ≤ 31) →
    exec (.configReadComplete image) s = .next { s with
      station := .halted, ready := false, fault := true, reading := false
      tx := [], rx := [], calls := [], roster := []
      listenDeadline := none, announceDeadline := none, reachDeadline := none
      groups := [], suspects := [], slots := Vector.replicate 64 { generation := 0, hold := none }
      routes := [], views := [], counters := {} }

/-- CONFIG_READ_COMPLETE with a good image: the configuration is in use, exactly the groups within the budget have
records, each group that is not continued is built from its configuration (R6), the hold table, the views and the
counters are cleared, and the station enters LISTEN with its roster, deadlines, PRESENT, and the route lists of its own
groups (R84, R180 to R183, R187, R192). A "reach overflow" of the own reaches stays counted: the model's reading
(assumption 7). The draw is the model's (assumption 8). -/
def Obligations.ReadGood : Prop :=
  ∀ (s : State) (image : List Byte), s.station = .starting → s.reading = true → s.KeptInState → s.TablesSound →
    image.length = 290 → crcBytes (image.take 288) 0xFFFF = field image 288 2 → field image 0 1 ≤ 31 →
    ∃ t, exec (.configReadComplete image) s = .next t ∧
      t = { s with
        station := .listen, ready := false, fault := false, reading := false
        config := decodeEngine image, trimmed := (withinBudget 0 (presentGroups image)).2
        listenDeadline := some (s.clock + BitVec.ofNat 32 (decodeEngine image).listenWindow)
        announceDeadline := some (s.clock + BitVec.ofNat 32 (decodeEngine image).announcePeriod)
        reachDeadline := none, roster := [(field image 0 1, s.clock)]
        counters := { reachOverflow := t.counters.reachOverflow }
        slots := Vector.replicate 64 { generation := 0, hold := none }
        views := [], calls := [], rx := [], draws := s.draws + 1
        tx := [waiting Config.broadcast (.present 1)]
        groups := t.groups, suspects := t.suspects, routes := t.routes } ∧
      t.OwnRoutes ∧ t.groups.map (·.1) = (withinBudget 0 (presentGroups image)).1.map (·.1) ∧
      ∀ li cfg, (li, cfg) ∈ (withinBudget 0 (presentGroups image)).1 →
        (∀ g0, Tab.find s.groups li = some g0 → ¬ (g0.cfg.working = cfg.working ∧ g0.cfg.spares = cfg.spares)) →
        ∃ g, Tab.find t.groups li = some g ∧ g.cfg = cfg ∧ g.global = 16 * field image 0 1 + li ∧
          g.effPref = cfg.preference ∧ g.huntPtr = 0 ∧
          g.circuits = (List.range cfg.working).map .idle ∧
          g.terminals = (List.range cfg.working).map .serving ++ List.replicate cfg.spares .spare ∧
          g.load.inService = cfg.working ∧ g.load.occupied = 0 ∧ g.load.free = cfg.working ∧ g.load.figure = 0 ∧
          g.load.smoothed = 65535 ∧ g.load.lastAttempt = s.clock ∧ g.load.surge = false ∧
          g.load.announced = g.load.triple ∧ ∀ e ∈ t.suspects, e.1 ≠ li

/-- Entry to LISTEN (R183, R187): the roster is its start value, the views are UNKNOWN, the deadlines count from now,
each group's estimator restarts and its current triple counts as announced (R47, R55), and PRESENT(LISTEN) waits. Each
route list holds the first six, by R80, of the own groups that reach its destination (R82, R84). -/
def Obligations.EntryToListen : Prop :=
  ∀ s : State, s.tx = [] → (s.groups.map (·.2.global)).Nodup →
    s.enterListen = { s with
      station := .listen, ready := false, fault := false, roster := [(s.address, s.clock)], views := []
      listenDeadline := some (s.clock + BitVec.ofNat 32 s.config.listenWindow)
      announceDeadline := some (s.clock + BitVec.ofNat 32 s.config.announcePeriod), reachDeadline := none
      tx := [waiting Config.broadcast (.present 1)]
      groups := s.enterListen.groups, routes := s.enterListen.routes
      counters := { s.counters with reachOverflow := s.enterListen.counters.reachOverflow } } ∧
    s.enterListen.groups.map (·.1) = s.groups.map (·.1) ∧
    (∀ (i : Nat) p, s.groups[i]? = some p → ∃ g, s.enterListen.groups[i]? = some (p.1, g) ∧
      g = { p.2 with load := g.load } ∧ g.recomputed = g ∧ g.load.smoothed = 65535 ∧ g.load.lastAttempt = s.clock ∧
      g.load.surge = false ∧ g.load.announced = g.load.triple) ∧
    s.enterListen.OwnRoutes

/-- CONFIG_READ_COMPLETE with a good image, for a group that it continues (R7): the new image's fields, hunt pointer
0, every HELD and BUSY circuit released in the release order, the rest of the circuits and terminals as they were, and
the effective preference by the demotion condition that then stands. The suspect list keeps the continued groups'
entries in their order (R24). -/
def Obligations.HardResetContinues : Prop :=
  ∀ (s : State) (image : List Byte), s.station = .starting → s.reading = true → s.KeptInState → s.TablesSound →
    s.GroupsSound → image.length = 290 → crcBytes (image.take 288) 0xFFFF = field image 288 2 → field image 0 1 ≤ 31 →
    ∃ t, exec (.configReadComplete image) s = .next t ∧
      t.suspects = (s.suspects.filter fun e => (withinBudget 0 (presentGroups image)).1.any fun p =>
        decide (p.1 = e.1) && (Tab.find s.groups p.1).any fun g =>
          decide (g.cfg.working = p.2.working ∧ g.cfg.spares = p.2.spares)) ∧
      ∀ li cfg g0, (li, cfg) ∈ (withinBudget 0 (presentGroups image)).1 → Tab.find s.groups li = some g0 →
        g0.cfg.working = cfg.working → g0.cfg.spares = cfg.spares →
        ∃ g, Tab.find t.groups li = some g ∧ g.cfg = cfg ∧ g.global = 16 * field image 0 1 + li ∧ g.huntPtr = 0 ∧
          g.effPref = effectivePref cfg.preference (demoted g.terminals) ∧ ReleasedGroup (·.inUse) g0 g ∧
          g.recomputed = g ∧ g.load.smoothed = 65535 ∧ g.load.lastAttempt = s.clock ∧ g.load.surge = false ∧
          g.load.announced = g.load.triple

/-- STATION_RESET: a soft reset (R185, R8, R59, R24): the queues, the call table and the hold table are emptied, HELD
circuits are released, BUSY circuits, terminal roles, suspects, rates, tallies, the serial counter, the counters and
the configuration are kept, the hunt pointers are 0, the route lists hold the own groups (R84, R96), and the station is
in LISTEN. It is not answered. That "reach
overflow" of the own reaches and "faults" of the releases count is the rules' own; the draw is the model's (assumption
8). -/
def Obligations.SoftReset : Prop :=
  ∀ (s : State) (source dest : Nat) (rest : List RxFrame), s.takes source dest .stationReset rest → s.TablesSound →
    s.GroupsSound →
    ∃ t, exec .stationReset s = .next t ∧
      t = { s with
        station := .listen, ready := false, fault := false, rx := [], calls := []
        tx := [waiting Config.broadcast (.present 1)]
        roster := [(s.address, s.clock)], views := []
        listenDeadline := some (s.clock + BitVec.ofNat 32 s.config.listenWindow)
        announceDeadline := some (s.clock + BitVec.ofNat 32 s.config.announcePeriod), reachDeadline := none
        slots := Vector.replicate 64 { generation := 0, hold := none }, draws := s.draws + 1
        groups := t.groups, routes := t.routes
        counters := { s.counters with
          faults := t.counters.faults, reachOverflow := t.counters.reachOverflow } } ∧
      t.OwnRoutes ∧ t.groups.map (·.1) = s.groups.map (·.1) ∧
      ∀ li g0, Tab.find s.groups li = some g0 → ∃ g, Tab.find t.groups li = some g ∧ g.cfg = g0.cfg ∧
        g.global = g0.global ∧ g.huntPtr = 0 ∧ g.effPref = effectivePref g0.cfg.preference (demoted g.terminals) ∧
        ReleasedGroup (·.isHeld) g0 g ∧ g.recomputed = g ∧ g.load.smoothed = 65535 ∧ g.load.lastAttempt = s.clock ∧
        g.load.surge = false ∧ g.load.announced = g.load.triple

/-- PRESENT from the own address: an address conflict (R189, R190, R59): the station is HALTED with its queues, call
table and hold table empty, HELD circuits are released, BUSY circuits and every estimator and announced triple are
kept. Where no HELD circuit waits for a fault, no counter and no route list differs; where one does, that its fault
handling reaches them is the model's reading (assumption 12), as is the emptied roster (assumption 20). The draw is the
model's (assumption 8). -/
def Obligations.AddressConflict : Prop :=
  ∀ (s : State) (dest code : Nat) (rest : List RxFrame), s.takes s.address dest (.present code) rest → s.TablesSound →
    s.GroupsSound →
    ∃ t, exec .present s = .next t ∧
      t = { s with
        station := .halted, ready := false, fault := true, rx := [], tx := [], calls := [], roster := []
        listenDeadline := none, announceDeadline := none, reachDeadline := none
        slots := Vector.replicate 64 { generation := 0, hold := none }, draws := s.draws + 1
        groups := t.groups, routes := t.routes
        counters := { s.counters with
          faults := t.counters.faults, reachOverflow := t.counters.reachOverflow } } ∧
      ((∀ p ∈ s.groups, ∀ x ∈ p.2.circuits, x.isHeld = true → x.faultWaits = false) →
        t.counters = s.counters ∧ t.routes = s.routes) ∧
      t.groups.map (·.1) = s.groups.map (·.1) ∧
      ∀ li g0, Tab.find s.groups li = some g0 → ∃ g, Tab.find t.groups li = some g ∧ g.cfg = g0.cfg ∧
        g.global = g0.global ∧ g.huntPtr = g0.huntPtr ∧
        g.effPref = effectivePref g0.cfg.preference (demoted g.terminals) ∧ ReleasedGroup (·.isHeld) g0 g ∧
        g.load.smoothed = g0.load.smoothed ∧ g.load.lastAttempt = g0.load.lastAttempt ∧
        g.load.surge = g0.load.surge ∧ g.load.announced = g0.load.announced

/-- LISTEN_DEADLINE: at the deadline the station enters ACTIVE, READY rises, the reach deadline is set, and
PRESENT(ACTIVE), a set of REACH and a set of LOADs are queued in this order: one REACH for each own group and one LOAD
for each own group without a waiting LOAD, as far as the queue has room (R184, R52, R87, R88). Before the deadline, and
in another state, nothing happens: the model's choice for a command that is not due (assumption 3). -/
def Obligations.ListenEnds : Prop :=
  ∀ (s : State) (d : Clock), s.listenDeadline = some d →
    ((s.station ≠ .listen ∨ 2 ^ 31 ≤ (s.clock - d).toNat) → exec .listenDeadline s = .next s) ∧
    (s.station = .listen → (s.clock - d).toNat < 2 ^ 31 → s.tx.length ≤ Config.txCapacity →
      (s.groups.map (·.2.global)).Nodup →
      ∃ t, exec .listenDeadline s = .next t ∧
        t = { s with
          station := .active, ready := true, fault := false, listenDeadline := none
          reachDeadline := some (s.clock + BitVec.ofNat 32 (1000 * s.config.reachPeriod))
          tx := t.tx, routes := t.routes
          counters := { s.counters with
            txDrop := t.counters.txDrop, reachOverflow := t.counters.reachOverflow } } ∧
        (∃ u, Offered { s with
            station := .active, ready := true, fault := false, listenDeadline := none
            reachDeadline := some (s.clock + BitVec.ofNat 32 (1000 * s.config.reachPeriod)) } u Config.broadcast
            (.present 2) ∧ t = u.setOfReach.setOfLoads) ∧
        t.tx = (s.tx ++ waiting Config.broadcast (.present 2) :: (s.groups.map fun p => waitingReach p.2) ++
          (s.groups.filter fun p => !s.tx.any (·.waitingLoad p.2.global)).map fun p => waitingLoadOf p.2).take
            Config.txCapacity)

/-- A set of REACH re-applies each own reach and queues one REACH for each own group, and a set of LOADs one LOAD for
each own group without a waiting one, both in order of local index and as far as the queue has room; each refusal is
counted (R52, R85, R87). -/
def Obligations.SetsOfFrames : Prop :=
  ∀ s : State, s.running = true → s.tx.length ≤ Config.txCapacity → s.counters.txDrop ≤ Config.counterMax →
    (let all := s.tx ++ s.groups.map fun p => waitingReach p.2
     s.setOfReach = { s with
      tx := all.take Config.txCapacity
      routes := (s.groups.foldl (fun u p => u.applyOwnReach p.2) s).routes
      counters := { s.counters with
        txDrop := min (s.counters.txDrop + (all.length - Config.txCapacity)) Config.counterMax
        reachOverflow := s.setOfReach.counters.reachOverflow } }) ∧
    ((s.groups.map (·.2.global)).Nodup →
     let all := s.tx ++ (s.groups.filter fun p => !s.tx.any (·.waitingLoad p.2.global)).map fun p => waitingLoadOf p.2
     s.setOfLoads = { s with
      tx := all.take Config.txCapacity
      counters := { s.counters with
        txDrop := min (s.counters.txDrop + (all.length - Config.txCapacity)) Config.counterMax } })

/-- ANNOUNCE_DEADLINE and REACH_DEADLINE: at a reached deadline one set is queued, a PRESENT where the station has no
group, and the deadline moves by the fewest whole periods that leave it not reached (R51, R53, R88). A command that is
not due changes nothing: the model's choice (assumption 3). -/
def Obligations.DeadlinesAdvance : Prop :=
  ∀ (s : State) (d : Clock), s.config.InRange →
    (s.announceDeadline = some d →
      ((s.running = false ∨ reached s.clock d = false) → exec .announceDeadline s = .next s) ∧
      (s.running = true → reached s.clock d = true → ∃ u k,
        exec .announceDeadline s = .next { u with
          announceDeadline := some (d + BitVec.ofNat 32 (k * s.config.announcePeriod)) } ∧
        (s.groups = [] → Offered s u Config.broadcast (.present (if s.station = .active then 2 else 1))) ∧
        (s.groups ≠ [] → u = s.setOfLoads) ∧
        1 ≤ k ∧ reached s.clock (d + BitVec.ofNat 32 (k * s.config.announcePeriod)) = false ∧
        ∀ j < k, reached s.clock (d + BitVec.ofNat 32 (j * s.config.announcePeriod)) = true)) ∧
    (s.reachDeadline = some d →
      ((s.station ≠ .active ∨ reached s.clock d = false) → exec .reachDeadline s = .next s) ∧
      (s.station = .active → reached s.clock d = true → ∃ k,
        exec .reachDeadline s = .next { s.setOfReach with
          reachDeadline := some (d + BitVec.ofNat 32 (k * (1000 * s.config.reachPeriod))) } ∧
        1 ≤ k ∧ reached s.clock (d + BitVec.ofNat 32 (k * (1000 * s.config.reachPeriod))) = false ∧
        ∀ j < k, reached s.clock (d + BitVec.ofNat 32 (j * (1000 * s.config.reachPeriod))) = true))

/-- PRESENT from another station: PRESENT(ACTIVE) has no effect, PRESENT(LISTEN) is the sender's restart, and any
other state byte is a bad frame (R189). ABSENCE_EVENT: an entry older than the silence limit becomes ABSENT, with the
same notices (R188). An event that is not due changes nothing: the model's choice (assumption 3). The notices of a
peer's absence or restart: none of its groups is left in a route list, none of its view entries is known, no record
awaits a hold of it, and it holds no hold; no other peer's view, no record in another state, no BUSY circuit and no
hold of another engine is lost by them, and "holds expired" does not rise (R75, R76, R94, R126, R188). -/
def Obligations.CensusEvents : Prop :=
  ((∀ (s : State) (source dest code : Nat) (rest : List RxFrame), s.takes source dest (.present code) rest →
    source ≠ s.address →
    (code = 2 → exec .present s = .next { s with rx := rest }) ∧
    (code ≠ 1 → code ≠ 2 → exec .present s = .next { s with rx := rest, counters := s.counters.bump .badFrame }) ∧
    (code = 1 → exec .present s =
      .next ((({ s with rx := rest } : State).peerGone source).setOfReach).setOfLoads)) ∧
  ∀ (s : State) (peer : Nat),
    (∀ heard, Tab.find s.roster peer = some heard → s.running = true → peer ≠ s.address →
      s.config.silenceLimit < (s.clock - heard).toNat →
      exec (.absenceEvent peer) s = .next (({ s with roster := Tab.del s.roster peer } : State).peerGone peer)) ∧
    ((Tab.find s.roster peer = none ∨ s.running = false ∨ peer = s.address ∨
        ∃ heard, Tab.find s.roster peer = some heard ∧ (s.clock - heard).toNat ≤ s.config.silenceLimit) →
      exec (.absenceEvent peer) s = .next s)) ∧
  (∀ (s : State) (peer : Nat), s.TablesSound → s.GroupsSound → peer ≠ s.address →
    (∀ d, ∀ c ∈ (s.peerGone peer).routeList d, c.group / 16 ≠ peer) ∧
    (∀ g, Tab.find (s.peerGone peer).views g = if g / 16 = peer then none else Tab.find s.views g) ∧
    (∀ r rec, Tab.find (s.peerGone peer).calls r = some rec → rec.awaits peer = false) ∧
    (∀ r rec, Tab.find s.calls r = some rec → rec.awaits peer = false →
      Tab.find (s.peerGone peer).calls r = some rec) ∧
    (∀ k h, (s.peerGone peer).holdAt k = some h → h.requester ≠ peer) ∧
    (∀ k h, s.holdAt k = some h → h.requester ≠ peer → (s.peerGone peer).holdAt k = some h) ∧
    (∀ li g (c t u : Nat) bp fr, Tab.find s.groups li = some g → g.circuits[c]? = some (Circuit.busy t u bp fr) →
      ∃ g', Tab.find (s.peerGone peer).groups li = some g' ∧ g'.circuits[c]? = some (Circuit.busy t u bp fr)) ∧
    (s.peerGone peer).counters.holdsExpired = s.counters.holdsExpired)

/-- STATUS_READ: one MGMT-DONE with the station state, address, roster bitmap, CONFIG_TRIMMED, clock and counters as
they are read, and nothing else (R191). -/
def Obligations.StatusAnswered : Prop :=
  ∀ (s : State) (source dest : Nat) (rest : List RxFrame), s.takes source dest .statusRead rest → Tab.wf s.roster →
    ∃ t bitmap, exec .statusRead s = .next t ∧
      Offered { s with rx := rest } t source (.mgmtDone 54 .ok
        (.status (if s.station = .active then 2 else 1) s.address bitmap s.trimmed s.clock s.counters)) ∧
      ∀ n, bitmap.testBit n = s.isPresent n

/-! ## The announce path -/

/-- STALENESS_EVENT: a FRESH entry older than the view lifetime becomes STALE and keeps its values, and one PROBE is
offered to its owner if that is PRESENT (R92, R95). An event that is not due changes nothing: the model's choice
(assumption 3). PROBE: one LOAD is offered for the own group named; for any other the frame is discarded (R54). -/
def Obligations.StalenessProbes : Prop :=
  (∀ (s : State) (g : Nat) (v : ViewEntry), Tab.find s.views g = some v →
    ((s.running = false ∨ v.stale = true ∨ (s.clock - v.heard).toNat ≤ s.config.viewLifetime) →
      exec (.stalenessEvent g) s = .next s) ∧
    (s.running = true → v.stale = false → s.config.viewLifetime < (s.clock - v.heard).toNat →
      ∃ t, exec (.stalenessEvent g) s = .next t ∧
        (s.isPresent (g / 16) = true →
          Offered { s with views := Tab.put s.views g { v with stale := true } } t (g / 16) (.probe g)) ∧
        (s.isPresent (g / 16) = false → t = { s with views := Tab.put s.views g { v with stale := true } }))) ∧
  (∀ (s : State) (g : Nat), Tab.find s.views g = none → exec (.stalenessEvent g) s = .next s) ∧
  ∀ (s : State) (source dest g : Nat) (rest : List RxFrame), s.takes source dest (.probe g) rest → s.GroupsSound →
    (g / 16 = s.address → (Tab.find s.groups (g % 16)).isSome = true →
      ∃ t, exec .probe s = .next t ∧ LoadOffered { s with rx := rest } t g) ∧
    ((g / 16 ≠ s.address ∨ Tab.find s.groups (g % 16) = none) → exec .probe s = .next { s with rx := rest })

/-- LOAD and REACH: the first check of R90 and R86 that fails discards the frame, with or without a count; a LOAD that
passes writes its group's view entry FRESH, and a REACH that passes is applied. R90 gives no order for a LOAD that names
a group of this station's own address and fails another check too; that it is counted is the model's choice
(assumption 29). -/
def Obligations.AnnouncementsTaken : Prop :=
  (∀ (s : State) (source dest g band floor surge free : Nat) (rest : List RxFrame),
    s.takes source dest (.load g band floor surge free) rest →
    (¬ (g / 16 = source ∧ band ≤ 5 ∧ floor ≤ 8 ∧ surge ≤ 1 ∧ free ≤ 240) →
      exec .load s = .next { s with rx := rest, counters := s.counters.bump .badFrame }) ∧
    (g / 16 = source ∧ band ≤ 5 ∧ floor ≤ 8 ∧ surge ≤ 1 ∧ free ≤ 240 →
      (source = s.address → exec .load s = .next { s with rx := rest }) ∧
      (source ≠ s.address → ∀ b : Band, b.code = band → exec .load s = .next { s with
        rx := rest
        views := Tab.put s.views g { stale := false, band := b, floor := some (floor, b), heard := s.clock } }))) ∧
  ∀ (s : State) (source dest g carrier pref first count : Nat) (rest : List RxFrame),
    s.takes source dest (.reach g carrier pref first count) rest →
    (g / 16 ≠ source → exec .reach s = .next { s with rx := rest, counters := s.counters.bump .badFrame }) ∧
    (g / 16 = source → source = s.address → exec .reach s = .next { s with rx := rest }) ∧
    (g / 16 = source → source ≠ s.address →
      ¬ (carrier ≤ 63 ∧ pref ≤ 15 ∧ first ≤ 1023 ∧ 1 ≤ count ∧ count ≤ 32) →
      exec .reach s = .next { s with rx := rest, counters := s.counters.bump .badFrame }) ∧
    (g / 16 = source → source ≠ s.address →
      carrier ≤ 63 ∧ pref ≤ 15 ∧ first ≤ 1023 ∧ 1 ≤ count ∧ count ≤ 32 →
      exec .reach s = .next (({ s with rx := rest } : State).applyReach g pref first count))

/-- A reach applied (R81 to R83): outside its range no list keeps the group; inside it each list holds the group at
the given preference, in the order of R80, and a list that held six others keeps the first six of seven and raises
"reach overflow". -/
def Obligations.ReachApplied : Prop :=
  ∀ (s : State) (g pref first count : Nat), s.TablesSound → s.RoutesSound →
    s.counters.reachOverflow ≤ Config.counterMax →
    let t := s.applyReach g pref first count
    let new : Candidate := { group := g, pref := pref }
    let inRange := fun d => decide (first ≤ d ∧ d < first + count)
    let holds := fun d => (s.routeList d).any fun c => decide (c.group = g)
    t = { s with routes := t.routes, counters := { s.counters with reachOverflow := t.counters.reachOverflow } } ∧
    t.RoutesSound ∧ Tab.wf t.routes ∧
    t.counters.reachOverflow = min (s.counters.reachOverflow + (List.range 1024).countP fun d =>
      inRange d && !holds d && decide (Config.routeCandidates ≤ (s.routeList d).length)) Config.counterMax ∧
    ∀ d < 1024,
      (inRange d = false → t.routeList d = (s.routeList d).filter fun c => decide (c.group ≠ g)) ∧
      (inRange d = true → (holds d = true ∨ (s.routeList d).length < Config.routeCandidates) →
        (t.routeList d).Perm (new :: (s.routeList d).filter fun c => decide (c.group ≠ g))) ∧
      (inRange d = true → holds d = false → ∀ z, (s.routeList d).length = Config.routeCandidates →
        (s.routeList d).getLast? = some z →
        (new.before z = true → (t.routeList d).Perm (new :: (s.routeList d).dropLast)) ∧
        (new.before z = false → t.routeList d = s.routeList d))

/-! ## The load unit -/

/-- The recomputation of a load record (R39, R40, R42): counts, free count, load figure, effective grace, base band by
the first condition that holds, and the floor of the band. -/
def Obligations.BandFromCounts : Prop :=
  ∀ g : Group,
    let n := g.cfg.working - (g.circuits.countP (·.isFaulty) + g.circuits.countP (·.isBlocked))
    let o := g.circuits.countP (·.isHeld) + g.circuits.countP (·.isBusy)
    let r := g.recomputed.load
    r.inService = n ∧ r.occupied = o ∧ r.free = n - o ∧
    (n = 0 → r.figure = 256 ∧ r.graceEff = 0 ∧ r.band = .closed) ∧
    (1 ≤ n → r.figure * n ≤ 256 * o ∧ 256 * o < (r.figure + 1) * n ∧ r.graceEff = min g.cfg.grace (n - 1)) ∧
    (1 ≤ n → n - o = 0 → r.band = .full) ∧
    (1 ≤ n → n - o ≠ 0 → n - o ≤ r.graceEff → r.band = .grace) ∧
    (1 ≤ n → n - o ≠ 0 → r.graceEff < n - o → g.load.surge = false →
      (g.cfg.red ≤ r.figure → r.band = .red) ∧
      (r.figure < g.cfg.red → g.cfg.yellow ≤ r.figure → r.band = .amber) ∧
      (r.figure < g.cfg.red → r.figure < g.cfg.yellow → r.band = .green)) ∧
    (match r.band with
      | .green => r.floor = 0
      | .amber => r.floor = g.cfg.amberFloor
      | .red => r.floor = g.cfg.redFloor
      | .grace => r.floor = 7
      | .full => r.floor = 8
      | .closed => r.floor = 8) ∧
    (g.circuits.length = g.cfg.working → r.free = g.circuits.countP (·.isIdle) ∧ r.occupied ≤ r.inService)

/-- The surge flag raises the base band by one step, GREEN to AMBER and AMBER to RED, raises no other band, and
touches no other figure (R41). -/
def Obligations.SurgeRaisesBand : Prop :=
  ∀ g : Group,
    let calm := ({ g with load := { g.load with surge := false } } : Group).recomputed.load
    let surging := ({ g with load := { g.load with surge := true } } : Group).recomputed.load
    (calm.band = .green → surging.band = .amber) ∧ (calm.band = .amber → surging.band = .red) ∧
    (calm.band ≠ .green → calm.band ≠ .amber → surging.band = calm.band) ∧
    surging.free = calm.free ∧ surging.figure = calm.figure ∧ surging.graceEff = calm.graceEff ∧
    (g.load.surge = true → g.recomputed.load = surging) ∧ (g.load.surge = false → g.recomputed.load = calm) ∧
    (surging.band = .full ∨ surging.band = .closed ∨ surging.band = .grace → surging.band = calm.band)

/-- An attempt moves the smoothed interval by one eighth toward its interval, records the clock, and sets the surge
flag from the new value (R45, R46). -/
def Obligations.SurgeEstimator : Prop :=
  ∀ (g : Group) (now : Clock),
    let x := min (now - g.load.lastAttempt).toNat 65535
    let old := g.load.smoothed
    let new := (g.attempted now).load.smoothed
    (g.attempted now).load.lastAttempt = now ∧
    (old ≤ x → new = old + (x - old) / 8) ∧
    (x < old → ∃ c, new + c = old ∧ (old - x) ≤ 8 * c ∧ 8 * c < (old - x) + 8) ∧
    ((g.attempted now).load.surge = true ↔ 0 < g.cfg.surgeInterval ∧ new < g.cfg.surgeInterval) ∧
    (old ≤ 65535 → new ≤ 65535) ∧ (x < old → new < old ∧ x ≤ new) ∧ (old ≤ x → x - old < 8 → new = old) ∧
    (0 < new → ((g.attempted now).attempted now).load.smoothed < new)

/-! ## Hunting and the hold unit -/

/-- A hunt goes upward from the hunt pointer, modulo the working count, and takes the first IDLE circuit whose
terminal is not a suspect, or where none is the first IDLE circuit; it takes none only where no circuit is IDLE (R9,
R10). -/
def Obligations.HuntOrder : Prop :=
  ∀ (g : Group) (suspects : List (Nat × Nat)) (li : Nat),
    let at_ := fun i => (g.huntPtr + i) % g.cfg.working
    let idle := fun i t => g.circuits[at_ i]? = some (Circuit.idle t)
    (∀ c t, g.hunt suspects li = some (c, t) → ∃ i < g.cfg.working, c = at_ i ∧ idle i t ∧
      (((li, t) ∉ suspects ∧ ∀ j < i, ∀ t', idle j t' → (li, t') ∈ suspects) ∨
        ((∀ j < g.cfg.working, ∀ t', idle j t' → (li, t') ∈ suspects) ∧ ∀ j < i, ∀ t', ¬ idle j t'))) ∧
    (g.hunt suspects li = none ↔ ∀ j < g.cfg.working, ∀ t', ¬ idle j t')

/-- A hold request, from a peer or of this station's own call (R60, R61, R72): NOT_OWNER before the attempt counts;
then the attempt and its triple test; then CLOSED, FULL, ADMISSION, NO_SLOT in this order; else the grant, with the
hunted circuit, the lowest free slot, its next generation, and the band before the hold is counted. -/
def Obligations.HoldRequests : Prop :=
  ∀ (s : State) (requester serial group prec : Nat), s.running = true → s.GroupsSound →
    ((group / 16 ≠ s.address ∨ Tab.find s.groups (group % 16) = none) →
      s.requestHold requester serial group prec = (s, .denied .notOwner .closed)) ∧
    (∀ g0, group / 16 = s.address → Tab.find s.groups (group % 16) = some g0 →
      let g := (g0.attempted s.clock).recomputed
      ∃ u, TripleTested { s with groups := Tab.put s.groups (group % 16) g } u g ∧
        (g.load.band = .closed → s.requestHold requester serial group prec = (u, .denied .closed .closed)) ∧
        (g.load.band = .full → s.requestHold requester serial group prec = (u, .denied .full .full)) ∧
        (g.load.band ≠ .closed → g.load.band ≠ .full →
          (prec < g.load.floor → s.requestHold requester serial group prec = (u, .denied .admission g.load.band)) ∧
          (g.load.floor ≤ prec →
            ((∀ k < Config.holdSlots, s.holdAt k ≠ none) →
              s.requestHold requester serial group prec = (u, .denied .noSlot g.load.band)) ∧
            (∀ k x, s.slots[k]? = some x → x.hold = none → (∀ j < k, s.holdAt j ≠ none) →
              ∃ c t v, g.hunt s.suspects (group % 16) = some (c, t) ∧
                GroupHanded
                  { u with
                    slots := s.slots.setIfInBounds k
                      { generation := x.generation + 1
                        hold := some
                          { requester := requester, serial := serial, group := group, circuit := c, band := g.load.band
                            expiry := s.clock + BitVec.ofNat 32 (1000 * s.config.holdLifetime) } } }
                  v (group % 16)
                  { g with
                    huntPtr := (c + 1) % g.cfg.working
                    circuits := g.circuits.set c (.held t requester k false false) } ∧
                s.requestHold requester serial group prec = (v, .granted
                  { slot := k, generation := (x.generation + 1).toNat, circuit := c, terminal := t
                    carrier := g.cfg.carrier, band := g.load.band, rating := none })))))

/-- HOLD_ASK: a precedence above 7 is a bad frame; a denial is answered by HOLD-DENY; a grant is answered by
HOLD-GIVE, and where the transmit queue refuses that, the refusal is counted, the slot is freed at its advanced
generation, and the circuit is IDLE again and its counts are handed over; the group is as the attempt left it but for
the hunt pointer, which the grant moved (R60, R62, R63). -/
def Obligations.HoldAskAnswered : Prop :=
  ∀ (s : State) (source dest serial ref group prec : Nat) (rest : List RxFrame),
    s.takes source dest (.holdAsk serial ref group prec) rest → s.GroupsSound →
    (7 < prec → exec .holdAsk s = .next { s with rx := rest, counters := s.counters.bump .badFrame }) ∧
    (prec ≤ 7 → ∃ t, exec .holdAsk s = .next t ∧
      (∀ u reason band, ({ s with rx := rest } : State).requestHold source serial group prec = (u, .denied reason band) →
        Offered u t source (.holdDeny serial ref group reason.code band.code)) ∧
      (∀ u gr, ({ s with rx := rest } : State).requestHold source serial group prec = (u, .granted gr) →
        (u.tx.length < Config.txCapacity → t = { u with tx := u.tx ++ [waiting source
          (.holdGive serial ref group gr.slot gr.generation gr.circuit gr.terminal gr.carrier gr.band.code)] }) ∧
        (Config.txCapacity ≤ u.tx.length → ∃ x g, u.slots[gr.slot]? = some x ∧ x.generation.toNat = gr.generation ∧
          Tab.find u.groups (group % 16) = some g ∧
          g.circuits[gr.circuit]? = some (Circuit.held gr.terminal source gr.slot false false) ∧
          GroupHanded
            { u with
              counters := u.counters.bump .txDrop, slots := u.slots.setIfInBounds gr.slot { x with hold := none } }
            t (group % 16) { g with circuits := g.circuits.set gr.circuit (.idle gr.terminal) } ∧
          ∀ g0, Tab.find s.groups (group % 16) = some g0 → Tab.find t.groups (group % 16) =
            some { (g0.attempted s.clock).recomputed with huntPtr := (gr.circuit + 1) % g0.cfg.working })))

/-- HOLD_TAKE (R64 to R67, R12, R13, R27): by slot when the hold id matches, the circuit becomes BUSY with its user
and flags and the slot is freed; without a match an IDLE circuit becomes BUSY with the sender; either way its terminal
leaves the suspect list, and there is no reply. Anything else changes nothing and is answered HOLD-LOST. -/
def Obligations.HoldTakeTaken : Prop :=
  ∀ (s : State) (source dest slot gen group circuit : Nat) (rest : List RxFrame),
    s.takes source dest (.holdTake slot gen group circuit) rest →
    (s.ownCircuit group circuit = none → ∃ t, exec .holdTake s = .next t ∧
      Offered { s with rx := rest } t source (.holdLost slot gen group circuit)) ∧
    ∀ li g x, s.ownCircuit group circuit = some (li, g, x) →
      (s.HoldMatches source slot gen group circuit → ∀ t u bp fr, x = .held t u slot bp fr →
        ∃ v, GroupHanded ({ s with rx := rest } |>.freeSlot slot) v li
            { g with circuits := g.circuits.set circuit (.busy t u bp fr) } ∧
          exec .holdTake s = .next { v with suspects := v.suspects.filter fun e => decide (e ≠ (li, t)) }) ∧
      (¬ s.HoldMatches source slot gen group circuit → ∀ t, x = .idle t →
        ∃ v, GroupHanded { s with rx := rest } v li
            { g with circuits := g.circuits.set circuit (.busy t source false false) } ∧
          exec .holdTake s = .next { v with suspects := v.suspects.filter fun e => decide (e ≠ (li, t)) }) ∧
      (¬ s.HoldMatches source slot gen group circuit → x.isIdle = false → ∃ t, exec .holdTake s = .next t ∧
        Offered { s with rx := rest } t source (.holdLost slot gen group circuit))

/-- HOLD_DROP (R64, R68, R14): by slot, by user without a hold id, or by user where the hold id matches no slot, the
circuit is released in the release order; a hold id present byte above 1 is a bad frame; anything else changes nothing
and is counted "stale drops". -/
def Obligations.HoldDropTaken : Prop :=
  ∀ (s : State) (source dest idp slot gen group circuit : Nat) (rest : List RxFrame),
    s.takes source dest (.holdDrop idp slot gen group circuit) rest →
    (1 < idp → exec .holdDrop s = .next { s with rx := rest, counters := s.counters.bump .badFrame }) ∧
    (idp ≤ 1 →
      (s.ownCircuit group circuit = none →
        exec .holdDrop s = .next { s with rx := rest, counters := s.counters.bump .staleDrops }) ∧
      ∀ li g x, s.ownCircuit group circuit = some (li, g, x) →
        (∀ t u k bp fr, x = .held t u k bp fr →
          ((u = source ∧ (idp = 0 ∨ (s.HoldMatches source slot gen group circuit ∧ slot = k))) →
            exec .holdDrop s = .next ((({ s with rx := rest } : State).freeSlot k).endUse li g circuit t bp fr)) ∧
          (¬ (u = source ∧ (idp = 0 ∨ (s.HoldMatches source slot gen group circuit ∧ slot = k))) →
            exec .holdDrop s = .next { s with rx := rest, counters := s.counters.bump .staleDrops })) ∧
        (∀ t u bp fr, x = .busy t u bp fr →
          ((u = source ∧ (idp = 0 ∨ ¬ s.HoldMatches source slot gen group circuit)) →
            exec .holdDrop s = .next (({ s with rx := rest } : State).endUse li g circuit t bp fr)) ∧
          (¬ (u = source ∧ (idp = 0 ∨ ¬ s.HoldMatches source slot gen group circuit)) →
            exec .holdDrop s = .next { s with rx := rest, counters := s.counters.bump .staleDrops })) ∧
        (x.inUse = false →
          exec .holdDrop s = .next { s with rx := rest, counters := s.counters.bump .staleDrops }))

/-- HOLD_FAULT (R64, R69, R16, R25, R26, R30): where the hold id matches the slot of the HELD circuit, the slot is
freed and the terminal is treated: at fault-on-release, or already a suspect, by fault handling; else the circuit is
BLOCKED or IDLE and the terminal joins the suspect list. Anything else is counted "stale drops". -/
def Obligations.HoldFaultTaken : Prop :=
  ∀ (s : State) (source dest slot gen group circuit : Nat) (rest : List RxFrame),
    s.takes source dest (.holdFault slot gen group circuit) rest →
    ((∀ li g t u bp fr, s.ownCircuit group circuit = some (li, g, .held t u slot bp fr) →
        ¬ s.HoldMatches source slot gen group circuit) →
      exec .holdFault s = .next { s with rx := rest, counters := s.counters.bump .staleDrops }) ∧
    ∀ li g t u bp fr, s.ownCircuit group circuit = some (li, g, .held t u slot bp fr) →
      s.HoldMatches source slot gen group circuit →
      (fr = true → exec .holdFault s =
        .next ((({ s with rx := rest } : State).freeSlot slot).faultHandle li circuit t false)) ∧
      (fr = false → (li, t) ∈ s.suspects → exec .holdFault s =
        .next ((({ s with rx := rest, suspects := s.suspects.filter fun e => decide (e ≠ (li, t)) } : State).freeSlot
          slot).faultHandle li circuit t false)) ∧
      (fr = false → (li, t) ∉ s.suspects → ∃ v, GroupHanded (({ s with rx := rest } : State).freeSlot slot) v li
          { g with circuits := g.circuits.set circuit (if bp then .blocked t else .idle t) } ∧
        exec .holdFault s = .next (v.appendSuspect li t))

/-- HOLD_EXPIRY: at the expiry time the slot is freed, its circuit is released in the release order, and "holds
expired" rises (R70). A free slot, an expiry that is not reached and a station that takes none change nothing: the
model's choice for a command that is not due (assumption 3). -/
def Obligations.HoldExpires : Prop :=
  ∀ (s : State) (k : Nat),
    (s.holdAt k = none → exec (.holdExpiry k) s = .next s) ∧
    ∀ h, s.holdAt k = some h →
      ((s.running = false ∨ 2 ^ 31 ≤ (s.clock - h.expiry).toNat) → exec (.holdExpiry k) s = .next s) ∧
      (s.running = true → (s.clock - h.expiry).toNat < 2 ^ 31 →
        ∀ li g t u bp fr, s.ownCircuit h.group h.circuit = some (li, g, .held t u k bp fr) →
          exec (.holdExpiry k) s = .next (((s.freeSlot k).endUse li g h.circuit t bp fr).bump .holdsExpired))

/-- The release order (R15) and fault handling (R31 to R33, R35) of a circuit of an own group: what becomes of circuit
and terminal, which counter rises, the hand-over of the counts, and the demotion notice with its re-entered reach and
its REACH where the condition turned. -/
def Obligations.ReleaseOrder : Prop :=
  ∀ (s : State) (li c t : Nat) (g : Group) (bp : Bool), s.running = true → Tab.find s.groups li = some g →
    GroupHanded s (s.endUse li g c t bp false) li
      { g with circuits := g.circuits.set c (if bp then .blocked t else .idle t) } ∧
    s.endUse li g c t bp true = s.faultHandle li c t false ∧
    ∀ blocked : Bool, ∃ h : Group,
      h = { g with circuits := h.circuits, terminals := h.terminals } ∧
      (∀ sp, (g.terminals.set t .faulty)[sp]? = some .spare →
        (∀ j < sp, (g.terminals.set t .faulty)[j]? ≠ some .spare) →
        h.terminals = (g.terminals.set t .faulty).set sp (.serving c) ∧
        h.circuits = g.circuits.set c (if blocked then .blocked sp else .idle sp)) ∧
      (TermRole.spare ∉ g.terminals.set t .faulty →
        h.terminals = g.terminals.set t .faulty ∧ h.circuits = g.circuits.set c .faulty) ∧
      ∃ u, GroupHanded (s.bump .faults) u li h ∧
        (demoted h.terminals = demoted g.terminals → s.faultHandle li c t blocked = u) ∧
        (demoted h.terminals ≠ demoted g.terminals →
          let k : Group := { h.recomputed with
            effPref := if demoted h.terminals then min 15 (g.cfg.preference + 1) else g.cfg.preference }
          Offered (({ u with groups := Tab.put u.groups li k } : State).applyReach k.global k.effPref k.cfg.destFirst
            k.cfg.destCount) (s.faultHandle li c t blocked) Config.broadcast (reachMsg k))

/-- A terminal joins the suspect list at its end; a list that already holds 16 first loses its oldest entry, which is
promoted: the circuit that it serves goes to fault handling at once when IDLE or BLOCKED, and carries fault-on-release
when HELD or BUSY (R25, R28 to R30). -/
def Obligations.SuspectPromotion : Prop :=
  ∀ (s : State) (li t : Nat),
    (s.suspects.length < Config.suspectCapacity →
      s.appendSuspect li t = { s with suspects := s.suspects ++ [(li, t)] }) ∧
    (∀ oldest rest g c, Config.suspectCapacity ≤ s.suspects.length → s.suspects = oldest :: rest →
      Tab.find s.groups oldest.1 = some g → g.terminals[oldest.2]? = some (TermRole.serving c) →
      let v : State := { s with suspects := rest, counters := s.counters.bump .suspectsPromoted }
      (s.appendSuspect li t).suspects = rest ++ [(li, t)] ∧
      (∀ t', g.circuits[c]? = some (Circuit.idle t') → s.appendSuspect li t =
        { v.faultHandle oldest.1 c oldest.2 false with suspects := rest ++ [(li, t)] }) ∧
      (∀ t', g.circuits[c]? = some (Circuit.blocked t') → s.appendSuspect li t =
        { v.faultHandle oldest.1 c oldest.2 true with suspects := rest ++ [(li, t)] }) ∧
      (∀ t' u k bp fr, g.circuits[c]? = some (Circuit.held t' u k bp fr) → s.appendSuspect li t =
        { v with
          groups := Tab.put s.groups oldest.1 { g with circuits := g.circuits.set c (.held t' u k bp true) }
          suspects := rest ++ [(li, t)] }) ∧
      (∀ t' u bp fr, g.circuits[c]? = some (Circuit.busy t' u bp fr) → s.appendSuspect li t =
        { v with
          groups := Tab.put s.groups oldest.1 { g with circuits := g.circuits.set c (.busy t' u bp true) }
          suspects := rest ++ [(li, t)] }))

/-! ## The call unit -/

/-- Selection takes the first eligible candidate, in list order, of the first pass that has one: GREEN, AMBER, RED,
GRACE, then stale or unknown; it takes none only where no candidate of the list is eligible (R104, R105). An own group
is judged by its live band and floor (R103). What the view unit reads to the call unit of a remote group (R93). -/
def Obligations.SelectionPasses : Prop :=
  (∀ (s : State) (b : CallBase),
    (∀ c g, c.group / 16 = s.address → Tab.find s.groups (c.group % 16) = some g →
      s.judge c = .band g.load.band (some g.load.floor)) ∧
    let able := fun (c : Candidate) (k : Nat) =>
      (c.group / 16 = s.address ∨ s.isPresent (c.group / 16) = true) ∧ c.group ∉ b.tried ∧
      ((∃ bd fl, s.judge c = .band bd fl ∧ (∀ f, fl = some f → f ≤ b.prec) ∧
        ((bd = .green ∧ k = 1) ∨ (bd = .amber ∧ k = 2) ∨ (bd = .red ∧ k = 3) ∨ (bd = .grace ∧ k = 4))) ∨
        ((s.judge c = .stale ∨ s.judge c = .unknown) ∧ k = 5))
    (∀ c, s.pick b = some c ↔ ∃ k before after, s.routeList b.dest = before ++ c :: after ∧ able c k ∧
      (∀ d ∈ before, ¬ able d k) ∧ ∀ d ∈ s.routeList b.dest, ∀ j, able d j → k ≤ j) ∧
    (s.pick b = none ↔ ∀ c ∈ s.routeList b.dest, ∀ k, ¬ able c k)) ∧
  (∀ (s : State) (c : Candidate), c.group / 16 ≠ s.address →
    (Tab.find s.views c.group = none → s.judge c = .unknown) ∧
    ∀ v, Tab.find s.views c.group = some v →
      (v.stale = true → s.judge c = .stale) ∧
      (v.stale = false →
        (v.band = .green → s.judge c = .band .green (some 0)) ∧
        (v.band = .grace → s.judge c = .band .grace (some 7)) ∧
        (v.band = .full ∨ v.band = .closed → s.judge c = .band v.band (some 8)) ∧
        (v.band = .amber ∨ v.band = .red →
          (∀ fl, v.floor = some (fl, v.band) → s.judge c = .band v.band (some fl)) ∧
          ((∀ fl, v.floor ≠ some (fl, v.band)) → s.judge c = .band v.band none))))

/-- Selection and its attempts (R105 to R108, R113): without a candidate or an attempt left the record ends CONGESTED;
a remote candidate is asked by HOLD-ASK under a new serial, or fails BUS_FULL; an own candidate is asked at once, and
is offered or fails with the denial's reason; a failed attempt goes on with one attempt less. Crankback keeps the
outcome and goes on with the attempts that are left of four. -/
def Obligations.SelectionAttempts : Prop :=
  (∀ (s : State) (r : Nat) (b : CallBase) (fuel : Nat), s.running = true → (fuel = 0 ∨ s.pick b = none) →
    ∃ u, Offered s u b.client (.routeFail b.tag .congested b.attempts b.last) ∧
      s.select r b fuel = { u with counters := u.counters.bump .routeFails, calls := Tab.del s.calls r }) ∧
  (∀ (s : State) (r : Nat) (b : CallBase) (fuel : Nat) (c : Candidate), s.running = true → s.pick b = some c →
    let tried : CallBase := { b with attempts := b.attempts + 1, tried := b.tried ++ [c.group] }
    (c.group / 16 ≠ s.address →
      (s.tx.length < Config.txCapacity → s.select r b (fuel + 1) = { s with
        serial := s.serial + 1
        tx := s.tx ++ [waiting (c.group / 16) (.holdAsk (s.serial + 1).toNat r c.group b.prec)]
        calls := Tab.put s.calls r (CallRecord.mk tried c.group false false
          (.awaitHold (s.serial + 1) (s.clock + BitVec.ofNat 32 s.config.answerTimeout))) }) ∧
      (Config.txCapacity ≤ s.tx.length → s.select r b (fuel + 1) =
        ({ s with serial := s.serial + 1, counters := s.counters.bump .txDrop } : State).select r
          { tried with last := some .busFull } fuel)) ∧
    (c.group / 16 = s.address →
      (∀ u gr, s.requestHold s.address 0 c.group b.prec = (u, .granted gr) →
        s.select r b (fuel + 1) = u.offerCall r tried c.group gr) ∧
      (∀ u reason band, s.requestHold s.address 0 c.group b.prec = (u, .denied reason band) →
        s.select r b (fuel + 1) = u.select r { tried with last := some reason } fuel))) ∧
  ∀ (s : State) (r : Nat) (b : CallBase) (outcome : AttemptOutcome),
    s.crankback r b outcome = s.select r { b with last := some outcome } (4 - b.attempts)

/-- An offer (R110, R134, R135, R145): ROUTE-OFFER to the client with the grant's contents and, for a rated carrier,
the quote; the record is OFFERED with its locked band, deadline and rate snapshot, at GREEN's multiplier for an exempt
precedence and else at the locked band's. -/
def Obligations.OfferMade : Prop :=
  ∀ (s : State) (r group : Nat) (b : CallBase) (gr : Grant), s.running = true →
    ∃ u rating, Offered s u b.client (.routeOffer b.tag b.attempts group gr.circuit gr.terminal gr.carrier gr.band.code
        (rating.map fun sn : Snapshot => sn.quote)) ∧
      s.offerCall r b group gr = { u with
        calls := Tab.put s.calls r (CallRecord.mk b group false false (.offered { gr with rating := rating }
          (s.clock + BitVec.ofNat 32 (1000 * s.config.offerTimeout)))) } ∧
      (Tab.find s.rates gr.carrier = none → rating = none) ∧
      ∀ e, Tab.find s.rates gr.carrier = some e → ∃ m u60 c60, rating = some
          { setup := e.setup, rate := e.rate, mult := m
            quote := c60 + (c60 * s.config.transitFraction + 32768) / 65536 } ∧
        (s.config.exemption ≤ b.prec → m = e.green) ∧
        (b.prec < s.config.exemption → (gr.band = .green → m = e.green) ∧ (gr.band = .amber → m = e.amber) ∧
          (gr.band = .red → m = e.red) ∧ (gr.band = .grace → m = e.grace)) ∧
        u60 = (60 * e.rate + 128) / 256 ∧ c60 = ((e.setup + u60) * m + 2048) / 4096

/-- ROUTE_ASK: a bad field, then NOT_READY, BAD_DEST, DUPLICATE, NO_RECORD and NO_ROUTE in this order, each answered
without a record; else selection runs on the lowest FREE record with four attempts (R101, R102). -/
def Obligations.RouteAskTaken : Prop :=
  ∀ (s : State) (source dest tag wanted prec origin : Nat) (rest : List RxFrame),
    s.takes source dest (.routeAsk tag wanted prec origin) rest →
    let live := fun r => (Tab.find s.calls r).isSome
    let fails := fun why => ∃ t, exec .routeAsk s = .next t ∧
      Offered { s with rx := rest } t source (.routeFail tag why 0 none)
    ((7 < prec ∨ 63 < origin) → exec .routeAsk s =
      .next { s with rx := rest, counters := s.counters.bump .badFrame }) ∧
    (prec ≤ 7 → origin ≤ 63 →
      (s.station ≠ .active → fails .notReady) ∧
      (s.station = .active → 1023 < wanted → fails .badDest) ∧
      (s.station = .active → wanted ≤ 1023 →
        ((∃ p ∈ s.calls, p.2.base.client = source ∧ p.2.base.tag = tag) → fails .duplicate) ∧
        ((∀ p ∈ s.calls, ¬ (p.2.base.client = source ∧ p.2.base.tag = tag)) →
          ((∀ r < Config.callRecords, live r = true) → fails .noRecord) ∧
          (∀ r < Config.callRecords, live r = false → (∀ q < r, live q = true) →
            (s.routeList wanted = [] → fails .noRoute) ∧
            (s.routeList wanted ≠ [] → exec .routeAsk s = .next (({ s with rx := rest } : State).select r
              { client := source, tag := tag, dest := wanted, prec := prec, origin := origin, attempts := 0, tried := []
                last := none } 4))))))

/-- HOLD_GIVE: accepted by the record in AWAIT_HOLD that it refers to, with its serial and group and from the group's
owner, which then takes the offer; a FULL or CLOSED band and a field out of range are a bad frame; any other is a late
grant, counted and dropped at once (R109, R110). Which ranges its fields have is the model's reading (assumption 13).
HOLD_DENY: a reason or band out of range and a source that is not the owner are a bad frame; else the band is written
into the group's view entry, its floor left as it was, and the record in AWAIT_HOLD that it refers to, with its serial
and group, cranks back with the reason (R91, R111). That an own group's entry is not written is the model's reading
(assumption 18). ANSWER_TIMEOUT: at the deadline a record in AWAIT_HOLD cranks back with NO_ANSWER (R112). An
ANSWER_TIMEOUT that is not due, or names no such record, changes nothing: the model's choice (assumption 3). -/
def Obligations.HoldAnswersTaken : Prop :=
  (∀ (s : State) (source dest serial ref group slot gen circuit terminal carrier band : Nat) (rest : List RxFrame),
    s.takes source dest (.holdGive serial ref group slot gen circuit terminal carrier band) rest →
    let good := ref < 512 ∧ group < 512 ∧ slot < 64 ∧ gen < 16 ∧ circuit < 240 ∧ terminal < 255 ∧ carrier < 64 ∧
      band < 4
    (¬ good → exec .holdGive s = .next { s with rx := rest, counters := s.counters.bump .badFrame }) ∧
    (good →
      (∀ rec ser deadline bd, source = group / 16 → Tab.find s.calls ref = some rec →
        rec.phase = .awaitHold ser deadline → ser.toNat = serial → rec.group = group → Band.code bd = band →
        exec .holdGive s = .next (({ s with rx := rest } : State).offerCall ref rec.base group
          { slot := slot, generation := gen, circuit := circuit, terminal := terminal, carrier := carrier, band := bd
            rating := none })) ∧
      ((source ≠ group / 16 ∨ ∀ rec ser deadline, Tab.find s.calls ref = some rec →
          rec.phase = .awaitHold ser deadline → ¬ (ser.toNat = serial ∧ rec.group = group)) →
        ∃ t, Offered { s with rx := rest } t source (.holdDrop 1 slot gen group circuit) ∧
          exec .holdGive s = .next { t with counters := t.counters.bump .lateGrants }))) ∧
  ((∀ (s : State) (source dest serial ref group reason band : Nat) (rest : List RxFrame),
    s.takes source dest (.holdDeny serial ref group reason band) rest →
    (¬ ((1 ≤ reason ∧ reason ≤ 5) ∧ band ≤ 5 ∧ source = group / 16) →
      exec .holdDeny s = .next { s with rx := rest, counters := s.counters.bump .badFrame }) ∧
    (∀ (o : AttemptOutcome) (bd : Band), o.code = reason → reason ≤ 5 → bd.code = band → source = group / 16 →
      let v : State := { s with
        rx := rest
        views := if group / 16 = s.address then s.views else Tab.put s.views group
          { stale := false, band := bd, floor := (Tab.find s.views group).bind (·.floor), heard := s.clock } }
      (∀ rec ser deadline, Tab.find s.calls ref = some rec → rec.phase = .awaitHold ser deadline → ser.toNat = serial →
        rec.group = group → exec .holdDeny s = .next (v.crankback ref rec.base o)) ∧
      ((∀ rec ser deadline, Tab.find s.calls ref = some rec → rec.phase = .awaitHold ser deadline →
        ¬ (ser.toNat = serial ∧ rec.group = group)) → exec .holdDeny s = .next v))) ∧
  ∀ (s : State) (r : Nat),
    (∀ rec ser deadline, Tab.find s.calls r = some rec → rec.phase = .awaitHold ser deadline →
      (s.running = true → reached s.clock deadline = true → exec (.answerTimeout r) s =
        .next (({ s with counters := s.counters.bump .noAnswerTimeouts } : State).crankback r rec.base .noAnswer)) ∧
      ((s.running = false ∨ reached s.clock deadline = false) → exec (.answerTimeout r) s = .next s)) ∧
    ((∀ rec, Tab.find s.calls r = some rec → rec.phase.grant ≠ none) → exec (.answerTimeout r) s = .next s))

/-- The drop at a record's end: none for a disputed record whose local take did not make its circuit BUSY again; a
local drop by the rules of HOLD_DROP for an own group, which releases no circuit HELD under another hold id; else
HOLD-DROP with the hold id (R68, R74, R121). The bit that says whether the take did so is the model's reading
(assumption 10). -/
def Obligations.EndOfUse : Prop :=
  ∀ (s : State) (rec : CallRecord) (gr : Grant), s.running = true →
    (rec.disputed = true → rec.retaken = false → s.endDrop rec gr = s) ∧
    ((rec.disputed = false ∨ rec.retaken = true) →
      (rec.group / 16 ≠ s.address → Offered s (s.endDrop rec gr) (rec.group / 16)
        (.holdDrop 1 gr.slot gr.generation rec.group gr.circuit)) ∧
      (rec.group / 16 = s.address →
        (∀ li g t k bp fr, s.ownCircuit rec.group gr.circuit = some (li, g, .held t s.address k bp fr) →
          s.HoldMatches s.address gr.slot gr.generation rec.group gr.circuit → gr.slot = k →
          s.endDrop rec gr = (s.freeSlot k).endUse li g gr.circuit t bp fr) ∧
        (∀ li g t bp fr, s.ownCircuit rec.group gr.circuit = some (li, g, .busy t s.address bp fr) →
          ¬ s.HoldMatches s.address gr.slot gr.generation rec.group gr.circuit →
          s.endDrop rec gr = s.endUse li g gr.circuit t bp fr) ∧
        (∀ li g t k bp fr, s.ownCircuit rec.group gr.circuit = some (li, g, .held t s.address k bp fr) →
          ¬ (s.HoldMatches s.address gr.slot gr.generation rec.group gr.circuit ∧ gr.slot = k) →
          s.endDrop rec gr = { s with counters := s.counters.bump .staleDrops }) ∧
        (∀ li g t bp fr, s.ownCircuit rec.group gr.circuit = some (li, g, .busy t s.address bp fr) →
          s.HoldMatches s.address gr.slot gr.generation rec.group gr.circuit →
          s.endDrop rec gr = { s with counters := s.counters.bump .staleDrops }) ∧
        ((∀ li g x, s.ownCircuit rec.group gr.circuit = some (li, g, x) → x.user ≠ some s.address) →
          s.endDrop rec gr = { s with counters := s.counters.bump .staleDrops })))

/-- SEIZED and ANSWERED (R115 to R117): a matched record in OFFERED sends HOLD-TAKE, or takes its circuit at once for
an own group, and is RINGING, disputed where the take was refused or lost; ANSWERED then, or in RINGING, sets the
commit time. A report that no record takes is counted "stale drops". The bit that a local take of a disputed record
writes is the model's reading (assumption 10). -/
def Obligations.SeizureReported : Prop :=
  ∀ (s : State) (source dest tag attempt outcome r : Nat) (rec : CallRecord) (rest : List RxFrame), s.TablesSound →
    s.takes source dest (.seizeDone tag attempt outcome) rest → s.recordOfKey source tag = some (r, rec) →
    rec.base.attempts = attempt →
    let stale : State := { s with rx := rest, counters := s.counters.bump .staleDrops }
    let marked := fun k : Counters => if rec.disputed then k else k.bump .disputed
    (∀ gr deadline, rec.phase = .offered gr deadline →
      let becomes := fun (t : State) (next : CallRecord) =>
        (outcome = 1 → exec .seized s = .next { t with
          calls := Tab.put s.calls r { next with phase := .ringing gr } }) ∧
        (outcome = 2 → exec .answered s = .next { t with
          calls := Tab.put s.calls r { next with phase := .connected gr s.clock } })
      (rec.group / 16 ≠ s.address →
        (s.tx.length < Config.txCapacity → becomes
          { s with
            rx := rest
            tx := s.tx ++ [waiting (rec.group / 16) (.holdTake gr.slot gr.generation rec.group gr.circuit)] } rec) ∧
        (Config.txCapacity ≤ s.tx.length → becomes
          { s with rx := rest, counters := marked (s.counters.bump .txDrop) } { rec with disputed := true })) ∧
      (rec.group / 16 = s.address → ∀ u,
        (({ s with rx := rest } : State).takeHold s.address gr.slot gr.generation rec.group gr.circuit = (u, true) →
          becomes u { rec with retaken := rec.disputed }) ∧
        (({ s with rx := rest } : State).takeHold s.address gr.slot gr.generation rec.group gr.circuit = (u, false) →
          becomes { s with rx := rest, counters := marked s.counters } { rec with disputed := true }))) ∧
    (∀ gr, rec.phase = .ringing gr →
      (outcome = 1 → exec .seized s = .next stale) ∧
      (outcome = 2 → exec .answered s =
        .next { s with rx := rest, calls := Tab.put s.calls r { rec with phase := .connected gr s.clock } })) ∧
    (rec.phase.grant = none ∨ (∃ gr commit, rec.phase = .connected gr commit) →
      (outcome = 1 → exec .seized s = .next stale) ∧ (outcome = 2 → exec .answered s = .next stale))

/-- SEIZE_FAILED and ABANDONED (R118), and a SEIZE-DONE that is not matched, for each of the four commands (R115):
SEIZE_FAILED in OFFERED reports the fault to the owner, or to the own hold unit, and cranks back; ABANDONED in OFFERED
or RINGING ends the circuit's use and frees the record. That any of the four commands may take an outcome that the
spec does not name is the model's reading (assumption 11). OFFER_TIMEOUT: at the deadline of an OFFERED record the
circuit's use ends, ROUTE-FAIL OFFER_EXPIRED is offered, "route fails" rises and the record is freed (R119). A command
that is not due changes nothing: the model's choice (assumption 3). -/
def Obligations.AttemptEnds : Prop :=
  (∀ (s : State) (source dest tag attempt outcome : Nat) (rest : List RxFrame),
    s.takes source dest (.seizeDone tag attempt outcome) rest →
    let b : State := { s with rx := rest }
    let stale : State := { s with rx := rest, counters := s.counters.bump .staleDrops }
    (((∀ r rec, s.recordOfKey source tag = some (r, rec) → rec.base.attempts ≠ attempt) ∨ outcome = 0 ∨ 4 < outcome) →
      ((outcome ≠ 2 ∧ outcome ≠ 3 ∧ outcome ≠ 4) → exec .seized s = .next stale) ∧
      ((outcome ≠ 1 ∧ outcome ≠ 3 ∧ outcome ≠ 4) → exec .answered s = .next stale) ∧
      ((outcome ≠ 1 ∧ outcome ≠ 2 ∧ outcome ≠ 4) → exec .seizeFailed s = .next stale) ∧
      ((outcome ≠ 1 ∧ outcome ≠ 2 ∧ outcome ≠ 3) → exec .abandoned s = .next stale)) ∧
    ∀ r rec, s.recordOfKey source tag = some (r, rec) → rec.base.attempts = attempt →
      (∀ gr deadline, rec.phase = .offered gr deadline →
        (outcome = 3 → rec.group / 16 ≠ s.address → ∃ u,
          Offered b u (rec.group / 16) (.holdFault gr.slot gr.generation rec.group gr.circuit) ∧
          exec .seizeFailed s = .next (u.crankback r rec.base .seizeFailed)) ∧
        (outcome = 3 → rec.group / 16 = s.address → exec .seizeFailed s = .next
          ((b.faultHold s.address gr.slot gr.generation rec.group gr.circuit).crankback r rec.base .seizeFailed)) ∧
        (outcome = 4 → ∃ u, u = b.endDrop rec gr ∧
          exec .abandoned s = .next { u with calls := Tab.del s.calls r })) ∧
      (∀ gr, rec.phase = .ringing gr →
        (outcome = 3 → exec .seizeFailed s = .next stale) ∧
        (outcome = 4 → ∃ u, u = b.endDrop rec gr ∧
          exec .abandoned s = .next { u with calls := Tab.del s.calls r })) ∧
      (rec.phase.grant = none ∨ (∃ gr commit, rec.phase = .connected gr commit) →
        (outcome = 3 → exec .seizeFailed s = .next stale) ∧ (outcome = 4 → exec .abandoned s = .next stale))) ∧
  (∀ (s : State) (r : Nat),
    (∀ rec gr deadline, Tab.find s.calls r = some rec → rec.phase = .offered gr deadline →
      (s.running = true → reached s.clock deadline = true → ∃ u,
        Offered (s.endDrop rec gr) u rec.base.client
          (.routeFail rec.base.tag .offerExpired rec.base.attempts rec.base.last) ∧
        exec (.offerTimeout r) s =
          .next { u with counters := u.counters.bump .routeFails, calls := Tab.del s.calls r }) ∧
      ((s.running = false ∨ reached s.clock deadline = false) → exec (.offerTimeout r) s = .next s)) ∧
    ((∀ rec gr deadline, Tab.find s.calls r = some rec → rec.phase ≠ .offered gr deadline) →
      exec (.offerTimeout r) s = .next s))

/-- HOLD_LOST: the matched record in RINGING or CONNECTED is marked disputed, and counted where the flag was clear;
without a match nothing changes (R120, R121). Where several match, one of them is marked: which one is a free value,
and a draw is the model's (assumption 9). The marking of every record that names a circuit (R121): in OFFERED, RINGING
or CONNECTED on that group and circuit, disputed afterwards; every other record as it was; "disputed" rises once for
each flag that was clear. That such a record is no longer its circuit's user, also where its local take had made it so,
is the model's reading (assumption 10). -/
def Obligations.DisputeMarks : Prop :=
  (∀ (s : State) (source dest slot gen group circuit : Nat) (rest : List RxFrame),
    s.takes source dest (.holdLost slot gen group circuit) rest → s.TablesSound →
    let lost := fun (rec : CallRecord) => ∃ gr, rec.phase.grant = some gr ∧
      (∀ deadline, rec.phase ≠ .offered gr deadline) ∧
      rec.group = group ∧ gr.circuit = circuit ∧ gr.slot = slot ∧ gr.generation = gen ∧ group / 16 = source
    let marking := fun (r : Nat) (rec : CallRecord) => if rec.disputed then { s with rx := rest } else
      { s with
        rx := rest, calls := Tab.put s.calls r { rec with disputed := true }, counters := s.counters.bump .disputed }
    ((∀ p ∈ s.calls, ¬ lost p.2) → exec .holdLost s = .next { s with rx := rest }) ∧
    (∀ r rec, Tab.find s.calls r = some rec → lost rec → (∀ p ∈ s.calls, lost p.2 → p.1 = r) →
      exec .holdLost s = .next (marking r rec)) ∧
    (∀ p ∈ s.calls, ∀ q ∈ s.calls, p.1 ≠ q.1 → lost p.2 → lost q.2 → ∃ r rec, Tab.find s.calls r = some rec ∧ lost rec ∧
      exec .holdLost s = .next { marking r rec with draws := s.draws + 1 })) ∧
  (∀ (s : State) (group circuit : Nat), Tab.wf s.calls → s.counters.disputed ≤ Config.counterMax →
    let names := fun rec : CallRecord => decide (rec.group = group) &&
      (rec.phase.grant.any fun gr => decide (gr.circuit = circuit))
    s.markCircuit group circuit = { s with
      calls := s.calls.map fun p => (p.1, if names p.2 then { p.2 with disputed := true, retaken := false } else p.2)
      counters := { s.counters with
        disputed := min (s.counters.disputed + s.calls.countP fun p => names p.2 && !p.2.disputed)
          Config.counterMax } })

/-- CALL_CLEAR of a CONNECTED record (R122, R125, R136, R139 to R142): the seconds, charge and transit, the posting to
the bank that is OPEN, the end of the circuit's use, CLEAR-DONE with its flags, and the record freed, in this
order. -/
def Obligations.ClearConnected : Prop :=
  ∀ (s : State) (source dest tag group circuit r : Nat) (rec : CallRecord) (gr : Grant) (commit : Clock)
    (rest : List RxFrame),
    s.takes source dest (.callClear tag group circuit) rest → group ≤ 511 →
    s.recordOfKey source tag = some (r, rec) → rec.phase = .connected gr commit →
    ∃ d c t v, d = min (((s.clock - commit).toNat + 999) / 1000) 65535 ∧
      (gr.rating = none → c = 0 ∧ t = 0) ∧
      (∀ sn, gr.rating = some sn → c = ((sn.setup + (d * sn.rate + 128) / 256) * sn.mult + 2048) / 4096 ∧
        t = (c * s.config.transitFraction + 32768) / 65536) ∧
      Offered ((({ s with rx := rest } : State).post rec.base.origin gr.carrier
          { seconds := d, charge := c, transit := t, disputed := rec.disputed, unrated := gr.rating.isNone }).endDrop
            rec gr)
        v rec.base.client (.clearDone rec.base.tag c t d
          ((if gr.rating = none then 1 else 0) + (if rec.disputed then 2 else 0))) ∧
      exec .callClear s = .next { v with calls := Tab.del s.calls r }

/-- CALL_CLEAR of a record in another state and of none (R122 to R124): nothing is rated or posted; a granted
circuit's use ends; an orphan clear is counted, ends the use of the named circuit by name, here or at its owner, and
marks the records that name a circuit it released; a group above 511 is a bad frame. -/
def Obligations.ClearOther : Prop :=
  ∀ (s : State) (source dest tag group circuit : Nat) (rest : List RxFrame),
    s.takes source dest (.callClear tag group circuit) rest →
    let b : State := { s with rx := rest }
    (511 < group → exec .callClear s = .next { s with rx := rest, counters := s.counters.bump .badFrame }) ∧
    (group ≤ 511 →
      (∀ r rec, s.recordOfKey source tag = some (r, rec) → (∀ gr commit, rec.phase ≠ .connected gr commit) →
        ∃ u v, (rec.phase.grant = none → u = b) ∧ (∀ gr, rec.phase.grant = some gr → u = b.endDrop rec gr) ∧
          Offered u v rec.base.client
            (.clearDone rec.base.tag 0 0 0 ((if rec.disputed then 2 else 0) + 4)) ∧
          exec .callClear s = .next { v with calls := Tab.del s.calls r }) ∧
      (s.recordOfKey source tag = none →
        let o : State := { s with rx := rest, counters := s.counters.bump .orphanClears }
        ∃ u v, Offered u v source (.clearDone tag 0 0 0 8) ∧ exec .callClear s = .next v ∧
          (group / 16 ≠ s.address → Offered o u (group / 16) (.holdDrop 0 0 0 group circuit)) ∧
          (group / 16 = s.address →
            (∀ li g t k bp fr, s.ownCircuit group circuit = some (li, g, .held t s.address k bp fr) →
              u = ((o.freeSlot k).endUse li g circuit t bp fr).markCircuit group circuit) ∧
            (∀ li g t bp fr, s.ownCircuit group circuit = some (li, g, .busy t s.address bp fr) →
              u = (o.endUse li g circuit t bp fr).markCircuit group circuit) ∧
            ((∀ li g x, s.ownCircuit group circuit = some (li, g, x) → x.user ≠ some s.address) →
              u = { o with counters := o.counters.bump .staleDrops }))))

/-! ## CIRCUIT-CONTROL -/

/-- The target check of CIRCUIT-CONTROL, for each of the four commands (R17): a broadcast for another engine's group
is discarded; a group, circuit or terminal that is not there is answered BAD_TARGET. An action that the spec does not
name is answered BAD_TARGET by whichever of the four commands takes it: the model's reading (assumption 11). -/
def Obligations.ControlTargets : Prop :=
  ∀ (s : State) (source dest group action number : Nat) (rest : List RxFrame) (c : Instr),
    s.takes source dest (.circuitControl group action number) rest →
    ((c = .block ∧ action = 1) ∨ (c = .unblock ∧ action = 2) ∨ (c = .forceRelease ∧ action = 3) ∨
      (c = .restore ∧ action = 4) ∨
      ((action = 0 ∨ 4 < action) ∧ (c = .block ∨ c = .unblock ∨ c = .forceRelease ∨ c = .restore))) →
    (dest = Config.broadcast → group / 16 ≠ s.address → exec c s = .next { s with rx := rest }) ∧
    (¬ (dest = Config.broadcast ∧ group / 16 ≠ s.address) →
      (group / 16 ≠ s.address ∨ Tab.find s.groups (group % 16) = none ∨ action = 0 ∨ 4 < action ∨
        (∀ g, Tab.find s.groups (group % 16) = some g →
          (action ≤ 3 → g.cfg.working ≤ number) ∧ (action = 4 → g.cfg.working + g.cfg.spares ≤ number))) →
      ∃ t, exec c s = .next t ∧
        Offered { s with rx := rest } t source (.mgmtDone 53 .badTarget (.circuit group action number)))

/-- BLOCK and UNBLOCK of a circuit of an own group, by its state (R18, R19): the circuit's new entry with the counts
handed over and the triple tested, answered OK, or nothing, answered NO_CHANGE. -/
def Obligations.BlockUnblock : Prop :=
  ∀ (s : State) (source dest group action c : Nat) (g : Group) (x : Circuit) (rest : List RxFrame),
    s.takes source dest (.circuitControl group action c) rest → group / 16 = s.address →
    Tab.find s.groups (group % 16) = some g → c < g.cfg.working → g.circuits[c]? = some x →
    let answers := fun (e : Instr) (u : State) (code : MgmtCode) => ∃ t, exec e s = .next t ∧
      Offered u t source (.mgmtDone 53 code (.circuit group action c))
    let writes := fun (e : Instr) (y : Circuit) => ∃ u, answers e u .ok ∧
      GroupHanded { s with rx := rest } u (group % 16) { g with circuits := g.circuits.set c y }
    let flags := fun (e : Instr) (y : Circuit) => answers e
      { s with rx := rest, groups := Tab.put s.groups (group % 16) { g with circuits := g.circuits.set c y } } .ok
    (action = 1 →
      (∀ t, x = .idle t → writes .block (.blocked t)) ∧
      (∀ t u k fr, x = .held t u k false fr → flags .block (.held t u k true fr)) ∧
      (∀ t u fr, x = .busy t u false fr → flags .block (.busy t u true fr)) ∧
      ((∃ t u k fr, x = .held t u k true fr) ∨ (∃ t u fr, x = .busy t u true fr) ∨ x.isBlocked = true ∨
        x.isFaulty = true → answers .block { s with rx := rest } .noChange)) ∧
    (action = 2 →
      (∀ t, x = .blocked t → writes .unblock (.idle t)) ∧
      (∀ t u k fr, x = .held t u k true fr → flags .unblock (.held t u k false fr)) ∧
      (∀ t u fr, x = .busy t u true fr → flags .unblock (.busy t u false fr)) ∧
      ((∃ t u k fr, x = .held t u k false fr) ∨ (∃ t u fr, x = .busy t u false fr) ∨ x.isIdle = true ∨
        x.isFaulty = true → answers .unblock { s with rx := rest } .noChange))

/-- FORCE_RELEASE and RESTORE on an own group, by the state of the circuit and the role of the terminal (R20, R34,
R35): a circuit in use is released in the release order, its slot freed, and for an own user its records marked; a
FAULTY terminal serves the lowest FAULTY circuit, or becomes SPARE, and demotion is evaluated; otherwise nothing,
answered NO_CHANGE. That a RESTORE to SPARE hands over the unchanged counts too is the model's reading
(assumption 23). -/
def Obligations.ForceRestore : Prop :=
  ∀ (s : State) (source dest group action n : Nat) (g : Group) (rest : List RxFrame),
    s.takes source dest (.circuitControl group action n) rest → s.GroupsSound → group / 16 = s.address →
    Tab.find s.groups (group % 16) = some g →
    let b : State := { s with rx := rest }
    let answers := fun (e : Instr) (u : State) (code : MgmtCode) => ∃ t, exec e s = .next t ∧
      Offered u t source (.mgmtDone 53 code (.circuit group action n))
    (action = 3 → n < g.cfg.working →
      (∀ t u k bp fr, g.circuits[n]? = some (Circuit.held t u k bp fr) →
        let v := (b.freeSlot k).endUse (group % 16) g n t bp fr
        answers .forceRelease (if u = s.address then v.markCircuit group n else v) .ok) ∧
      (∀ t u bp fr, g.circuits[n]? = some (Circuit.busy t u bp fr) →
        let v := b.endUse (group % 16) g n t bp fr
        answers .forceRelease (if u = s.address then v.markCircuit group n else v) .ok) ∧
      (∀ x, g.circuits[n]? = some x → x.inUse = false → answers .forceRelease b .noChange)) ∧
    (action = 4 → n < g.cfg.working + g.cfg.spares →
      (g.terminals[n]? ≠ some .faulty → answers .restore b .noChange) ∧
      (g.terminals[n]? = some .faulty → ∃ h u v,
        (∀ c, g.circuits[c]? = some .faulty → (∀ j < c, g.circuits[j]? ≠ some .faulty) → h = { g with
          circuits := g.circuits.set c (.idle n), terminals := g.terminals.set n (.serving c) }) ∧
        (Circuit.faulty ∉ g.circuits → h = { g with terminals := g.terminals.set n .spare }) ∧
        GroupHanded b u (group % 16) h ∧
        (demoted h.terminals = demoted g.terminals → v = u) ∧
        (demoted h.terminals ≠ demoted g.terminals →
          let k : Group := { h.recomputed with
            effPref := if demoted h.terminals then min 15 (g.cfg.preference + 1) else g.cfg.preference }
          Offered (({ u with groups := Tab.put u.groups (group % 16) k } : State).applyReach k.global k.effPref
            k.cfg.destFirst k.cfg.destCount) v Config.broadcast (reachMsg k)) ∧
        answers .restore v .ok))

/-! ## Rates and charges -/

/-- RATE_SET with a carrier 0 to 63: the entry is written whole, a multiplier below 4096 as 4096, the answer is OK, no
other entry and no call record changes, and the next snapshot of the carrier is taken from the new values (R130).
RATE_CLEAR with a carrier 0 to 63: a present entry becomes absent, answered OK; an absent one stays, answered
NO_CHANGE; no call record changes, and the next record on the carrier is unrated (R131). A carrier above 63 is
answered BAD_TARGET by both requests (R129). -/
def Obligations.RateRequests : Prop :=
  (∀ (s : State) (source dest carrier setup rate m0 m1 m2 m3 : Nat) (rest : List RxFrame),
    s.takes source dest (.rateSet carrier setup rate m0 m1 m2 m3) rest → carrier ≤ 63 →
    ∃ t e, exec .rateSet s = .next t ∧
      Offered { s with rx := rest, rates := Tab.put s.rates carrier e } t source (.mgmtDone 48 .ok (.carrier carrier)) ∧
      e.setup = setup ∧ e.rate = rate ∧
      (m0 < 4096 → e.green = 4096) ∧ (4096 ≤ m0 → e.green = m0) ∧
      (m1 < 4096 → e.amber = 4096) ∧ (4096 ≤ m1 → e.amber = m1) ∧
      (m2 < 4096 → e.red = 4096) ∧ (4096 ≤ m2 → e.red = m2) ∧
      (m3 < 4096 → e.grace = 4096) ∧ (4096 ≤ m3 → e.grace = m3) ∧
      t.calls = s.calls ∧ Tab.find t.rates carrier = some e ∧
      (∀ c, c ≠ carrier → Tab.find t.rates c = Tab.find s.rates c) ∧
      ∀ band prec, ∃ sn, t.snapshot carrier band prec = some sn ∧ sn.setup = setup ∧ sn.rate = rate ∧
        sn.mult = e.mult (pricingBand s.config.exemption prec band)) ∧
  ((∀ (s : State) (source dest carrier : Nat) (rest : List RxFrame),
    s.takes source dest (.rateClear carrier) rest →
    (63 < carrier → ∃ t, exec .rateClear s = .next t ∧
      Offered { s with rx := rest } t source (.mgmtDone 49 .badTarget (.carrier carrier))) ∧
    (carrier ≤ 63 → ∃ t, exec .rateClear s = .next t ∧
      ((Tab.find s.rates carrier).isSome = true →
        Offered { s with rx := rest, rates := Tab.del s.rates carrier } t source
          (.mgmtDone 49 .ok (.carrier carrier))) ∧
      (Tab.find s.rates carrier = none →
        Offered { s with rx := rest } t source (.mgmtDone 49 .noChange (.carrier carrier))) ∧
      t.calls = s.calls ∧ (∀ c, Tab.find t.rates c = if c = carrier then none else Tab.find s.rates c) ∧
      ∀ band prec, t.snapshot carrier band prec = none)) ∧
  ∀ (s : State) (source dest carrier setup rate m0 m1 m2 m3 : Nat) (rest : List RxFrame),
    s.takes source dest (.rateSet carrier setup rate m0 m1 m2 m3) rest → 63 < carrier →
    ∃ t, exec .rateSet s = .next t ∧
      Offered { s with rx := rest } t source (.mgmtDone 48 .badTarget (.carrier carrier)))

/-- Stage 1: the rated duration is the elapsed time, modulo 2^32, in whole seconds begun, at most 65535 (R139). Stages
2 to 5 (R140 to R142): each is the nearest integer of its quotient, a half going up, and lies within the limits the
rules state. -/
def Obligations.RatingStages : Prop :=
  (∀ commit now : Clock,
    ratedSeconds commit now ≤ 65535 ∧
    (ratedSeconds commit now < 65535 →
      (now - commit).toNat ≤ 1000 * ratedSeconds commit now ∧
      1000 * ratedSeconds commit now < (now - commit).toNat + 1000) ∧
    (65534000 < (now - commit).toNat ↔ ratedSeconds commit now = 65535)) ∧
  (∀ d r a m f : Nat, d ≤ 65535 → r ≤ 65535 → a ≤ 65535 → 4096 ≤ m → m ≤ 65535 → f ≤ 65535 →
    let u := usage d r
    let c := charge a u m
    let t := transit c f
    (256 * u ≤ d * r + 128 ∧ d * r + 128 < 256 * u + 256) ∧ d * r ≤ 4294836225 ∧ d * r + 128 < 2 ^ 32 ∧
    u ≤ 16776704 ∧ (r = 0 → u = 0) ∧ (d = 0 → u = 0) ∧ usage 1 128 = 1 ∧
    (4096 * c ≤ (a + u) * m + 2048 ∧ (a + u) * m + 2048 < 4096 * c + 4096) ∧ a + u ≤ 16842239 ∧
    (a + u) * m ≤ 1103756132865 ∧ c ≤ 269471712 ∧ c < 2 ^ 32 ∧ a + u ≤ c ∧ c ≤ 16 * (a + u) ∧ charge a u 4096 = a + u ∧
    (65536 * t ≤ c * f + 32768 ∧ c * f + 32768 < 65536 * t + 65536) ∧ c * f < 2 ^ 45 ∧ (f = 0 → t = 0) ∧
    (c = 0 → t = 0) ∧ t ≤ c ∧ (f = 65535 → 1 ≤ c → c ≤ 32768 → t = c) ∧ (f = 65535 → 32768 < c → t < c))

/-! ## Tallies -/

/-- PERIOD_CLOSE: with the CLOSED bank EMPTY the banks exchange roles; with it HELD_FOR_READ nothing changes, and the
answer is BANK_BUSY (R155). TALLY_READ: the pair entry at an index below the entry count, the overflow entry at 255 with
both carriers 255, and BAD_INDEX at any other and for an EMPTY bank; no state changes but for the frame taken and the
answer (R156). TALLY_ACK: the period held for read, named, is emptied; any other number, and an EMPTY bank, is answered
PERIOD_MISMATCH and changes nothing (R157). -/
def Obligations.TallyRequests : Prop :=
  (∀ (s : State) (source dest : Nat) (rest : List RxFrame), s.takes source dest .periodClose rest →
    ∃ t, exec .periodClose s = .next t ∧
      (s.closedHeld = false →
        Offered { s with
          rx := rest, closedBank := s.openBank, closedHeld := true
          openBank := { period := s.openBank.period + 1, entries := [], overflow := {} } } t source
          (.mgmtDone 50 .ok (.closed s.openBank.period s.openBank.entries.length (s.openBank.period + 1)))) ∧
      (s.closedHeld = true →
        Offered { s with rx := rest } t source (.mgmtDone 50 .bankBusy (.busy s.closedBank.period)))) ∧
  (∀ (s : State) (source dest index : Nat) (rest : List RxFrame), s.takes source dest (.tallyRead index) rest →
    s.closedBank.entries.length ≤ Config.pairEntries →
    let n := s.closedBank.entries.length
    let period := some s.closedBank.period
    ∃ t, exec .tallyRead s = .next t ∧
      (s.closedHeld = true →
        (∀ e, s.closedBank.entries[index]? = some e →
          Offered { s with rx := rest } t source (.mgmtDone 51 .ok (.tally period index n (some e)))) ∧
        (index = 255 → Offered { s with rx := rest } t source (.mgmtDone 51 .ok (.tally period 255 n
          (some { origin := 255, terminating := 255, sums := s.closedBank.overflow })))) ∧
        (n ≤ index → index ≠ 255 →
          ∃ i, Offered { s with rx := rest } t source (.mgmtDone 51 .badIndex (.tally period i n none)))) ∧
      (s.closedHeld = false →
        ∃ i, Offered { s with rx := rest } t source (.mgmtDone 51 .badIndex (.tally none i 0 none)))) ∧
  (∀ (s : State) (source dest period : Nat) (rest : List RxFrame), s.takes source dest (.tallyAck period) rest →
    ∃ t, exec .tallyAck s = .next t ∧
      (s.closedHeld = true → s.closedBank.period.toNat = period →
        Offered { s with
          rx := rest, closedHeld := false
          closedBank := { period := s.closedBank.period, entries := [], overflow := {} } } t source
          (.mgmtDone 52 .ok (.acked (some s.closedBank.period)))) ∧
      (s.closedHeld = true → s.closedBank.period.toNat ≠ period →
        Offered { s with rx := rest } t source (.mgmtDone 52 .periodMismatch (.acked (some s.closedBank.period)))) ∧
      (s.closedHeld = false →
        Offered { s with rx := rest } t source (.mgmtDone 52 .periodMismatch (.acked none))))

/-- A posting reaches exactly one entry of the OPEN bank: the pair's, a new one for the pair, or the overflow entry,
which counts "tally overflow postings" (R151 to R153); the sum of the calls of all entries rises by one. What a
posting adds to the sums of the entry that takes it, by the kind of clear; an addition that would pass an
accumulator's maximum leaves it there and sets the saturated flag, which no posting clears (R150, R152). -/
def Obligations.PostingCounts : Prop :=
  (∀ (s : State) (o w : Nat) (p : Posting), s.openBank.Sound → s.openBank.overflow.calls < max48 →
    let b := s.openBank
    let b' := (s.post o w p).openBank
    let pair := fun e : PairEntry => e.origin = o ∧ e.terminating = w
    s.post o w p = { s with openBank := b', counters := (s.post o w p).counters } ∧ b'.Sound ∧ b'.period = b.period ∧
    (b'.entries.map fun e => e.sums.calls).sum + b'.overflow.calls =
      (b.entries.map fun e => e.sums.calls).sum + b.overflow.calls + 1 ∧
    (∀ (i : Nat) e, b.entries[i]? = some e → ¬ pair e → b'.entries[i]? = some e) ∧
    (∀ (i : Nat) e, b.entries[i]? = some e → pair e → e.sums.calls < max32 →
      b'.entries = b.entries.set i { e with sums := e.sums.posted max32 p } ∧ b'.overflow = b.overflow ∧
      (s.post o w p).counters = s.counters) ∧
    ((∀ e ∈ b.entries, ¬ pair e) → b.entries.length < Config.pairEntries →
      b'.entries = b.entries ++ [{ origin := o, terminating := w, sums := Sums.posted max32 {} p }] ∧
      b'.overflow = b.overflow ∧ (s.post o w p).counters = s.counters) ∧
    (((∃ e ∈ b.entries, pair e ∧ max32 ≤ e.sums.calls) ∨
        ((∀ e ∈ b.entries, ¬ pair e) ∧ Config.pairEntries ≤ b.entries.length)) →
      b'.entries = b.entries ∧ b'.overflow = b.overflow.posted max48 p ∧
      (s.post o w p).counters = s.counters.bump .tallyOverflow)) ∧
  (∀ (top : Nat) (e : Sums) (p : Posting), e.InRange top →
    let n := e.posted top p
    n.InRange top ∧ n.calls = min (e.calls + 1) top ∧ n.seconds = min (e.seconds + p.seconds) max48 ∧
    (p.unrated = false → n.transit = min (e.transit + p.transit) max48 ∧ n.unrated = e.unrated) ∧
    (p.unrated = false → p.disputed = false →
      n.settled = min (e.settled + p.charge) max48 ∧ n.disputed = e.disputed) ∧
    (p.unrated = false → p.disputed = true →
      n.disputed = min (e.disputed + p.charge) max48 ∧ n.settled = e.settled) ∧
    (p.unrated = true → n.unrated = min (e.unrated + 1) max32 ∧ n.settled = e.settled ∧ n.disputed = e.disputed ∧
      n.transit = e.transit) ∧
    (n.saturated = true ↔ e.saturated = true ∨ top < e.calls + 1 ∨ max48 < e.seconds + p.seconds ∨
      (p.unrated = true ∧ max32 < e.unrated + 1) ∨
      (p.unrated = false ∧ (max48 < e.transit + p.transit ∨ (p.disputed = false ∧ max48 < e.settled + p.charge) ∨
        (p.disputed = true ∧ max48 < e.disputed + p.charge)))))

/-! ## What every step keeps -/

/-- Every step keeps the lines as the station state has them, the counters within 0 to 65535 (R177, R192), the route
lists as R80 gives them, the rate entries as R128 and the banks as R148, R149 and R159 give them. The upper ends of
their values come from received frames, which passed the checks of the bus interface, from the configuration and from
the call records. -/
def Obligations.StepKeepsBounds : Prop :=
  ∀ s t : State, step s = .next t →
    (s.LinesFollow → t.LinesFollow) ∧ (s.CountersSound → t.CountersSound) ∧ (s.RoutesSound → t.RoutesSound) ∧
    (s.RatesSound → t.RatesSound) ∧ (s.TallySound → t.TallySound) ∧ (s.RxSound → s.RatesInRange → t.RatesInRange) ∧
    (s.RxSound → s.ConfigSound → s.GroupsSound → s.RoutesInRange → t.RoutesInRange) ∧
    (s.CallsSound → s.CarriersSound → s.PairsInRange → t.PairsInRange)

/-- Every step keeps what is kept only in some station states, and the two queues (R55, R88, R100, R163, R169, R170,
R172, R186). -/
def Obligations.StepKeepsQueues : Prop :=
  ∀ s t : State, s.KeptInState → s.TxSound → s.RxSound → step s = .next t → t.KeptInState ∧ t.TxSound ∧ t.RxSound

/-- Every step keeps the tables in their canonical form, the configuration in its ranges and budget (R181, R182), the
call records sound, each with a key of its own (R99, R106, R110), and their grants' carriers 0 to 63 (R109). -/
def Obligations.StepKeepsCalls : Prop :=
  ∀ s t : State, s.TablesSound → s.ConfigSound → s.CallsSound → step s = .next t →
    t.TablesSound ∧ t.ConfigSound ∧ t.CallsSound ∧ (s.CarriersSound → t.CarriersSound)

/-- Every step keeps each group's circuits and terminals as R1 to R4, R33 and R35 give them, and its load record as
its circuits and surge flag give it (R5, R39). Every step keeps hold slots and HELD circuits naming each other (R11,
R57), and the suspect list to terminals that serve a circuit not in use by a call, or HELD for verification (R23,
R30). -/
def Obligations.StepKeepsGroups : Prop :=
  (∀ s t : State, s.TablesSound → s.ConfigSound → s.GroupsSound → s.LoadSound → s.HoldsLinked → s.SuspectsSound →
    step s = .next t → t.GroupsSound ∧ t.LoadSound) ∧
  (∀ s t : State, s.TablesSound → s.ConfigSound → s.GroupsSound → s.HoldsLinked → s.SuspectsSound →
    step s = .next t → t.HoldsLinked ∧ t.SuspectsSound)

/-- A record in RINGING or CONNECTED on an own group that is not disputed names a circuit that is BUSY with this station
as user (R121): every step keeps this, with what it rests on, that such a record in OFFERED has its circuit HELD under
its hold id, and that no two records are to drop one circuit. The bit by which a disputed record is its circuit's user
again is the model's reading (assumption 10). It is so while no received frame bears this
station's own address, while an offer's end is taken before its hold's expiry, whose time is never the earlier one
(R181), and while the hold id of no disputed offer has come round again on its slot (R57). -/
def Obligations.StepKeepsBacking : Prop :=
  ∀ s t : State, s.KeptInState → s.TablesSound → s.GroupsSound → s.HoldsLinked → s.CallsBacked →
    (∀ f ∈ s.rx, f.source ≠ s.address) →
    (∀ k rest, s.pending = .holdExpiry k :: rest → ∀ p ∈ s.calls, ∀ gr deadline, p.2.phase = .offered gr deadline →
      p.2.group / 16 = s.address → gr.slot ≠ k) →
    (∀ p ∈ s.calls, ∀ gr deadline, p.2.phase = .offered gr deadline → p.2.group / 16 = s.address →
      p.2.dropsAtEnd = false → ¬ s.HoldMatches s.address gr.slot gr.generation p.2.group gr.circuit) →
    step s = .next t →
      t.CallsBacked ∧
      ∀ p ∈ t.calls, ∀ gr, p.2.phase.grant = some gr → p.2.phase.seized = true → p.2.group / 16 = t.address →
        p.2.disputed = false → ∃ li g term bp fr,
          t.ownCircuit p.2.group gr.circuit = some (li, g, .busy term t.address bp fr)
end

