-- ==== Sys2Proof/Laws/Bytes.lean ====
section
/-! SUPPORT. Numbers as bytes and back (section 9.5), and the fields of a received payload. -/

namespace Sys2Proof.Machine

@[simp] theorem toBytes_length (w n : Nat) : (toBytes w n).length = w := by
  induction w generalizing n with
  | zero => rfl
  | succ w ih => simp [toBytes, ih]

theorem fromBytes_foldl (bs : List Byte) (a : Nat) :
    bs.foldl (fun a b => a * 256 + b.toNat) a = a * 256 ^ bs.length + fromBytes bs := by
  unfold fromBytes
  induction bs generalizing a with
  | nil => simp
  | cons b bs ih =>
    rw [List.foldl_cons, List.foldl_cons, ih, ih (0 * 256 + b.toNat)]
    simp only [List.length_cons, Nat.pow_succ]
    ring

theorem fromBytes_cons (b : Byte) (bs : List Byte) : fromBytes (b :: bs) = b.toNat * 256 ^ bs.length + fromBytes bs := by
  show (b :: bs).foldl _ 0 = _
  rw [List.foldl_cons, fromBytes_foldl]; simp

theorem fromBytes_lt (bs : List Byte) : fromBytes bs < 256 ^ bs.length := by
  induction bs with
  | nil => simp [fromBytes]
  | cons b bs ih =>
    rw [fromBytes_cons, List.length_cons, Nat.pow_succ]
    have := b.isLt
    have h : b.toNat * 256 ^ bs.length ≤ 255 * 256 ^ bs.length := Nat.mul_le_mul_right _ (by omega)
    omega

/-- A number that fits its width is what its bytes spell. -/
theorem fromBytes_toBytes (w n : Nat) (h : n < 256 ^ w) : fromBytes (toBytes w n) = n := by
  have key : ∀ w n, fromBytes (toBytes w n) = n % 256 ^ w := by
    intro w
    induction w with
    | zero => intro n; simp [toBytes, fromBytes, Nat.mod_one]
    | succ w ih =>
      intro n
      have e : 256 ^ (w + 1) = 256 ^ w * 256 := Nat.pow_succ 256 w
      have e8 : (2 : Nat) ^ 8 = 256 := rfl
      rw [toBytes, fromBytes_cons, ih, toBytes_length, BitVec.toNat_ofNat, e, e8, Nat.mod_mul, Nat.mul_comm, Nat.add_comm]
  rw [key, Nat.mod_eq_of_lt h]

/-- Bytes are what the number they spell gives back. -/
theorem toBytes_fromBytes (bs : List Byte) : toBytes bs.length (fromBytes bs) = bs := by
  have key : ∀ w n m, toBytes w (m * 256 ^ w + n) = toBytes w n := by
    intro w
    induction w with
    | zero => intro n m; rfl
    | succ w ih =>
      intro n m
      have h1 : m * 256 ^ (w + 1) + n = (m * 256) * 256 ^ w + n := by ring
      rw [h1, toBytes, toBytes, ih]
      congr 1
      rw [Nat.add_comm, Nat.add_mul_div_right _ _ (Nat.pow_pos (by decide : 0 < 256))]
      apply BitVec.eq_of_toNat_eq
      simp [BitVec.toNat_ofNat]
  induction bs with
  | nil => rfl
  | cons b bs ih =>
    rw [fromBytes_cons, List.length_cons, toBytes, key, ih]
    congr 1
    rw [Nat.add_comm, Nat.add_mul_div_right _ _ (Nat.pow_pos (by decide : 0 < 256)),
      Nat.div_eq_of_lt (fromBytes_lt bs)]
    simp

/-- A field fits its width. -/
theorem field_lt (p : List Byte) (o w : Nat) : field p o w < 256 ^ w := by
  refine (fromBytes_lt _).trans_le (Nat.pow_le_pow_right (by decide) ?_)
  rw [List.length_take]; exact Nat.min_le_left _ _

theorem field1_lt (p : List Byte) (o : Nat) : field p o 1 < 256 := field_lt p o 1
theorem field2_lt (p : List Byte) (o : Nat) : field p o 2 < 65536 := field_lt p o 2

/-- Every field of a received frame fits the width section 9.5 gives it. -/
theorem parseMsg_fits {k : Nat} {p : List Byte} {m : Msg} (h : parseMsg k p = some m) : m.fits = true := by
  unfold parseMsg at h
  split at h
  all_goals first
    | (cases h; simp [Msg.fits, field1_lt, field2_lt])
    | cases h

/-- The first field of bytes that begin with a number's bytes. -/
theorem field_head (w n : Nat) (rest : List Byte) (h : n < 256 ^ w) : field (toBytes w n ++ rest) 0 w = n := by
  unfold field
  rw [List.drop_zero, List.take_append_of_le_length (by simp), List.take_of_length_le (by simp),
    fromBytes_toBytes w n h]

/-- A field behind a number's bytes. -/
theorem field_tail (v w o n : Nat) (rest : List Byte) : field (toBytes v n ++ rest) (v + o) w = field rest o w := by
  unfold field
  congr 2
  simp [List.drop_append]

/-- A number's bytes spell it, with whatever fields follow. -/
theorem spells_cons {w v : Nat} {rest : List Byte} {fields : List (Nat × Nat)} (hv : v < 256 ^ w)
    (h : Spells rest fields) : Spells (toBytes w v ++ rest) ((w, v) :: fields) := by
  refine ⟨by simp, field_head w v rest hv, ?_⟩
  rw [List.drop_left' (by simp)]; exact h

/-- A list of two-byte numbers, as the counters of a STATUS-READ answer are laid out. -/
theorem spells_pairs (l : List Nat) (h : ∀ n ∈ l, n < 256 ^ 2) :
    Spells (l.flatMap (toBytes 2)) (l.map fun n => (2, n)) := by
  induction l with
  | nil => rfl
  | cons n l ih =>
    rw [List.flatMap_cons, List.map_cons]
    exact spells_cons (h n List.mem_cons_self) (ih fun m hm => h m (List.mem_cons_of_mem _ hm))

end Sys2Proof.Machine
end

