-- ==== Sys2Proof/Laws/State.lean ====
section
/-! SUPPORT. What each named update does to each field of the state: one lemma per field per update, true by rfl. -/

namespace Sys2Proof.Machine

variable (s : State)

/-! ### bump -/

@[simp] theorem State.bump_pending (k : Counter) : (s.bump k).pending = s.pending := rfl
@[simp] theorem State.bump_station (k : Counter) : (s.bump k).station = s.station := rfl
@[simp] theorem State.bump_ready (k : Counter) : (s.bump k).ready = s.ready := rfl
@[simp] theorem State.bump_fault (k : Counter) : (s.bump k).fault = s.fault := rfl
@[simp] theorem State.bump_bprstLow (k : Counter) : (s.bump k).bprstLow = s.bprstLow := rfl
@[simp] theorem State.bump_reading (k : Counter) : (s.bump k).reading = s.reading := rfl
@[simp] theorem State.bump_clock (k : Counter) : (s.bump k).clock = s.clock := rfl
@[simp] theorem State.bump_config (k : Counter) : (s.bump k).config = s.config := rfl
@[simp] theorem State.bump_trimmed (k : Counter) : (s.bump k).trimmed = s.trimmed := rfl
@[simp] theorem State.bump_listenDeadline (k : Counter) : (s.bump k).listenDeadline = s.listenDeadline := rfl
@[simp] theorem State.bump_announceDeadline (k : Counter) : (s.bump k).announceDeadline = s.announceDeadline := rfl
@[simp] theorem State.bump_reachDeadline (k : Counter) : (s.bump k).reachDeadline = s.reachDeadline := rfl
@[simp] theorem State.bump_roster (k : Counter) : (s.bump k).roster = s.roster := rfl
@[simp] theorem State.bump_counters (k : Counter) : (s.bump k).counters = s.counters.bump k := rfl
@[simp] theorem State.bump_groups (k : Counter) : (s.bump k).groups = s.groups := rfl
@[simp] theorem State.bump_suspects (k : Counter) : (s.bump k).suspects = s.suspects := rfl
@[simp] theorem State.bump_slots (k : Counter) : (s.bump k).slots = s.slots := rfl
@[simp] theorem State.bump_routes (k : Counter) : (s.bump k).routes = s.routes := rfl
@[simp] theorem State.bump_views (k : Counter) : (s.bump k).views = s.views := rfl
@[simp] theorem State.bump_calls (k : Counter) : (s.bump k).calls = s.calls := rfl
@[simp] theorem State.bump_serial (k : Counter) : (s.bump k).serial = s.serial := rfl
@[simp] theorem State.bump_rates (k : Counter) : (s.bump k).rates = s.rates := rfl
@[simp] theorem State.bump_openBank (k : Counter) : (s.bump k).openBank = s.openBank := rfl
@[simp] theorem State.bump_closedBank (k : Counter) : (s.bump k).closedBank = s.closedBank := rfl
@[simp] theorem State.bump_closedHeld (k : Counter) : (s.bump k).closedHeld = s.closedHeld := rfl
@[simp] theorem State.bump_tx (k : Counter) : (s.bump k).tx = s.tx := rfl
@[simp] theorem State.bump_rx (k : Counter) : (s.bump k).rx = s.rx := rfl
@[simp] theorem State.bump_draws (k : Counter) : (s.bump k).draws = s.draws := rfl
@[simp] theorem State.bump_address (k : Counter) : (s.bump k).address = s.address := rfl
@[simp] theorem State.bump_running (k : Counter) : (s.bump k).running = s.running := rfl

/-! ### setStation -/

@[simp] theorem State.setStation_pending (st : Station) : (s.setStation st).pending = s.pending := rfl
@[simp] theorem State.setStation_station (st : Station) : (s.setStation st).station = st := rfl
@[simp] theorem State.setStation_ready (st : Station) : (s.setStation st).ready = decide (st = .active) := rfl
@[simp] theorem State.setStation_fault (st : Station) : (s.setStation st).fault = decide (st = .halted) := rfl
@[simp] theorem State.setStation_bprstLow (st : Station) : (s.setStation st).bprstLow = s.bprstLow := rfl
@[simp] theorem State.setStation_reading (st : Station) : (s.setStation st).reading = s.reading := rfl
@[simp] theorem State.setStation_clock (st : Station) : (s.setStation st).clock = s.clock := rfl
@[simp] theorem State.setStation_config (st : Station) : (s.setStation st).config = s.config := rfl
@[simp] theorem State.setStation_trimmed (st : Station) : (s.setStation st).trimmed = s.trimmed := rfl
@[simp] theorem State.setStation_listenDeadline (st : Station) : (s.setStation st).listenDeadline = s.listenDeadline := rfl
@[simp] theorem State.setStation_announceDeadline (st : Station) : (s.setStation st).announceDeadline = s.announceDeadline := rfl
@[simp] theorem State.setStation_reachDeadline (st : Station) : (s.setStation st).reachDeadline = s.reachDeadline := rfl
@[simp] theorem State.setStation_roster (st : Station) : (s.setStation st).roster = s.roster := rfl
@[simp] theorem State.setStation_counters (st : Station) : (s.setStation st).counters = s.counters := rfl
@[simp] theorem State.setStation_groups (st : Station) : (s.setStation st).groups = s.groups := rfl
@[simp] theorem State.setStation_suspects (st : Station) : (s.setStation st).suspects = s.suspects := rfl
@[simp] theorem State.setStation_slots (st : Station) : (s.setStation st).slots = s.slots := rfl
@[simp] theorem State.setStation_routes (st : Station) : (s.setStation st).routes = s.routes := rfl
@[simp] theorem State.setStation_views (st : Station) : (s.setStation st).views = s.views := rfl
@[simp] theorem State.setStation_calls (st : Station) : (s.setStation st).calls = s.calls := rfl
@[simp] theorem State.setStation_serial (st : Station) : (s.setStation st).serial = s.serial := rfl
@[simp] theorem State.setStation_rates (st : Station) : (s.setStation st).rates = s.rates := rfl
@[simp] theorem State.setStation_openBank (st : Station) : (s.setStation st).openBank = s.openBank := rfl
@[simp] theorem State.setStation_closedBank (st : Station) : (s.setStation st).closedBank = s.closedBank := rfl
@[simp] theorem State.setStation_closedHeld (st : Station) : (s.setStation st).closedHeld = s.closedHeld := rfl
@[simp] theorem State.setStation_tx (st : Station) : (s.setStation st).tx = s.tx := rfl
@[simp] theorem State.setStation_rx (st : Station) : (s.setStation st).rx = s.rx := rfl
@[simp] theorem State.setStation_draws (st : Station) : (s.setStation st).draws = s.draws := rfl
@[simp] theorem State.setStation_address (st : Station) : (s.setStation st).address = s.address := rfl
@[simp] theorem State.setStation_running (st : Station) : (s.setStation st).running = decide (st = .listen ∨ st = .active) := rfl

/-! ### setGroup -/

@[simp] theorem State.setGroup_pending (li : Nat) (g : Group) : (s.setGroup li g).pending = s.pending := rfl
@[simp] theorem State.setGroup_station (li : Nat) (g : Group) : (s.setGroup li g).station = s.station := rfl
@[simp] theorem State.setGroup_ready (li : Nat) (g : Group) : (s.setGroup li g).ready = s.ready := rfl
@[simp] theorem State.setGroup_fault (li : Nat) (g : Group) : (s.setGroup li g).fault = s.fault := rfl
@[simp] theorem State.setGroup_bprstLow (li : Nat) (g : Group) : (s.setGroup li g).bprstLow = s.bprstLow := rfl
@[simp] theorem State.setGroup_reading (li : Nat) (g : Group) : (s.setGroup li g).reading = s.reading := rfl
@[simp] theorem State.setGroup_clock (li : Nat) (g : Group) : (s.setGroup li g).clock = s.clock := rfl
@[simp] theorem State.setGroup_config (li : Nat) (g : Group) : (s.setGroup li g).config = s.config := rfl
@[simp] theorem State.setGroup_trimmed (li : Nat) (g : Group) : (s.setGroup li g).trimmed = s.trimmed := rfl
@[simp] theorem State.setGroup_listenDeadline (li : Nat) (g : Group) : (s.setGroup li g).listenDeadline = s.listenDeadline := rfl
@[simp] theorem State.setGroup_announceDeadline (li : Nat) (g : Group) : (s.setGroup li g).announceDeadline = s.announceDeadline := rfl
@[simp] theorem State.setGroup_reachDeadline (li : Nat) (g : Group) : (s.setGroup li g).reachDeadline = s.reachDeadline := rfl
@[simp] theorem State.setGroup_roster (li : Nat) (g : Group) : (s.setGroup li g).roster = s.roster := rfl
@[simp] theorem State.setGroup_counters (li : Nat) (g : Group) : (s.setGroup li g).counters = s.counters := rfl
@[simp] theorem State.setGroup_groups (li : Nat) (g : Group) : (s.setGroup li g).groups = Tab.put s.groups li g := rfl
@[simp] theorem State.setGroup_suspects (li : Nat) (g : Group) : (s.setGroup li g).suspects = s.suspects := rfl
@[simp] theorem State.setGroup_slots (li : Nat) (g : Group) : (s.setGroup li g).slots = s.slots := rfl
@[simp] theorem State.setGroup_routes (li : Nat) (g : Group) : (s.setGroup li g).routes = s.routes := rfl
@[simp] theorem State.setGroup_views (li : Nat) (g : Group) : (s.setGroup li g).views = s.views := rfl
@[simp] theorem State.setGroup_calls (li : Nat) (g : Group) : (s.setGroup li g).calls = s.calls := rfl
@[simp] theorem State.setGroup_serial (li : Nat) (g : Group) : (s.setGroup li g).serial = s.serial := rfl
@[simp] theorem State.setGroup_rates (li : Nat) (g : Group) : (s.setGroup li g).rates = s.rates := rfl
@[simp] theorem State.setGroup_openBank (li : Nat) (g : Group) : (s.setGroup li g).openBank = s.openBank := rfl
@[simp] theorem State.setGroup_closedBank (li : Nat) (g : Group) : (s.setGroup li g).closedBank = s.closedBank := rfl
@[simp] theorem State.setGroup_closedHeld (li : Nat) (g : Group) : (s.setGroup li g).closedHeld = s.closedHeld := rfl
@[simp] theorem State.setGroup_tx (li : Nat) (g : Group) : (s.setGroup li g).tx = s.tx := rfl
@[simp] theorem State.setGroup_rx (li : Nat) (g : Group) : (s.setGroup li g).rx = s.rx := rfl
@[simp] theorem State.setGroup_draws (li : Nat) (g : Group) : (s.setGroup li g).draws = s.draws := rfl
@[simp] theorem State.setGroup_address (li : Nat) (g : Group) : (s.setGroup li g).address = s.address := rfl
@[simp] theorem State.setGroup_running (li : Nat) (g : Group) : (s.setGroup li g).running = s.running := rfl

/-! ### setSlot -/

@[simp] theorem State.setSlot_pending (k : Nat) (x : Slot) : (s.setSlot k x).pending = s.pending := rfl
@[simp] theorem State.setSlot_station (k : Nat) (x : Slot) : (s.setSlot k x).station = s.station := rfl
@[simp] theorem State.setSlot_ready (k : Nat) (x : Slot) : (s.setSlot k x).ready = s.ready := rfl
@[simp] theorem State.setSlot_fault (k : Nat) (x : Slot) : (s.setSlot k x).fault = s.fault := rfl
@[simp] theorem State.setSlot_bprstLow (k : Nat) (x : Slot) : (s.setSlot k x).bprstLow = s.bprstLow := rfl
@[simp] theorem State.setSlot_reading (k : Nat) (x : Slot) : (s.setSlot k x).reading = s.reading := rfl
@[simp] theorem State.setSlot_clock (k : Nat) (x : Slot) : (s.setSlot k x).clock = s.clock := rfl
@[simp] theorem State.setSlot_config (k : Nat) (x : Slot) : (s.setSlot k x).config = s.config := rfl
@[simp] theorem State.setSlot_trimmed (k : Nat) (x : Slot) : (s.setSlot k x).trimmed = s.trimmed := rfl
@[simp] theorem State.setSlot_listenDeadline (k : Nat) (x : Slot) : (s.setSlot k x).listenDeadline = s.listenDeadline := rfl
@[simp] theorem State.setSlot_announceDeadline (k : Nat) (x : Slot) : (s.setSlot k x).announceDeadline = s.announceDeadline := rfl
@[simp] theorem State.setSlot_reachDeadline (k : Nat) (x : Slot) : (s.setSlot k x).reachDeadline = s.reachDeadline := rfl
@[simp] theorem State.setSlot_roster (k : Nat) (x : Slot) : (s.setSlot k x).roster = s.roster := rfl
@[simp] theorem State.setSlot_counters (k : Nat) (x : Slot) : (s.setSlot k x).counters = s.counters := rfl
@[simp] theorem State.setSlot_groups (k : Nat) (x : Slot) : (s.setSlot k x).groups = s.groups := rfl
@[simp] theorem State.setSlot_suspects (k : Nat) (x : Slot) : (s.setSlot k x).suspects = s.suspects := rfl
@[simp] theorem State.setSlot_slots (k : Nat) (x : Slot) : (s.setSlot k x).slots = s.slots.setIfInBounds k x := rfl
@[simp] theorem State.setSlot_routes (k : Nat) (x : Slot) : (s.setSlot k x).routes = s.routes := rfl
@[simp] theorem State.setSlot_views (k : Nat) (x : Slot) : (s.setSlot k x).views = s.views := rfl
@[simp] theorem State.setSlot_calls (k : Nat) (x : Slot) : (s.setSlot k x).calls = s.calls := rfl
@[simp] theorem State.setSlot_serial (k : Nat) (x : Slot) : (s.setSlot k x).serial = s.serial := rfl
@[simp] theorem State.setSlot_rates (k : Nat) (x : Slot) : (s.setSlot k x).rates = s.rates := rfl
@[simp] theorem State.setSlot_openBank (k : Nat) (x : Slot) : (s.setSlot k x).openBank = s.openBank := rfl
@[simp] theorem State.setSlot_closedBank (k : Nat) (x : Slot) : (s.setSlot k x).closedBank = s.closedBank := rfl
@[simp] theorem State.setSlot_closedHeld (k : Nat) (x : Slot) : (s.setSlot k x).closedHeld = s.closedHeld := rfl
@[simp] theorem State.setSlot_tx (k : Nat) (x : Slot) : (s.setSlot k x).tx = s.tx := rfl
@[simp] theorem State.setSlot_rx (k : Nat) (x : Slot) : (s.setSlot k x).rx = s.rx := rfl
@[simp] theorem State.setSlot_draws (k : Nat) (x : Slot) : (s.setSlot k x).draws = s.draws := rfl
@[simp] theorem State.setSlot_address (k : Nat) (x : Slot) : (s.setSlot k x).address = s.address := rfl
@[simp] theorem State.setSlot_running (k : Nat) (x : Slot) : (s.setSlot k x).running = s.running := rfl

/-! ### removeSuspect -/

@[simp] theorem State.removeSuspect_pending (li t : Nat) : (s.removeSuspect li t).pending = s.pending := rfl
@[simp] theorem State.removeSuspect_station (li t : Nat) : (s.removeSuspect li t).station = s.station := rfl
@[simp] theorem State.removeSuspect_ready (li t : Nat) : (s.removeSuspect li t).ready = s.ready := rfl
@[simp] theorem State.removeSuspect_fault (li t : Nat) : (s.removeSuspect li t).fault = s.fault := rfl
@[simp] theorem State.removeSuspect_bprstLow (li t : Nat) : (s.removeSuspect li t).bprstLow = s.bprstLow := rfl
@[simp] theorem State.removeSuspect_reading (li t : Nat) : (s.removeSuspect li t).reading = s.reading := rfl
@[simp] theorem State.removeSuspect_clock (li t : Nat) : (s.removeSuspect li t).clock = s.clock := rfl
@[simp] theorem State.removeSuspect_config (li t : Nat) : (s.removeSuspect li t).config = s.config := rfl
@[simp] theorem State.removeSuspect_trimmed (li t : Nat) : (s.removeSuspect li t).trimmed = s.trimmed := rfl
@[simp] theorem State.removeSuspect_listenDeadline (li t : Nat) : (s.removeSuspect li t).listenDeadline = s.listenDeadline := rfl
@[simp] theorem State.removeSuspect_announceDeadline (li t : Nat) : (s.removeSuspect li t).announceDeadline = s.announceDeadline := rfl
@[simp] theorem State.removeSuspect_reachDeadline (li t : Nat) : (s.removeSuspect li t).reachDeadline = s.reachDeadline := rfl
@[simp] theorem State.removeSuspect_roster (li t : Nat) : (s.removeSuspect li t).roster = s.roster := rfl
@[simp] theorem State.removeSuspect_counters (li t : Nat) : (s.removeSuspect li t).counters = s.counters := rfl
@[simp] theorem State.removeSuspect_groups (li t : Nat) : (s.removeSuspect li t).groups = s.groups := rfl
@[simp] theorem State.removeSuspect_suspects (li t : Nat) : (s.removeSuspect li t).suspects = s.suspects.filter fun e => decide (e ≠ (li, t)) := rfl
@[simp] theorem State.removeSuspect_slots (li t : Nat) : (s.removeSuspect li t).slots = s.slots := rfl
@[simp] theorem State.removeSuspect_routes (li t : Nat) : (s.removeSuspect li t).routes = s.routes := rfl
@[simp] theorem State.removeSuspect_views (li t : Nat) : (s.removeSuspect li t).views = s.views := rfl
@[simp] theorem State.removeSuspect_calls (li t : Nat) : (s.removeSuspect li t).calls = s.calls := rfl
@[simp] theorem State.removeSuspect_serial (li t : Nat) : (s.removeSuspect li t).serial = s.serial := rfl
@[simp] theorem State.removeSuspect_rates (li t : Nat) : (s.removeSuspect li t).rates = s.rates := rfl
@[simp] theorem State.removeSuspect_openBank (li t : Nat) : (s.removeSuspect li t).openBank = s.openBank := rfl
@[simp] theorem State.removeSuspect_closedBank (li t : Nat) : (s.removeSuspect li t).closedBank = s.closedBank := rfl
@[simp] theorem State.removeSuspect_closedHeld (li t : Nat) : (s.removeSuspect li t).closedHeld = s.closedHeld := rfl
@[simp] theorem State.removeSuspect_tx (li t : Nat) : (s.removeSuspect li t).tx = s.tx := rfl
@[simp] theorem State.removeSuspect_rx (li t : Nat) : (s.removeSuspect li t).rx = s.rx := rfl
@[simp] theorem State.removeSuspect_draws (li t : Nat) : (s.removeSuspect li t).draws = s.draws := rfl
@[simp] theorem State.removeSuspect_address (li t : Nat) : (s.removeSuspect li t).address = s.address := rfl
@[simp] theorem State.removeSuspect_running (li t : Nat) : (s.removeSuspect li t).running = s.running := rfl

/-! ### putRecord -/

@[simp] theorem State.putRecord_pending (r : Nat) (rec : CallRecord) : (s.putRecord r rec).pending = s.pending := rfl
@[simp] theorem State.putRecord_station (r : Nat) (rec : CallRecord) : (s.putRecord r rec).station = s.station := rfl
@[simp] theorem State.putRecord_ready (r : Nat) (rec : CallRecord) : (s.putRecord r rec).ready = s.ready := rfl
@[simp] theorem State.putRecord_fault (r : Nat) (rec : CallRecord) : (s.putRecord r rec).fault = s.fault := rfl
@[simp] theorem State.putRecord_bprstLow (r : Nat) (rec : CallRecord) : (s.putRecord r rec).bprstLow = s.bprstLow := rfl
@[simp] theorem State.putRecord_reading (r : Nat) (rec : CallRecord) : (s.putRecord r rec).reading = s.reading := rfl
@[simp] theorem State.putRecord_clock (r : Nat) (rec : CallRecord) : (s.putRecord r rec).clock = s.clock := rfl
@[simp] theorem State.putRecord_config (r : Nat) (rec : CallRecord) : (s.putRecord r rec).config = s.config := rfl
@[simp] theorem State.putRecord_trimmed (r : Nat) (rec : CallRecord) : (s.putRecord r rec).trimmed = s.trimmed := rfl
@[simp] theorem State.putRecord_listenDeadline (r : Nat) (rec : CallRecord) : (s.putRecord r rec).listenDeadline = s.listenDeadline := rfl
@[simp] theorem State.putRecord_announceDeadline (r : Nat) (rec : CallRecord) : (s.putRecord r rec).announceDeadline = s.announceDeadline := rfl
@[simp] theorem State.putRecord_reachDeadline (r : Nat) (rec : CallRecord) : (s.putRecord r rec).reachDeadline = s.reachDeadline := rfl
@[simp] theorem State.putRecord_roster (r : Nat) (rec : CallRecord) : (s.putRecord r rec).roster = s.roster := rfl
@[simp] theorem State.putRecord_counters (r : Nat) (rec : CallRecord) : (s.putRecord r rec).counters = s.counters := rfl
@[simp] theorem State.putRecord_groups (r : Nat) (rec : CallRecord) : (s.putRecord r rec).groups = s.groups := rfl
@[simp] theorem State.putRecord_suspects (r : Nat) (rec : CallRecord) : (s.putRecord r rec).suspects = s.suspects := rfl
@[simp] theorem State.putRecord_slots (r : Nat) (rec : CallRecord) : (s.putRecord r rec).slots = s.slots := rfl
@[simp] theorem State.putRecord_routes (r : Nat) (rec : CallRecord) : (s.putRecord r rec).routes = s.routes := rfl
@[simp] theorem State.putRecord_views (r : Nat) (rec : CallRecord) : (s.putRecord r rec).views = s.views := rfl
@[simp] theorem State.putRecord_calls (r : Nat) (rec : CallRecord) : (s.putRecord r rec).calls = Tab.put s.calls r rec := rfl
@[simp] theorem State.putRecord_serial (r : Nat) (rec : CallRecord) : (s.putRecord r rec).serial = s.serial := rfl
@[simp] theorem State.putRecord_rates (r : Nat) (rec : CallRecord) : (s.putRecord r rec).rates = s.rates := rfl
@[simp] theorem State.putRecord_openBank (r : Nat) (rec : CallRecord) : (s.putRecord r rec).openBank = s.openBank := rfl
@[simp] theorem State.putRecord_closedBank (r : Nat) (rec : CallRecord) : (s.putRecord r rec).closedBank = s.closedBank := rfl
@[simp] theorem State.putRecord_closedHeld (r : Nat) (rec : CallRecord) : (s.putRecord r rec).closedHeld = s.closedHeld := rfl
@[simp] theorem State.putRecord_tx (r : Nat) (rec : CallRecord) : (s.putRecord r rec).tx = s.tx := rfl
@[simp] theorem State.putRecord_rx (r : Nat) (rec : CallRecord) : (s.putRecord r rec).rx = s.rx := rfl
@[simp] theorem State.putRecord_draws (r : Nat) (rec : CallRecord) : (s.putRecord r rec).draws = s.draws := rfl
@[simp] theorem State.putRecord_address (r : Nat) (rec : CallRecord) : (s.putRecord r rec).address = s.address := rfl
@[simp] theorem State.putRecord_running (r : Nat) (rec : CallRecord) : (s.putRecord r rec).running = s.running := rfl

/-! ### freeRecord -/

@[simp] theorem State.freeRecord_pending (r : Nat) : (s.freeRecord r).pending = s.pending := rfl
@[simp] theorem State.freeRecord_station (r : Nat) : (s.freeRecord r).station = s.station := rfl
@[simp] theorem State.freeRecord_ready (r : Nat) : (s.freeRecord r).ready = s.ready := rfl
@[simp] theorem State.freeRecord_fault (r : Nat) : (s.freeRecord r).fault = s.fault := rfl
@[simp] theorem State.freeRecord_bprstLow (r : Nat) : (s.freeRecord r).bprstLow = s.bprstLow := rfl
@[simp] theorem State.freeRecord_reading (r : Nat) : (s.freeRecord r).reading = s.reading := rfl
@[simp] theorem State.freeRecord_clock (r : Nat) : (s.freeRecord r).clock = s.clock := rfl
@[simp] theorem State.freeRecord_config (r : Nat) : (s.freeRecord r).config = s.config := rfl
@[simp] theorem State.freeRecord_trimmed (r : Nat) : (s.freeRecord r).trimmed = s.trimmed := rfl
@[simp] theorem State.freeRecord_listenDeadline (r : Nat) : (s.freeRecord r).listenDeadline = s.listenDeadline := rfl
@[simp] theorem State.freeRecord_announceDeadline (r : Nat) : (s.freeRecord r).announceDeadline = s.announceDeadline := rfl
@[simp] theorem State.freeRecord_reachDeadline (r : Nat) : (s.freeRecord r).reachDeadline = s.reachDeadline := rfl
@[simp] theorem State.freeRecord_roster (r : Nat) : (s.freeRecord r).roster = s.roster := rfl
@[simp] theorem State.freeRecord_counters (r : Nat) : (s.freeRecord r).counters = s.counters := rfl
@[simp] theorem State.freeRecord_groups (r : Nat) : (s.freeRecord r).groups = s.groups := rfl
@[simp] theorem State.freeRecord_suspects (r : Nat) : (s.freeRecord r).suspects = s.suspects := rfl
@[simp] theorem State.freeRecord_slots (r : Nat) : (s.freeRecord r).slots = s.slots := rfl
@[simp] theorem State.freeRecord_routes (r : Nat) : (s.freeRecord r).routes = s.routes := rfl
@[simp] theorem State.freeRecord_views (r : Nat) : (s.freeRecord r).views = s.views := rfl
@[simp] theorem State.freeRecord_calls (r : Nat) : (s.freeRecord r).calls = Tab.del s.calls r := rfl
@[simp] theorem State.freeRecord_serial (r : Nat) : (s.freeRecord r).serial = s.serial := rfl
@[simp] theorem State.freeRecord_rates (r : Nat) : (s.freeRecord r).rates = s.rates := rfl
@[simp] theorem State.freeRecord_openBank (r : Nat) : (s.freeRecord r).openBank = s.openBank := rfl
@[simp] theorem State.freeRecord_closedBank (r : Nat) : (s.freeRecord r).closedBank = s.closedBank := rfl
@[simp] theorem State.freeRecord_closedHeld (r : Nat) : (s.freeRecord r).closedHeld = s.closedHeld := rfl
@[simp] theorem State.freeRecord_tx (r : Nat) : (s.freeRecord r).tx = s.tx := rfl
@[simp] theorem State.freeRecord_rx (r : Nat) : (s.freeRecord r).rx = s.rx := rfl
@[simp] theorem State.freeRecord_draws (r : Nat) : (s.freeRecord r).draws = s.draws := rfl
@[simp] theorem State.freeRecord_address (r : Nat) : (s.freeRecord r).address = s.address := rfl
@[simp] theorem State.freeRecord_running (r : Nat) : (s.freeRecord r).running = s.running := rfl

/-! ### forgetPeer -/

@[simp] theorem State.forgetPeer_pending (p : Nat) : (s.forgetPeer p).pending = s.pending := rfl
@[simp] theorem State.forgetPeer_station (p : Nat) : (s.forgetPeer p).station = s.station := rfl
@[simp] theorem State.forgetPeer_ready (p : Nat) : (s.forgetPeer p).ready = s.ready := rfl
@[simp] theorem State.forgetPeer_fault (p : Nat) : (s.forgetPeer p).fault = s.fault := rfl
@[simp] theorem State.forgetPeer_bprstLow (p : Nat) : (s.forgetPeer p).bprstLow = s.bprstLow := rfl
@[simp] theorem State.forgetPeer_reading (p : Nat) : (s.forgetPeer p).reading = s.reading := rfl
@[simp] theorem State.forgetPeer_clock (p : Nat) : (s.forgetPeer p).clock = s.clock := rfl
@[simp] theorem State.forgetPeer_config (p : Nat) : (s.forgetPeer p).config = s.config := rfl
@[simp] theorem State.forgetPeer_trimmed (p : Nat) : (s.forgetPeer p).trimmed = s.trimmed := rfl
@[simp] theorem State.forgetPeer_listenDeadline (p : Nat) : (s.forgetPeer p).listenDeadline = s.listenDeadline := rfl
@[simp] theorem State.forgetPeer_announceDeadline (p : Nat) : (s.forgetPeer p).announceDeadline = s.announceDeadline := rfl
@[simp] theorem State.forgetPeer_reachDeadline (p : Nat) : (s.forgetPeer p).reachDeadline = s.reachDeadline := rfl
@[simp] theorem State.forgetPeer_roster (p : Nat) : (s.forgetPeer p).roster = s.roster := rfl
@[simp] theorem State.forgetPeer_counters (p : Nat) : (s.forgetPeer p).counters = s.counters := rfl
@[simp] theorem State.forgetPeer_groups (p : Nat) : (s.forgetPeer p).groups = s.groups := rfl
@[simp] theorem State.forgetPeer_suspects (p : Nat) : (s.forgetPeer p).suspects = s.suspects := rfl
@[simp] theorem State.forgetPeer_slots (p : Nat) : (s.forgetPeer p).slots = s.slots := rfl
@[simp] theorem State.forgetPeer_routes (p : Nat) : (s.forgetPeer p).routes = pruneRoutes (fun _ c => decide (c.group / 16 = p)) s.routes := rfl
@[simp] theorem State.forgetPeer_views (p : Nat) : (s.forgetPeer p).views = s.views.filter fun e => decide (e.1 / 16 ≠ p) := rfl
@[simp] theorem State.forgetPeer_calls (p : Nat) : (s.forgetPeer p).calls = s.calls := rfl
@[simp] theorem State.forgetPeer_serial (p : Nat) : (s.forgetPeer p).serial = s.serial := rfl
@[simp] theorem State.forgetPeer_rates (p : Nat) : (s.forgetPeer p).rates = s.rates := rfl
@[simp] theorem State.forgetPeer_openBank (p : Nat) : (s.forgetPeer p).openBank = s.openBank := rfl
@[simp] theorem State.forgetPeer_closedBank (p : Nat) : (s.forgetPeer p).closedBank = s.closedBank := rfl
@[simp] theorem State.forgetPeer_closedHeld (p : Nat) : (s.forgetPeer p).closedHeld = s.closedHeld := rfl
@[simp] theorem State.forgetPeer_tx (p : Nat) : (s.forgetPeer p).tx = s.tx := rfl
@[simp] theorem State.forgetPeer_rx (p : Nat) : (s.forgetPeer p).rx = s.rx := rfl
@[simp] theorem State.forgetPeer_draws (p : Nat) : (s.forgetPeer p).draws = s.draws := rfl
@[simp] theorem State.forgetPeer_address (p : Nat) : (s.forgetPeer p).address = s.address := rfl
@[simp] theorem State.forgetPeer_running (p : Nat) : (s.forgetPeer p).running = s.running := rfl

/-! ### quiet -/

@[simp] theorem State.quiet_pending (st : Station) : (s.quiet st).pending = s.pending := rfl
@[simp] theorem State.quiet_station (st : Station) : (s.quiet st).station = st := rfl
@[simp] theorem State.quiet_ready (st : Station) : (s.quiet st).ready = decide (st = .active) := rfl
@[simp] theorem State.quiet_fault (st : Station) : (s.quiet st).fault = decide (st = .halted) := rfl
@[simp] theorem State.quiet_bprstLow (st : Station) : (s.quiet st).bprstLow = s.bprstLow := rfl
@[simp] theorem State.quiet_reading (st : Station) : (s.quiet st).reading = s.reading := rfl
@[simp] theorem State.quiet_clock (st : Station) : (s.quiet st).clock = s.clock := rfl
@[simp] theorem State.quiet_config (st : Station) : (s.quiet st).config = s.config := rfl
@[simp] theorem State.quiet_trimmed (st : Station) : (s.quiet st).trimmed = s.trimmed := rfl
@[simp] theorem State.quiet_listenDeadline (st : Station) : (s.quiet st).listenDeadline = none := rfl
@[simp] theorem State.quiet_announceDeadline (st : Station) : (s.quiet st).announceDeadline = none := rfl
@[simp] theorem State.quiet_reachDeadline (st : Station) : (s.quiet st).reachDeadline = none := rfl
@[simp] theorem State.quiet_roster (st : Station) : (s.quiet st).roster = [] := rfl
@[simp] theorem State.quiet_counters (st : Station) : (s.quiet st).counters = s.counters := rfl
@[simp] theorem State.quiet_groups (st : Station) : (s.quiet st).groups = s.groups := rfl
@[simp] theorem State.quiet_suspects (st : Station) : (s.quiet st).suspects = s.suspects := rfl
@[simp] theorem State.quiet_slots (st : Station) : (s.quiet st).slots = s.slots := rfl
@[simp] theorem State.quiet_routes (st : Station) : (s.quiet st).routes = s.routes := rfl
@[simp] theorem State.quiet_views (st : Station) : (s.quiet st).views = s.views := rfl
@[simp] theorem State.quiet_calls (st : Station) : (s.quiet st).calls = [] := rfl
@[simp] theorem State.quiet_serial (st : Station) : (s.quiet st).serial = s.serial := rfl
@[simp] theorem State.quiet_rates (st : Station) : (s.quiet st).rates = s.rates := rfl
@[simp] theorem State.quiet_openBank (st : Station) : (s.quiet st).openBank = s.openBank := rfl
@[simp] theorem State.quiet_closedBank (st : Station) : (s.quiet st).closedBank = s.closedBank := rfl
@[simp] theorem State.quiet_closedHeld (st : Station) : (s.quiet st).closedHeld = s.closedHeld := rfl
@[simp] theorem State.quiet_tx (st : Station) : (s.quiet st).tx = [] := rfl
@[simp] theorem State.quiet_rx (st : Station) : (s.quiet st).rx = [] := rfl
@[simp] theorem State.quiet_draws (st : Station) : (s.quiet st).draws = s.draws := rfl
@[simp] theorem State.quiet_address (st : Station) : (s.quiet st).address = s.address := rfl
@[simp] theorem State.quiet_running (st : Station) : (s.quiet st).running = decide (st = .listen ∨ st = .active) := rfl

end Sys2Proof.Machine
end

