-- ==== Sys2Proof/Laws/Table.lean ====
section
/-! SUPPORT. Sparse tables: what a key reads after a write or a removal, and that both keep the canonical form. -/

namespace Sys2Proof

namespace Tab

variable {α : Type}

@[simp] theorem find_nil (k : Nat) : Tab.find ([] : Tab α) k = none := rfl

/-- A written key reads as written; every other key reads as before. -/
theorem find_put (t : Tab α) (k j : Nat) (v : α) :
    Tab.find (Tab.put t k v) j = if j = k then some v else Tab.find t j := by
  induction t with
  | nil => simp only [Tab.put, Tab.find, eq_comm]
  | cons p t ih =>
    obtain ⟨i, w⟩ := p
    simp only [Tab.put]
    split
    · simp only [Tab.find, eq_comm]
    · split
      · subst i; simp only [Tab.find, eq_comm]; split <;> rfl
      · simp only [Tab.find, ih]
        split
        · rw [if_neg (by omega)]
        · rfl

theorem find_put_self (t : Tab α) (k : Nat) (v : α) : Tab.find (Tab.put t k v) k = some v := by
  rw [find_put, if_pos rfl]

theorem find_put_ne (t : Tab α) (v : α) {k j : Nat} (h : j ≠ k) : Tab.find (Tab.put t k v) j = Tab.find t j := by
  rw [find_put, if_neg h]

/-- A removed key is not listed; every other key reads as before. -/
theorem find_del (t : Tab α) (k j : Nat) : Tab.find (Tab.del t k) j = if j = k then none else Tab.find t j := by
  induction t with
  | nil => simp [Tab.del, Tab.find]
  | cons p t ih =>
    obtain ⟨i, w⟩ := p
    simp only [Tab.del, List.filter_cons] at ih ⊢
    by_cases hi : i = k
    · subst i
      simp only [ne_eq, not_true_eq_false, decide_false, Bool.false_eq_true, ↓reduceIte, ih, Tab.find]
      split
      · rfl
      · rw [if_neg (by omega)]
    · simp only [ne_eq, hi, not_false_eq_true, decide_true, ↓reduceIte, Tab.find, ih]
      split
      · rw [if_neg (by omega)]
      · rfl

theorem mem_put {t : Tab α} {k : Nat} {v : α} {p : Nat × α} (h : p ∈ Tab.put t k v) : p = (k, v) ∨ p ∈ t := by
  induction t with
  | nil => simpa [Tab.put] using h
  | cons q t ih =>
    obtain ⟨j, w⟩ := q
    simp only [Tab.put] at h
    split at h
    · simpa using h
    · split at h
      · rcases List.mem_cons.1 h with h | h <;> simp [h]
      · rcases List.mem_cons.1 h with h | h
        · simp [h]
        · rcases ih h with h | h <;> simp [h]

theorem mem_del {t : Tab α} {k : Nat} {p : Nat × α} : p ∈ Tab.del t k ↔ p ∈ t ∧ p.1 ≠ k := by
  simp [Tab.del, List.mem_filter]

theorem mem_of_find {t : Tab α} {k : Nat} {v : α} (h : Tab.find t k = some v) : (k, v) ∈ t := by
  induction t with
  | nil => simp at h
  | cons p t ih =>
    obtain ⟨j, w⟩ := p
    simp only [Tab.find] at h
    split at h
    · rename_i hj; subst hj; simp_all
    · exact List.mem_cons_of_mem _ (ih h)

theorem find_of_mem {t : Tab α} (hw : Tab.wf t) {k : Nat} {v : α} (h : (k, v) ∈ t) : Tab.find t k = some v := by
  induction t with
  | nil => simp at h
  | cons p t ih =>
    obtain ⟨j, w⟩ := p
    rw [Tab.wf, List.pairwise_cons] at hw
    simp only [Tab.find]
    rcases List.mem_cons.1 h with h | h
    · simp only [Prod.mk.injEq] at h; simp [h.1, h.2]
    · have := hw.1 _ h
      rw [if_neg (by simp at this; omega)]
      exact ih hw.2 h

/-- A write keeps the canonical form. -/
theorem wf_put {t : Tab α} (hw : Tab.wf t) (k : Nat) (v : α) : Tab.wf (Tab.put t k v) := by
  induction t with
  | nil => simp [Tab.put, Tab.wf]
  | cons p t ih =>
    obtain ⟨j, w⟩ := p
    have hw' := hw
    rw [Tab.wf, List.pairwise_cons] at hw
    simp only [Tab.put]
    split
    · rename_i hk
      rw [Tab.wf, List.pairwise_cons]
      refine ⟨fun q hq => ?_, hw'⟩
      rcases List.mem_cons.1 hq with h | h
      · simp [h, hk]
      · have := hw.1 _ h; simp at this ⊢; omega
    · split
      · rename_i hj; subst hj
        rw [Tab.wf, List.pairwise_cons]
        exact ⟨fun q hq => hw.1 q hq, hw.2⟩
      · rw [Tab.wf, List.pairwise_cons]
        refine ⟨fun q hq => ?_, ih hw.2⟩
        rcases mem_put hq with h | h
        · subst h; show j < k; omega
        · exact hw.1 q h

/-- A removal keeps the canonical form. -/
theorem wf_del {t : Tab α} (hw : Tab.wf t) (k : Nat) : Tab.wf (Tab.del t k) := hw.filter _

theorem wf_filter {t : Tab α} (hw : Tab.wf t) (f : Nat × α → Bool) : Tab.wf (t.filter f) := hw.filter _

/-- Replacing every value keeps the canonical form. -/
theorem wf_mapVal {β : Type} {t : Tab α} (hw : Tab.wf t) (f : Nat → α → β) :
    Tab.wf (t.map fun p => (p.1, f p.1 p.2)) := by
  rw [Tab.wf, List.pairwise_map]; exact hw

theorem find_mapVal {β : Type} (t : Tab α) (f : Nat → α → β) (k : Nat) :
    Tab.find (t.map fun p => (p.1, f p.1 p.2)) k = (Tab.find t k).map (f k) := by
  induction t with
  | nil => rfl
  | cons p t ih =>
    obtain ⟨j, w⟩ := p
    simp only [List.map_cons, Tab.find, ih]
    split
    · rename_i h; subst h; rfl
    · rfl

theorem find_filter_key (t : Tab α) (f : Nat → Bool) (k : Nat) :
    Tab.find (t.filter fun p => f p.1) k = if f k then Tab.find t k else none := by
  induction t with
  | nil => simp
  | cons p t ih =>
    obtain ⟨j, w⟩ := p
    simp only [List.filter_cons]
    split
    · rename_i h
      simp only [Tab.find, ih]
      split
      · rename_i h'; subst h'; simp [h]
      · rfl
    · rename_i h
      simp only [Tab.find, ih]
      by_cases hj : j = k
      · subst hj; simp [h]
      · simp [hj]

end Tab
/-- `force` only evaluates its first argument early. -/
theorem Machine.force_eq {α : Type} (n : Nat) (k : Nat → α) : Machine.force n k = k n := by cases n <;> rfl

end Sys2Proof
end

