-- ==== Sys2Proof/Laws/Routes.lean ====
section
/-! SUPPORT. Route lists: what entering and removing candidates does to a list (R80 to R83). -/

namespace Sys2Proof.Machine

theorem Candidate.before_trans {a b c : Candidate} (h : a.before b = true) (h' : b.before c = true) :
    a.before c = true := by
  simp only [Candidate.before, decide_eq_true_eq] at *; omega

/-- Of two candidates of different groups, one is before the other. -/
theorem Candidate.before_of_not {a b : Candidate} (hg : a.group ≠ b.group) (h : a.before b = false) :
    b.before a = true := by
  simp only [Candidate.before, decide_eq_true_eq, decide_eq_false_iff_not] at *; omega

theorem insertCandidate_perm (c : Candidate) (l : List Candidate) : (insertCandidate c l).Perm (c :: l) := by
  induction l with
  | nil => simp [insertCandidate]
  | cons d ds ih =>
    simp only [insertCandidate]
    split
    · rfl
    · exact (ih.cons d).trans (List.Perm.swap c d ds)

theorem mem_insertCandidate {c d : Candidate} {l : List Candidate} :
    d ∈ insertCandidate c l ↔ d = c ∨ d ∈ l := by
  rw [(insertCandidate_perm c l).mem_iff, List.mem_cons]

theorem insertCandidate_sorted {c : Candidate} {l : List Candidate} (hl : l.Pairwise fun a b => a.before b = true)
    (hc : ∀ d ∈ l, d.group ≠ c.group) : (insertCandidate c l).Pairwise fun a b => a.before b = true := by
  induction l with
  | nil => simp [insertCandidate]
  | cons d ds ih =>
    rw [List.pairwise_cons] at hl
    simp only [insertCandidate]
    split
    · rename_i h
      rw [List.pairwise_cons]
      refine ⟨fun e he => ?_, List.pairwise_cons.2 hl⟩
      rcases List.mem_cons.1 he with rfl | he
      · exact h
      · exact Candidate.before_trans h (hl.1 e he)
    · rename_i h
      rw [List.pairwise_cons]
      refine ⟨fun e he => ?_, ih hl.2 fun e he => hc e (List.mem_cons_of_mem _ he)⟩
      rcases mem_insertCandidate.1 he with rfl | he
      · exact Candidate.before_of_not (fun h' => hc d List.mem_cons_self h'.symm) (Bool.not_eq_true _ ▸ h)
      · exact hl.1 e he

/-- Inserting a group that a list does not hold keeps the list sorted and without repeats. -/
theorem insertCandidate_sound {c : Candidate} {l : List Candidate} (hl : l.Pairwise fun a b => a.before b = true)
    (hn : (l.map (·.group)).Nodup) (hlen : l.length < Config.routeCandidates) (hc : ∀ d ∈ l, d.group ≠ c.group) :
    routeListSound (insertCandidate c l) := by
  have hp := insertCandidate_perm c l
  refine ⟨fun h => ?_, ?_, insertCandidate_sorted hl hc, ?_⟩
  · have := hp.length_eq; simp [h] at this
  · rw [hp.length_eq]; exact hlen
  · rw [(hp.map _).nodup_iff, List.map_cons, List.nodup_cons]
    refine ⟨fun h => ?_, hn⟩
    obtain ⟨d, hd, he⟩ := List.mem_map.1 h
    exact hc d hd he

/-- An empty list, or a list that is sound. -/
def routeListOk (l : List Candidate) : Prop := l = [] ∨ routeListSound l

/-- Entering a candidate gives a sound list that holds the group or did not take it (R81, R82). -/
theorem enterCandidate_sound {c : Candidate} {l : List Candidate} (h : routeListOk l) :
    routeListSound (enterCandidate c l).1 := by
  have hs : l.length ≤ Config.routeCandidates ∧ l.Pairwise (fun a b => a.before b = true) ∧ (l.map (·.group)).Nodup := by
    rcases h with rfl | ⟨-, h⟩
    · simp
    · exact h
  obtain ⟨hlen, hp, hn⟩ := hs
  unfold enterCandidate
  split
  · rename_i hany
    obtain ⟨d, hd, hg⟩ := List.any_eq_true.1 hany
    have hf : ((l.filter fun d => decide (d.group ≠ c.group))).length < l.length := by
      refine List.length_filter_lt_length_iff_exists.2 ⟨d, hd, ?_⟩
      simpa using hg
    refine insertCandidate_sound (hp.filter _) (hn.sublist (List.filter_sublist.map _)) (by omega) fun e he => ?_
    simpa using (List.mem_filter.1 he).2
  · rename_i hany
    have hc : ∀ d ∈ l, d.group ≠ c.group := fun d hd hg => hany (List.any_eq_true.2 ⟨d, hd, by simp [hg]⟩)
    split
    · rename_i hl
      exact insertCandidate_sound hp hn hl hc
    · rename_i hl
      split
      · rename_i z hz
        split
        · have hsub := List.dropLast_sublist l
          refine insertCandidate_sound (hp.sublist hsub) (hn.sublist (hsub.map _)) ?_ fun e he =>
            hc e (hsub.subset he)
          have : l ≠ [] := by rintro rfl; simp at hz
          have := List.length_pos_iff.2 this
          simp only [List.length_dropLast]; omega
        · have : l ≠ [] := by rintro rfl; simp at hz
          exact ⟨this, hlen, hp, hn⟩
      · rename_i hz
        have : l = [] := by simpa using hz
        subst this
        exact absurd (show ([] : List Candidate).length < Config.routeCandidates by decide) hl

/-- A list that a candidate has been entered in holds that candidate and what it held (R81, R82). -/
theorem mem_enterCandidate {c d : Candidate} {l : List Candidate} (h : d ∈ (enterCandidate c l).1) : d = c ∨ d ∈ l := by
  unfold enterCandidate at h
  split at h
  · exact (mem_insertCandidate.1 h).imp_right fun h => (List.mem_filter.1 h).1
  · split at h
    · exact mem_insertCandidate.1 h
    · split at h
      · split at h
        · exact (mem_insertCandidate.1 h).imp_right fun h => List.mem_of_mem_dropLast h
        · exact .inr h
      · exact mem_insertCandidate.1 h

theorem routesSound_list {s : State} (h : s.RoutesSound) (d : Nat) : routeListOk (s.routeList d) := by
  unfold State.routeList
  cases hf : Tab.find s.routes d with
  | none => exact .inl rfl
  | some l => exact .inr (h _ (Tab.mem_of_find hf)).2

/-- Pruning keeps every list sound. -/
theorem pruneRoutes_sound {t : Tab (List Candidate)} (h : ∀ p ∈ t, p.1 < 1024 ∧ routeListSound p.2)
    (gone : Nat → Candidate → Bool) : ∀ p ∈ pruneRoutes gone t, p.1 < 1024 ∧ routeListSound p.2 := by
  intro p hp
  obtain ⟨q, hq, he⟩ := List.mem_filterMap.1 hp
  simp only at he
  split at he
  · cases he
  · rename_i hne
    cases he
    obtain ⟨hk, hne', hlen, hs, hn⟩ := h q hq
    refine ⟨hk, by simpa using hne, ?_, hs.filter _, hn.sublist (List.filter_sublist.map _)⟩
    exact (List.length_filter_le _ _).trans hlen

theorem wf_pruneRoutes {t : Tab (List Candidate)} (h : Tab.wf t) (gone : Nat → Candidate → Bool) :
    Tab.wf (pruneRoutes gone t) := by
  unfold Tab.wf pruneRoutes
  rw [List.pairwise_filterMap]
  refine List.Pairwise.imp (fun {p q} hpq b hb c hc => ?_) h
  simp only at hb hc
  split at hb
  · cases hb
  split at hc
  · cases hc
  cases hb; cases hc; exact hpq

/-- What a destination's list reads after a pruning. -/
theorem find_pruneRoutes (t : Tab (List Candidate)) (gone : Nat → Candidate → Bool) (h : Tab.wf t) (d : Nat) :
    (Tab.find (pruneRoutes gone t) d).getD [] = ((Tab.find t d).getD []).filter fun c => !gone d c := by
  induction t with
  | nil => rfl
  | cons p t ih =>
    obtain ⟨i, l⟩ := p
    have h' := h
    rw [Tab.wf, List.pairwise_cons] at h
    have ih := ih h.2
    simp only [pruneRoutes, List.filterMap_cons] at ih ⊢
    by_cases hi : i = d
    · subst hi
      have hnone : Tab.find t i = none := by
        cases hf : Tab.find t i with
        | none => rfl
        | some v => have := h.1 _ (Tab.mem_of_find hf); simp at this
      simp only [Tab.find, ↓reduceIte, Option.getD_some]
      split
      · rename_i he
        split at he
        · rename_i hem
          rw [ih, hnone]
          simpa using hem.symm
        · cases he
      · rename_i he
        split at he
        · cases he
        · cases he; simp [Tab.find]
    · simp only [Tab.find, if_neg hi]
      split
      · exact ih
      · rename_i he
        split at he
        · cases he
        · cases he; simpa [Tab.find, hi] using ih

end Sys2Proof.Machine
end

