-- ==== Sys2Proof/Laws/Groups.lean ====
section
/-! SUPPORT. What changes of a group's entries do to its load record. -/

namespace Sys2Proof.Machine

@[simp] theorem Group.recomputed_cfg (g : Group) : g.recomputed.cfg = g.cfg := rfl
@[simp] theorem Group.recomputed_global (g : Group) : g.recomputed.global = g.global := rfl
@[simp] theorem Group.recomputed_effPref (g : Group) : g.recomputed.effPref = g.effPref := rfl
@[simp] theorem Group.recomputed_huntPtr (g : Group) : g.recomputed.huntPtr = g.huntPtr := rfl
@[simp] theorem Group.recomputed_circuits (g : Group) : g.recomputed.circuits = g.circuits := rfl
@[simp] theorem Group.recomputed_terminals (g : Group) : g.recomputed.terminals = g.terminals := rfl
@[simp] theorem Group.recomputed_announced (g : Group) : g.recomputed.load.announced = g.load.announced := rfl
@[simp] theorem Group.recomputed_surge (g : Group) : g.recomputed.load.surge = g.load.surge := rfl
@[simp] theorem Group.recomputed_smoothed (g : Group) : g.recomputed.load.smoothed = g.load.smoothed := rfl
@[simp] theorem Group.recomputed_lastAttempt (g : Group) : g.recomputed.load.lastAttempt = g.load.lastAttempt := rfl
@[simp] theorem Group.recomputed_inService (g : Group) : g.recomputed.inService = g.inService := rfl
@[simp] theorem Group.recomputed_occupied (g : Group) : g.recomputed.occupied = g.occupied := rfl

/-- A recomputation of a recomputed record changes nothing (R39). -/
theorem Group.recomputed_idem (g : Group) : g.recomputed.recomputed = g.recomputed := rfl

/-- The effective preference plays no part in the load record. -/
theorem Group.recomputed_setPref {g : Group} (h : g.recomputed = g) (e : Nat) :
    ({ g with effPref := e } : Group).recomputed = { g with effPref := e } := by
  conv => rhs; rw [← h]
  rfl

/-- The last-announced triple plays no part in the rest of the load record. -/
theorem Group.recomputed_setAnnounced {g : Group} (h : g.recomputed = g) (x : Triple) :
    ({ g with load := { g.load with announced := x } } : Group).recomputed =
      { g with load := { g.load with announced := x } } := by
  conv => rhs; rw [← h]
  rfl

theorem countP_set_of_eq {α : Type} (p : α → Bool) {l : List α} {c : Nat} {x y : α} (h : l[c]? = some y)
    (hp : p x = p y) : (l.set c x).countP p = l.countP p := by
  induction l generalizing c with
  | nil => simp at h
  | cons a l ih =>
    cases c with
    | zero => simp at h; subst h; simp [List.countP_cons, hp]
    | succ c => simp at h; simp [List.countP_cons, ih h]

/-- A circuit entry that keeps its state keeps its group's counts, and with them the load record (R5). -/
theorem Group.recomputed_setCircuit {g : Group} (h : g.recomputed = g) {c : Nat} {x y : Circuit}
    (hc : g.circuits[c]? = some y) (hf : x.isFaulty = y.isFaulty) (hb : x.isBlocked = y.isBlocked)
    (hh : x.isHeld = y.isHeld) (hu : x.isBusy = y.isBusy) :
    ({ g with circuits := g.circuits.set c x } : Group).recomputed = { g with circuits := g.circuits.set c x } := by
  have hn : ({ g with circuits := g.circuits.set c x } : Group).inService = g.inService := by
    simp only [Group.inService, countP_set_of_eq _ hc hf, countP_set_of_eq _ hc hb]
  have ho : ({ g with circuits := g.circuits.set c x } : Group).occupied = g.occupied := by
    simp only [Group.occupied, countP_set_of_eq _ hc hh, countP_set_of_eq _ hc hu]
  conv => rhs; rw [← h]
  simp only [Group.recomputed, hn, ho]

end Sys2Proof.Machine
end

