-- ==== Sys2Proof/Laws/CircuitEdits.lean ====
section
/-! SUPPORT. What the operations of the circuit, load, fault, hold and reach units can do to the state, said once: each
is a chain of elementary changes. -/

namespace Sys2Proof.Machine

/-- What every rewriting of a group record keeps: the configuration and the global number; an effective preference that
changes follows the demotion condition (R2). -/
structure GroupKept (g0 g : Group) : Prop where
  cfg : g.cfg = g0.cfg
  global : g.global = g0.global
  pref : g.effPref = g0.effPref ∨ ∃ d, g.effPref = effectivePref g0.cfg.preference d

theorem GroupKept.trans {g0 g g1 : Group} (h : GroupKept g0 g) (h' : GroupKept g g1) : GroupKept g0 g1 :=
  ⟨h'.cfg.trans h.cfg, h'.global.trans h.global, by
    rcases h'.pref with hp | ⟨d, hp⟩
    · rw [hp]; exact h.pref
    · exact .inr ⟨d, by rw [hp, h.cfg]⟩⟩

theorem Group.faulted_kept (g : Group) (c t : Nat) (b : Bool) : GroupKept g (g.faulted c t b) := by
  unfold Group.faulted; simp only; split <;> exact ⟨rfl, rfl, .inl rfl⟩

theorem Group.restoredTerminal_kept (g : Group) (t : Nat) : GroupKept g (g.restoredTerminal t) := by
  unfold Group.restoredTerminal; split <;> exact ⟨rfl, rfl, .inl rfl⟩

/-- The reach of a group that has a record. -/
def State.OwnReach (s : State) (group pref : Nat) : Prop := ∃ p ∈ s.groups, group = p.2.global ∧ pref = p.2.effPref

/-- An elementary change made inside the operations of the circuit, load, fault, hold and reach units. -/
inductive CircuitEdit : State → State → Prop
  /-- a counter rises -/
  | bump (s k) : CircuitEdit s (s.bump k)
  /-- an entry joins the transmit queue; a LOAD only where none for its group waits -/
  | enqueue (s e) (hr : s.running = true) (hl : s.tx.length < Config.txCapacity) (hw : e.onLine = none)
      (hg : ∀ g, e.body = .load g → s.tx.any (·.waitingLoad g) = false) :
      CircuitEdit s { s with tx := s.tx ++ [e] }
  /-- a group record is rewritten with its configuration kept and its load record following its counts -/
  | group (s li g g0) (h0 : Tab.find s.groups li = some g0) (hc : GroupKept g0 g)
      (hl : g0.recomputed = g0 → g.recomputed = g) : CircuitEdit s (s.setGroup li g)
  /-- an own group enters a route list -/
  | route (s c d) (hd : d < 1024) (hc : s.OwnReach c.group c.pref) :
      CircuitEdit s { s with routes := Tab.put s.routes d (enterCandidate c (s.routeList d)).1 }
  /-- candidates leave the route lists -/
  | prune (s gone) : CircuitEdit s { s with routes := pruneRoutes gone s.routes }
  /-- the suspect list changes -/
  | suspects (s l) : CircuitEdit s { s with suspects := l }
  /-- a hold slot changes -/
  | slots (s x) : CircuitEdit s { s with slots := x }
  /-- a free value is drawn -/
  | draw (s) : CircuitEdit s { s with draws := s.draws + 1 }

/-- A chain of elementary changes. -/
abbrev CircuitEdits : State → State → Prop := Relation.ReflTransGen CircuitEdit

theorem CircuitEdit.one {s t : State} (h : CircuitEdit s t) : CircuitEdits s t := .single h

/-- What no operation of these units touches. -/
structure CircuitFrame (s t : State) : Prop where
  eq : t = { s with
    counters := t.counters, groups := t.groups, suspects := t.suspects, slots := t.slots, routes := t.routes
    tx := t.tx, draws := t.draws }

theorem CircuitFrame.refl (s : State) : CircuitFrame s s := ⟨rfl⟩

theorem CircuitFrame.trans {s t u : State} (h : CircuitFrame s t) (h' : CircuitFrame t u) : CircuitFrame s u :=
  ⟨by rw [h'.eq, h.eq]⟩

theorem CircuitEdit.frame {s t : State} (h : CircuitEdit s t) : CircuitFrame s t := by
  cases h <;> exact ⟨rfl⟩

theorem CircuitEdits.frame {s t : State} (h : CircuitEdits s t) : CircuitFrame s t := by
  induction h with
  | refl => exact .refl s
  | tail _ h ih => exact ih.trans h.frame

section
variable {s t : State} (h : CircuitFrame s t)
include h
theorem CircuitFrame.station : t.station = s.station := by rw [h.eq]
theorem CircuitFrame.running : t.running = s.running := by rw [h.eq]; rfl
theorem CircuitFrame.config : t.config = s.config := by rw [h.eq]
theorem CircuitFrame.address : t.address = s.address := by rw [h.eq]; rfl
theorem CircuitFrame.calls : t.calls = s.calls := by rw [h.eq]
theorem CircuitFrame.rates : t.rates = s.rates := by rw [h.eq]
theorem CircuitFrame.clock : t.clock = s.clock := by rw [h.eq]
theorem CircuitFrame.views : t.views = s.views := by rw [h.eq]
theorem CircuitFrame.roster : t.roster = s.roster := by rw [h.eq]
theorem CircuitFrame.rx : t.rx = s.rx := by rw [h.eq]
theorem CircuitFrame.pending : t.pending = s.pending := by rw [h.eq]
end

/-! ## The operations -/

theorem bump_edits (s : State) (k : Counter) : CircuitEdits s (s.bump k) := (CircuitEdit.bump s k).one

theorem offer_edits (s : State) (d : Nat) (m : Msg) : CircuitEdits s (s.offer d m).1 := by
  unfold State.offer
  split
  · split
    · exact (CircuitEdit.enqueue s _ ‹_› ‹_› rfl (fun g h => by cases h)).one
    · exact bump_edits s _
  · exact .refl

theorem send_edits (s : State) (d : Nat) (m : Msg) : CircuitEdits s (s.send d m) := offer_edits s d m

theorem offerLoad_edits (s : State) (g : Nat) : CircuitEdits s (s.offerLoad g) := by
  unfold State.offerLoad
  split
  · split
    · exact .refl
    · split
      · refine (CircuitEdit.enqueue s _ ‹_› ‹_› rfl (fun g' h => ?_)).one
        cases h; simpa using ‹¬ s.tx.any _ = true›
      · exact bump_edits s _
  · exact .refl

theorem setGroup_edits (s : State) (li : Nat) (g : Group) {g0 : Group} (h0 : Tab.find s.groups li = some g0) (hc : GroupKept g0 g)
    (hl : g0.recomputed = g0 → g.recomputed = g) : CircuitEdits s (s.setGroup li g) :=
  (CircuitEdit.group s li g g0 h0 hc hl).one

theorem handGroup_edits (s : State) (li : Nat) (g : Group) {g0 : Group} (h0 : Tab.find s.groups li = some g0) (hc : GroupKept g0 g) :
    CircuitEdits s (s.handGroup li g) := by
  have h1 := setGroup_edits s li g.recomputed h0 ⟨hc.cfg, hc.global, hc.pref⟩ fun _ => rfl
  unfold State.handGroup
  simp only
  split
  · exact h1.trans (offerLoad_edits _ _)
  · exact h1

/-- A written group is the group that is found. -/
theorem find_handGroup (s : State) (li : Nat) (g : Group) :
    Tab.find (s.handGroup li g).groups li = some g.recomputed := by
  have : (s.handGroup li g).groups = (s.setGroup li g.recomputed).groups := by
    unfold State.handGroup State.offerLoad State.setGroup
    simp only
    repeat' split
    all_goals rfl
  rw [this, State.setGroup_groups, Tab.find_put_self]

theorem enterReach_edits (s : State) (c : Candidate) {d : Nat} (hd : d < 1024) (hc : s.OwnReach c.group c.pref) :
    CircuitEdits s (s.enterReach c d) := by
  have h := (CircuitEdit.route s c d hd hc).one
  unfold State.enterReach
  simp only
  split
  · exact h.trans (bump_edits _ _)
  · exact h

@[simp] theorem enterReach_groups (s : State) (c : Candidate) (d : Nat) : (s.enterReach c d).groups = s.groups := by
  unfold State.enterReach; simp only; split <;> rfl

/-- A reach that is applied touches the route lists and the counters only. -/
theorem applyReach_frame (s : State) (g p first count : Nat) :
    s.applyReach g p first count = { s with
      routes := (s.applyReach g p first count).routes, counters := (s.applyReach g p first count).counters } := by
  have h : ∀ (l : List Nat) (s : State), ∃ routes counters,
      l.foldl (fun s d => s.enterReach { group := g, pref := p } d) s =
        { s with routes := routes, counters := counters } := by
    intro l
    induction l with
    | nil => exact fun s => ⟨_, _, rfl⟩
    | cons d l ih =>
      intro s
      obtain ⟨r, c, he⟩ := ih (s.enterReach { group := g, pref := p } d)
      refine ⟨r, c, he.trans ?_⟩
      unfold State.enterReach; simp only; split <;> rfl
  obtain ⟨r, c, he⟩ := h (reachDests first count) s
  unfold State.applyReach
  simp only [he]

@[simp] theorem applyReach_groups (s : State) (g p first count : Nat) :
    (s.applyReach g p first count).groups = s.groups := by rw [applyReach_frame]

@[simp] theorem send_groups (s : State) (d : Nat) (m : Msg) : (s.send d m).groups = s.groups := by
  unfold State.send State.offer; repeat' split
  all_goals rfl

/-- A fold of operations is a chain when each is. -/
theorem foldl_edits {α : Type} (f : State → α → State) (l : List α) (h : ∀ a ∈ l, ∀ s, CircuitEdits s (f s a)) (s : State) :
    CircuitEdits s (l.foldl f s) := by
  induction l generalizing s with
  | nil => exact .refl
  | cons a l ih =>
    exact (h a List.mem_cons_self s).trans (ih (fun b hb => h b (List.mem_cons_of_mem _ hb)) _)

/-- A fold of operations that leave the group records alone. -/
theorem foldl_groups_edits {α : Type} (f : State → α → State) (l : List α) (groups : Tab Group)
    (h : ∀ a ∈ l, ∀ s : State, s.groups = groups → CircuitEdits s (f s a) ∧ (f s a).groups = groups) (s : State)
    (hs : s.groups = groups) : CircuitEdits s (l.foldl f s) := by
  induction l generalizing s with
  | nil => exact .refl
  | cons a l ih =>
    obtain ⟨h1, h2⟩ := h a List.mem_cons_self s hs
    exact h1.trans (ih (fun b hb => h b (List.mem_cons_of_mem _ hb)) _ h2)

theorem applyReach_edits (s : State) {g p : Nat} (h : s.OwnReach g p) (first count : Nat) :
    CircuitEdits s (s.applyReach g p first count) := by
  unfold State.applyReach
  refine Relation.ReflTransGen.trans ?_ (CircuitEdit.prune _ _).one
  refine foldl_groups_edits _ _ s.groups (fun d hd t ht => ⟨enterReach_edits t _ ?_ ?_, by simp [ht]⟩) s rfl
  · simpa using (List.mem_filter.1 hd).2
  · unfold State.OwnReach at *; rwa [ht]

/-- Own reaches applied one after another, each followed by an operation that leaves the group records alone. -/
theorem ownReaches_edits (s : State) (after : State → Group → State)
    (ha : ∀ t g, CircuitEdits t (after t g) ∧ (after t g).groups = t.groups) :
    CircuitEdits s (s.groups.foldl (fun s p => after (s.applyOwnReach p.2) p.2) s) := by
  refine foldl_groups_edits _ _ s.groups (fun p hp t ht => ?_) s rfl
  obtain ⟨h1, h2⟩ := ha (t.applyOwnReach p.2) p.2
  refine ⟨(applyReach_edits t ⟨p, by rwa [ht], rfl, rfl⟩ _ _).trans h1, h2.trans ?_⟩
  unfold State.applyOwnReach; simp [ht]

theorem evalDemotion_edits (s : State) (li : Nat) (was : Bool) : CircuitEdits s (s.evalDemotion li was) := by
  unfold State.evalDemotion
  split
  · exact .refl
  · split
    · exact .refl
    · rename_i g hf _
      refine .trans (.trans ?_ (applyReach_edits _ ?_ _ _)) (send_edits ..)
      · exact setGroup_edits s li _ hf ⟨rfl, rfl, .inr ⟨_, rfl⟩⟩ fun h => Group.recomputed_setPref h _
      · exact ⟨_, Tab.mem_of_find (Tab.find_put_self ..), rfl, rfl⟩

theorem faultHandle_edits (s : State) (li c t : Nat) (b : Bool) : CircuitEdits s (s.faultHandle li c t b) := by
  unfold State.faultHandle
  simp only
  split
  · exact bump_edits _ _
  · rename_i hf
    exact ((bump_edits s _).trans (handGroup_edits _ li _ hf (Group.faulted_kept ..))).trans (evalDemotion_edits _ _ _)

theorem condemn_edits (s : State) (li t : Nat) : CircuitEdits s (s.condemn li t) := by
  unfold State.condemn
  split
  · exact .refl
  · split
    · split
      · exact faultHandle_edits ..
      · exact faultHandle_edits ..
      · rename_i hf _ _ _ _ _ _ _ _ _ hc
        exact setGroup_edits s li _ hf ⟨rfl, rfl, .inl rfl⟩ fun h => Group.recomputed_setCircuit h hc rfl rfl rfl rfl
      · rename_i hf _ _ _ _ _ _ _ _ hc
        exact setGroup_edits s li _ hf ⟨rfl, rfl, .inl rfl⟩ fun h => Group.recomputed_setCircuit h hc rfl rfl rfl rfl
      · exact .refl
      · exact .refl
    · exact .refl

theorem promoteOldest_edits (s : State) : CircuitEdits s s.promoteOldest := by
  unfold State.promoteOldest
  split
  · exact .refl
  · exact ((CircuitEdit.suspects s _).one.trans (bump_edits _ _)).trans (condemn_edits _ _ _)

theorem appendSuspect_edits (s : State) (li t : Nat) : CircuitEdits s (s.appendSuspect li t) := by
  unfold State.appendSuspect
  simp only
  split
  · exact (CircuitEdit.suspects _ _).one
  · exact (promoteOldest_edits s).trans (CircuitEdit.suspects _ _).one

theorem removeSuspect_edits (s : State) (li t : Nat) : CircuitEdits s (s.removeSuspect li t) :=
  (CircuitEdit.suspects _ _).one

theorem endUse_edits (s : State) {li : Nat} {g : Group} (h : Tab.find s.groups li = some g) (c t : Nat) (bp fr : Bool) :
    CircuitEdits s (s.endUse li g c t bp fr) := by
  unfold State.endUse
  split
  · exact faultHandle_edits ..
  · exact handGroup_edits s li _ h ⟨rfl, rfl, .inl rfl⟩

theorem release_edits (s : State) (li c : Nat) : CircuitEdits s (s.release li c) := by
  unfold State.release
  split
  · exact .refl
  · split
    · exact endUse_edits s ‹_› ..
    · exact endUse_edits s ‹_› ..
    · exact .refl

theorem treatFailure_edits (s : State) {li : Nat} {g : Group} (h : Tab.find s.groups li = some g) (c t : Nat)
    (bp fr : Bool) : CircuitEdits s (s.treatFailure li g c t bp fr) := by
  unfold State.treatFailure
  split
  · exact faultHandle_edits ..
  · split
    · exact (removeSuspect_edits ..).trans (faultHandle_edits ..)
    · refine .trans ?_ (appendSuspect_edits ..)
      exact handGroup_edits s li _ h ⟨rfl, rfl, .inl rfl⟩

theorem setSlot_edits (s : State) (k : Nat) (x : Slot) : CircuitEdits s (s.setSlot k x) := (CircuitEdit.slots _ _).one

theorem freeSlot_edits (s : State) (k : Nat) : CircuitEdits s (s.freeSlot k) := by
  unfold State.freeSlot
  split
  · exact setSlot_edits ..
  · exact .refl

@[simp] theorem freeSlot_groups (s : State) (k : Nat) : (s.freeSlot k).groups = s.groups := by
  unfold State.freeSlot; split <;> rfl

@[simp] theorem freeSlot_config (s : State) (k : Nat) : (s.freeSlot k).config = s.config := by
  unfold State.freeSlot; split <;> rfl

/-- What naming a circuit of an own group finds (R1, R64). -/
theorem ownGroup_some {s : State} {group li : Nat} {g : Group} (h : s.ownGroup group = some (li, g)) :
    group / 16 = s.address ∧ li = group % 16 ∧ Tab.find s.groups li = some g := by
  unfold State.ownGroup at h
  split at h
  · cases hf : Tab.find s.groups (group % 16) with
    | none => simp [hf] at h
    | some g' => simp [hf] at h; obtain ⟨rfl, rfl⟩ := h; exact ⟨‹_›, rfl, hf⟩
  · cases h

theorem ownCircuit_some {s : State} {group c li : Nat} {g : Group} {x : Circuit}
    (h : s.ownCircuit group c = some (li, g, x)) :
    s.ownGroup group = some (li, g) ∧ c < g.cfg.working ∧ g.circuits[c]? = some x := by
  unfold State.ownCircuit at h
  split at h
  · cases h
  · split at h
    · rename_i li' g' hg hw
      cases hx : g'.circuits[c]? with
      | none => simp [hx] at h
      | some y => simp [hx] at h; obtain ⟨rfl, rfl, rfl⟩ := h; exact ⟨hg, hw, hx⟩
    · cases h

theorem endHold_edits (s : State) (k : Nat) : CircuitEdits s (s.endHold k) := by
  unfold State.endHold
  split
  · exact .refl
  · simp only
    split
    · split
      · rename_i hc _
        exact (freeSlot_edits s k).trans (endUse_edits _ (ownGroup_some (ownCircuit_some hc).1).2.2 ..)
      · exact freeSlot_edits s k
    · exact freeSlot_edits s k

theorem freeHoldsOf_edits (s : State) (peer : Nat) : CircuitEdits s (s.freeHoldsOf peer) := by
  unfold State.freeHoldsOf
  refine foldl_edits _ _ (fun k _ s => ?_) s
  split
  · split
    · exact endHold_edits ..
    · exact .refl
  · exact .refl

theorem releaseGroups_edits (s : State) (l : List Nat) (test : Circuit → Bool) : CircuitEdits s (s.releaseGroups l test) := by
  unfold State.releaseGroups
  exact (foldl_edits _ _ (fun p _ s => release_edits s p.1 p.2) s).trans (CircuitEdit.draw _).one

theorem grantHold_edits (s : State) {li : Nat} {g : Group} (h : Tab.find s.groups li = some g) (k q serial group : Nat) :
    CircuitEdits s (s.grantHold li g k q serial group).1 := by
  unfold State.grantHold
  split
  · exact (setSlot_edits s _ _).trans (handGroup_edits _ li _ (g0 := g) h ⟨rfl, rfl, .inl rfl⟩)
  · exact .refl

theorem requestHold_edits (s : State) (q serial group prec : Nat) :
    CircuitEdits s (s.requestHold q serial group prec).1 := by
  unfold State.requestHold
  split
  · exact .refl
  · rename_i li g0 hg
    have h1 : CircuitEdits s (s.handGroup li (g0.attempted s.clock)) :=
      handGroup_edits s li _ (ownGroup_some hg).2.2 ⟨rfl, rfl, .inl rfl⟩
    simp only
    split
    · exact h1
    · split
      · exact h1
      · split
        · exact h1
        · split
          · exact h1
          · exact h1.trans (grantHold_edits _ (find_handGroup ..) ..)

theorem makeBusy_edits (s : State) {li : Nat} {g : Group} (h : Tab.find s.groups li = some g) (c t u : Nat) (bp fr : Bool) :
    CircuitEdits s (s.makeBusy li g c t u bp fr) := by
  refine .trans ?_ (removeSuspect_edits ..)
  exact handGroup_edits s li _ h ⟨rfl, rfl, .inl rfl⟩

theorem takeHold_edits (s : State) (q slot gen group c : Nat) : CircuitEdits s (s.takeHold q slot gen group c).1 := by
  unfold State.takeHold
  split
  · exact .refl
  · rename_i li g x hc
    have hf := (ownGroup_some (ownCircuit_some hc).1).2.2
    split
    · split
      · split
        · exact (freeSlot_edits s _).trans (makeBusy_edits _ (by simpa using hf) ..)
        · exact .refl
      · exact .refl
    · split
      · exact makeBusy_edits s hf ..
      · exact .refl

theorem dropHold_edits (s : State) (q : Nat) (id : Option (Nat × Nat)) (group c : Nat) :
    CircuitEdits s (s.dropHold q id group c).1 := by
  unfold State.dropHold
  split
  · exact bump_edits ..
  · rename_i li g x hc
    have hf := (ownGroup_some (ownCircuit_some hc).1).2.2
    extract_lets bySlot
    split
    · split
      · exact (freeSlot_edits s _).trans (endUse_edits _ (by simpa using hf) ..)
      · exact bump_edits ..
    · split
      · exact endUse_edits s hf ..
      · exact bump_edits ..
    · exact bump_edits ..

theorem faultHold_edits (s : State) (q slot gen group c : Nat) : CircuitEdits s (s.faultHold q slot gen group c) := by
  unfold State.faultHold
  split
  · rename_i li g t u k bp fr hc
    have hf := (ownGroup_some (ownCircuit_some hc).1).2.2
    split
    · exact (freeSlot_edits s _).trans (treatFailure_edits _ (by simpa using hf) ..)
    · exact bump_edits ..
  · exact bump_edits ..

theorem setOfReach_edits (s : State) : CircuitEdits s s.setOfReach :=
  ownReaches_edits s (fun s g => s.send Config.broadcast (reachMsg g)) fun _ _ => ⟨send_edits .., send_groups ..⟩

theorem setOfLoads_edits (s : State) : CircuitEdits s s.setOfLoads := by
  unfold State.setOfLoads
  exact foldl_edits _ _ (fun p _ s => offerLoad_edits s _) s

theorem emptyHolds_edits (s : State) : CircuitEdits s s.emptyHolds :=
  (releaseGroups_edits s _ _).trans (CircuitEdit.slots _ _).one

/-- A group that has a record keeps one, with its configuration and global number. -/
theorem CircuitEdits.find_group {s t : State} (h : CircuitEdits s t) {li : Nat} {g : Group}
    (hg : Tab.find s.groups li = some g) : ∃ g', Tab.find t.groups li = some g' ∧ GroupKept g g' := by
  induction h with
  | refl => exact ⟨g, hg, rfl, rfl, .inl rfl⟩
  | tail _ h ih =>
    obtain ⟨g', hf, hk⟩ := ih
    cases h with
    | group li' g1 g0 h0 hc hl =>
      by_cases hi : li = li'
      · subst hi
        rw [hf] at h0; cases h0
        exact ⟨g1, by simp [State.setGroup, Tab.find_put_self], hk.trans hc⟩
      · exact ⟨g', by simpa [State.setGroup, Tab.find_put_ne _ _ hi] using hf, hk⟩
    | _ => exact ⟨g', hf, hk⟩

end Sys2Proof.Machine
end

