-- ==== Sys2Proof/Laws/Edits.lean ====
section
/-! SUPPORT. What a command can do to the state, said once: every command but a good configuration read is a chain of
elementary changes. -/

namespace Sys2Proof.Machine

/-- What a record's base holds while selection runs on it (R99, R106). -/
def CallBase.Ok (b : CallBase) : Prop :=
  b.tried.length = b.attempts ∧ b.attempts ≤ Config.maxAttempts ∧ b.tried.Nodup ∧ b.prec ≤ 7 ∧ b.origin ≤ 63 ∧
    b.dest ≤ 1023

theorem CallRecord.Sound.ok {rec : CallRecord} (h : rec.Sound) : rec.base.Ok :=
  ⟨h.1, h.2.2.1, h.2.2.2.1, h.2.2.2.2.2.1, h.2.2.2.2.2.2.1, h.2.2.2.2.2.2.2.1⟩

/-- The call table is canonical and the record, if live, is sound. -/
def State.RecordOk (s : State) (r : Nat) : Prop :=
  Tab.wf s.calls ∧ ∀ r0, Tab.find s.calls r = some r0 → r0.Sound

/-- A record number may take a record of this key: the number is a record's, and the key is its own or nobody's. -/
def State.MayPut (s : State) (r : Nat) (b : CallBase) : Prop :=
  (s.station = .active ∨ s.calls ≠ []) ∧
  (Tab.wf s.calls → r < Config.callRecords ∨ (Tab.find s.calls r).isSome = true) ∧
  (Tab.wf s.calls → (∃ r0, Tab.find s.calls r = some r0 ∧ r0.base.client = b.client ∧ r0.base.tag = b.tag) ∨
    (Tab.find s.calls r = none ∧ ∀ p ∈ s.calls, ¬ (p.2.base.client = b.client ∧ p.2.base.tag = b.tag)))

/-- A carrier that a group record, or a grant of a live record, names; or one that a HOLD-GIVE may name (R109). -/
def State.NamesCarrier (s : State) (carrier : Nat) : Prop :=
  (∃ p ∈ s.groups, p.2.cfg.carrier = carrier) ∨
  (∃ p ∈ s.calls, ∃ gr, p.2.phase.grant = some gr ∧ gr.carrier = carrier) ∨ carrier < 64

/-- What entry to LISTEN sets before the own reaches are applied and PRESENT is offered (R183). -/
def State.listening (s : State) : State :=
  { s.setStation .listen with
    roster := [(s.address, s.clock)], routes := [], views := []
    groups := s.groups.map fun p => (p.1, p.2.restarted s.clock)
    announceDeadline := some (after s.clock s.config.announcePeriod)
    listenDeadline := some (after s.clock s.config.listenWindow)
    reachDeadline := none }

/-- An elementary change. -/
inductive Edit : State → State → Prop
  | circuit (s t) (h : CircuitEdit s t) : Edit s t
  /-- a live record is written -/
  | putRecord (s r rec) (hm : s.MayPut r rec.base) (hs : s.RecordOk r → rec.Sound)
      (hc : ∀ gr, rec.phase.grant = some gr → s.NamesCarrier gr.carrier) : Edit s (s.putRecord r rec)
  | freeRecord (s r) : Edit s (s.freeRecord r)
  | serial (s) : Edit s { s with serial := s.serial + 1 }
  /-- the clear of a CONNECTED record is posted -/
  | post (s r rec gr commit p) (hr : (r, rec) ∈ s.calls) (hp : rec.phase = .connected gr commit) :
      Edit s { s with openBank := (s.openBank.post rec.base.origin gr.carrier p).1 }
  | view (s k v) : Edit s { s with views := Tab.put s.views k v }
  | rosterDel (s k) (h : k ≠ s.address) : Edit s { s with roster := Tab.del s.roster k }
  | rosterPut (s k v) (hr : s.running = true) : Edit s { s with roster := Tab.put s.roster k v }
  | forget (s k) : Edit s (s.forgetPeer k)
  /-- a RATE-SET is taken and writes its entry -/
  | rate (s f rest k setup rate m0 m1 m2 m3) (h : s.rx = f :: rest) (hm : f.msg = .rateSet k setup rate m0 m1 m2 m3)
      (hk : k < 64) :
      Edit s { s with
        rx := rest
        rates := Tab.put s.rates k
          { setup := setup, rate := rate, green := max 4096 m0, amber := max 4096 m1, red := max 4096 m2
            grace := max 4096 m3 } }
  /-- a REACH is taken and applied -/
  | reach (s f rest g carrier pref first count) (h : s.rx = f :: rest)
      (hm : f.msg = .reach g carrier pref first count) (hg : g / 16 = f.source) (hp : pref ≤ 15) :
      Edit s (({ s with rx := rest } : State).applyReach g pref first count)
  | rateDel (s k) : Edit s { s with rates := Tab.del s.rates k }
  | close (s) (h : s.closedHeld = false) :
      Edit s { s with openBank := Bank.empty (s.openBank.period + 1), closedBank := s.openBank, closedHeld := true }
  | ack (s) : Edit s { s with closedBank := Bank.empty s.closedBank.period, closedHeld := false }
  | take (s f rest) (h : s.rx = f :: rest) : Edit s { s with rx := rest }
  | receive (s f) (hr : s.running = true) (hl : s.rx.length < Config.rxCapacity)
      (hf : f.source < 63 ∧ f.msg.fits = true ∧ f.msg.suits f.source f.dest s.address = true ∧
        (f.msg.isManagement = true → 48 ≤ f.source)) : Edit s { s with rx := s.rx ++ [f] }
  | announceNext (s d) (h : s.announceDeadline.isSome = true) : Edit s { s with announceDeadline := some d }
  | reachNext (s d) (h : s.reachDeadline.isSome = true) : Edit s { s with reachDeadline := some d }
  | win (s i e w) (hi : s.tx[i]? = some e) (hs : s.sending = false) :
      Edit s { s with tx := s.tx.set i { e with onLine := some w } }
  | back (s) : Edit s { s with tx := returnToWaiting s.tx }
  | sent (s) : Edit s { s with tx := s.tx.filter (·.onLine.isNone) }
  | pins (s clock low reading trimmed) :
      Edit s { s with clock := clock, bprstLow := low, reading := reading, trimmed := trimmed }
  | queue (s q) : Edit s { s with pending := q }
  | quiet (s st) (h : st = .starting ∨ st = .halted) : Edit s (s.quiet st)
  | listen (s) (h : s.calls = []) : Edit s s.listening
  | active (s d) (h : s.station = .listen) :
      Edit s { s.setStation .active with listenDeadline := none, reachDeadline := some d }
  | hunts (s) : Edit s { s with groups := s.groups.map fun p => (p.1, { p.2 with huntPtr := 0 }) }
  | clear (s) : Edit s
      { s with groups := [], suspects := [], slots := emptySlots, routes := [], views := [], counters := {} }
  | power (s q n) : Edit s { State.reset with pending := q, draws := n }

/-- A chain of elementary changes. -/
abbrev Edits : State → State → Prop := Relation.ReflTransGen Edit

theorem Edit.one {s t : State} (h : Edit s t) : Edits s t := .single h

theorem CircuitEdits.edits {s t : State} (h : CircuitEdits s t) : Edits s t := by
  induction h with
  | refl => exact .refl
  | tail _ h ih => exact ih.tail (.circuit _ _ h)

/-! ## Call records -/

theorem State.MayPut.frame {s t : State} (h : CircuitFrame s t) {r : Nat} {b : CallBase} (hm : s.MayPut r b) :
    t.MayPut r b := by
  unfold State.MayPut at *; rwa [h.station, h.calls]

theorem State.RecordOk.frame {s t : State} (h : CircuitFrame s t) {r : Nat} (hm : t.RecordOk r) : s.RecordOk r := by
  unfold State.RecordOk at *; rwa [h.calls] at hm

/-- A live record may be rewritten under its key. -/
theorem mayPut_of_find {s : State} {r : Nat} {rec : CallRecord} (h : Tab.find s.calls r = some rec) {b : CallBase}
    (hc : rec.base.client = b.client) (ht : rec.base.tag = b.tag) : s.MayPut r b := by
  refine ⟨.inr ?_, fun _ => .inr (by simp [h]), fun _ => .inl ⟨rec, h, hc, ht⟩⟩
  intro he; simp [he] at h

/-- A live record is rewritten with its base and group, and a grant it already holds. -/
theorem rewrite_edits {s : State} {r : Nat} {rec rec' : CallRecord} (h : Tab.find s.calls r = some rec)
    (hb : rec'.base = rec.base) (hg : rec'.group = rec.group)
    (hp : ∀ gr, rec'.phase.grant = some gr → rec.phase.grant = some gr) : Edits s (s.putRecord r rec') := by
  refine (Edit.putRecord s r rec' (mayPut_of_find h (by rw [hb]) (by rw [hb])) (fun hs => ?_) fun gr hgr =>
    .inr (.inl ⟨_, Tab.mem_of_find h, gr, hp gr hgr, rfl⟩)).one
  obtain ⟨h1, h2, h3, h4, h5, h6, h7, h8, h9⟩ := hs.2 _ h
  exact ⟨by rw [hb]; exact h1, by rw [hb]; exact h2, by rw [hb]; exact h3, by rw [hb]; exact h4, by rw [hb, hg]; exact h5,
    by rw [hb]; exact h6, by rw [hb]; exact h7, by rw [hb]; exact h8, fun gr hgr => h9 gr (hp gr hgr)⟩

theorem markRecord_edits (s : State) (r : Nat) : Edits s (s.markRecord r) := by
  unfold State.markRecord
  split
  · exact .refl
  · rename_i rec h
    split
    · exact .refl
    · exact (rewrite_edits (rec' := { rec with disputed := true }) h rfl rfl fun _ h => h).trans (bump_edits _ _).edits

theorem markReleased_edits (s : State) (r : Nat) : Edits s (s.markReleased r) := by
  unfold State.markReleased
  split
  · exact .refl
  · rename_i rec h
    extract_lets s'
    have he : Edits s s' :=
      rewrite_edits (rec' := { rec with disputed := true, retaken := false }) h rfl rfl fun _ h => h
    split
    · exact he
    · exact he.trans (bump_edits _ _).edits

theorem foldl_edits' {α : Type} (f : State → α → State) (l : List α) (h : ∀ a ∈ l, ∀ s, Edits s (f s a)) (s : State) :
    Edits s (l.foldl f s) := by
  induction l generalizing s with
  | nil => exact .refl
  | cons a l ih =>
    exact (h a List.mem_cons_self s).trans (ih (fun b hb => h b (List.mem_cons_of_mem _ hb)) _)

theorem markCircuit_edits (s : State) (g c : Nat) : Edits s (s.markCircuit g c) := by
  unfold State.markCircuit
  refine foldl_edits' _ _ (fun p _ s => ?_) s
  split
  · exact markReleased_edits ..
  · exact .refl

theorem endDrop_edits (s : State) (rec : CallRecord) (gr : Grant) : CircuitEdits s (s.endDrop rec gr) := by
  unfold State.endDrop
  split
  · exact .refl
  · split
    · exact dropHold_edits ..
    · exact send_edits ..

/-- A grant is made on a band that admits calls (R61). -/
theorem requestHold_band {s s' : State} {q serial group prec : Nat} {gr : Grant}
    (h : s.requestHold q serial group prec = (s', .granted gr)) : gr.band ≠ .full ∧ gr.band ≠ .closed := by
  unfold State.requestHold at h
  split at h
  · simp at h
  · extract_lets g s1 at h
    split at h
    · simp at h
    · rename_i hc
      split at h
      · simp at h
      · rename_i hf
        split at h
        · simp at h
        · split at h
          · simp at h
          · unfold State.grantHold at h
            split at h
            · extract_lets gen hold s2 at h
              simp only [Prod.mk.injEq, HoldAnswer.granted.injEq] at h
              obtain ⟨-, rfl⟩ := h
              exact ⟨hf, hc⟩
            · simp at h

/-- A grant names the carrier of its group (R62). -/
theorem requestHold_carrier {s s' : State} {q serial group prec : Nat} {gr : Grant}
    (h : s.requestHold q serial group prec = (s', .granted gr)) :
    ∃ g, Tab.find s.groups (group % 16) = some g ∧ g.cfg.carrier = gr.carrier := by
  unfold State.requestHold at h
  split at h
  · simp at h
  · rename_i li g0 hg
    obtain ⟨-, rfl, hf⟩ := ownGroup_some hg
    refine ⟨g0, hf, ?_⟩
    extract_lets g s1 at h
    split at h
    · simp at h
    · split at h
      · simp at h
      · split at h
        · simp at h
        · split at h
          · simp at h
          · unfold State.grantHold at h
            split at h
            · extract_lets gen hold s2 at h
              simp only [Prod.mk.injEq, HoldAnswer.granted.injEq] at h
              obtain ⟨-, rfl⟩ := h
              rfl
            · simp at h

/-- What a hold request grants names the carrier of a group that has a record afterwards. -/
theorem requestHold_names {s s' : State} {q serial group prec : Nat} {gr : Grant}
    (h : s.requestHold q serial group prec = (s', .granted gr)) : s'.NamesCarrier gr.carrier := by
  obtain ⟨g, hf, hc⟩ := requestHold_carrier h
  have he := requestHold_edits s q serial group prec
  rw [h] at he
  obtain ⟨g', hf', hk⟩ := he.find_group hf
  exact .inl ⟨_, Tab.mem_of_find hf', by rw [hk.cfg, hc]⟩

theorem offerCall_edits {s : State} {r : Nat} {b : CallBase} {group : Nat} {gr : Grant} (hm : s.MayPut r b)
    (hc : s.NamesCarrier gr.carrier) (hs : s.RecordOk r → b.Ok ∧ 1 ≤ b.attempts ∧ b.tried.getLast? = some group ∧ gr.band ≠ .full ∧ gr.band ≠ .closed) :
    Edits s (s.offerCall r b group gr) := by
  unfold State.offerCall
  simp only
  refine (send_edits s _ _).edits.trans (Edit.putRecord _ _ _ ?_ ?_ ?_).one
  rotate_left 2
  · intro g hg
    simp only [Phase.grant, Option.some.injEq] at hg
    subst hg
    unfold State.NamesCarrier at *
    rwa [send_groups, (send_edits s _ _).frame.calls]
  · exact hm.frame (send_edits ..).frame
  · intro hr
    obtain ⟨⟨h1, h2, h3, h4, h5, h6⟩, h7, h8, h9⟩ := hs (hr.frame (send_edits ..).frame)
    refine ⟨h1, h7, h2, h3, h8, h4, h5, h6, fun g hg => ?_⟩
    simp only [Phase.grant, Option.some.injEq] at hg
    subst hg; exact h9

theorem congested_edits (s : State) (r : Nat) (b : CallBase) : Edits s (s.congested r b) :=
  ((send_edits s _ _).edits.trans (bump_edits _ _).edits).trans (Edit.freeRecord _ _).one

theorem pick_eligible {s : State} {b : CallBase} {c : Candidate} (h : s.pick b = some c) :
    c ∈ s.routeList b.dest ∧ s.eligible b c = true := by
  unfold State.pick at h
  obtain ⟨p, -, hp⟩ := List.exists_of_findSome?_eq_some h
  have := List.find?_some hp
  simp only [Bool.and_eq_true] at this
  exact ⟨List.mem_of_find?_eq_some hp, this.1⟩

theorem trying_ok {s : State} {b : CallBase} {c : Candidate} {fuel : Nat} (hp : s.pick b = some c) (hb : b.Ok)
    (hf : b.attempts + (fuel + 1) = Config.maxAttempts) :
    (b.trying c.group).Ok ∧ (b.trying c.group).attempts + fuel = Config.maxAttempts ∧
      1 ≤ (b.trying c.group).attempts ∧ (b.trying c.group).tried.getLast? = some c.group := by
  have hn : c.group ∉ b.tried := by
    have := (pick_eligible hp).2
    simp only [State.eligible, Bool.and_eq_true, Bool.not_eq_true'] at this
    simpa using this.1.2
  obtain ⟨h1, h2, h3, h4, h5, h6⟩ := hb
  refine ⟨⟨?_, ?_, ?_, h4, h5, h6⟩, ?_, ?_, ?_⟩ <;> simp only [CallBase.trying]
  · simp [h1]
  · simp only [Config.maxAttempts] at *; omega
  · rw [List.nodup_append]; refine ⟨h3, by simp, ?_⟩
    intro a ha b hb; simp at hb; subst hb; rintro rfl; exact hn ha
  · omega
  · omega
  · simp

theorem select_edits (fuel : Nat) : ∀ (s : State) (r : Nat) (b : CallBase), s.MayPut r b →
    (s.RecordOk r → b.Ok ∧ b.attempts + fuel = Config.maxAttempts) → Edits s (s.select r b fuel) := by
  induction fuel with
  | zero => intro s r b _ _; exact congested_edits s r b
  | succ fuel ih =>
    intro s r b hm hb
    unfold State.select
    split
    · exact congested_edits s r b
    · rename_i c hp
      extract_lets b' s1
      have ht : s.RecordOk r → b'.Ok ∧ b'.attempts + fuel = Config.maxAttempts ∧ 1 ≤ b'.attempts ∧
          b'.tried.getLast? = some c.group := fun h => trying_ok hp (hb h).1 (hb h).2
      have hm' : s.MayPut r b' := hm
      split
      · split
        · rename_i s' gr hq
          have he := requestHold_edits s s.address 0 c.group b'.prec
          rw [hq] at he
          refine he.edits.trans (offerCall_edits (hm'.frame he.frame) (requestHold_names hq) fun h => ?_)
          obtain ⟨h1, -, h3, h4⟩ := ht (h.frame he.frame)
          exact ⟨h1, h3, h4, requestHold_band hq⟩
        · rename_i s' reason band hq
          have he := requestHold_edits s s.address 0 c.group b'.prec
          rw [hq] at he
          refine he.edits.trans (ih _ _ _ (hm'.frame he.frame) fun h => ?_)
          obtain ⟨h1, h2, -, -⟩ := ht (h.frame he.frame)
          exact ⟨h1, h2⟩
      · have h1 : Edits s s1 := (Edit.serial s).one
        split
        · rename_i s' hq
          have he := offer_edits s1 (c.group / 16) (.holdAsk s1.serial.toNat r c.group b'.prec)
          rw [hq] at he
          refine h1.trans (he.edits.trans (Edit.putRecord _ _ _ ?_ (fun h => ?_)
            fun g hg => by simp [Phase.grant] at hg).one)
          · exact State.MayPut.frame he.frame hm'
          · have h' : s1.RecordOk r := h.frame he.frame
            obtain ⟨⟨k1, k2, k3, k4, k5, k6⟩, -, k7, k8⟩ := ht h'
            exact ⟨k1, k7, k2, k3, k8, k4, k5, k6, fun g hg => by simp [Phase.grant] at hg⟩
        · rename_i s' hq
          have he := offer_edits s1 (c.group / 16) (.holdAsk s1.serial.toNat r c.group b'.prec)
          rw [hq] at he
          refine h1.trans (he.edits.trans (ih _ _ _ (State.MayPut.frame he.frame hm') fun h => ?_))
          have h' : s1.RecordOk r := h.frame he.frame
          obtain ⟨k1, k2, -, -⟩ := ht h'
          exact ⟨k1, k2⟩

theorem crankback_edits {s : State} {r : Nat} {rec : CallRecord} (h : Tab.find s.calls r = some rec)
    (o : AttemptOutcome) : Edits s (s.crankback r rec.base o) := by
  unfold State.crankback
  refine select_edits _ s r _ (mayPut_of_find h rfl rfl) fun hs => ?_
  have := (hs.2 _ h).ok
  refine ⟨this, ?_⟩
  have := this.2.1
  simp only [Config.maxAttempts] at *; omega

/-- What finding a record by its key gives (R99). -/
theorem recordOfKey_some {s : State} {client tag r : Nat} {rec : CallRecord}
    (h : s.recordOfKey client tag = some (r, rec)) :
    (r, rec) ∈ s.calls ∧ rec.base.client = client ∧ rec.base.tag = tag := by
  have := List.find?_some h
  simp only [decide_eq_true_eq] at this
  exact ⟨List.mem_of_find?_eq_some h, this.1, this.2⟩

/-- A record met in the table may be rewritten with its base and group, and a grant it already holds. -/
theorem rewriteMem_edits {s : State} {r : Nat} {rec rec' : CallRecord} (h : (r, rec) ∈ s.calls)
    (hb : rec'.base = rec.base) (hg : rec'.group = rec.group)
    (hp : ∀ gr, rec'.phase.grant = some gr → rec.phase.grant = some gr) : Edits s (s.putRecord r rec') := by
  have hw : Tab.wf s.calls → Tab.find s.calls r = some rec := fun hw => Tab.find_of_mem hw h
  refine (Edit.putRecord s r rec' ⟨.inr (by intro he; simp [he] at h), fun w => .inr (by simp [hw w]),
    fun w => .inl ⟨rec, hw w, by rw [hb], by rw [hb]⟩⟩ (fun hs => ?_) fun gr hgr =>
    .inr (.inl ⟨_, h, gr, hp gr hgr, rfl⟩)).one
  obtain ⟨h1, h2, h3, h4, h5, h6, h7, h8, h9⟩ := hs.2 _ (hw hs.1)
  exact ⟨by rw [hb]; exact h1, by rw [hb]; exact h2, by rw [hb]; exact h3, by rw [hb]; exact h4, by rw [hb, hg]; exact h5,
    by rw [hb]; exact h6, by rw [hb]; exact h7, by rw [hb]; exact h8, fun gr hgr => h9 gr (hp gr hgr)⟩

theorem crankbackMem_edits {s t : State} (he : CircuitEdits s t) {r : Nat} {rec : CallRecord} (h : (r, rec) ∈ s.calls)
    (o : AttemptOutcome) : Edits t (t.crankback r rec.base o) := by
  have h : (r, rec) ∈ t.calls := by rwa [he.frame.calls]
  have hw : Tab.wf t.calls → Tab.find t.calls r = some rec := fun hw => Tab.find_of_mem hw h
  unfold State.crankback
  refine select_edits _ t r _ ⟨.inr (by intro he; simp [he] at h), fun w => .inr (by simp [hw w]),
    fun w => .inl ⟨rec, hw w, rfl, rfl⟩⟩ fun hs => ?_
  have := (hs.2 _ (hw hs.1)).ok
  refine ⟨this, ?_⟩
  have := this.2.1
  simp only [Config.maxAttempts] at *; omega

theorem seize_edits {s : State} {r : Nat} {rec : CallRecord} (h : (r, rec) ∈ s.calls) {gr : Grant} {d : Clock}
    (hp : rec.phase = .offered gr d) : Edits s (s.seize r rec gr) := by
  have key : ∀ {t : State} (_ : CircuitEdits s t) (x : Bool),
      Edits t (t.putRecord r { rec with phase := .ringing gr, retaken := x }) := by
    intro t he x
    refine rewriteMem_edits (rec := rec) (by rwa [he.frame.calls]) rfl rfl fun g hg => ?_
    simp only [Phase.grant, Option.some.injEq] at hg
    rw [hp]; exact congrArg some hg
  unfold State.seize
  split
  · split
    · rename_i s' hq
      have he := takeHold_edits s s.address gr.slot gr.generation rec.group gr.circuit
      rw [hq] at he
      exact he.edits.trans (key he _)
    · rename_i s' hq
      have he := takeHold_edits s s.address gr.slot gr.generation rec.group gr.circuit
      rw [hq] at he
      exact (he.edits.trans (key he rec.retaken)).trans (markRecord_edits _ _)
  · split
    · rename_i s' hq
      have he := offer_edits s (rec.group / 16) (.holdTake gr.slot gr.generation rec.group gr.circuit)
      rw [hq] at he
      exact he.edits.trans (key he rec.retaken)
    · rename_i s' hq
      have he := offer_edits s (rec.group / 16) (.holdTake gr.slot gr.generation rec.group gr.circuit)
      rw [hq] at he
      exact (he.edits.trans (key he rec.retaken)).trans (markRecord_edits _ _)

theorem connect_edits (s : State) (r : Nat) : Edits s (s.connect r) := by
  unfold State.connect
  split
  · rename_i rec h
    split
    · rename_i gr hp
      refine rewrite_edits (rec := rec) h rfl rfl fun g hg => ?_
      simp only [Phase.grant, Option.some.injEq] at hg
      rw [hp]; exact congrArg some hg
    · exact .refl
  · exact .refl

theorem reportFault_edits (s : State) (rec : CallRecord) (gr : Grant) : CircuitEdits s (s.reportFault rec gr) := by
  unfold State.reportFault
  split
  · exact faultHold_edits ..
  · exact send_edits ..

theorem post_edits (s : State) {r : Nat} {rec : CallRecord} {gr : Grant} {d : Clock} (hr : (r, rec) ∈ s.calls)
    (hp : rec.phase = .connected gr d) (p : Posting) : Edits s (s.post rec.base.origin gr.carrier p) := by
  have h := (Edit.post s r rec gr d p hr hp).one
  unfold State.post
  simp only
  split
  · exact h.trans (bump_edits _ _).edits
  · exact h

end Sys2Proof.Machine
end

