-- ==== Sys2Proof/Laws/ExecEdits.lean ====
section
/-! SUPPORT. Each command but a good configuration read as a chain of elementary changes. -/

namespace Sys2Proof.Machine

/-- A command that takes a frame: the frame leaves the queue, then what its block does. -/
theorem takeFrame_edits (s : State) (act : RxFrame → Option (State → State))
    (h : ∀ f k, act f = some k → ∀ t, t.running = true → Edits t (k t)) : Edits s (s.takeFrame act) := by
  unfold State.takeFrame
  split
  · exact .refl
  · rename_i f rest hrx
    split
    · exact .refl
    · rename_i k hk
      extract_lets s1
      have h1 : Edits s s1 := (Edit.take s f rest hrx).one
      split
      · exact h1.trans (h f k hk s1 ‹_›)
      · exact h1

/-! ## Hold unit -/

theorem answerAsk_edits (s : State) (q serial ref group prec : Nat) : CircuitEdits s (s.answerAsk q serial ref group prec) := by
  unfold State.answerAsk
  split
  · exact bump_edits ..
  · have he := requestHold_edits s q serial group prec
    split
    · rename_i s' r b hq
      rw [hq] at he
      exact he.trans (send_edits ..)
    · rename_i s' gr hq
      rw [hq] at he
      have ho := offer_edits s' q (giveMsg serial ref group gr)
      split
      · rename_i s2 hq2
        rw [hq2] at ho; exact he.trans ho
      · rename_i s2 hq2
        rw [hq2] at ho; exact (he.trans ho).trans (endHold_edits ..)

theorem answerTake_edits (s : State) (q slot gen group c : Nat) : CircuitEdits s (s.answerTake q slot gen group c) := by
  unfold State.answerTake
  have he := takeHold_edits s q slot gen group c
  split
  · rename_i s' hq; rw [hq] at he; exact he
  · rename_i s' hq; rw [hq] at he; exact he.trans (send_edits ..)

theorem answerDrop_edits (s : State) (q idp slot gen group c : Nat) :
    CircuitEdits s (s.answerDrop q idp slot gen group c) := by
  unfold State.answerDrop
  split
  · exact bump_edits ..
  · exact dropHold_edits ..

/-! ## Call unit -/

theorem awaiting_some {s : State} {ref serial group : Nat} {b : CallBase} (h : s.awaiting ref serial group = some b) :
    ∃ rec, Tab.find s.calls ref = some rec ∧ rec.base = b ∧ rec.group = group := by
  unfold State.awaiting at h
  split at h
  · rename_i rec hf
    split at h
    · split at h
      · rename_i hc; cases h; exact ⟨rec, hf, rfl, hc.2⟩
      · cases h
    · cases h
  · cases h

theorem takeGive_edits (s : State) (src serial ref group slot gen c t carrier band : Nat) :
    Edits s (s.takeGive src serial ref group slot gen c t carrier band) := by
  unfold State.takeGive
  split
  · rename_i bd hr hb
    split
    · rename_i b ha
      have ha : s.awaiting ref serial group = some b := by
        split at ha
        · exact ha
        · cases ha
      obtain ⟨rec, hf, rfl, hg⟩ := awaiting_some ha
      refine offerCall_edits (mayPut_of_find hf rfl rfl) ?_ fun hs => ?_
      · simp only [giveInRange, decide_eq_true_eq] at hr
        exact .inr (.inr hr.2.2.2.2.2.2.1)
      have := hs.2 _ hf
      refine ⟨this.ok, this.2.1, by rw [← hg]; exact this.2.2.2.2.1, ?_⟩
      simp only [giveInRange, decide_eq_true_eq] at hr
      have hlt := hr.2.2.2.2.2.2.2
      constructor
      · rintro rfl
        have : band = 4 := by
          rcases band with _ | _ | _ | _ | _ | _ | n <;> simp [bandOfCode] at hb ⊢
        omega
      · rintro rfl
        have : band = 5 := by
          rcases band with _ | _ | _ | _ | _ | _ | n <;> simp [bandOfCode] at hb ⊢
        omega
    · exact (send_edits s _ _).edits.trans (bump_edits _ _).edits
  · exact (bump_edits _ _).edits

theorem viewDeny_edits (s : State) (group : Nat) (b : Band) : Edits s (s.viewDeny group b) := by
  unfold State.viewDeny
  split
  · exact .refl
  · exact (Edit.view _ _ _).one

theorem viewDeny_calls (s : State) (group : Nat) (b : Band) : (s.viewDeny group b).calls = s.calls := by
  unfold State.viewDeny; split <;> rfl

theorem takeDeny_edits (s : State) (src serial ref group reason band : Nat) :
    Edits s (s.takeDeny src serial ref group reason band) := by
  unfold State.takeDeny
  split
  · split
    · exact (bump_edits _ _).edits
    · rename_i bd _ _ _
      extract_lets s1
      refine (viewDeny_edits s group bd).trans ?_
      show Edits s1 _
      split
      · rename_i b ha
        obtain ⟨rec, hf, rfl, hg⟩ := awaiting_some ha
        exact crankback_edits hf _
      · exact .refl
  · exact (bump_edits _ _).edits

theorem takeLost_edits (s : State) (src slot gen group c : Nat) : Edits s (s.takeLost src slot gen group c) := by
  unfold State.takeLost
  split
  · exact .refl
  · exact markRecord_edits ..
  · exact (CircuitEdit.draw s).one.edits.trans (markRecord_edits ..)

theorem lowestFreeRecord_some {s : State} {r : Nat} (h : s.lowestFreeRecord = some r) :
    r < Config.callRecords ∧ Tab.find s.calls r = none := by
  unfold State.lowestFreeRecord at h
  have h1 := List.mem_of_find?_eq_some h
  have h2 := List.find?_some h
  exact ⟨List.mem_range.1 h1, by simpa using h2⟩

theorem recordOfKey_none {s : State} {client tag : Nat} (h : (s.recordOfKey client tag).isSome ≠ true) :
    ∀ p ∈ s.calls, ¬ (p.2.base.client = client ∧ p.2.base.tag = tag) := by
  intro p hp hk
  unfold State.recordOfKey at h
  have h' := Option.not_isSome_iff_eq_none.1 h
  rw [List.find?_eq_none] at h'
  exact h' p hp (by simpa using hk)

theorem takeRouteAsk_edits (s : State) (client tag dest prec origin : Nat) :
    Edits s (s.takeRouteAsk client tag dest prec origin) := by
  unfold State.takeRouteAsk
  split
  · exact (bump_edits _ _).edits
  · rename_i hp
    split
    · exact (send_edits _ _ _).edits
    · rename_i hst
      split
      · exact (send_edits _ _ _).edits
      · rename_i hd
        split
        · exact (send_edits _ _ _).edits
        · rename_i hk
          split
          · exact (send_edits _ _ _).edits
          · rename_i r hr
            split
            · exact (send_edits _ _ _).edits
            · obtain ⟨hr, hf⟩ := lowestFreeRecord_some hr
              refine select_edits _ s r _ ⟨.inl (by simpa using hst), fun _ => .inl hr, fun _ => .inr ⟨hf, ?_⟩⟩ fun _ => ?_
              · exact recordOfKey_none hk
              · refine ⟨⟨rfl, by simp [freshCall], by simp [freshCall], ?_, ?_, ?_⟩, rfl⟩ <;>
                  simp only [freshCall] <;> omega

theorem seizeFrame_edits (s : State) (want : Nat) (act : State → Nat → CallRecord → Option State)
    (h : ∀ s r rec t, (r, rec) ∈ s.calls → act s r rec = some t → Edits s t) : Edits s (s.seizeFrame want act) := by
  refine takeFrame_edits s _ fun f k hk t _ => ?_
  split at hk
  · split at hk
    · cases hk
      simp only
      split
      · rename_i r rec hrec
        split
        · cases ha : act t r rec with
          | none => exact (bump_edits _ _).edits
          | some u => exact h t r rec u (recordOfKey_some hrec).1 ha
        · exact (bump_edits _ _).edits
      · exact (bump_edits _ _).edits
    · split at hk
      · cases hk
      · cases hk; exact (bump_edits _ _).edits
  · cases hk

theorem clearConnected_edits (s : State) (r : Nat) (rec : CallRecord) (gr : Grant) (d : Clock)
    (hr : (r, rec) ∈ s.calls) (hp : rec.phase = .connected gr d) : Edits s (s.clearConnected r rec gr d) := by
  unfold State.clearConnected
  exact (((post_edits s hr hp _).trans (endDrop_edits _ _ _).edits).trans (send_edits _ _ _).edits).trans
    (Edit.freeRecord _ _).one

theorem clearUnanswered_edits (s : State) (r : Nat) (rec : CallRecord) : Edits s (s.clearUnanswered r rec) := by
  unfold State.clearUnanswered
  refine Relation.ReflTransGen.trans ?_ (Edit.freeRecord _ _).one
  refine Relation.ReflTransGen.trans ?_ (send_edits _ _ _).edits
  split
  · exact (endDrop_edits _ _ _).edits
  · exact .refl

theorem clearOrphan_edits (s : State) (client tag group c : Nat) : Edits s (s.clearOrphan client tag group c) := by
  unfold State.clearOrphan
  refine Relation.ReflTransGen.trans ?_ (send_edits _ _ _).edits
  refine (bump_edits s .orphanClears).edits.trans ?_
  split
  · have he := dropHold_edits (s.bump .orphanClears) s.address none group c
    split
    · rename_i s' hq
      rw [show (s.bump .orphanClears).address = s.address from rfl] at hq
      rw [hq] at he; exact he.edits.trans (markCircuit_edits ..)
    · rename_i s' hq
      rw [show (s.bump .orphanClears).address = s.address from rfl] at hq
      rw [hq] at he; exact he.edits
  · exact (send_edits _ _ _).edits

theorem takeClear_edits (s : State) (client tag group c : Nat) : Edits s (s.takeClear client tag group c) := by
  unfold State.takeClear
  split
  · exact (bump_edits _ _).edits
  · split
    · rename_i hk
      split
      · exact clearConnected_edits _ _ _ _ _ (recordOfKey_some hk).1 ‹_›
      · exact clearUnanswered_edits ..
    · exact clearOrphan_edits ..

/-! ## Announce path -/

theorem takeLoad_edits (s : State) (src g band fl su free : Nat) : Edits s (s.takeLoad src g band fl su free) := by
  unfold State.takeLoad
  split
  · split
    · exact .refl
    · exact (Edit.view _ _ _).one
  · exact (bump_edits _ _).edits

/-- A REACH: the frame leaves the queue, and its reach is applied where it passes the checks of R86. -/
theorem execReach_edits {s t : State} (h : execReach s = .next t) : Edits s t := by
  cases h
  unfold State.takeFrame
  split
  · exact .refl
  · rename_i f rest hrx
    split
    · exact .refl
    · rename_i k hk
      extract_lets s1
      have h1 : Edits s s1 := (Edit.take s f rest hrx).one
      simp only at hk
      split
      · split at hk
        · rename_i g carrier pref first count hm
          cases hk
          simp only [State.takeReach]
          split
          · exact h1.trans (bump_edits _ _).edits
          · rename_i hg
            split
            · exact h1
            · split
              · rename_i hp
                exact (Edit.reach s f rest g carrier pref first count hrx hm (by simpa using hg) hp.2.1).one
              · exact h1.trans (bump_edits _ _).edits
        · cases hk
      · exact h1

theorem announceSet_edits (s : State) : CircuitEdits s s.announceSet := by
  unfold State.announceSet
  split
  · exact send_edits ..
  · exact setOfLoads_edits ..

/-! ## Circuit control -/

theorem controlFrame_edits (s : State) (want : Nat) (act : State → Nat → Group → Nat → State × Bool)
    (h : ∀ s li g n, Tab.find s.groups li = some g → Edits s (act s li g n).1) : Edits s (s.controlFrame want act) := by
  refine takeFrame_edits s _ fun f k hk t _ => ?_
  split at hk
  · split at hk
    · cases hk
      simp only
      unfold State.control
      split
      · exact .refl
      · split
        · exact (send_edits _ _ _).edits
        · rename_i li g hg
          have hf := (ownGroup_some hg).2.2
          generalize (if _ = 4 then g.cfg.working + g.cfg.spares else g.cfg.working) = top
          split
          · exact (send_edits _ _ _).edits
          · rename_i n _ _ _ _ _
            split
            · rename_i s' hq
              have := h t li g n hf
              rw [hq] at this
              exact this.trans (send_edits _ _ _).edits
            · rename_i s' hq
              have := h t li g n hf
              rw [hq] at this
              exact this.trans (send_edits _ _ _).edits
    · cases hk
  · cases hk

theorem blockCircuit_edits (s : State) (li : Nat) (g : Group) (n : Nat) (hf : Tab.find s.groups li = some g) :
    CircuitEdits s (blockCircuit s li g n).1 := by
  unfold blockCircuit
  split
  · exact handGroup_edits s li _ hf ⟨rfl, rfl, .inl rfl⟩
  · rename_i hc
    exact setGroup_edits s li _ hf ⟨rfl, rfl, .inl rfl⟩ fun h => Group.recomputed_setCircuit h hc rfl rfl rfl rfl
  · rename_i hc
    exact setGroup_edits s li _ hf ⟨rfl, rfl, .inl rfl⟩ fun h => Group.recomputed_setCircuit h hc rfl rfl rfl rfl
  · exact .refl

theorem unblockCircuit_edits (s : State) (li : Nat) (g : Group) (n : Nat) (hf : Tab.find s.groups li = some g) :
    CircuitEdits s (unblockCircuit s li g n).1 := by
  unfold unblockCircuit
  split
  · exact handGroup_edits s li _ hf ⟨rfl, rfl, .inl rfl⟩
  · rename_i hc
    exact setGroup_edits s li _ hf ⟨rfl, rfl, .inl rfl⟩ fun h => Group.recomputed_setCircuit h hc rfl rfl rfl rfl
  · rename_i hc
    exact setGroup_edits s li _ hf ⟨rfl, rfl, .inl rfl⟩ fun h => Group.recomputed_setCircuit h hc rfl rfl rfl rfl
  · exact .refl

theorem markForced_edits (s : State) (u g c : Nat) : Edits s (s.markForced u g c) := by
  unfold State.markForced
  split
  · exact markCircuit_edits ..
  · exact .refl

theorem forceCircuit_edits (s : State) (li : Nat) (g : Group) (n : Nat) (hf : Tab.find s.groups li = some g) :
    Edits s (forceCircuit s li g n).1 := by
  unfold forceCircuit
  split
  · rename_i k _ _ _
    refine Relation.ReflTransGen.trans (.trans (freeSlot_edits s k).edits ?_) (markForced_edits ..)
    exact (endUse_edits _ (by simpa using hf) ..).edits
  · exact (endUse_edits s hf ..).edits.trans (markForced_edits ..)
  · exact .refl

theorem restoreTerminal_edits (s : State) (li : Nat) (g : Group) (n : Nat) (hf : Tab.find s.groups li = some g) :
    CircuitEdits s (restoreTerminal s li g n).1 := by
  unfold restoreTerminal
  split
  · exact (handGroup_edits s li _ hf (Group.restoredTerminal_kept g n)).trans (evalDemotion_edits _ _ _)
  · exact .refl

/-! ## Rates and tallies -/

/-- A RATE-SET: the frame leaves the queue, and its entry is written where its carrier is 0 to 63. -/
theorem execRateSet_edits {s t : State} (h : execRateSet s = .next t) : Edits s t := by
  cases h
  unfold State.takeFrame
  split
  · exact .refl
  · rename_i f rest hrx
    split
    · exact .refl
    · rename_i k hk
      extract_lets s1
      have h1 : Edits s s1 := (Edit.take s f rest hrx).one
      simp only at hk
      split
      · split at hk
        · rename_i c a r m0 m1 m2 m3 hm
          cases hk
          simp only [State.takeRateSet]
          split
          · exact h1.trans (send_edits _ _ _).edits
          · exact (Edit.rate s f rest c a r m0 m1 m2 m3 hrx hm (by omega)).one.trans (send_edits _ _ _).edits
        · cases hk
      · exact h1

theorem takeRateClear_edits (s : State) (src carrier : Nat) : Edits s (s.takeRateClear src carrier) := by
  unfold State.takeRateClear
  split
  · exact (send_edits _ _ _).edits
  · split
    · exact (Edit.rateDel s carrier).one.trans (send_edits _ _ _).edits
    · exact (send_edits _ _ _).edits

theorem takePeriodClose_edits (s : State) (src : Nat) : Edits s (s.takePeriodClose src) := by
  unfold State.takePeriodClose
  split
  · exact (send_edits _ _ _).edits
  · rename_i h
    exact (Edit.close s (by simpa using h)).one.trans (send_edits _ _ _).edits

theorem takeTallyAck_edits (s : State) (src p : Nat) : Edits s (s.takeTallyAck src p) := by
  unfold State.takeTallyAck
  split
  · split
    · exact (Edit.ack s).one.trans (send_edits _ _ _).edits
    · exact (send_edits _ _ _).edits
  · exact (send_edits _ _ _).edits

/-! ## Station control -/

theorem enterListen_edits {s : State} (h : s.calls = []) : Edits s s.enterListen := by
  have h1 : Edits s s.listening := (Edit.listen s h).one
  have h2 : CircuitEdits s.listening s.enterListen := by
    unfold State.enterListen
    refine Relation.ReflTransGen.trans ?_ (send_edits _ _ _)
    exact ownReaches_edits s.listening (fun s _ => s) fun _ _ => ⟨.refl, rfl⟩
  exact h1.trans h2.edits

theorem softReset_edits (s : State) : Edits s s.softReset := by
  unfold State.softReset
  have h1 : Edits s (s.quiet .starting) := (Edit.quiet s _ (.inl rfl)).one
  have h2 := emptyHolds_edits (s.quiet .starting)
  refine (h1.trans h2.edits).trans ((Edit.hunts _).one.trans (enterListen_edits ?_))
  show (s.quiet .starting).emptyHolds.calls = []
  rw [h2.frame.calls]; rfl

theorem failAttempt_edits (s : State) (r : Nat) : Edits s (s.failAttempt r) := by
  unfold State.failAttempt
  split
  · exact .refl
  · split
    · exact crankback_edits ‹_› _
    · exact .refl

theorem peerGone_edits (s : State) (peer : Nat) : Edits s (s.peerGone peer) := by
  unfold State.peerGone State.failAttempts
  refine ((Edit.forget s peer).one.trans ?_).trans (freeHoldsOf_edits _ _).edits
  exact foldl_edits' _ _ (fun r _ s => failAttempt_edits s r) _

theorem takePresent_edits (s : State) (src code : Nat) : Edits s (s.takePresent src code) := by
  unfold State.takePresent
  split
  · exact (Edit.quiet s _ (.inr rfl)).one.trans (emptyHolds_edits _).edits
  · split
    · exact ((peerGone_edits s src).trans (setOfReach_edits _).edits).trans (setOfLoads_edits _).edits
    · split
      · exact .refl
      · exact (bump_edits _ _).edits

/-- A read that fails. -/
theorem readFailed_edits (s : State) : Edits s s.readFailed :=
  (Edit.quiet s .halted (.inr rfl)).one.trans (Edit.clear _).one

/-! ## The bus -/

theorem refresh_edits (s : State) (hr : s.running = true) (src : Nat) : Edits s (s.refresh src) := by
  unfold State.refresh
  split
  · exact (Edit.rosterPut _ _ _ hr).one
  · exact .refl

theorem admitFrame_edits (s : State) (hr : s.running = true) (w : WireFrame) : Edits s (s.admitFrame w) := by
  unfold State.admitFrame
  split
  · exact (bump_edits _ _).edits
  · rename_i m hm
    split
    · exact (bump_edits _ _).edits
    · split
      · exact (bump_edits _ _).edits
      · rename_i hs
        split
        · extract_lets s1
          refine (bump_edits s .notPermitted).edits.trans ?_
          split
          · exact (send_edits _ _ _).edits
          · exact .refl
        · rename_i hp
          split
          · rename_i hl
            split at hm
            · cases hm
            · rename_i h63
              refine (Edit.receive s _ hr hl ⟨?_, parseMsg_fits hm, by simpa using hs, fun h => ?_⟩).one
              · have : frameSource w < 64 := Nat.mod_lt _ (by decide)
                show frameSource w < 63
                omega
              · simp only [h, Bool.true_and, decide_eq_true_eq] at hp
                show 48 ≤ frameSource w
                omega
          · exact (bump_edits _ _).edits

theorem refresh_running (s : State) (src : Nat) : (s.refresh src).running = s.running := by
  unfold State.refresh; split <;> rfl

theorem announce_edits (s : State) (b : TxBody) : CircuitEdits s (s.announce b) := by
  unfold State.announce
  split
  · exact .refl
  · split
    · rename_i hg
      exact setGroup_edits s _ _ (ownGroup_some hg).2.2 ⟨rfl, rfl, .inl rfl⟩ fun h => Group.recomputed_setAnnounced h _
    · exact .refl

/-! ## Every command -/

/-- Every command but a good configuration read is a chain of elementary changes. -/
theorem exec_edits {c : Instr} {s t : State} (h : exec c s = .next t) :
    Edits s t ∨ ∃ image, c = .configReadComplete image ∧ s.station = .starting ∧ imageGood image = true ∧
      field image 0 1 ≤ 31 ∧ t = State.readGood { s with reading := false } image := by
  cases c <;> simp only [exec] at h
  case powerOn => cases h; exact .inl (Edit.power s _ _).one
  case bprstAsserted => cases h; exact .inl ((Edit.quiet s _ (.inl rfl)).one.trans (Edit.pins _ 0 true false _).one)
  case bprstReleased =>
    cases h
    left
    split
    · exact (Edit.pins s s.clock false true false).one
    · exact .refl
  case configReadComplete image =>
    cases h
    split
    · rename_i hs
      simp only [Bool.and_eq_true, decide_eq_true_eq] at hs
      extract_lets s1
      split
      · rename_i hg
        simp only [Bool.and_eq_true, decide_eq_true_eq] at hg
        exact .inr ⟨image, rfl, hs.1, hg.1, hg.2, rfl⟩
      · exact .inl ((Edit.pins s s.clock s.bprstLow false s.trimmed).one.trans (readFailed_edits _))
    · exact .inl .refl
  case listenDeadline =>
    cases h
    left
    split
    · exact .refl
    · split
      · rename_i hs
        simp only [Bool.and_eq_true, decide_eq_true_eq] at hs
        exact (((Edit.active s _ hs.1).one.trans (send_edits _ _ _).edits).trans (setOfReach_edits _).edits).trans
          (setOfLoads_edits _).edits
      · exact .refl
  case announceDeadline =>
    cases h
    left
    split
    · exact .refl
    · rename_i d hd
      split
      · refine (announceSet_edits s).edits.trans (Edit.announceNext _ _ ?_).one
        rw [(announceSet_edits s).frame.eq]; simp [hd]
      · exact .refl
  case reachDeadline =>
    cases h
    left
    split
    · exact .refl
    · rename_i d hd
      split
      · refine (setOfReach_edits s).edits.trans (Edit.reachNext _ _ ?_).one
        rw [(setOfReach_edits s).frame.eq]; simp [hd]
      · exact .refl
  case holdExpiry k =>
    cases h
    left
    split
    · exact .refl
    · split
      · exact (endHold_edits s k).edits.trans (bump_edits _ _).edits
      · exact .refl
  case answerTimeout r =>
    cases h
    left
    split
    · exact .refl
    · rename_i rec hf
      split
      · split
        · exact (bump_edits s _).edits.trans (crankback_edits (s := s.bump .noAnswerTimeouts) hf _)
        · exact .refl
      · exact .refl
  case offerTimeout r =>
    cases h
    left
    split
    · exact .refl
    · split
      · split
        · exact (((endDrop_edits s _ _).edits.trans (send_edits _ _ _).edits).trans (bump_edits _ _).edits).trans
            (Edit.freeRecord _ _).one
        · exact .refl
      · exact .refl
  case stalenessEvent g =>
    cases h
    left
    split
    · exact .refl
    · rename_i v _
      split
      · extract_lets s1
        refine (Edit.view s g { v with stale := true }).one.trans ?_
        split
        · exact (send_edits _ _ _).edits
        · exact .refl
      · exact .refl
  case absenceEvent p =>
    cases h
    left
    split
    · exact .refl
    · split
      · rename_i hs
        simp only [Bool.and_eq_true, decide_eq_true_eq] at hs
        exact (Edit.rosterDel s p hs.1.2).one.trans (peerGone_edits _ _)
      · exact .refl
  case frameReceived w ended =>
    cases h
    left
    split
    · exact .refl
    · rename_i hr
      have hr : s.running = true := by
        simp only [Bool.or_eq_true, not_or, Bool.not_eq_true', Bool.not_eq_false] at hr; exact hr.1
      split
      · exact (bump_edits _ _).edits
      · extract_lets s1
        refine (refresh_edits s hr (frameSource w)).trans ?_
        split
        · exact admitFrame_edits _ (by rw [← hr]; exact refresh_running ..) w
        · exact .refl
  case busIdleContention others =>
    cases h
    left
    split
    · rename_i hs
      simp only [Bool.and_eq_true, Bool.not_eq_true'] at hs
      split
      · exact .refl
      · split
        · exact .refl
        · split
          · exact (Edit.win s _ _ _ ‹_› hs.2).one.trans (announce_edits _ _).edits
          · exact .refl
    · exact .refl
  case bitMismatch => cases h; exact .inl (Edit.back s).one
  case frameSent => cases h; exact .inl (Edit.sent s).one
  all_goals left
  case seized =>
    cases h
    refine seizeFrame_edits s _ _ fun s r rec t hm ha => ?_
    split at ha
    · cases ha; exact seize_edits hm ‹_›
    · cases ha
  case answered =>
    cases h
    refine seizeFrame_edits s _ _ fun s r rec t hm ha => ?_
    split at ha
    · cases ha; exact (seize_edits hm ‹_›).trans (connect_edits _ _)
    · cases ha; exact connect_edits _ _
    · cases ha
  case seizeFailed =>
    cases h
    refine seizeFrame_edits s _ _ fun s r rec t hm ha => ?_
    split at ha
    · cases ha
      have he := reportFault_edits s rec ‹_›
      exact he.edits.trans (crankbackMem_edits he hm _)
    · cases ha
  case abandoned =>
    cases h
    refine seizeFrame_edits s _ _ fun s r rec t hm ha => ?_
    split at ha
    · cases ha; exact (endDrop_edits _ _ _).edits.trans (Edit.freeRecord _ _).one
    · cases ha; exact (endDrop_edits _ _ _).edits.trans (Edit.freeRecord _ _).one
    · cases ha
  case block => cases h; exact controlFrame_edits s _ _ fun s li g n hf => (blockCircuit_edits s li g n hf).edits
  case unblock => cases h; exact controlFrame_edits s _ _ fun s li g n hf => (unblockCircuit_edits s li g n hf).edits
  case forceRelease => cases h; exact controlFrame_edits s _ _ fun s li g n hf => forceCircuit_edits s li g n hf
  case restore => cases h; exact controlFrame_edits s _ _ fun s li g n hf => (restoreTerminal_edits s li g n hf).edits
  case reach => exact execReach_edits h
  case rateSet => exact execRateSet_edits h
  case stationReset =>
    cases h
    refine takeFrame_edits s _ fun f k hk t ht => ?_
    split at hk
    · cases hk; exact softReset_edits ..
    · cases hk
  case present =>
    cases h
    refine takeFrame_edits s _ fun f k hk t ht => ?_
    split at hk
    · cases hk; exact takePresent_edits ..
    · cases hk
  all_goals
    cases h
    refine takeFrame_edits s _ fun f k hk t ht => ?_
    split at hk
    · cases hk
      first
      | exact (answerAsk_edits ..).edits
      | exact (answerTake_edits ..).edits
      | exact (answerDrop_edits ..).edits
      | exact (faultHold_edits ..).edits
      | exact takeGive_edits ..
      | exact takeDeny_edits ..
      | exact takeLost_edits ..
      | exact takeRouteAsk_edits ..
      | exact takeClear_edits ..
      | exact takeLoad_edits ..
      | exact takeRateClear_edits ..
      | exact takePeriodClose_edits ..
      | exact takeTallyAck_edits ..
      | exact (send_edits ..).edits
      | (simp only; split
         · exact (offerLoad_edits ..).edits
         · exact .refl)
    · cases hk

/-- A step is a chain of elementary changes, or a good configuration read at the front of the queue. -/
theorem step_edits {s t : State} (h : step s = .next t) :
    Edits s t ∨ ∃ image rest, s.pending = .configReadComplete image :: rest ∧ s.station = .starting ∧
      imageGood image = true ∧ field image 0 1 ≤ 31 ∧
      t = State.readGood { s with pending := rest, reading := false } image := by
  unfold step at h
  split at h
  · cases h
    left
    unfold State.tick
    split
    · exact .refl
    · exact (Edit.pins s (s.clock + 1) s.bprstLow s.reading s.trimmed).one
  · rename_i c rest hp
    rcases exec_edits h with h | ⟨image, rfl, h1, h2, h3, h4⟩
    · exact .inl ((Edit.queue s rest).one.trans h)
    · exact .inr ⟨image, rest, hp, h1, h2, h3, h4⟩

/-! ## The good configuration read in its parts -/

/-- A good read before the reset releases: the configuration is in use and the groups are established. -/
def State.configured (s : State) (image : List Byte) : State :=
  let r := withinBudget 0 (presentGroups image)
  let kept := r.1.filter fun p => continues (Tab.find s.groups p.1) p.2
  { s with
    config := decodeEngine image, trimmed := r.2
    groups := r.1.map fun p => (p.1, establishedGroup (Tab.find s.groups p.1) (field image 0 1) p.1 p.2 s.clock)
    suspects := s.suspects.filter fun e => kept.any fun p => decide (p.1 = e.1) }

/-- What a good read sets after the reset releases. -/
def State.afterReleases (s : State) : State :=
  { s with slots := emptySlots, counters := {}, groups := s.groups.map fun p => (p.1, p.2.settled) }

/-- Entry to LISTEN is `listening`, then the own reaches and the PRESENT. -/
theorem enterListen_circuitEdits (s : State) : CircuitEdits s.listening s.enterListen := by
  unfold State.enterListen
  refine Relation.ReflTransGen.trans ?_ (send_edits _ _ _)
  exact ownReaches_edits s.listening (fun s _ => s) fun _ _ => ⟨.refl, rfl⟩

/-- A good read: the established state, the releases, what follows them, and entry to LISTEN. -/
theorem readGood_parts (s : State) (image : List Byte) :
    ∃ u, CircuitEdits (s.configured image) u ∧ CircuitEdits u.afterReleases.listening (s.readGood image) :=
  ⟨_, releaseGroups_edits (s.configured image) _ _, enterListen_circuitEdits _⟩

/-- What every elementary change keeps, every chain keeps. -/
theorem Edits.keeps {P : State → Prop} (h : ∀ s t, Edit s t → P s → P t) {s t : State} (he : Edits s t) (hs : P s) :
    P t := by
  induction he with
  | refl => exact hs
  | tail _ e ih => exact h _ _ e ih

theorem CircuitEdits.keeps {P : State → Prop} (h : ∀ s t, CircuitEdit s t → P s → P t) {s t : State}
    (he : CircuitEdits s t) (hs : P s) : P t := by
  induction he with
  | refl => exact hs
  | tail _ e ih => exact h _ _ e ih

end Sys2Proof.Machine
end

