-- ==== Sys2Proof/Laws/Frames.lean ====
section
/-! SUPPORT. What the taking of a frame and the finding of groups, slots and records answer, once each, in the terms of
the statements. -/

namespace Sys2Proof.Machine

variable {s : State}

/-- A frame of the command's kind, oldest in the queue of a station that takes frames, leaves the queue and is acted
on. -/
theorem State.takeFrame_of_takes {source dest : Nat} {m : Msg} {rest : List RxFrame}
    {act : RxFrame → Option (State → State)} {k : State → State} (h : s.takes source dest m rest)
    (ha : act { source := source, dest := dest, msg := m } = some k) : s.takeFrame act = k { s with rx := rest } := by
  have hr : ({ s with rx := rest } : State).running = true := h.1
  simp only [State.takeFrame, h.2, ha, hr, if_true]

/-- A match of a hold id is the test of R58. -/
theorem State.matchHold_iff (s : State) (sender slot generation group circuit : Nat) :
    s.matchHold sender slot generation group circuit = true ↔
      s.HoldMatches sender slot generation group circuit := by
  unfold State.matchHold State.HoldMatches
  constructor
  · intro h
    split at h
    · rename_i gen hold he
      exact ⟨_, _, he, rfl, of_decide_eq_true h⟩
    · exact absurd h Bool.false_ne_true
  · rintro ⟨⟨gen, hold⟩, h, hx, rfl, hr⟩
    simp only [hx]
    exact decide_eq_true hr

/-- A group that is not owned here, or has no record, is not found. -/
theorem State.ownGroup_eq_none {group : Nat}
    (h : group / 16 ≠ s.address ∨ Tab.find s.groups (group % 16) = none) : s.ownGroup group = none := by
  unfold State.ownGroup
  rcases h with h | h
  · rw [if_neg h]
  · rw [h]; split <;> rfl

/-- An own group with a record is found under its local index. -/
theorem State.ownGroup_eq_some {group : Nat} {g : Group} (h : group / 16 = s.address)
    (hf : Tab.find s.groups (group % 16) = some g) : s.ownGroup group = some (group % 16, g) := by
  simp only [State.ownGroup, h, hf, if_true, Option.map_some]

/-- The lowest free slot: free, with every lower slot allocated. -/
theorem State.lowestFreeSlot_eq_some {k : Nat} {x : Slot} (hx : s.slots[k]? = some x) (hf : x.hold = none)
    (hl : ∀ j < k, s.holdAt j ≠ none) : s.lowestFreeSlot = some k := by
  have hk : k < 64 := by
    rcases Nat.lt_or_ge k 64 with h | h
    · exact h
    · rw [Vector.getElem?_eq_none h] at hx; exact absurd hx (by simp)
  unfold State.lowestFreeSlot
  rw [List.find?_range_eq_some]
  refine ⟨by simp [State.holdAt, hx, hf], by simpa using hk, fun j hj => ?_⟩
  have := hl j hj
  cases h : s.holdAt j <;> simp_all

/-- No slot is free. -/
theorem State.lowestFreeSlot_eq_none (h : ∀ k < Config.holdSlots, s.holdAt k ≠ none) : s.lowestFreeSlot = none := by
  unfold State.lowestFreeSlot
  rw [List.find?_range_eq_none]
  intro i hi
  have := h i hi
  cases h : s.holdAt i <;> simp_all

/-- The record that a HOLD-GIVE or HOLD-DENY refers to awaits it. -/
theorem State.awaiting_eq_some {ref serial group : Nat} {rec : CallRecord} {ser : Serial} {deadline : Clock}
    (h : Tab.find s.calls ref = some rec) (hp : rec.phase = .awaitHold ser deadline) (hs : ser.toNat = serial)
    (hg : rec.group = group) : s.awaiting ref serial group = some rec.base := by
  simp only [State.awaiting, h, hp, hs, hg, and_self, if_true]

/-- No record awaits it. -/
theorem State.awaiting_eq_none {ref serial group : Nat}
    (h : ∀ rec ser deadline, Tab.find s.calls ref = some rec → rec.phase = .awaitHold ser deadline →
      ¬ (ser.toNat = serial ∧ rec.group = group)) : s.awaiting ref serial group = none := by
  unfold State.awaiting
  split
  · rename_i rec hr
    split
    · rename_i ser deadline hp; rw [if_neg (h _ _ _ hr hp)]
    · rfl
  · rfl

/-- The hand-over of a group writes its record and may touch the transmit queue and the counters; nothing else. -/
theorem State.handGroup_eq (s : State) (li : Nat) (g : Group) :
    s.handGroup li g = { s with
      groups := Tab.put s.groups li g.recomputed
      tx := (s.handGroup li g).tx, counters := (s.handGroup li g).counters } := by
  unfold State.handGroup State.offerLoad
  simp only
  split
  · split
    · split
      · rfl
      · split <;> rfl
    · rfl
  · rfl

end Sys2Proof.Machine
end

