-- ==== Sys2Proof/Tests/Slice0.lean ====
section
/-! SUPPORT. Tests: ill-formed commands, worked figures of the spec, and for every statement that has hypotheses
concrete states and operands that meet them. -/

open Sys2Proof Sys2Proof.Machine

namespace Sys2Proof.Tests

/- Many theorems here are kernel evaluations: one at a time they need one thread. -/
set_option Elab.async false

/-! ## Well-formedness -/

theorem test_image_of_289_bytes_ill_formed :
    (Instr.configReadComplete (List.replicate 289 0)).wellFormed = false ∧
    (Instr.configReadComplete (List.replicate 290 0)).wellFormed = true := by decide +kernel
theorem test_slot_64_ill_formed :
    (Instr.holdExpiry 64).wellFormed = false ∧ (Instr.holdExpiry 63).wellFormed = true := by decide
theorem test_record_512_ill_formed :
    (Instr.answerTimeout 512).wellFormed = false ∧ (Instr.answerTimeout 511).wellFormed = true := by decide
theorem test_offered_record_512_ill_formed :
    (Instr.offerTimeout 512).wellFormed = false ∧ (Instr.offerTimeout 511).wellFormed = true := by decide
theorem test_group_512_ill_formed :
    (Instr.stalenessEvent 512).wellFormed = false ∧ (Instr.stalenessEvent 511).wellFormed = true := by decide
theorem test_peer_32_ill_formed :
    (Instr.absenceEvent 32).wellFormed = false ∧ (Instr.absenceEvent 31).wellFormed = true := by decide
theorem test_payload_of_64_bytes_ill_formed :
    (Instr.frameReceived ⟨0, 0, 0, 0, List.replicate 64 0, 0⟩ .whole).wellFormed = false := by decide

/-! ## A state to work on: station 3, ACTIVE -/

/-- The configuration of the demonstration's groups. -/
def cfgOf (carrier working spares : Nat) : GroupConfig :=
  { carrier := carrier, working := working, spares := spares, destFirst := 200, destCount := 2, preference := 2
    yellow := 192, red := 230, grace := 2, amberFloor := 0, redFloor := 4, surgeInterval := 0 }

/-- A group with given circuits and terminals. -/
def groupOf (li : Nat) (cfg : GroupConfig) (circuits : List Circuit) (terminals : List TermRole) : Group :=
  let g := { builtGroup 3 li cfg 70000 with circuits := circuits, terminals := terminals }
  { g with effPref := effectivePref cfg.preference (demoted terminals) }.restarted 70000

/-- Local index 4: circuits in every state but FAULTY, with a spare terminal. -/
def groupA : Group := groupOf 4 (cfgOf 21 11 2)
  [.idle 0, .held 1 6 9 false false, .busy 2 3 false false, .blocked 3, .held 4 3 0 true true, .busy 5 6 true true,
   .idle 6, .idle 8, .held 9 7 63 true false, .held 10 6 2 false false, .idle 11]
  [.serving 0, .serving 1, .serving 2, .serving 3, .serving 4, .serving 5, .serving 6, .faulty, .serving 7, .serving 8,
   .serving 9, .serving 10, .spare]

/-- Local index 5: without a spare terminal, and demoted. -/
def groupB : Group := groupOf 5 (cfgOf 22 2 0) [.idle 0, .faulty] [.serving 0, .faulty]

/-- Local index 6: every circuit in use. -/
def groupC : Group := groupOf 6 (cfgOf 22 1 0) [.busy 0 6 false false] [.serving 0]

/-- Local index 7: every circuit blocked. -/
def groupD : Group := groupOf 7 (cfgOf 22 1 0) [.blocked 0] [.serving 0]

/-- A hold of group 52. -/
def holdOf (requester circuit : Nat) : Hold :=
  { requester := requester, serial := 301, group := 52, circuit := circuit, band := .green, expiry := 71000 }

/-- A rated grant. -/
def grantOf (slot generation circuit : Nat) : Grant :=
  { slot := slot, generation := generation, circuit := circuit, terminal := circuit, carrier := 21, band := .amber
    rating := some { setup := 250, rate := 1920, mult := 5632, quote := 1011 } }

/-- A record of client 40 after its first attempt. -/
def recordOf (tag group : Nat) (phase : Phase) : CallRecord :=
  { base := { client := 40, tag := tag, dest := 200, prec := 3, origin := 5, attempts := 1, tried := [group], last := none }
    group := group, disputed := false, retaken := false, phase := phase }

/-- The demonstration. -/
def demo : State :=
  { State.reset with
    station := .active, ready := true, bprstLow := false, clock := 70000
    config := { EngineConfig.initial with address := 3, transitFraction := 3277 }
    announceDeadline := some 70000, reachDeadline := some 70000
    roster := [(3, 60000), (6, 70000), (7, 68000), (9, 67999)]
    groups := [(4, groupA), (5, groupB), (6, groupC), (7, groupD)]
    suspects := [(4, 6), (4, 9), (5, 0)]
    slots := ((((emptySlots.set 0 { generation := 6, hold := some (holdOf 3 4) }).set 2
      { generation := 15, hold := some (holdOf 6 9) }).set 9 { generation := 3, hold := some (holdOf 6 1) }).set 63
      { generation := 1, hold := some { holdOf 7 8 with expiry := 70000 } })
    routes := [(200, [{ group := 52, pref := 2 }, { group := 53, pref := 3 }, { group := 100, pref := 3 }]),
      (201, [{ group := 52, pref := 2 }, { group := 53, pref := 3 }])]
    views := [(100, { stale := false, band := .amber, floor := some (2, .amber), heard := 68500 }),
      (101, { stale := false, band := .red, floor := some (2, .amber), heard := 68499 }),
      (102, { stale := true, band := .green, floor := none, heard := 60000 }),
      (103, { stale := false, band := .grace, floor := none, heard := 69999 }),
      (104, { stale := false, band := .full, floor := none, heard := 69999 }),
      (105, { stale := false, band := .green, floor := none, heard := 69999 }),
      (150, { stale := false, band := .green, floor := none, heard := 68499 }),
      (200, { stale := false, band := .green, floor := none, heard := 68499 })]
    calls := [(0, recordOf 0 100 (.awaitHold 4711 70000)), (1, recordOf 1 52 (.offered (grantOf 0 6 4) 70000)),
      (2, recordOf 2 100 (.offered (grantOf 5 5 7) 70001)), (3, recordOf 3 100 (.ringing (grantOf 4 1 9))),
      (4, recordOf 4 52 (.connected (grantOf 0 5 2) 14999)), (5, recordOf 5 100 (.connected (grantOf 5 5 8) 60000)),
      (6, recordOf 6 100 (.connected (grantOf 5 5 8) 60001)), (7, recordOf 7 100 (.awaitHold 4712 70001)),
      (8, recordOf 8 52 (.offered (grantOf 9 9 6) 69999)),
      (9, { recordOf 9 100 (.ringing { grantOf 6 6 5 with rating := none }) with disputed := true })]
    serial := 4712
    rates := [(21, { setup := 250, rate := 1920, green := 4096, amber := 5632, red := 7168, grace := 9216 })]
    openBank := { Bank.empty 8 with entries := [{ origin := 5, terminating := 21, sums := { calls := 1, seconds := 9 } }] }
    closedBank := { Bank.empty 7 with entries := [{ origin := 1, terminating := 2, sums := { calls := 4 } }] }
    closedHeld := true
    tx := [waiting 6 (.probe 100), waitingLoadOf groupA] }

/-- A frame for the demonstration is the oldest of its receive queue. -/
def got (s : State) (source dest : Nat) (m : Msg) : State :=
  { s with rx := [{ source := source, dest := dest, msg := m }, { source := 50, dest := 3, msg := .statusRead }] }

/-- The frame behind it. -/
def behind : List RxFrame := [{ source := 50, dest := 3, msg := .statusRead }]

/-- A full transmit queue. -/
def full (s : State) : State := { s with tx := List.replicate 32 (waiting 6 (.probe 100)) }

theorem got_takes (s : State) (source dest : Nat) (m : Msg) (h : s.running = true) :
    (got s source dest m).takes source dest m behind := ⟨h, rfl⟩

/-! ## The demonstration is a sound state: the premises of the invariants, met together -/

/-- Circuits and terminals name each other, as a check of finitely many entries. -/
def linked (g : Group) : Bool :=
  (List.range g.circuits.length).all (fun c => match (g.circuits[c]?).bind Circuit.terminal with
    | some t => g.terminals[t]? == some (TermRole.serving c)
    | none => true) &&
  (List.range g.terminals.length).all fun t => match g.terminals[t]? with
    | some (.serving c) => (g.circuits[c]?).bind Circuit.terminal == some t
    | _ => true

theorem linked_iff {g : Group} (h : linked g = true) (c t : Nat) :
    (g.circuits[c]?).bind Circuit.terminal = some t ↔ g.terminals[t]? = some (TermRole.serving c) := by
  simp only [linked, Bool.and_eq_true, List.all_eq_true, List.mem_range] at h
  constructor
  · intro hc
    have hl : c < g.circuits.length := by
      by_contra hn; simp [List.getElem?_eq_none (Nat.le_of_not_lt hn)] at hc
    simpa [hc] using h.1 c hl
  · intro ht
    have hl : t < g.terminals.length := by
      by_contra hn; simp [List.getElem?_eq_none (Nat.le_of_not_lt hn)] at ht
    simpa [ht] using h.2 t hl

theorem demo_lines : demo.LinesFollow := by unfold State.LinesFollow; decide +kernel
theorem demo_kept : demo.KeptInState := by unfold State.KeptInState; decide +kernel
theorem demo_counters : demo.CountersSound := by unfold State.CountersSound; decide +kernel
theorem demo_config : demo.ConfigSound := by
  unfold State.ConfigSound EngineConfig.InRange GroupConfig.InRange; decide +kernel
theorem demo_tables : demo.TablesSound := by unfold State.TablesSound; decide +kernel
theorem demo_routes : demo.RoutesSound := by unfold State.RoutesSound routeListSound; decide +kernel
theorem demo_rates : demo.RatesSound := by unfold State.RatesSound; decide +kernel
theorem demo_routesInRange : demo.RoutesInRange := by unfold State.RoutesInRange; decide +kernel
theorem demo_ratesInRange : demo.RatesInRange := by unfold State.RatesInRange; decide +kernel
theorem demo_pairsInRange : demo.PairsInRange := by unfold State.PairsInRange; decide +kernel
theorem demo_carriers : demo.CarriersSound := by
  have h : ∀ p ∈ demo.calls, p.2.phase.grant.all (fun gr => decide (gr.carrier ≤ 63)) = true := by decide +kernel
  intro p hp gr hg
  simpa [hg] using h p hp
theorem demo_tally : demo.TallySound := by
  unfold State.TallySound Bank.Sound Sums.InRange; decide +kernel
theorem demo_load : demo.LoadSound := by unfold State.LoadSound; decide +kernel
theorem demo_tx : demo.TxSound := by
  refine ⟨by decide +kernel, by decide +kernel, ?_⟩
  simp [demo, waiting, waitingLoadOf, TxEntry.waitingLoad]
theorem demo_rx : (got demo 6 3 (.probe 52)).RxSound := by unfold State.RxSound; decide +kernel
theorem demo_calls : demo.CallsSound := by
  refine ⟨?_, by decide +kernel⟩
  simp [demo, recordOf, CallRecord.Sound, Phase.grant, grantOf, Config.callRecords, Config.maxAttempts]
theorem demo_groups : demo.GroupsSound := by
  refine ⟨by decide +kernel, ?_⟩
  have h : ∀ p ∈ demo.groups, p.1 < 16 ∧ linked p.2 = true ∧ p.2.global = 16 * demo.address + p.1 ∧
      p.2.circuits.length = p.2.cfg.working ∧ p.2.terminals.length = p.2.cfg.working + p.2.cfg.spares ∧
      p.2.huntPtr < p.2.cfg.working ∧ ¬ (Circuit.faulty ∈ p.2.circuits ∧ TermRole.spare ∈ p.2.terminals) ∧
      p.2.effPref = effectivePref p.2.cfg.preference (demoted p.2.terminals) := by decide +kernel
  intro p hp
  obtain ⟨a, b, c, d, e, f, g, i⟩ := h p hp
  exact ⟨a, c, d, e, f, linked_iff b, g, i⟩
theorem demo_suspects : demo.SuspectsSound := by
  refine ⟨by decide +kernel, by decide +kernel, ?_⟩
  have h : ∀ e ∈ demo.suspects, (demo.servedBy e.1 e.2).any (·.maySuspect) = true := by decide +kernel
  intro e he
  obtain ⟨x, hx, hm⟩ := (Option.any_eq_true _ _).mp (h e he)
  exact ⟨x, hx, hm⟩
theorem demo_holds : demo.HoldsLinked := by
  have h : ∀ k < 64, (demo.holdAt k).all (fun h => demo.groups.any fun p => h.group == p.2.global &&
      match (p.2.circuits[h.circuit]? : Option Circuit) with
      | some (Circuit.held _ u k' _ _) => u == h.requester && k' == k
      | _ => false) = true := by decide +kernel
  have h' : ∀ p ∈ demo.groups, ∀ c < p.2.circuits.length, (match (p.2.circuits[c]? : Option Circuit) with
      | some (Circuit.held _ u k _ _) =>
        (demo.holdAt k).any fun h => h.group == p.2.global && h.circuit == c && h.requester == u
      | _ => true) = true := by decide +kernel
  constructor
  · intro k x hk
    have hl : k < 64 := by
      by_contra hn; simp [State.holdAt, Vector.getElem?_eq_none (Nat.le_of_not_lt hn)] at hk
    have hx := h k hl
    rw [hk] at hx
    obtain ⟨⟨li, g⟩, hp, hg⟩ := List.any_eq_true.mp hx
    simp only [Bool.and_eq_true, beq_iff_eq] at hg
    obtain ⟨hg, hc⟩ := hg
    split at hc
    · rename_i t u k' bp fr hc'
      simp only [Bool.and_eq_true, beq_iff_eq] at hc
      refine ⟨li, g, t, bp, fr, ?_, hg, by rw [hc', hc.1, hc.2]⟩
      have hf : ∀ p ∈ demo.groups, Tab.find demo.groups p.1 = some p.2 := by decide +kernel
      exact hf _ hp
    · cases hc
  · intro li g c t u k bp fr hg hc
    have hp : (li, g) ∈ demo.groups := Tab.mem_of_find hg
    have hl : c < g.circuits.length := by
      by_contra hn; simp [List.getElem?_eq_none (Nat.le_of_not_lt hn)] at hc
    have hx := h' _ hp c hl
    simp only [hc] at hx
    obtain ⟨x, hk, hx⟩ := (Option.any_eq_true _ _).mp hx
    simp only [Bool.and_eq_true, beq_iff_eq] at hx
    exact ⟨x, hk, hx.1.1, hx.1.2, hx.2⟩

/-- A state whose groups pass the check of `demo_groups` is sound. -/
theorem groups_sound (s : State) (ha : s.address ≤ 31)
    (h : ∀ p ∈ s.groups, p.1 < 16 ∧ linked p.2 = true ∧ p.2.global = 16 * s.address + p.1 ∧
      p.2.circuits.length = p.2.cfg.working ∧ p.2.terminals.length = p.2.cfg.working + p.2.cfg.spares ∧
      p.2.huntPtr < p.2.cfg.working ∧ ¬ (Circuit.faulty ∈ p.2.circuits ∧ TermRole.spare ∈ p.2.terminals) ∧
      p.2.effPref = effectivePref p.2.cfg.preference (demoted p.2.terminals)) : s.GroupsSound := by
  refine ⟨ha, fun p hp => ?_⟩
  obtain ⟨a, b, c, d, e, f, g, i⟩ := h p hp
  exact ⟨a, c, d, e, f, linked_iff b, g, i⟩

/-- The demonstration, waiting for a read to complete. -/
def starting : State :=
  { demo with
    station := .starting, ready := false, reading := true, tx := [], rx := [], calls := [], roster := []
    announceDeadline := none, reachDeadline := none }

theorem starting_tables : starting.TablesSound := by unfold State.TablesSound; decide +kernel
theorem starting_kept : starting.KeptInState := by unfold State.KeptInState; decide +kernel

/-- A circuit entry, a terminal entry and a transmit entry by number. -/
abbrev circuitAt (g : Group) (c : Nat) : Option Circuit := g.circuits[c]?
abbrev roleAt (l : List TermRole) (t : Nat) : Option TermRole := l[t]?
abbrev entryAt (s : State) (j : Nat) : Option TxEntry := s.tx[j]?

/-! ## Steps and the bus: the premises met -/

theorem witness_StepTakesFront :
    (∃ c rest, ({ demo with pending := [.probe, .load] } : State).pending = c :: rest) ∧
    (demo.pending = [] ∧ demo.bprstLow = false) ∧ (State.reset.pending = [] ∧ State.reset.bprstLow = true) :=
  ⟨⟨_, _, rfl⟩, by decide +kernel⟩

/-- A frame of every kind an engine takes, its fields at both ends of their widths. -/
def everyKind : List Msg :=
  [.holdAsk 65535 0 65535 255, .holdGive 0 65535 0 255 0 255 0 255 0, .holdDeny 65535 0 65535 0 255,
   .holdTake 255 0 65535 0, .holdDrop 0 255 0 65535 0, .holdFault 0 255 0 255, .holdLost 255 0 65535 0,
   .routeAsk 65535 0 255 0, .seizeDone 0 255 0, .callClear 65535 0 255, .load 65535 0 255 0 255,
   .reach 0 255 0 65535 0, .present 255, .probe 65535, .rateSet 0 65535 0 65535 0 65535 0, .rateClear 255, .periodClose,
   .tallyRead 255, .tallyAck 65535, .circuitControl 65535 0 255, .statusRead, .stationReset]

theorem witness_PayloadReadBack :
    (∀ m ∈ everyKind, m.fits = true) ∧ (∀ m ∈ everyKind, parseMsg m.kind m.payload = some m) ∧
    (∀ f ∈ [(2, 65535), (1, 255), (4, 2 ^ 32 - 1), (6, 2 ^ 48 - 1)], f.2 < 256 ^ f.1) ∧
    (∀ p : Period, p.toNat < 256 ^ 2) ∧ (∀ c : Clock, c.toNat < 256 ^ 4) :=
  ⟨by decide +kernel, by decide +kernel, by decide, fun p => p.isLt, fun c => c.isLt⟩

/-- R167: the ends of the address ranges, and STATION-RESET, which is never broadcast. -/
theorem test_suits_boundaries :
    [(31, 3), (32, 3), (31, 63)].map (fun p => (Msg.holdAsk 0 0 52 7).suits p.1 p.2 3) = [true, false, false] ∧
    [(31, 3), (32, 3), (62, 3), (62, 63)].map (fun p => (Msg.callClear 0 0 0).suits p.1 p.2 3) =
      [false, true, true, false] ∧
    [(31, 63), (32, 63)].map (fun p => (Msg.probe 52).suits p.1 p.2 3) = [true, false] ∧
    [(0, 3), (62, 63)].map (fun p => Msg.periodClose.suits p.1 p.2 3) = [true, true] ∧
    [(0, 3), (62, 63)].map (fun p => Msg.stationReset.suits p.1 p.2 3) = [true, false] := by decide

/-- Section 9.5, ROUTE-OFFER: tag 4712, attempt 1, group 100, circuit 7, terminal 9, carrier 21, AMBER, quote 1011. -/
theorem test_route_offer_bytes : (Msg.routeOffer 4712 1 100 7 9 21 1 (some 1011)).payload =
    [0x12, 0x68, 0x01, 0x00, 0x64, 0x07, 0x09, 0x15, 0x01, 0x01, 0x00, 0x00, 0x03, 0xF3] := by decide +kernel

/-- Section 9.5, MGMT-DONE: TALLY-READ of period 7, OK, the overflow entry with 2^32 calls and 9 seconds. -/
theorem test_overflow_entry_bytes : (Msg.mgmtDone 51 .ok (.tally (some 7) 255 96 (some
      { origin := 255, terminating := 255, sums := { calls := 2 ^ 32, seconds := 9 } }))).payload =
    [0x33, 0x00, 0x01, 0x00, 0x07, 0xFF, 0x60, 0xFF, 0xFF, 0xFF, 0xFF, 0xFF, 0xFF, 0, 0, 0, 0, 0, 9] ++
      List.replicate 22 0 ++ [1] := by decide +kernel

/-- A state with room for one more received frame. -/
def nearlyFull : State := { demo with rx := List.replicate 15 { source := 6, dest := 3, msg := .probe 52 } }

theorem witness_FrameReceivedWhole :
    nearlyFull.running = true ∧ nearlyFull.address ≤ 31 ∧ nearlyFull.rx.length < Config.rxCapacity ∧
    ∀ f ∈ [(62, 3, Msg.callClear 1207 511 255), (6, Config.broadcast, Msg.load 100 0 0 0 240), (62, 3, .stationReset),
        (48, Config.broadcast, .periodClose), (31, 3, .holdAsk 0 0 52 7)],
      f.2.2.fits = true ∧ f.1 < 63 ∧ (f.2.1 = nearlyFull.address ∨ f.2.1 = Config.broadcast) ∧
      f.2.2.suits f.1 f.2.1 nearlyFull.address = true ∧ (f.2.2.isManagement = true → 48 ≤ f.1) := by decide +kernel

/-- A frame whose CRC is good, whatever else it holds. -/
def sealed (arb dest kind : Nat) (payload : List Byte) : WireFrame :=
  let w : WireFrame := ⟨BitVec.ofNat 8 arb, BitVec.ofNat 6 dest, BitVec.ofNat 6 kind, BitVec.ofNat 6 payload.length, payload, 0⟩
  { w with crc := BitVec.ofNat 16 (frameCrc w) }

/-- The first premise of the checks that follow the CRC. -/
abbrev Whole (w : WireFrame) : Prop := w.length.toNat = w.payload.length ∧ frameCrc w = w.crc.toNat

theorem witness_ReceiveChecks :
    State.reset.running = false ∧ demo.running = true ∧
    (¬ frameCrc { sealed 6 3 35 [0, 52] with crc := 0 } = 0) ∧
    (Whole (sealed 6 4 35 [0, 52]) ∧ (sealed 6 4 35 [0, 52]).dest.toNat ≠ demo.address) ∧
    (let w := sealed 191 3 35 [0, 52]; Whole w ∧ w.dest.toNat = demo.address ∧ frameSource w = 63) ∧
    (let w := sealed 134 63 36 [0, 52]; Whole w ∧ w.dest.toNat = Config.broadcast ∧ frameSource w ≠ 63 ∧
      parseMsg w.kind.toNat w.payload = none) ∧
    (let w := sealed 70 3 35 [0, 52]; Whole w ∧ parseMsg w.kind.toNat w.payload = some (.probe 52) ∧
      frameClass w ≠ (Msg.probe 52).cls) ∧
    (let w := sealed 160 3 35 [0, 52]; Whole w ∧ parseMsg w.kind.toNat w.payload = some (.probe 52) ∧
      frameClass w = (Msg.probe 52).cls ∧ (Msg.probe 52).suits (frameSource w) w.dest.toNat demo.address = false) ∧
    (let w := sealed 239 63 54 []; Whole w ∧ parseMsg w.kind.toNat w.payload = some .statusRead ∧
      frameClass w = 3 ∧ frameSource w < 48 ∧ w.dest.toNat ≠ demo.address) ∧
    (let w := sealed 239 3 54 []; Whole w ∧ parseMsg w.kind.toNat w.payload = some .statusRead ∧
      frameSource w = 47 ∧ w.dest.toNat = demo.address) ∧
    (let w := sealed 240 3 54 []; Whole w ∧ parseMsg w.kind.toNat w.payload = some .statusRead ∧ 48 ≤ frameSource w ∧
      nearlyFull.rx.length < Config.rxCapacity ∧
      Config.rxCapacity ≤ ({ nearlyFull with rx := nearlyFull.rx ++ behind } : State).rx.length) ∧
    (∀ m ∈ [Msg.holdLost 0 0 0 0, .callClear 0 0 0, .probe 52, .statusRead, .stationReset],
      m.kind ∈ [7, 20, 35, 54, 55] ∧ 62 ≤ 62 ∧ (3 = demo.address ∨ 3 = Config.broadcast) ∧
        (63 = demo.address ∨ 63 = Config.broadcast)) := by decide +kernel

theorem witness_OffersAnswered :
    demo.running = true ∧ demo.tx.length < Config.txCapacity ∧ (full demo).running = true ∧
    ¬ (full demo).tx.length < Config.txCapacity ∧ State.reset.running = false := by decide +kernel

/-- A transmit queue with an answer, a LOAD and a probe waiting. -/
def contending : State := { demo with tx := [waiting 50 (.mgmtDone 50 .ok .nothing), waitingLoadOf groupA, waiting 6 (.probe 100)] }

/-- The same with a hold request behind. -/
def urgent : State := { contending with tx := contending.tx ++ [waiting 6 (.holdAsk 1 0 100 3)] }

theorem witness_ContentionDecides :
    contending.running = true ∧ contending.address ≤ 31 ∧ (∀ d ∈ urgent.tx, d.onLine = none) ∧
    entryAt contending 1 = some (waitingLoadOf groupA) ∧
    (∀ (j : Nat) (d : TxEntry), entryAt contending j = some d →
      (waitingLoadOf groupA).body.cls < d.body.cls ∨ ((waitingLoadOf groupA).body.cls = d.body.cls ∧ 1 ≤ j)) ∧
    entryAt urgent 3 = some (waiting 6 (.holdAsk 1 0 100 3)) ∧
    (∀ (j : Nat) (d : TxEntry), entryAt urgent j = some d → 0 < d.body.cls ∨ (0 = d.body.cls ∧ 3 ≤ j)) ∧
    (waitingLoadOf groupA).body = .load 52 ∧ 52 / 16 = contending.address ∧
    Tab.find contending.groups 4 = some groupA ∧
    (∃ o ∈ [130#8], o.toNat < 2 * 64 + contending.address) ∧
    ∀ o ∈ [131#8, 132#8], 2 * 64 + contending.address ≤ o.toNat := by
  refine ⟨by decide +kernel, by decide +kernel, by decide +kernel, rfl, ?_, rfl, ?_, by decide +kernel, by decide +kernel, by decide +kernel,
    by decide +kernel, by decide +kernel⟩
  · intro j d hd
    rcases j with _ | _ | _ | j <;>
      simp [contending, waiting, waitingLoadOf] at hd <;> subst hd <;> decide
  · intro j d hd
    rcases j with _ | _ | _ | _ | j <;>
      simp [urgent, contending, waiting, waitingLoadOf] at hd <;> subst hd <;> decide

theorem witness_SendingEnds :
    ∀ b ∈ [TxBody.msg (.probe 100), .load 52],
      let e : TxEntry := { dest := 6, body := b, onLine := some (wireFrame 3 6 (.probe 100)) }
      (∃ s : State, s.tx = [waiting 6 (.probe 101)] ++ e :: [waitingLoadOf groupA]) ∧ e.onLine.isSome = true ∧
      (∀ d ∈ [waiting 6 (.probe 101)], d.onLine = none) ∧ ∀ d ∈ [waitingLoadOf groupA], d.onLine = none := by
  intro b _
  exact ⟨⟨{ demo with tx := _ }, rfl⟩, rfl, by decide +kernel, by decide +kernel⟩

/-! ## Station control -/

theorem witness_PowerAndBackplane : State.reset.bprstLow = true ∧ demo.bprstLow = false := by decide +kernel

/-- A group slot of an image. -/
def slotOf (carrier working spares : Nat) : List Byte :=
  toBytes 1 1 ++ toBytes 1 carrier ++ toBytes 1 working ++ toBytes 1 spares ++ toBytes 2 200 ++ toBytes 1 2 ++
  toBytes 1 2 ++ List.replicate 7 255 ++ toBytes 2 0

/-- An image of a station: every other engine-wide parameter at its default, and the given group slots from local
index 4 on. -/
def imageOf (address : Nat) (slots : List (List Byte)) : List Byte :=
  let slots := List.replicate 4 (List.replicate 17 (0xFF : Byte)) ++ slots
  let bytes := toBytes 1 address ++ List.replicate 12 0xFF ++ toBytes 2 3277 ++ [0xFF] ++ slots.flatten ++
    List.replicate (17 * (16 - slots.length)) 0xFF
  bytes ++ toBytes 2 (crcBytes bytes 0xFFFF)

/-- Local index 4 as the demonstration has it, 5 with another circuit count, and four of 255 terminals, the last of
which passes the budget. -/
def image : List Byte :=
  imageOf 3 ([slotOf 23 11 2, slotOf 22 3 0] ++ List.replicate 4 (slotOf 21 240 15))

/-- The premises of a good image. -/
abbrev Good (image : List Byte) : Prop :=
  image.length = 290 ∧ crcBytes (image.take 288) 0xFFFF = field image 288 2 ∧ field image 0 1 ≤ 31

theorem image_good : Good image := by decide +kernel

theorem witness_ImageDecoded :
    (1 ≤ 2 ∧ 1 + 2 ≤ image.length ∧ ∀ i < 2, image[1 + i]? = some 0xFF#8) ∧
    (13 + 2 ≤ image.length ∧ ∃ i < 2, image[13 + i]? ≠ some 0xFF#8) ∧
    (clamp 5 250 5 = 5 ∧ clamp 5 250 250 = 250 ∧ clamp 5 250 4 = 5 ∧ clamp 5 250 251 = 250) ∧
    field image 0 1 ≤ 31 ∧ (decodeGroup image 4).isSome = true ∧ (decodeGroup image 3).isSome = false ∧
    ((presentGroups image).map (·.1)).head? = some 4 ∧
    (withinBudget 0 (presentGroups image)).2 = true ∧ (withinBudget 0 (presentGroups image)).1.length = 5 := by
  decide +kernel

theorem witness_ReadFails :
    starting.station = .starting ∧ starting.reading = true ∧ ¬ Good (image.take 289) ∧
    ¬ Good (image.set 20 0) ∧ ¬ Good (imageOf 32 []) := by decide +kernel

theorem witness_ReadGood :
    starting.station = .starting ∧ starting.reading = true ∧ starting.KeptInState ∧ starting.TablesSound ∧
    Good image ∧ ∃ cfg g, (5, cfg) ∈ (withinBudget 0 (presentGroups image)).1 ∧
      Tab.find starting.groups 5 = some g ∧ ¬ (g.cfg.working = cfg.working ∧ g.cfg.spares = cfg.spares) := by
  refine ⟨rfl, rfl, starting_kept, starting_tables, image_good, (decodeGroup image 5).getD (cfgOf 0 0 0), groupB, ?_⟩
  decide +kernel

theorem witness_HardResetContinues :
    starting.station = .starting ∧ starting.reading = true ∧ starting.KeptInState ∧ starting.TablesSound ∧
    starting.GroupsSound ∧ Good image ∧ ∃ cfg, (4, cfg) ∈ (withinBudget 0 (presentGroups image)).1 ∧
      Tab.find starting.groups 4 = some groupA ∧ groupA.cfg.working = cfg.working ∧ groupA.cfg.spares = cfg.spares := by
  refine ⟨rfl, rfl, starting_kept, starting_tables, demo_groups, image_good, (decodeGroup image 4).getD (cfgOf 0 0 0), ?_⟩
  decide +kernel

theorem witness_EntryToListen :
    starting.tx = [] ∧ (starting.groups.map (·.2.global)).Nodup ∧ starting.groups[3]? = some (7, groupD) := by
  decide +kernel

theorem witness_SoftReset :
    (got demo 62 3 .stationReset).takes 62 3 .stationReset behind ∧ (got demo 62 3 .stationReset).TablesSound ∧
    (got demo 62 3 .stationReset).GroupsSound ∧
    Tab.find (got demo 62 3 .stationReset).groups 4 = some groupA :=
  ⟨got_takes _ _ _ _ rfl, demo_tables, demo_groups, by decide +kernel⟩

/-- The demonstration without the group whose HELD circuit waits for a fault. -/
def calm : State := { demo with groups := [(5, groupB), (6, groupC)] }

theorem witness_AddressConflict :
    (∀ s ∈ [demo, calm], ∀ code ∈ [0, 1, 2], (got s 3 63 (.present code)).takes s.address 63 (.present code) behind ∧
      (got s 3 63 (.present code)).TablesSound ∧ (got s 3 63 (.present code)).GroupsSound) ∧
    (∀ p ∈ calm.groups, ∀ x ∈ p.2.circuits, x.isHeld = true → x.faultWaits = false) ∧
    Tab.find demo.groups 4 = some groupA := by
  have hc : calm.TablesSound := by unfold State.TablesSound; decide +kernel
  have hg : calm.GroupsSound := groups_sound _ (by decide +kernel) (by decide +kernel)
  refine ⟨?_, by decide +kernel, by decide +kernel⟩
  simp only [List.mem_cons, List.not_mem_nil, or_false, forall_eq_or_imp, forall_eq]
  exact ⟨⟨⟨got_takes _ _ _ _ rfl, demo_tables, demo_groups⟩, ⟨got_takes _ _ _ _ rfl, demo_tables, demo_groups⟩,
    ⟨got_takes _ _ _ _ rfl, demo_tables, demo_groups⟩⟩, ⟨⟨got_takes _ _ _ _ rfl, hc, hg⟩,
    ⟨got_takes _ _ _ _ rfl, hc, hg⟩, ⟨got_takes _ _ _ _ rfl, hc, hg⟩⟩⟩

/-- The demonstration in LISTEN. -/
def listening : State :=
  { demo with station := .listen, ready := false, calls := [], reachDeadline := none, listenDeadline := some 70000 }

theorem witness_ListenEnds :
    listening.listenDeadline = some 70000 ∧ listening.station = .listen ∧
    (listening.clock - 70000).toNat < 2 ^ 31 ∧ listening.tx.length ≤ Config.txCapacity ∧
    (listening.groups.map (·.2.global)).Nodup ∧
    (let s : State := { listening with listenDeadline := some 70001 }
     s.listenDeadline = some 70001 ∧ 2 ^ 31 ≤ (s.clock - 70001).toNat) ∧
    (let s : State := { demo with listenDeadline := some 70000 }; s.listenDeadline = some 70000 ∧ s.station ≠ .listen) := by
  decide +kernel

theorem witness_SetsOfFrames :
    ∀ s ∈ [demo, full demo], s.running = true ∧ s.tx.length ≤ Config.txCapacity ∧
      s.counters.txDrop ≤ Config.counterMax ∧ (s.groups.map (·.2.global)).Nodup := by decide +kernel

theorem witness_DeadlinesAdvance :
    demo.config.InRange ∧ demo.announceDeadline = some 70000 ∧ reached demo.clock 70000 = true ∧
    demo.reachDeadline = some 70000 ∧ demo.station = .active ∧ demo.groups ≠ [] ∧
    reached demo.clock 70001 = false ∧ reached demo.clock (70000 - 0x7FFFFFFF) = true ∧
    reached demo.clock (70000 - 0x80000000) = false ∧ ({ demo with groups := [] } : State).groups = [] :=
  ⟨demo_config.1, by decide +kernel⟩

theorem witness_CensusEvents :
    (∀ code ∈ [0, 1, 2, 3], (got demo 6 63 (.present code)).takes 6 63 (.present code) behind) ∧ 6 ≠ demo.address ∧
    (Tab.find demo.roster 9 = some 67999 ∧ demo.running = true ∧ 9 ≠ demo.address ∧
      demo.config.silenceLimit < (demo.clock - 67999).toNat) ∧
    (Tab.find demo.roster 7 = some 68000 ∧ (demo.clock - 68000).toNat ≤ demo.config.silenceLimit) ∧
    Tab.find demo.roster 8 = none ∧ (demo.TablesSound ∧ demo.GroupsSound) ∧
    Tab.find demo.calls 5 = some (recordOf 5 100 (.connected (grantOf 5 5 8) 60000)) ∧
    (recordOf 5 100 (.connected (grantOf 5 5 8) 60000)).awaits 6 = false ∧
    (∃ h, demo.holdAt 9 = some h ∧ h.requester = 6) ∧ (∃ h, demo.holdAt 63 = some h ∧ h.requester ≠ 6) ∧
    Tab.find demo.groups 4 = some groupA ∧ circuitAt groupA 5 = some (.busy 5 6 true true) := by
  refine ⟨fun code _ => got_takes _ _ _ _ rfl, by decide +kernel, by decide +kernel, by decide +kernel, by decide +kernel,
    ⟨demo_tables, demo_groups⟩, by decide +kernel, by decide +kernel, ⟨holdOf 6 1, by decide +kernel⟩,
    ⟨{ holdOf 7 8 with expiry := 70000 }, by decide +kernel⟩, by decide +kernel, by decide +kernel⟩

theorem witness_StatusAnswered :
    (got demo 50 63 .statusRead).takes 50 63 .statusRead behind ∧ Tab.wf (got demo 50 63 .statusRead).roster :=
  ⟨got_takes _ _ _ _ rfl, by decide +kernel⟩

/-! ## The announce path and the load unit -/

theorem witness_StalenessProbes :
    (∃ v, Tab.find demo.views 101 = some v ∧ demo.running = true ∧ v.stale = false ∧
      demo.config.viewLifetime < (demo.clock - v.heard).toNat ∧ demo.isPresent (101 / 16) = true) ∧
    (∃ v, Tab.find demo.views 200 = some v ∧ v.stale = false ∧
      demo.config.viewLifetime < (demo.clock - v.heard).toNat ∧ demo.isPresent (200 / 16) = false) ∧
    (∃ v, Tab.find demo.views 100 = some v ∧ (demo.clock - v.heard).toNat ≤ demo.config.viewLifetime) ∧
    (∃ v, Tab.find demo.views 102 = some v ∧ v.stale = true) ∧ Tab.find demo.views 511 = none ∧
    (∀ g ∈ [52, 63, 68], (got demo 6 63 (.probe g)).takes 6 63 (.probe g) behind) ∧ demo.GroupsSound ∧
    (52 / 16 = demo.address ∧ (Tab.find demo.groups (52 % 16)).isSome = true) ∧
    (63 / 16 = demo.address ∧ Tab.find demo.groups (63 % 16) = none) ∧ 68 / 16 ≠ demo.address :=
  ⟨⟨_, rfl, by decide +kernel⟩, ⟨_, rfl, by decide +kernel⟩, ⟨_, rfl, by decide +kernel⟩, ⟨_, rfl, by decide +kernel⟩,
    by decide +kernel, fun _ _ => got_takes _ _ _ _ rfl, demo_groups, by decide +kernel, by decide +kernel, by decide +kernel⟩

theorem witness_AnnouncementsTaken :
    (∀ source g band floor surge free, (got demo source 63 (.load g band floor surge free)).takes source 63
      (.load g band floor surge free) behind) ∧
    (100 / 16 = 6 ∧ 5 ≤ 5 ∧ 8 ≤ 8 ∧ 1 ≤ 1 ∧ 240 ≤ 240 ∧ 6 ≠ demo.address ∧ Band.code .closed = 5) ∧
    (52 / 16 = demo.address) ∧ ¬ 112 / 16 = 6 ∧ ¬ 6 ≤ 5 ∧
    (∀ source g carrier pref first count, (got demo source 63 (.reach g carrier pref first count)).takes source 63
      (.reach g carrier pref first count) behind) ∧
    (63 ≤ 63 ∧ 15 ≤ 15 ∧ 1023 ≤ 1023 ∧ 1 ≤ 32 ∧ 32 ≤ 32) ∧ ¬ (1 ≤ 0) :=
  ⟨fun _ _ _ _ _ _ => got_takes _ _ _ _ rfl, by decide +kernel, by decide +kernel, by decide, by decide,
    fun _ _ _ _ _ _ => got_takes _ _ _ _ rfl, by decide, by decide⟩

/-- Six candidates for destination 200. -/
def crowded : State :=
  { demo with routes := [(200, [⟨52, 2⟩, ⟨53, 3⟩, ⟨100, 3⟩, ⟨101, 4⟩, ⟨102, 4⟩, ⟨103, 5⟩]), (201, [⟨100, 3⟩])] }

theorem witness_ReachApplied :
    crowded.TablesSound ∧ crowded.RoutesSound ∧ crowded.counters.reachOverflow ≤ Config.counterMax ∧
    ((crowded.routeList 201).any fun c => decide (c.group = 100)) = true ∧
    ((crowded.routeList 200).any fun c => decide (c.group = 104)) = false ∧
    (crowded.routeList 200).length = Config.routeCandidates ∧
    (crowded.routeList 200).getLast? = some { group := 103, pref := 5 } ∧
    Candidate.before ⟨104, 4⟩ ⟨103, 5⟩ = true ∧ Candidate.before ⟨104, 5⟩ ⟨103, 5⟩ = false ∧
    ¬ (200 ≤ 202 ∧ 202 < 200 + 2) ∧ 200 ≤ 201 ∧ 201 < 200 + 2 := by
  refine ⟨?_, ?_, by decide +kernel⟩
  · unfold State.TablesSound; decide +kernel
  · unfold State.RoutesSound routeListSound; decide +kernel

/-- A group with some of its circuits blocked or in use. -/
def loaded (working blocked busy : Nat) : Group :=
  groupOf 4 (cfgOf 21 working 0)
    (List.replicate blocked (.blocked 0) ++ List.replicate busy (.busy 0 6 false false) ++
      List.replicate (working - blocked - busy) (.idle 0)) []

theorem witness_BandFromCounts :
    (loaded 1 1 0).load.inService = 0 ∧ (loaded 1 0 1).load.band = .full ∧ (loaded 16 0 14).load.band = .grace ∧
    (loaded 240 0 216).load.band = .red ∧ (loaded 240 0 215).load.band = .amber ∧ (loaded 240 0 180).load.band = .amber ∧
    (loaded 240 0 179).load.band = .green ∧ (loaded 240 0 216).circuits.length = (loaded 240 0 216).cfg.working ∧
    (loaded 240 0 216).load.surge = false := by decide +kernel

theorem witness_SurgeRaisesBand :
    (loaded 240 0 179).recomputed.load.band = .green ∧ (loaded 240 0 180).recomputed.load.band = .amber ∧
    (loaded 240 0 216).recomputed.load.band = .red ∧ (loaded 1 1 0).recomputed.load.band = .closed := by decide +kernel

theorem witness_SurgeEstimator :
    groupA.load.smoothed = 65535 ∧ attemptInterval 70000 groupA.load.lastAttempt = 0 ∧
    (let g := { groupA with load := { groupA.load with smoothed := 100, lastAttempt := 69893 } }
     attemptInterval 70000 g.load.lastAttempt = 107 ∧ (g.attempted 70000).load.smoothed = 100) ∧
    0 < (groupA.attempted 70000).load.smoothed := by decide +kernel

/-! ## Hunting and the hold unit -/

theorem witness_HuntOrder :
    groupA.hunt demo.suspects 4 = some (0, 0) ∧ groupB.hunt demo.suspects 5 = some (0, 0) ∧
    groupC.hunt demo.suspects 6 = none ∧
    ({ groupA with huntPtr := 1 } : Group).hunt demo.suspects 4 = some (7, 8) := by decide +kernel

/-- Forty circuits, 36 of them in use: RED, with floor 4. -/
def redGroup : Group := groupOf 4 (cfgOf 21 40 0)
  ((List.range 40).map fun c => if c < 36 then .busy c 6 false false else .idle c) ((List.range 40).map .serving)

/-- A station whose only group is RED. -/
def redState : State := { demo with groups := [(4, redGroup)] }

/-- Every hold slot is in use but one, or none. -/
def slotsUsed (keep : Nat) : State :=
  { demo with slots := Vector.ofFn fun k => { generation := 15, hold := if k.val = keep then none else some (holdOf 6 1) } }

theorem witness_HoldRequests :
    demo.running = true ∧ demo.GroupsSound ∧ 68 / 16 ≠ demo.address ∧ Tab.find demo.groups (63 % 16) = none ∧
    (52 / 16 = demo.address ∧ Tab.find demo.groups (52 % 16) = some groupA) ∧
    Tab.find demo.groups (55 % 16) = some groupD ∧ Tab.find demo.groups (54 % 16) = some groupC ∧
    ((groupD.attempted demo.clock).recomputed.load.band = .closed ∧
      (groupC.attempted demo.clock).recomputed.load.band = .full ∧
      (groupB.attempted demo.clock).recomputed.load.floor = 0 ∧
      (groupA.attempted demo.clock).recomputed.load.floor = 0) ∧
    (redState.GroupsSound ∧ Tab.find redState.groups (52 % 16) = some redGroup ∧
      (let g := (redGroup.attempted redState.clock).recomputed
       g.load.band = .red ∧ 3 < g.load.floor ∧ g.load.floor ≤ 4)) ∧
    (∀ k < Config.holdSlots, (slotsUsed 64).holdAt k ≠ none) ∧
    ((slotsUsed 63).slots[63]? = some { generation := 15, hold := none } ∧
      ∀ j < 63, (slotsUsed 63).holdAt j ≠ none) := by
  refine ⟨rfl, demo_groups, by decide +kernel, by decide +kernel, by decide +kernel, by decide +kernel, by decide +kernel,
    by decide +kernel, ⟨groups_sound _ (by decide +kernel) (by decide +kernel), by decide +kernel, by decide +kernel⟩,
    by decide +kernel, by decide +kernel⟩

theorem witness_HoldAskAnswered :
    (∀ s ∈ [demo, full demo], ∀ group ∈ [52, 54], ∀ prec ∈ [7, 8],
      (got s 6 3 (.holdAsk 301 17 group prec)).takes 6 3 (.holdAsk 301 17 group prec) behind ∧
      (got s 6 3 (.holdAsk 301 17 group prec)).GroupsSound) ∧
    (∀ s ∈ [demo, full demo], (match (({ s with rx := behind } : State).requestHold 6 301 52 7).2 with
      | .granted gr => decide (gr.circuit = 0 ∧ gr.slot = 1)
      | _ => false) = true) ∧
    (({ demo with rx := behind } : State).requestHold 6 301 54 7).2 = .denied .full .full := by
  refine ⟨?_, by decide +kernel, by decide +kernel⟩
  intro s hs group _ prec _
  simp only [List.mem_cons, List.not_mem_nil, or_false] at hs
  rcases hs with rfl | rfl <;> exact ⟨got_takes _ _ _ _ rfl, demo_groups⟩

theorem witness_HoldTakeTaken :
    (∀ source slot gen group circuit, (got demo source 3 (.holdTake slot gen group circuit)).takes source 3
      (.holdTake slot gen group circuit) behind) ∧
    demo.ownCircuit 100 0 = none ∧ demo.ownCircuit 52 11 = none ∧
    (demo.ownCircuit 52 9 = some (4, groupA, .held 10 6 2 false false) ∧ demo.HoldMatches 6 2 15 52 9) ∧
    (demo.ownCircuit 52 10 = some (4, groupA, .idle 11) ∧ ¬ demo.HoldMatches 6 2 15 52 10) ∧
    (demo.ownCircuit 52 3 = some (4, groupA, .blocked 3) ∧ ¬ demo.HoldMatches 6 2 15 52 3) ∧
    ¬ demo.HoldMatches 6 2 14 52 9 := by
  simp only [← State.matchHold_iff]
  exact ⟨fun _ _ _ _ _ => got_takes _ _ _ _ rfl, by decide +kernel⟩

theorem witness_HoldDropTaken :
    (∀ source idp slot gen group circuit, (got demo source 3 (.holdDrop idp slot gen group circuit)).takes source 3
      (.holdDrop idp slot gen group circuit) behind) ∧
    demo.ownCircuit 52 11 = none ∧
    (demo.ownCircuit 52 1 = some (4, groupA, .held 1 6 9 false false) ∧ demo.HoldMatches 6 9 3 52 1) ∧
    (demo.ownCircuit 52 5 = some (4, groupA, .busy 5 6 true true) ∧ ¬ demo.HoldMatches 6 9 3 52 5) ∧
    (demo.ownCircuit 52 0 = some (4, groupA, .idle 0) ∧ (Circuit.idle 0).inUse = false) ∧
    ¬ demo.HoldMatches 6 9 2 52 1 ∧ ¬ demo.HoldMatches 7 9 3 52 1 := by
  simp only [← State.matchHold_iff]
  exact ⟨fun _ _ _ _ _ _ => got_takes _ _ _ _ rfl, by decide +kernel⟩

theorem witness_HoldFaultTaken :
    (∀ source slot gen group circuit, (got demo source 3 (.holdFault slot gen group circuit)).takes source 3
      (.holdFault slot gen group circuit) behind) ∧
    (demo.ownCircuit 52 4 = some (4, groupA, .held 4 3 0 true true) ∧ demo.HoldMatches 3 0 6 52 4) ∧
    (demo.ownCircuit 52 8 = some (4, groupA, .held 9 7 63 true false) ∧ demo.HoldMatches 7 63 1 52 8 ∧
      (4, 9) ∈ demo.suspects) ∧
    (demo.ownCircuit 52 1 = some (4, groupA, .held 1 6 9 false false) ∧ demo.HoldMatches 6 9 3 52 1 ∧
      (4, 1) ∉ demo.suspects) ∧
    demo.ownCircuit 52 0 = some (4, groupA, .idle 0) := by
  simp only [← State.matchHold_iff]
  exact ⟨fun _ _ _ _ _ => got_takes _ _ _ _ rfl, by decide +kernel⟩

theorem witness_HoldExpires :
    demo.holdAt 1 = none ∧ demo.running = true ∧
    (∃ h, demo.holdAt 63 = some h ∧ (demo.clock - h.expiry).toNat < 2 ^ 31 ∧
      demo.ownCircuit h.group h.circuit = some (4, groupA, .held 9 7 63 true false)) ∧
    (∃ h, demo.holdAt 9 = some h ∧ 2 ^ 31 ≤ (demo.clock - h.expiry).toNat) ∧ starting.running = false :=
  ⟨by decide +kernel, rfl, ⟨{ holdOf 7 8 with expiry := 70000 }, by decide +kernel⟩, ⟨holdOf 6 1, by decide +kernel⟩, rfl⟩

theorem witness_ReleaseOrder :
    demo.running = true ∧ Tab.find demo.groups 4 = some groupA ∧ Tab.find demo.groups 5 = some groupB ∧
    Tab.find demo.groups 6 = some groupC ∧
    (roleAt (groupA.terminals.set 1 .faulty) 12 = some .spare ∧
      ∀ j < 12, roleAt (groupA.terminals.set 1 .faulty) j ≠ some .spare) ∧
    TermRole.spare ∉ groupC.terminals.set 0 .faulty ∧
    demoted (groupC.terminals.set 0 .faulty) ≠ demoted groupC.terminals ∧
    demoted (groupB.terminals.set 0 .faulty) = demoted groupB.terminals := by decide +kernel

/-- A full suspect list whose oldest entry is a terminal of local index 4. -/
def suspected (t : Nat) : State := { demo with suspects := (4, t) :: (List.range 15).map fun k => (5, k) }

theorem witness_SuspectPromotion :
    demo.suspects.length < Config.suspectCapacity ∧
    (∀ t ∈ [0, 3, 1, 5], Config.suspectCapacity ≤ (suspected t).suspects.length ∧
      (suspected t).suspects = (4, t) :: (List.range 15).map (fun k => (5, k)) ∧
      Tab.find (suspected t).groups 4 = some groupA ∧ roleAt groupA.terminals t = some (.serving t)) ∧
    circuitAt groupA 0 = some (.idle 0) ∧ circuitAt groupA 3 = some (.blocked 3) ∧
    circuitAt groupA 1 = some (.held 1 6 9 false false) ∧ circuitAt groupA 5 = some (.busy 5 6 true true) := by
  decide +kernel

/-! ## The call unit -/

/-- What a call keeps, before its first attempt. -/
def freshBase (prec : Nat) : CallBase :=
  { client := 40, tag := 99, dest := 200, prec := prec, origin := 5, attempts := 0, tried := [], last := none }

/-- The demonstration with one candidate for destination 200. -/
def toOnly (group : Nat) : State := { demo with routes := [(200, [{ group := group, pref := 0 }])] }

theorem witness_SelectionPasses :
    demo.pick (freshBase 3) = some { group := 52, pref := 2 } ∧
    (toOnly 100).pick (freshBase 2) = some { group := 100, pref := 0 } ∧ (toOnly 100).pick (freshBase 1) = none ∧
    (toOnly 102).pick (freshBase 0) = some { group := 102, pref := 0 } ∧
    (52 / 16 = demo.address ∧ Tab.find demo.groups (52 % 16) = some groupA) ∧
    (∀ g ∈ [100, 101, 102, 103, 104, 105, 511], g / 16 ≠ demo.address) ∧ Tab.find demo.views 511 = none ∧
    ((Tab.find demo.views 102).any (·.stale) = true) ∧
    ((Tab.find demo.views 105).any fun v => !v.stale && decide (v.band = .green)) = true ∧
    ((Tab.find demo.views 103).any fun v => !v.stale && decide (v.band = .grace)) = true ∧
    ((Tab.find demo.views 104).any fun v => !v.stale && decide (v.band = .full)) = true ∧
    ((Tab.find demo.views 100).any fun v => decide (v.band = .amber ∧ v.floor = some (2, .amber))) = true ∧
    ((Tab.find demo.views 101).any fun v => decide (v.band = .red ∧ v.floor = some (2, .amber))) = true := by
  decide +kernel

theorem witness_SelectionAttempts :
    demo.running = true ∧ (toOnly 511).pick (freshBase 7) = none ∧
    (toOnly 100).pick (freshBase 2) = some { group := 100, pref := 0 } ∧ 100 / 16 ≠ (toOnly 100).address ∧
    (toOnly 100).tx.length < Config.txCapacity ∧ Config.txCapacity ≤ (full (toOnly 100)).tx.length ∧
    (full (toOnly 100)).pick (freshBase 2) = some { group := 100, pref := 0 } ∧
    demo.pick (freshBase 3) = some { group := 52, pref := 2 } ∧ 52 / 16 = demo.address ∧
    (match (demo.requestHold demo.address 0 52 3).2 with | .granted _ => true | _ => false) = true ∧
    ({ slotsUsed 64 with routes := demo.routes } : State).pick (freshBase 3) = some { group := 52, pref := 2 } ∧
    ((slotsUsed 64).requestHold demo.address 0 52 3).2 = .denied .noSlot .green := by decide +kernel

theorem witness_OfferMade :
    demo.running = true ∧ Tab.find demo.rates 22 = none ∧
    Tab.find demo.rates (grantOf 5 5 7).carrier =
      some { setup := 250, rate := 1920, green := 4096, amber := 5632, red := 7168, grace := 9216 } ∧
    demo.config.exemption ≤ (freshBase 7).prec ∧ (freshBase 6).prec < demo.config.exemption ∧
    (grantOf 5 5 7).band = .amber := by decide +kernel

/-- Every call record is live but one, or none. -/
def recordsUsed (keep : Nat) : State :=
  { demo with calls := ((List.range 512).filter fun r => decide (r ≠ keep)).map fun r =>
      (r, recordOf r 100 (.awaitHold 4711 70000)) }

theorem recordsUsed_live {keep r : Nat} (h : r < 512) (hk : r ≠ keep) :
    (Tab.find (recordsUsed keep).calls r).isSome = true := by
  have hm : (r, recordOf r 100 (.awaitHold 4711 70000)) ∈ (recordsUsed keep).calls := by
    simp [recordsUsed, h, hk]
  have hw : Tab.wf (recordsUsed keep).calls := by
    simp only [recordsUsed, Tab.wf, List.pairwise_map]
    exact List.Pairwise.filter _ List.pairwise_lt_range
  rw [Tab.find_of_mem hw hm]
  rfl

theorem recordsUsed_free : (Tab.find (recordsUsed 511).calls 511).isSome = false := by
  cases hf : Tab.find (recordsUsed 511).calls 511 with
  | none => rfl
  | some v => simpa [recordsUsed] using Tab.mem_of_find hf

theorem recordsUsed_keys {keep tag : Nat} (h : 512 ≤ tag) :
    ∀ p ∈ (recordsUsed keep).calls, ¬ (p.2.base.client = 40 ∧ p.2.base.tag = tag) := by
  rintro p hp ⟨-, ht⟩
  simp only [recordsUsed, List.mem_map, List.mem_filter, List.mem_range] at hp
  obtain ⟨r, ⟨hr, -⟩, rfl⟩ := hp
  simp only [recordOf] at ht
  omega

theorem witness_RouteAskTaken :
    (∀ s ∈ [demo, listening, recordsUsed 512, recordsUsed 511], ∀ tag wanted prec origin,
      (got s 40 3 (.routeAsk tag wanted prec origin)).takes 40 3 (.routeAsk tag wanted prec origin) behind) ∧
    (7 < 8 ∧ 63 < 64) ∧ listening.station ≠ .active ∧ demo.station = .active ∧ 1023 < 1024 ∧
    (∃ p ∈ demo.calls, p.2.base.client = 40 ∧ p.2.base.tag = 9) ∧
    (∀ p ∈ demo.calls, ¬ (p.2.base.client = 40 ∧ p.2.base.tag = 10)) ∧
    (∀ p ∈ (recordsUsed 512).calls, ¬ (p.2.base.client = 40 ∧ p.2.base.tag = 65535)) ∧
    (∀ p ∈ (recordsUsed 511).calls, ¬ (p.2.base.client = 40 ∧ p.2.base.tag = 65535)) ∧
    (∀ r < Config.callRecords, (Tab.find (recordsUsed 512).calls r).isSome = true) ∧
    ((Tab.find (recordsUsed 511).calls 511).isSome = false ∧
      ∀ q < 511, (Tab.find (recordsUsed 511).calls q).isSome = true) ∧
    (recordsUsed 511).routeList 1023 = [] ∧ (recordsUsed 511).routeList 200 ≠ [] := by
  refine ⟨?_, by decide, by decide +kernel, by decide +kernel, by decide, by decide +kernel, by decide +kernel,
    recordsUsed_keys (by decide), recordsUsed_keys (by decide), fun r hr => recordsUsed_live hr (Nat.ne_of_lt hr),
    ⟨recordsUsed_free, fun q hq => recordsUsed_live (Nat.lt_succ_of_lt hq) (Nat.ne_of_lt hq)⟩, rfl, by decide +kernel⟩
  intro s hs tag wanted prec origin
  simp only [List.mem_cons, List.not_mem_nil, or_false] at hs
  rcases hs with rfl | rfl | rfl | rfl <;> exact got_takes _ _ _ _ rfl

theorem witness_HoldAnswersTaken :
    (∀ serial ref group slot gen circuit terminal carrier band,
      (got demo 6 3 (.holdGive serial ref group slot gen circuit terminal carrier band)).takes 6 3
        (.holdGive serial ref group slot gen circuit terminal carrier band) behind) ∧
    (∀ serial ref group reason band, (got demo 6 3 (.holdDeny serial ref group reason band)).takes 6 3
        (.holdDeny serial ref group reason band) behind) ∧
    (6 = 100 / 16 ∧ Tab.find demo.calls 0 = some (recordOf 0 100 (.awaitHold 4711 70000)) ∧
      (4711 : Serial).toNat = 4711 ∧ Band.code .grace = 3) ∧
    (511 < 512 ∧ 63 < 64 ∧ 15 < 16 ∧ 239 < 240 ∧ 254 < 255 ∧ 3 < 4 ∧ ¬ 4 < 4) ∧ 6 ≠ 95 / 16 ∧
    Tab.find demo.calls 511 = none ∧
    (AttemptOutcome.code .noSlot = 5 ∧ AttemptOutcome.code .notOwner = 1 ∧ Band.code .closed = 5) ∧
    ¬ (1 ≤ 0) ∧ ¬ 6 ≤ 5 ∧ (4711 : Serial).toNat ≠ 4710 ∧
    (demo.running = true ∧ reached demo.clock 70000 = true) ∧
    (Tab.find demo.calls 7 = some (recordOf 7 100 (.awaitHold 4712 70001)) ∧ reached demo.clock 70001 = false) ∧
    (recordOf 1 52 (.offered (grantOf 0 6 4) 70000)).phase.grant ≠ none :=
  ⟨fun _ _ _ _ _ _ _ _ _ => got_takes _ _ _ _ rfl, fun _ _ _ _ _ => got_takes _ _ _ _ rfl, by decide +kernel⟩

theorem witness_EndOfUse :
    demo.running = true ∧ (recordOf 2 100 (.ringing (grantOf 5 5 7))).disputed = false ∧
    100 / 16 ≠ demo.address ∧ 52 / 16 = demo.address ∧
    (demo.ownCircuit 52 (grantOf 0 6 4).circuit = some (4, groupA, .held 4 demo.address 0 true true) ∧
      demo.HoldMatches demo.address (grantOf 0 6 4).slot (grantOf 0 6 4).generation 52 (grantOf 0 6 4).circuit) ∧
    (demo.ownCircuit 52 (grantOf 0 5 2).circuit = some (4, groupA, .busy 2 demo.address false false) ∧
      ¬ demo.HoldMatches demo.address (grantOf 0 5 2).slot (grantOf 0 5 2).generation 52 (grantOf 0 5 2).circuit) ∧
    (demo.ownCircuit 52 (grantOf 0 5 4).circuit = some (4, groupA, .held 4 demo.address 0 true true) ∧
      ¬ (demo.HoldMatches demo.address (grantOf 0 5 4).slot (grantOf 0 5 4).generation 52 (grantOf 0 5 4).circuit ∧
        (grantOf 0 5 4).slot = 0)) ∧
    (let s : State := { demo with slots := demo.slots.set 1 { generation := 4, hold := some (holdOf 3 2) } }
     s.ownCircuit 52 (grantOf 1 4 2).circuit = some (4, groupA, .busy 2 s.address false false) ∧
      s.HoldMatches s.address (grantOf 1 4 2).slot (grantOf 1 4 2).generation 52 (grantOf 1 4 2).circuit) ∧
    (demo.ownCircuit 52 (grantOf 9 9 6).circuit = some (4, groupA, .idle 6) ∧
      (Circuit.idle 6).user ≠ some demo.address) := by
  simp only [← State.matchHold_iff]
  decide +kernel

/-- The demonstration with its offered record of an own group on a given circuit. -/
def offeredOn (circuit : Nat) : State :=
  { demo with calls := [(1, recordOf 1 52 (.offered (grantOf 0 6 circuit) 70000))] }

theorem offeredOn_tables (circuit : Nat) : (offeredOn circuit).TablesSound := by
  refine ⟨demo_tables.1, demo_tables.2.1, demo_tables.2.2.1, demo_tables.2.2.2.1, ?_, demo_tables.2.2.2.2.2⟩
  simp [offeredOn, Tab.wf]

theorem witness_SeizureReported :
    (∀ tag outcome, ∀ s ∈ [demo, full demo, offeredOn 4, offeredOn 3],
      (got s 40 3 (.seizeDone tag 1 outcome)).takes 40 3 (.seizeDone tag 1 outcome) behind ∧
      (got s 40 3 (.seizeDone tag 1 outcome)).TablesSound) ∧
    demo.recordOfKey 40 2 = some (2, recordOf 2 100 (.offered (grantOf 5 5 7) 70001)) ∧ 100 / 16 ≠ demo.address ∧
    demo.tx.length < Config.txCapacity ∧ Config.txCapacity ≤ (full demo).tx.length ∧
    (recordOf 2 100 (.offered (grantOf 5 5 7) 70001)).base.attempts = 1 ∧
    (offeredOn 4).recordOfKey 40 1 = some (1, recordOf 1 52 (.offered (grantOf 0 6 4) 70000)) ∧
    ((offeredOn 4).takeHold 3 0 6 52 4).2 = true ∧ ((offeredOn 3).takeHold 3 0 6 52 3).2 = false ∧
    demo.recordOfKey 40 3 = some (3, recordOf 3 100 (.ringing (grantOf 4 1 9))) ∧
    demo.recordOfKey 40 0 = some (0, recordOf 0 100 (.awaitHold 4711 70000)) ∧
    demo.recordOfKey 40 5 = some (5, recordOf 5 100 (.connected (grantOf 5 5 8) 60000)) := by
  refine ⟨?_, by decide +kernel⟩
  intro tag outcome s hs
  simp only [List.mem_cons, List.not_mem_nil, or_false] at hs
  rcases hs with rfl | rfl | rfl | rfl
  · exact ⟨got_takes _ _ _ _ rfl, demo_tables⟩
  · exact ⟨got_takes _ _ _ _ rfl, demo_tables⟩
  · exact ⟨got_takes _ _ _ _ rfl, offeredOn_tables 4⟩
  · exact ⟨got_takes _ _ _ _ rfl, offeredOn_tables 3⟩

theorem witness_AttemptEnds :
    (∀ source tag attempt outcome, (got demo source 3 (.seizeDone tag attempt outcome)).takes source 3
      (.seizeDone tag attempt outcome) behind) ∧
    demo.recordOfKey 41 2 = none ∧ (demo.recordOfKey 40 2).any (fun p => p.2.base.attempts ≠ 2) = true ∧
    demo.recordOfKey 40 2 = some (2, recordOf 2 100 (.offered (grantOf 5 5 7) 70001)) ∧ 100 / 16 ≠ demo.address ∧
    demo.recordOfKey 40 1 = some (1, recordOf 1 52 (.offered (grantOf 0 6 4) 70000)) ∧ 52 / 16 = demo.address ∧
    demo.recordOfKey 40 3 = some (3, recordOf 3 100 (.ringing (grantOf 4 1 9))) ∧
    demo.recordOfKey 40 0 = some (0, recordOf 0 100 (.awaitHold 4711 70000)) ∧
    demo.recordOfKey 40 4 = some (4, recordOf 4 52 (.connected (grantOf 0 5 2) 14999)) ∧
    (Tab.find demo.calls 1 = some (recordOf 1 52 (.offered (grantOf 0 6 4) 70000)) ∧ demo.running = true ∧
      reached demo.clock 70000 = true) ∧
    (Tab.find demo.calls 2 = some (recordOf 2 100 (.offered (grantOf 5 5 7) 70001)) ∧
      reached demo.clock 70001 = false) ∧ Tab.find demo.calls 511 = none :=
  ⟨fun _ _ _ _ => got_takes _ _ _ _ rfl, by decide +kernel⟩

/-- What HOLD-LOST looks for in a record that has a grant and is not OFFERED. -/
theorem lost_of {rec : CallRecord} (gr : Grant) (slot gen group circuit source : Nat) (h : rec.phase.grant = some gr)
    (hp : (match rec.phase with | .offered .. => false | _ => true) = true)
    (hr : rec.group = group ∧ gr.circuit = circuit ∧ gr.slot = slot ∧ gr.generation = gen ∧ group / 16 = source) :
    ∃ gr, rec.phase.grant = some gr ∧ (∀ deadline, rec.phase ≠ .offered gr deadline) ∧
      rec.group = group ∧ gr.circuit = circuit ∧ gr.slot = slot ∧ gr.generation = gen ∧ group / 16 = source :=
  ⟨gr, h, fun d hd => by rw [hd] at hp; exact absurd hp (by simp), hr⟩

theorem witness_DisputeMarks :
    (∀ source slot gen group circuit, (got demo source 3 (.holdLost slot gen group circuit)).takes source 3
      (.holdLost slot gen group circuit) behind) ∧ demo.TablesSound ∧
    (∀ p ∈ demo.calls, ∀ gr, p.2.phase.grant = some gr →
      ¬ (p.2.group = 101 ∧ gr.circuit = 0 ∧ gr.slot = 0 ∧ gr.generation = 0 ∧ 101 / 16 = 6)) ∧
    (∃ rec, Tab.find demo.calls 3 = some rec ∧ rec.disputed = false ∧ ∃ gr, rec.phase.grant = some gr ∧
      (∀ deadline, rec.phase ≠ .offered gr deadline) ∧
      rec.group = 100 ∧ gr.circuit = 9 ∧ gr.slot = 4 ∧ gr.generation = 1 ∧ 100 / 16 = 6) ∧
    (∀ p ∈ demo.calls, (∃ gr, p.2.phase.grant = some gr ∧ p.2.group = 100 ∧ gr.circuit = 9 ∧ gr.slot = 4 ∧
      gr.generation = 1) → p.1 = 3) ∧
    (∃ rec, Tab.find demo.calls 9 = some rec ∧ rec.disputed = true ∧ ∃ gr, rec.phase.grant = some gr ∧
      (∀ deadline, rec.phase ≠ .offered gr deadline) ∧
      rec.group = 100 ∧ gr.circuit = 5 ∧ gr.slot = 6 ∧ gr.generation = 6 ∧ 100 / 16 = 6) ∧
    (∃ p ∈ demo.calls, ∃ q ∈ demo.calls, p.1 ≠ q.1 ∧ ∀ x ∈ [p.2, q.2], ∃ gr, x.phase.grant = some gr ∧
      (∀ deadline, x.phase ≠ .offered gr deadline) ∧
      x.group = 100 ∧ gr.circuit = 8 ∧ gr.slot = 5 ∧ gr.generation = 5 ∧ 100 / 16 = 6) ∧
    Tab.wf demo.calls ∧ demo.counters.disputed ≤ Config.counterMax := by
  refine ⟨fun _ _ _ _ _ => got_takes _ _ _ _ rfl, demo_tables, ?_,
    ⟨_, rfl, rfl, lost_of (grantOf 4 1 9) 4 1 100 9 6 rfl rfl (by decide)⟩, ?_,
    ⟨_, rfl, rfl, lost_of { grantOf 6 6 5 with rating := none } 6 6 100 5 6 rfl rfl (by decide)⟩,
    ⟨(5, recordOf 5 100 (.connected (grantOf 5 5 8) 60000)), by decide +kernel,
      (6, recordOf 6 100 (.connected (grantOf 5 5 8) 60001)), by decide +kernel, by decide, ?_⟩, by decide +kernel,
    by decide +kernel⟩
  · have h : ∀ p ∈ demo.calls, p.2.group ≠ 101 := by decide +kernel
    exact fun p hp _ _ hc => h p hp hc.1
  · have h : ∀ p ∈ demo.calls, p.2.phase.grant.any (fun gr => decide (gr.slot = 4)) = true → p.1 = 3 := by decide +kernel
    rintro p hp ⟨gr, hg, -, -, hs, -⟩
    exact h p hp (by simp [hg, hs])
  · intro x hx
    simp only [List.mem_cons, List.not_mem_nil, or_false] at hx
    rcases hx with rfl | rfl
    exacts [lost_of (rec := recordOf 5 100 (.connected (grantOf 5 5 8) 60000)) (grantOf 5 5 8) 5 5 100 8 6 rfl rfl (by decide),
      lost_of (rec := recordOf 6 100 (.connected (grantOf 5 5 8) 60001)) (grantOf 5 5 8) 5 5 100 8 6 rfl rfl (by decide)]

theorem witness_ClearConnected :
    (got demo 40 3 (.callClear 4 511 0)).takes 40 3 (.callClear 4 511 0) behind ∧ 511 ≤ 511 ∧
    (got demo 40 3 (.callClear 4 511 0)).recordOfKey 40 4 =
      some (4, recordOf 4 52 (.connected (grantOf 0 5 2) 14999)) ∧
    (grantOf 0 5 2).rating = some { setup := 250, rate := 1920, mult := 5632, quote := 1011 } ∧
    ∃ s : State, (got s 40 3 (.callClear 4 0 0)).takes 40 3 (.callClear 4 0 0) behind ∧
      (got s 40 3 (.callClear 4 0 0)).recordOfKey 40 4 =
        some (4, recordOf 4 100 (.connected { grantOf 0 5 2 with rating := none } 70000)) :=
  ⟨got_takes _ _ _ _ rfl, by decide, by decide +kernel, rfl,
    { demo with calls := [(4, recordOf 4 100 (.connected { grantOf 0 5 2 with rating := none } 70000))] },
    got_takes _ _ _ _ rfl, by decide +kernel⟩

theorem witness_ClearOther :
    (∀ source tag group circuit, (got demo source 3 (.callClear tag group circuit)).takes source 3
      (.callClear tag group circuit) behind) ∧ 511 < 512 ∧
    (demo.recordOfKey 40 0 = some (0, recordOf 0 100 (.awaitHold 4711 70000))) ∧
    (demo.recordOfKey 40 1 = some (1, recordOf 1 52 (.offered (grantOf 0 6 4) 70000))) ∧
    demo.recordOfKey 41 0 = none ∧ 511 / 16 ≠ demo.address ∧ 52 / 16 = demo.address ∧
    demo.ownCircuit 52 4 = some (4, groupA, .held 4 demo.address 0 true true) ∧
    demo.ownCircuit 52 2 = some (4, groupA, .busy 2 demo.address false false) ∧
    (demo.ownCircuit 52 5 = some (4, groupA, .busy 5 6 true true) ∧
      (Circuit.busy 5 6 true true).user ≠ some demo.address) :=
  ⟨fun _ _ _ _ => got_takes _ _ _ _ rfl, by decide +kernel⟩

/-! ## Control, rates and tallies -/

theorem witness_ControlTargets :
    (∀ dest group action number, (got demo 50 dest (.circuitControl group action number)).takes 50 dest
      (.circuitControl group action number) behind) ∧
    68 / 16 ≠ demo.address ∧ ¬ (3 = Config.broadcast) ∧ 52 / 16 = demo.address ∧
    Tab.find demo.groups (63 % 16) = none ∧ 4 < 5 ∧
    (Tab.find demo.groups (52 % 16) = some groupA ∧ groupA.cfg.working ≤ 11 ∧
      groupA.cfg.working + groupA.cfg.spares ≤ 13) :=
  ⟨fun _ _ _ _ => got_takes _ _ _ _ rfl, by decide +kernel⟩

/-- Circuits with the flags that the demonstration has not. -/
def groupE : Group := groupOf 4 (cfgOf 21 4 1)
  [.held 0 6 9 true false, .busy 1 6 true false, .held 2 6 9 false true, .busy 3 6 false true]
  [.serving 0, .serving 1, .serving 2, .serving 3, .faulty]

theorem witness_BlockUnblock :
    (∀ action c, ∀ s ∈ [demo, { demo with groups := [(4, groupE)] }],
      (got s 50 3 (.circuitControl 52 action c)).takes 50 3 (.circuitControl 52 action c) behind) ∧
    52 / 16 = demo.address ∧ Tab.find demo.groups (52 % 16) = some groupA ∧ 10 < groupA.cfg.working ∧
    circuitAt groupA 10 = some (.idle 11) ∧ circuitAt groupA 3 = some (.blocked 3) ∧
    circuitAt groupE 0 = some (.held 0 6 9 true false) ∧ circuitAt groupE 1 = some (.busy 1 6 true false) ∧
    circuitAt groupE 2 = some (.held 2 6 9 false true) ∧ circuitAt groupE 3 = some (.busy 3 6 false true) ∧
    (Tab.find demo.groups (53 % 16) = some groupB ∧ circuitAt groupB 1 = some .faulty) := by
  refine ⟨?_, by decide +kernel⟩
  intro action c s hs
  simp only [List.mem_cons, List.not_mem_nil, or_false] at hs
  rcases hs with rfl | rfl <;> exact got_takes _ _ _ _ rfl

theorem witness_ForceRestore :
    (∀ group action n, (got demo 50 3 (.circuitControl group action n)).takes 50 3 (.circuitControl group action n) behind ∧
      (got demo 50 3 (.circuitControl group action n)).GroupsSound) ∧
    52 / 16 = demo.address ∧ Tab.find demo.groups (52 % 16) = some groupA ∧
    circuitAt groupA 1 = some (.held 1 6 9 false false) ∧ circuitAt groupA 4 = some (.held 4 3 0 true true) ∧
    circuitAt groupA 2 = some (.busy 2 3 false false) ∧ (Circuit.idle 0).inUse = false ∧
    (7 < groupA.cfg.working + groupA.cfg.spares ∧ roleAt groupA.terminals 7 = some .faulty ∧
      Circuit.faulty ∉ groupA.circuits) ∧
    roleAt groupA.terminals 12 ≠ some .faulty ∧
    (Tab.find demo.groups (53 % 16) = some groupB ∧ roleAt groupB.terminals 1 = some .faulty ∧
      circuitAt groupB 1 = some .faulty ∧ ∀ j < 1, circuitAt groupB j ≠ some .faulty) ∧
    demoted (groupB.terminals.set 1 (.serving 1)) ≠ demoted groupB.terminals ∧
    demoted (groupA.terminals.set 7 .spare) = demoted groupA.terminals :=
  ⟨fun _ _ _ => ⟨got_takes _ _ _ _ rfl, demo_groups⟩, by decide +kernel⟩

theorem witness_RateRequests :
    (∀ carrier m0 m1 m2 m3, (got demo 50 63 (.rateSet carrier 250 1920 m0 m1 m2 m3)).takes 50 63
      (.rateSet carrier 250 1920 m0 m1 m2 m3) behind) ∧ 63 ≤ 63 ∧ 4095 < 4096 ∧ 4096 ≤ 4096 ∧
    (∀ carrier, (got demo 50 3 (.rateClear carrier)).takes 50 3 (.rateClear carrier) behind) ∧ 63 < 64 ∧
    (Tab.find demo.rates 21).isSome = true ∧ Tab.find demo.rates 63 = none :=
  ⟨fun _ _ _ _ _ => got_takes _ _ _ _ rfl, by decide, by decide, by decide, fun _ => got_takes _ _ _ _ rfl, by decide,
    by decide +kernel, by decide +kernel⟩

theorem witness_RatingStages :
    ratedSeconds 0 65534000 = 65534 ∧ ratedSeconds 0 65534001 = 65535 ∧ ratedSeconds 70000 70000 = 0 ∧
    (65535 ≤ 65535 ∧ 4096 ≤ 4096 ∧ 4096 ≤ 65535) ∧
    (usage 65535 65535 ≤ 16776704 ∧ charge 65535 (usage 65535 65535) 65535 ≤ 269471712) ∧
    (charge 32768 0 4096 = 32768 ∧ charge 32769 0 4096 = 32769) := by decide +kernel

theorem witness_TallyRequests :
    (∀ s ∈ [demo, { demo with closedHeld := false }], ∀ m ∈ [Msg.periodClose, .tallyRead 0, .tallyRead 1, .tallyRead 254,
        .tallyRead 255, .tallyAck 7, .tallyAck 8],
      (got s 50 3 m).takes 50 3 m behind ∧ (got s 50 3 m).closedBank.entries.length ≤ Config.pairEntries) ∧
    demo.closedHeld = true ∧ demo.closedBank.entries[0]? = some { origin := 1, terminating := 2, sums := { calls := 4 } } ∧
    demo.closedBank.entries.length ≤ 1 ∧ demo.closedBank.period.toNat = 7 := by
  refine ⟨?_, by decide +kernel⟩
  intro s hs m _
  simp only [List.mem_cons, List.not_mem_nil, or_false] at hs
  have h : demo.closedBank.entries.length ≤ Config.pairEntries := by decide +kernel
  rcases hs with rfl | rfl <;> exact ⟨got_takes _ _ _ _ rfl, h⟩

/-- A bank whose 96 entries are for other pairs, but for one that counts no further. -/
def fullBank : Bank :=
  { Bank.empty 8 with entries := (List.range 96).map fun k =>
      { origin := k, terminating := 1, sums := { calls := if k = 95 then max32 else max32 - 1 } } }

theorem witness_PostingCounts :
    fullBank.Sound ∧ fullBank.overflow.calls < max48 ∧
    (fullBank.entries[94]? = some { origin := 94, terminating := 1, sums := { calls := max32 - 1 } } ∧
      max32 - 1 < max32) ∧
    (∃ e ∈ fullBank.entries, (e.origin = 95 ∧ e.terminating = 1) ∧ max32 ≤ e.sums.calls) ∧
    ((∀ e ∈ fullBank.entries, ¬ (e.origin = 0 ∧ e.terminating = 0)) ∧
      Config.pairEntries ≤ fullBank.entries.length) ∧
    ((∀ e ∈ demo.openBank.entries, ¬ (e.origin = 0 ∧ e.terminating = 0)) ∧
      demo.openBank.entries.length < Config.pairEntries) ∧ demo.openBank.Sound ∧
    ({ calls := max32, seconds := max48 } : Sums).InRange max32 :=
  ⟨by unfold Bank.Sound Sums.InRange; decide +kernel, by decide +kernel, by decide +kernel, by decide +kernel, by decide +kernel, by decide +kernel,
    demo_tally.1, by unfold Sums.InRange; decide +kernel⟩

/-! ## Invariants -/

/-- The demonstration with a frame received and a command waiting that ends a hold. -/
def running : State := { got demo 6 3 (.holdTake 9 3 52 1) with pending := [.holdExpiry 63, .holdTake] }

theorem running_steps : ∃ t, step running = .next t := ⟨_, rfl⟩

theorem witness_StepKeepsBounds :
    (∃ t, step running = .next t) ∧ running.LinesFollow ∧ running.CountersSound ∧ running.RoutesSound ∧
    running.RatesSound ∧ running.TallySound ∧ (running.RxSound ∧ running.RatesInRange) ∧
    (running.ConfigSound ∧ running.GroupsSound ∧ running.RoutesInRange) ∧
    running.CallsSound ∧ running.CarriersSound ∧ running.PairsInRange :=
  ⟨running_steps, demo_lines, demo_counters, demo_routes, demo_rates, demo_tally,
    ⟨by unfold State.RxSound; decide +kernel, demo_ratesInRange⟩, ⟨demo_config, demo_groups, demo_routesInRange⟩,
    demo_calls, demo_carriers, demo_pairsInRange⟩

theorem witness_StepKeepsQueues :
    running.KeptInState ∧ running.TxSound ∧ running.RxSound ∧ ∃ t, step running = .next t :=
  ⟨by unfold State.KeptInState; decide +kernel, demo_tx, by unfold State.RxSound; decide +kernel, running_steps⟩

theorem witness_StepKeepsCalls :
    running.TablesSound ∧ running.ConfigSound ∧ running.CallsSound ∧ running.CarriersSound ∧
    ∃ t, step running = .next t :=
  ⟨demo_tables, demo_config, demo_calls, demo_carriers, running_steps⟩

theorem witness_StepKeepsGroups :
    running.TablesSound ∧ running.ConfigSound ∧ running.GroupsSound ∧ running.LoadSound ∧ running.HoldsLinked ∧
    running.SuspectsSound ∧ ∃ t, step running = .next t :=
  ⟨demo_tables, demo_config, demo_groups, demo_load, demo_holds, demo_suspects, running_steps⟩

/-- The same, with every call of an own group on its circuit but for a disputed offer. -/
def backed : State :=
  { running with calls := Tab.put demo.calls 8 { recordOf 8 52 (.offered (grantOf 9 9 6) 69999) with disputed := true } }

theorem backed_calls : backed.CallsBacked := by
  have h : ∀ p ∈ backed.calls, p.2.phase.grant.all (fun gr => decide (p.2.group / 16 = backed.address →
      p.2.dropsAtEnd = true → p.2.group = 52 ∧ ((gr.circuit = 4 ∧ gr.slot = 0 ∧ gr.generation = 6 ∧
        p.2.phase.seized = false) ∨ (gr.circuit = 2 ∧ p.2.phase.seized = true)))) = true := by decide +kernel
  have h' : ∀ p ∈ backed.calls, ∀ q ∈ backed.calls, p.2.phase.grant.all (fun gr => q.2.phase.grant.all fun gr' =>
      decide (p.2.group / 16 = backed.address → p.2.group = q.2.group → gr.circuit = gr'.circuit →
        p.2.dropsAtEnd = true → q.2.dropsAtEnd = true → p.1 = q.1)) = true := by decide +kernel
  constructor
  · intro p hp gr hg ho hd
    have hx := h p hp
    simp only [hg, Option.all_some, decide_eq_true_eq] at hx
    obtain ⟨hgr, ⟨hc, hs, hn, hz⟩ | ⟨hc, hz⟩⟩ := hx ho hd
    · refine ⟨4, groupA, 4, true, true, ?_⟩
      rw [hz, hgr, hc, hs, hn, ← State.matchHold_iff]
      decide +kernel
    · refine ⟨4, groupA, 2, false, false, ?_⟩
      rw [hz, hgr, hc, if_pos rfl]
      decide +kernel
  · intro p hp q hq gr gr' hg hg' h1 h2 h3 h4 h5
    have hx := h' p hp q hq
    simp only [hg, hg', Option.all_some, decide_eq_true_eq] at hx
    exact hx h1 h2 h3 h4 h5

theorem witness_StepKeepsBacking :
    backed.KeptInState ∧ backed.TablesSound ∧ backed.GroupsSound ∧ backed.HoldsLinked ∧ backed.CallsBacked ∧
    (∀ f ∈ backed.rx, f.source ≠ backed.address) ∧
    (∃ rest, backed.pending = .holdExpiry 63 :: rest) ∧
    (∀ p ∈ backed.calls, ∀ gr deadline, p.2.phase = .offered gr deadline → p.2.group / 16 = backed.address →
      gr.slot ≠ 63) ∧
    (∀ p ∈ backed.calls, ∀ gr deadline, p.2.phase = .offered gr deadline → p.2.group / 16 = backed.address →
      p.2.dropsAtEnd = false → ¬ backed.HoldMatches backed.address gr.slot gr.generation p.2.group gr.circuit) ∧
    (∃ p ∈ backed.calls, p.2.phase = .offered (grantOf 9 9 6) 69999 ∧ p.2.group / 16 = backed.address ∧
      p.2.dropsAtEnd = false) ∧ ∃ t, step backed = .next t := by
  have h : ∀ p ∈ backed.calls, p.2.phase.grant.all (fun gr => decide (gr.slot ≠ 63)) = true := by decide +kernel
  have h' : ∀ p ∈ backed.calls, p.2.phase.grant.all (fun gr => decide (p.2.group / 16 = backed.address →
      p.2.dropsAtEnd = false → backed.matchHold backed.address gr.slot gr.generation p.2.group gr.circuit = false)) =
      true := by decide +kernel
  refine ⟨by unfold State.KeptInState; decide +kernel, by unfold State.TablesSound; decide +kernel, demo_groups,
    demo_holds, backed_calls, by decide +kernel, ⟨_, rfl⟩, fun p hp gr d hg _ => ?_, fun p hp gr d hg ho hd => ?_, ?_,
    ⟨_, rfl⟩⟩
  · simpa [hg, Phase.grant] using h p hp
  · have hx := h' p hp
    simp only [hg, Phase.grant, Option.all_some, decide_eq_true_eq] at hx
    rw [← State.matchHold_iff, hx ho hd]
    simp
  · exact ⟨(8, { recordOf 8 52 (.offered (grantOf 9 9 6) 69999) with disputed := true }), by decide +kernel⟩

/-! ## Worked figures of the spec, and words written out by hand -/

/-- The state an outcome carries. -/
def stateOf : Host.Outcome State Fault Refusal → State
  | .next s => s
  | _ => State.reset

/-- R172: a frame that a reset overtook is not counted, whatever its CRC; one whose end is missing is (R165). -/
theorem test_overtaken_frame_not_counted :
    stateOf (exec (.frameReceived { sealed 6 3 35 [0, 52] with crc := 0 } .overtaken) demo) = demo ∧
    (stateOf (exec (.frameReceived (sealed 6 3 35 [0, 52]) .noEnd) demo)).counters.badCrc = 1 := by decide +kernel

/-- A record of an own group whose local take made its circuit BUSY again. -/
def retaken : State :=
  { demo with calls := [(4, { recordOf 4 52 (.connected (grantOf 0 5 2) 14999) with disputed := true, retaken := true })] }

/-- R20, R121: a forced release of its circuit ends that use, and the record, already disputed, is not counted again. -/
theorem test_forced_release_ends_retaken :
    let t := stateOf (exec .forceRelease (got retaken 50 3 (.circuitControl 52 3 2)))
    t.calls.map (fun p => (p.2.disputed, p.2.retaken)) = [(true, false)] ∧ t.counters.disputed = 0 := by decide +kernel

/-- What waits at the end of the transmit queue. -/
def newest (o : Host.Outcome State Fault Refusal) : Option (Nat × TxBody) :=
  (stateOf o).tx.getLast?.map fun e => (e.dest, e.body)

/-- Section 7.6: 187 s of carrier 21 in AMBER, RED and GRACE, and the AMBER quote. -/
theorem test_worked_prices :
    ratedSeconds 480000 666700 = 187 ∧ usage 187 1920 = 1403 ∧ charge 250 1403 5632 = 2273 ∧ transit 2273 3277 = 114 ∧
    charge 250 1403 7168 = 2893 ∧ transit 2893 3277 = 145 ∧ charge 250 1403 9216 = 3719 ∧ transit 3719 3277 = 186 ∧
    quoteOf 250 1920 5632 3277 = 1011 ∧ quoteOf 250 1920 9216 3277 = 1654 := by decide

/-- Section 3.5: the smoothed interval over the events 1, 2, 4 and 5. -/
theorem test_worked_surge :
    smooth 400 120 = 365 ∧ smooth 365 80 = 329 ∧ smooth 329 700 = 375 ∧ smooth 375 1100 = 465 := by decide

/-- Section 3.5: the base bands of 60 circuits at the ends of their occupancies. -/
theorem test_worked_bands :
    [0, 44, 45, 53, 54, 57, 58, 59, 60].map (fun o => baseBand 60 (60 - o) 2 (loadFigure 60 o) 192 230) =
      [.green, .green, .amber, .amber, .red, .red, .grace, .grace, .full] := by decide

/-- Section 9.1.1: the arbitration values 9 and 134. -/
theorem test_arbitration_values :
    (wireFrame 9 6 (.holdGive 1 2 3 4 5 6 7 8 0)).arb = 9 ∧ (wireFrame 6 63 (.load 100 0 0 0 20)).arb = 134 := by decide +kernel

/-- The published check value of this polynomial and start value, over the bytes 31H to 39H (not from the spec). -/
theorem test_crc_check_value : crcBytes [0x31, 0x32, 0x33, 0x34, 0x35, 0x36, 0x37, 0x38, 0x39] 0xFFFF = 0x29B1 := by
  decide +kernel

/-- Section 9.5, HOLD-ASK: serial 4712, reference 17, group 100, precedence 3, most significant byte first. -/
theorem test_hold_ask_bytes :
    parseMsg 1 [0x12, 0x68, 0x00, 0x11, 0x00, 0x64, 0x03] = some (.holdAsk 4712 17 100 3) := by decide +kernel

/-- Section 9.5, RATE-SET: carrier 21, 250, 1920, 4096, 5632, 7168, 9216. -/
theorem test_rate_set_bytes :
    parseMsg 48 [0x15, 0x00, 0xFA, 0x07, 0x80, 0x10, 0x00, 0x16, 0x00, 0x1C, 0x00, 0x24, 0x00] =
      some (.rateSet 21 250 1920 4096 5632 7168 9216) := by decide +kernel

/-- Section 1.8: the group of station 2, before the events. -/
def group37 : Group :=
  let cfg := { cfgOf 12 6 2 with preference := 6 }
  { builtGroup 2 5 cfg 0 with
    huntPtr := 1
    circuits := [.busy 0 2 false false, .idle 1, .held 2 7 4 false false, .idle 3, .blocked 4, .idle 5] }

/-- Section 1.8, events 1 to 3: what each hunt takes. -/
theorem test_worked_hunts :
    group37.hunt [(5, 1)] 5 = some (3, 3) ∧
    ({ group37 with huntPtr := 4, circuits := group37.circuits.set 3 (.held 3 9 0 false false) } : Group).hunt [(5, 1)] 5 =
      some (5, 5) ∧
    ({ group37 with
        huntPtr := 0
        circuits := [.busy 0 2 false false, .idle 1, .held 2 7 4 false false, .held 3 9 0 false false, .blocked 4,
          .held 5 2 1 false false] } : Group).hunt [(5, 1)] 5 = some (1, 1) := by decide +kernel

/-- Section 4.9: station 5 with group 83, before the events. -/
def station5 : State :=
  { State.reset with
    station := .active, ready := true, bprstLow := false, clock := 50000
    config := { EngineConfig.initial with address := 5 }
    groups := [(3, (builtGroup 5 3 { cfgOf 12 8 0 with redFloor := 3 } 50000).restarted 50000)]
    slots := (emptySlots.set 0 { generation := 5, hold := none }).set 1 { generation := 2, hold := none } }

/-- Section 4.9, event 1: the HOLD-GIVE for serial 301. -/
theorem test_worked_hold_ask :
    newest (exec .holdAsk (got station5 9 5 (.holdAsk 301 0 83 2))) =
      some (9, .msg (.holdGive 301 0 83 0 6 0 0 12 0)) := by decide +kernel

/-- Section 4.9, event 1: the hold and its expiry. -/
theorem test_worked_hold :
    (stateOf (exec .holdAsk (got station5 9 5 (.holdAsk 301 0 83 2)))).holdAt 0 = some
      { requester := 9, serial := 301, group := 83, circuit := 0, band := .green, expiry := 58000 } := by decide +kernel

/-- Section 5.1.1: station 3's list of destination 200. -/
def listed : State := { demo with routes := [(200, [⟨17, 1⟩, ⟨52, 2⟩, ⟨100, 3⟩, ⟨131, 3⟩, ⟨200, 5⟩])] }

/-- Section 5.1.1, event 1. -/
theorem test_worked_reach :
    ((stateOf (exec .reach (got listed 9 63 (.reach 150 0 4 190 20)))).routeList 200).map (·.group) =
      [17, 52, 100, 131, 150, 200] := by decide +kernel

/-- Section 5.1.1, event 2, on a list of six: not stored, and counted. -/
theorem test_worked_reach_overflow :
    let s := stateOf (exec .reach (got { listed with routes := [(200,
      [⟨17, 1⟩, ⟨52, 2⟩, ⟨100, 3⟩, ⟨131, 3⟩, ⟨150, 4⟩, ⟨200, 5⟩])] } 12 63 (.reach 201 0 6 200 1)))
    (s.routeList 200).map (·.group) = [17, 52, 100, 131, 150, 200] ∧ s.counters.reachOverflow = 1 := by decide +kernel

/-- R51's example: period 500, deadline 20,000, taken at 21,230. -/
theorem test_announce_deadline_keeps_phase :
    (stateOf (exec .announceDeadline { demo with clock := 21230, announceDeadline := some 20000 })).announceDeadline =
      some 21500 := by decide +kernel

/-- Section 6.12, event 12, priced RED as section 7.6 note 2 gives: CLEAR-DONE for 187 s. -/
def redCall : State :=
  { demo with
    clock := 262000
    calls := [(17, { recordOf 1207 101 (.connected { grantOf 4 2 7 with
      band := .red, rating := some { setup := 250, rate := 1920, mult := 7168, quote := 1286 } } 75000) with
      base := { (recordOf 1207 101 (.ringing (grantOf 4 2 7))).base with attempts := 2, tried := [100, 101] } })] }

theorem test_worked_clear :
    newest (exec .callClear (got redCall 40 3 (.callClear 1207 101 7))) =
      some (40, .msg (.clearDone 1207 2893 145 187 0)) := by decide +kernel

/-- Section 8.7: the first entry of period 41. -/
def bank41 : Bank :=
  { Bank.empty 41 with entries :=
      [PairEntry.mk 5 21 { calls := 12, seconds := 2140, settled := 24610, transit := 1231 }] }

/-- Section 8.7, event 1: the entry of the pair (5, 21). -/
theorem test_worked_posting :
    (stateOf (exec .callClear (got { redCall with openBank := bank41 } 40 3 (.callClear 1207 101 7)))).openBank.entries =
      [{ origin := 5, terminating := 21, sums := { calls := 13, seconds := 2327, settled := 27503, transit := 1376 } }] := by
  decide +kernel

/-- Section 8.7, events 6 and 10: the bank that is held for read. -/
theorem test_worked_bank_busy :
    newest (exec .periodClose (got demo 50 3 .periodClose)) = some (50, .msg (.mgmtDone 50 .bankBusy (.busy 7))) ∧
    newest (exec .tallyAck (got demo 50 3 (.tallyAck 6))) =
      some (50, .msg (.mgmtDone 52 .periodMismatch (.acked (some 7)))) := by decide +kernel

/-- Section 10.8, event 3: the read completes at clock 40. -/
theorem test_worked_read :
    (stateOf (exec (.configReadComplete (imageOf 4 [slotOf 21 4 0]))
      { State.reset with bprstLow := false, reading := true, clock := 40 })).listenDeadline = some 1040 := by decide +kernel

/-- Section 10.8, events 1 and 2: BPRST holds the clock at 0, and the queue is worked before a millisecond passes. -/
theorem test_clock_held_at_zero :
    (stateOf (step State.reset)).clock = 0 ∧
    (stateOf (step (stateOf (step { State.reset with pending := [.bprstReleased] })))).clock = 1 := by decide +kernel

end Sys2Proof.Tests
end

section
/-! Settles O29. A hunt is two scans of one kind: each takes the first IDLE circuit whose terminal is not barred. The
first scan bars the terminals on the suspect list (R9), the second bars none (R10). -/

namespace Sys2Proof.Machine

/-- What a scan takes at circuit `c`: the circuit and its terminal, where it is IDLE and the terminal not barred. -/
def Group.takenAt (g : Group) (barred : Nat → Bool) (c : Nat) : Option (Nat × Nat) :=
  match g.idleTerminal c with
  | some t => if barred t then none else some (c, t)
  | none => none

/-- One scan of a hunt: the first circuit that it can take. -/
def Group.scan (g : Group) (barred : Nat → Bool) : Option (Nat × Nat) :=
  g.scanOrder.findSome? (g.takenAt barred)

/-- The circuit `i` places after the hunt pointer is IDLE with serving terminal `t`. -/
def Group.IdleAt (g : Group) (i t : Nat) : Prop :=
  g.circuits[(g.huntPtr + i) % g.cfg.working]? = some (.idle t)

theorem Group.idleTerminal_eq_some_iff {g : Group} {c t : Nat} :
    g.idleTerminal c = some t ↔ g.circuits[c]? = some (.idle t) := by
  unfold Group.idleTerminal
  split
  · next u hu => simp [hu]
  · next hne => simpa using hne t

theorem Group.takenAt_eq_some_iff {g : Group} {barred : Nat → Bool} {c c' t : Nat} :
    g.takenAt barred c = some (c', t) ↔ c' = c ∧ g.circuits[c]? = some (.idle t) ∧ barred t = false := by
  rw [← Group.idleTerminal_eq_some_iff, Group.takenAt]
  cases g.idleTerminal c with
  | none => simp
  | some u => grind

theorem Group.takenAt_eq_none_iff {g : Group} {barred : Nat → Bool} {c : Nat} :
    g.takenAt barred c = none ↔ ∀ t, g.circuits[c]? = some (.idle t) → barred t = true := by
  simp only [← Group.idleTerminal_eq_some_iff, Group.takenAt]
  cases g.idleTerminal c <;> simp

/-- The two scans of a hunt (R9, R10). -/
theorem Group.hunt_eq_scan_or_scan (g : Group) (suspects : List (Nat × Nat)) (li : Nat) :
    g.hunt suspects li = (g.scan fun t => suspects.contains (li, t)).or (g.scan fun _ => false) := by
  have second : (fun c => (g.idleTerminal c).map fun t => (c, t)) = g.takenAt fun _ => false := by
    funext c
    unfold Group.takenAt
    cases g.idleTerminal c <;> rfl
  unfold Group.hunt
  rw [second]
  change (match g.scan fun t => suspects.contains (li, t) with | some r => some r | none => _) = _
  cases g.scan fun t => suspects.contains (li, t) <;> rfl

/-- A search upward answers at the first place that has an answer. -/
theorem exists_first_of_findSome?_range_eq_some {α : Type} {f : Nat → Option α} {n : Nat} {r : α}
    (h : (List.range n).findSome? f = some r) : ∃ i < n, f i = some r ∧ ∀ j < i, f j = none := by
  induction n with
  | zero => simp at h
  | succ n ih =>
    rw [List.range_succ, List.findSome?_append, Option.or_eq_some_iff] at h
    obtain hearlier | ⟨hnone, hlast⟩ := h
    · obtain ⟨i, hi, hfirst⟩ := ih hearlier
      exact ⟨i, by omega, hfirst⟩
    · exact ⟨n, by omega, by simpa using hlast, by simpa using hnone⟩

/-- A scan takes none only where the terminal of every IDLE circuit is barred. -/
theorem Group.scan_eq_none_iff {g : Group} {barred : Nat → Bool} :
    g.scan barred = none ↔ ∀ j < g.cfg.working, ∀ t, g.IdleAt j t → barred t = true := by
  simp [Group.scan, Group.scanOrder, Group.takenAt_eq_none_iff, Group.IdleAt]

/-- A scan takes an IDLE circuit whose terminal is not barred, and the terminal of every IDLE circuit before it is. -/
theorem Group.first_of_scan_eq_some {g : Group} {barred : Nat → Bool} {c t : Nat} (h : g.scan barred = some (c, t)) :
    ∃ i < g.cfg.working, c = (g.huntPtr + i) % g.cfg.working ∧ g.IdleAt i t ∧ barred t = false ∧
      ∀ j < i, ∀ t', g.IdleAt j t' → barred t' = true := by
  rw [Group.scan, Group.scanOrder, List.findSome?_map] at h
  obtain ⟨i, hi, htaken, hbefore⟩ := exists_first_of_findSome?_range_eq_some h
  obtain ⟨hc, hidle, hfree⟩ := Group.takenAt_eq_some_iff.1 htaken
  exact ⟨i, hi, hc, hidle, hfree, fun j hj => Group.takenAt_eq_none_iff.1 (hbefore j hj)⟩

/-- Settles O29: the first scan takes a circuit, or it takes none and the second scan answers. -/
theorem huntOrder : Obligations.HuntOrder := by
  intro g suspects li
  constructor
  · intro c t h
    rw [Group.hunt_eq_scan_or_scan, Option.or_eq_some_iff] at h
    obtain hfirst | ⟨hnone, hsecond⟩ := h
    · obtain ⟨i, hi, hc, hidle, hfree, hbefore⟩ := Group.first_of_scan_eq_some hfirst
      exact ⟨i, hi, hc, hidle, .inl ⟨by simpa using hfree, by simpa [Group.IdleAt] using hbefore⟩⟩
    · obtain ⟨i, hi, hc, hidle, -, hbefore⟩ := Group.first_of_scan_eq_some hsecond
      have hsuspect := Group.scan_eq_none_iff.1 hnone
      exact ⟨i, hi, hc, hidle, .inr ⟨by simpa [Group.IdleAt] using hsuspect, by simpa [Group.IdleAt] using hbefore⟩⟩
  · rw [Group.hunt_eq_scan_or_scan, Option.or_eq_none_iff, Group.scan_eq_none_iff, Group.scan_eq_none_iff]
    constructor
    · exact fun ⟨_, hnone⟩ j hj t hidle => Bool.false_ne_true (hnone j hj t hidle)
    · exact fun hnone => ⟨fun j hj t hidle => absurd hidle (hnone j hj t),
        fun j hj t hidle => absurd hidle (hnone j hj t)⟩

end Sys2Proof.Machine
end

section
/-! Settles O26 and O27. A recomputed band is the base band of R40, raised by the surge flag (R41); every other figure
of the record is read off the counts alone, so the surge flag does not reach it. -/

namespace Sys2Proof.Machine

/-! ## The load figure, the effective grace, the base band and the raised band -/

@[simp] theorem loadFigure_zero (o : Nat) : loadFigure 0 o = 256 := rfl

/-- The load figure is the whole part of 256 o / n (R39). -/
theorem loadFigure_bounds {n : Nat} (hn : 1 ≤ n) (o : Nat) :
    loadFigure n o * n ≤ 256 * o ∧ 256 * o < (loadFigure n o + 1) * n := by
  rw [loadFigure, if_neg (by omega)]
  exact ⟨Nat.div_mul_le_self _ _, (Nat.div_lt_iff_lt_mul hn).1 (Nat.lt_succ_self _)⟩

@[simp] theorem graceEffective_zero (reserve : Nat) : graceEffective reserve 0 = 0 := rfl

theorem graceEffective_of_pos {n : Nat} (hn : 1 ≤ n) (reserve : Nat) :
    graceEffective reserve n = min reserve (n - 1) := if_neg (by omega)

section
variable {n f geff figure yellow red : Nat}

@[simp] theorem baseBand_zero : baseBand 0 f geff figure yellow red = .closed := rfl

theorem baseBand_eq_full (hn : 1 ≤ n) (hf : f = 0) : baseBand n f geff figure yellow red = .full := by
  rw [baseBand, if_neg (by omega), if_pos hf]

theorem baseBand_eq_grace (hn : 1 ≤ n) (hf : f ≠ 0) (hg : f ≤ geff) :
    baseBand n f geff figure yellow red = .grace := by
  rw [baseBand, if_neg (by omega), if_neg hf, if_pos hg]

/-- With more circuits free than the effective grace, the load figure decides (R40). -/
theorem baseBand_of_grace_lt (hn : 1 ≤ n) (hg : geff < f) : baseBand n f geff figure yellow red =
    if red ≤ figure then .red else if yellow ≤ figure then .amber else .green := by
  rw [baseBand, if_neg (by omega), if_neg (by omega), if_neg (by omega)]

end

@[simp] theorem raiseBand_false (b : Band) : raiseBand false b = b := rfl
@[simp] theorem raiseBand_true_green : raiseBand true .green = .amber := rfl
@[simp] theorem raiseBand_true_amber : raiseBand true .amber = .red := rfl

/-- The surge flag raises no band but GREEN and AMBER (R41). -/
theorem raiseBand_of_ne {b : Band} (hgreen : b ≠ .green) (hamber : b ≠ .amber) (surge : Bool) :
    raiseBand surge b = b := by
  cases surge with
  | false => rfl
  | true =>
    cases b with
    | green => exact absurd rfl hgreen
    | amber => exact absurd rfl hamber
    | red | grace | full | closed => rfl

/-- A band above RED is what it was before the surge flag was looked at (R41). -/
theorem raiseBand_true_eq_self {b : Band}
    (h : raiseBand true b = .full ∨ raiseBand true b = .closed ∨ raiseBand true b = .grace) :
    raiseBand true b = b := by
  cases b with
  | green | amber => simp at h
  | red | grace | full | closed => rfl

/-! ## The record of a group -/

/-- The base band of a group's counts, before the surge flag is looked at (R40). -/
def Group.calmBand (g : Group) : Band :=
  baseBand g.inService (g.inService - g.occupied) (graceEffective g.cfg.grace g.inService)
    (loadFigure g.inService g.occupied) g.cfg.yellow g.cfg.red

@[simp] theorem Group.recomputed_load_inService (g : Group) : g.recomputed.load.inService = g.inService := rfl
@[simp] theorem Group.recomputed_load_occupied (g : Group) : g.recomputed.load.occupied = g.occupied := rfl
@[simp] theorem Group.recomputed_free (g : Group) : g.recomputed.load.free = g.inService - g.occupied := rfl
@[simp] theorem Group.recomputed_figure (g : Group) :
    g.recomputed.load.figure = loadFigure g.inService g.occupied := rfl
@[simp] theorem Group.recomputed_graceEff (g : Group) :
    g.recomputed.load.graceEff = graceEffective g.cfg.grace g.inService := rfl
@[simp] theorem Group.recomputed_band (g : Group) :
    g.recomputed.load.band = raiseBand g.load.surge g.calmBand := rfl
@[simp] theorem Group.recomputed_floor (g : Group) :
    g.recomputed.load.floor = floorOf g.cfg g.recomputed.load.band := rfl

/-- A base band that the surge flag does not raise is the band of the record. -/
theorem Group.recomputed_band_of_calmBand {g : Group} {b : Band} (h : g.calmBand = b) (hgreen : b ≠ .green)
    (hamber : b ≠ .amber) : g.recomputed.load.band = b := by
  rw [Group.recomputed_band, h, raiseBand_of_ne hgreen hamber]

/-- Out of surge, with more circuits free than the effective grace, the load figure gives the band (R40). -/
theorem Group.recomputed_band_of_figure {g : Group} (hn : 1 ≤ g.inService)
    (hgrace : g.recomputed.load.graceEff < g.recomputed.load.free) (hcalm : g.load.surge = false) :
    g.recomputed.load.band = if g.cfg.red ≤ g.recomputed.load.figure then .red
      else if g.cfg.yellow ≤ g.recomputed.load.figure then .amber else .green := by
  rw [Group.recomputed_band, hcalm, raiseBand_false]
  exact baseBand_of_grace_lt hn hgrace

/-- Every circuit is in just one state, so the five counts sum to the number of circuits (R5). -/
theorem sum_countP_states_eq_length (l : List Circuit) :
    l.countP (·.isIdle) + (l.countP (·.isHeld) + l.countP (·.isBusy)) +
      (l.countP (·.isFaulty) + l.countP (·.isBlocked)) = l.length := by
  induction l with
  | nil => rfl
  | cons c l ih =>
    rw [List.length_cons, ← ih]
    cases c <;> simp [Circuit.isIdle, Circuit.isHeld, Circuit.isBusy, Circuit.isFaulty, Circuit.isBlocked] <;> omega

/-- The free count is the IDLE count where every working circuit has an entry (R5). -/
theorem Group.free_eq_countP_isIdle {g : Group} (h : g.circuits.length = g.cfg.working) :
    g.inService - g.occupied = g.circuits.countP (·.isIdle) ∧ g.occupied ≤ g.inService := by
  have hsum := sum_countP_states_eq_length g.circuits
  unfold Group.inService Group.occupied
  omega

/-- Settles O26: each clause is one of the figures above, at the counts of the group. -/
theorem bandFromCounts : Obligations.BandFromCounts := by
  intro g
  refine ⟨rfl, rfl, rfl, fun hn => ?closed, fun hn => ?figures, fun hn hfull => ?full,
    fun hn hfree hgrace => ?grace, fun hn _ hgrace hcalm => ?byFigure, ?floor, Group.free_eq_countP_isIdle⟩
  case closed =>
    have hn : g.inService = 0 := hn
    refine ⟨by simp [hn], by simp [hn], Group.recomputed_band_of_calmBand ?_ (by decide) (by decide)⟩
    simp [Group.calmBand, hn]
  case figures =>
    obtain ⟨hle, hlt⟩ := loadFigure_bounds hn g.occupied
    exact ⟨hle, hlt, graceEffective_of_pos hn _⟩
  case full => exact Group.recomputed_band_of_calmBand (baseBand_eq_full hn hfull) (by decide) (by decide)
  case grace => exact Group.recomputed_band_of_calmBand (baseBand_eq_grace hn hfree hgrace) (by decide) (by decide)
  case byFigure =>
    rw [Group.recomputed_band_of_figure hn hgrace hcalm]
    refine ⟨fun hred => if_pos hred, fun hred hyellow => ?_, fun hred hyellow => ?_⟩
    · rw [if_neg (by omega), if_pos hyellow]
    · rw [if_neg (by omega), if_neg (by omega)]
  case floor =>
    rw [Group.recomputed_floor]
    cases g.recomputed.load.band <;> rfl

/-- Settles O27: the two records share every count, and the band of the one in surge is that of the calm one, raised. -/
theorem surgeRaisesBand : Obligations.SurgeRaisesBand := by
  intro g calm surging
  have hsurging : surging.band = raiseBand true calm.band := rfl
  refine ⟨fun h => by rw [hsurging, h, raiseBand_true_green], fun h => by rw [hsurging, h, raiseBand_true_amber],
    fun hgreen hamber => hsurging.trans (raiseBand_of_ne hgreen hamber true), rfl, rfl, rfl,
    fun h => ?_, fun h => ?_, fun h => ?_⟩
  · simp only [surging, ← h]
  · simp only [calm, ← h]
  · rw [hsurging] at h ⊢
    exact raiseBand_true_eq_self h

end Sys2Proof.Machine
end

section
/-! Settles O25. A reach enters its candidate in the destinations of its range one after another, then prunes the group
from every other list. The destinations are distinct, so each list of the range is entered once, as it stood before. -/

namespace Sys2Proof.Machine

/-! ## One list: the three ways a candidate is entered (R81, R82) -/

/-- A list holds the candidate's group, at whatever preference. -/
abbrev Candidate.heldBy (c : Candidate) (l : List Candidate) : Bool := l.any fun d => decide (d.group = c.group)

/-- The insertion of a candidate meets 6 others: the list is full and does not hold the group. -/
def Candidate.meetsFull (c : Candidate) (l : List Candidate) : Bool :=
  !c.heldBy l && decide (Config.routeCandidates ≤ l.length)

section
variable {c : Candidate} {l : List Candidate}

theorem enterCandidate_of_holds (h : c.heldBy l = true) :
    enterCandidate c l = (insertCandidate c (l.filter fun d => decide (d.group ≠ c.group)), false) := if_pos h

theorem enterCandidate_of_room (h : c.heldBy l = false) (hroom : l.length < Config.routeCandidates) :
    enterCandidate c l = (insertCandidate c l, false) := by
  rw [enterCandidate, if_neg (by simp [h]), if_pos hroom]

/-- In a full list the order of the candidate and the last one decides which of the two stays out (R82). -/
theorem enterCandidate_of_full {z : Candidate} (h : c.heldBy l = false) (hfull : Config.routeCandidates ≤ l.length)
    (hz : l.getLast? = some z) :
    enterCandidate c l = if c.before z then (insertCandidate c l.dropLast, true) else (l, true) := by
  rw [enterCandidate, if_neg (by simp [h]), if_neg (by omega), hz]

theorem enterCandidate_snd (c : Candidate) (l : List Candidate) : (enterCandidate c l).2 = c.meetsFull l := by
  rw [Candidate.meetsFull]
  cases h : c.heldBy l with
  | true => rw [enterCandidate_of_holds h]; rfl
  | false =>
    obtain hroom | hfull := Nat.lt_or_ge l.length Config.routeCandidates
    · simp [enterCandidate_of_room h hroom, hroom]
    · cases hz : l.getLast? with
      | none => simp [List.getLast?_eq_none_iff.1 hz] at hfull
      | some z => rw [enterCandidate_of_full h hfull hz]; split <;> simp [hfull]

/-- A list that holds no candidate of a group is unchanged by the removal of that group. -/
theorem filter_ne_group_of_not_holds (h : c.heldBy l = false) :
    l.filter (fun d => decide (d.group ≠ c.group)) = l := by
  simpa using h

/-- A list that holds the group, or has room, takes the candidate and loses none of the others (R81, R82). -/
theorem enterCandidate_perm (h : c.heldBy l = true ∨ l.length < Config.routeCandidates) :
    (enterCandidate c l).1.Perm (c :: l.filter fun d => decide (d.group ≠ c.group)) := by
  cases hholds : c.heldBy l with
  | true => rw [enterCandidate_of_holds hholds]; exact insertCandidate_perm _ _
  | false =>
    have hroom : l.length < Config.routeCandidates := h.resolve_left (by simp [hholds])
    rw [enterCandidate_of_room hholds hroom, filter_ne_group_of_not_holds hholds]
    exact insertCandidate_perm _ _

end

/-! ## One destination -/

theorem State.enterReach_routes (s : State) (c : Candidate) (d : Nat) :
    (s.enterReach c d).routes = Tab.put s.routes d (enterCandidate c (s.routeList d)).1 := by
  unfold State.enterReach
  simp only
  split <;> rfl

theorem State.enterReach_routeList (s : State) (c : Candidate) (d e : Nat) :
    (s.enterReach c d).routeList e = if e = d then (enterCandidate c (s.routeList d)).1 else s.routeList e := by
  rw [State.routeList, State.enterReach_routes, Tab.find_put]
  split <;> rfl

theorem State.enterReach_counters (s : State) (c : Candidate) (d : Nat) :
    (s.enterReach c d).counters =
      if c.meetsFull (s.routeList d) then s.counters.bump .reachOverflow else s.counters := by
  rw [← enterCandidate_snd]
  unfold State.enterReach
  simp only
  split <;> rfl

theorem State.enterReach_sound {s : State} (h : s.RoutesSound) (c : Candidate) {d : Nat} (hd : d < 1024) :
    (s.enterReach c d).RoutesSound := by
  intro p hp
  rw [State.enterReach_routes] at hp
  obtain rfl | hp := Tab.mem_put hp
  · exact ⟨hd, enterCandidate_sound (routesSound_list h d)⟩
  · exact h p hp

/-! ## The destinations of a range, one after another -/

/-- A candidate is entered in several destinations (R81 step 1). -/
def State.enterReaches (s : State) (c : Candidate) (dests : List Nat) : State :=
  dests.foldl (fun s d => s.enterReach c d) s

@[simp] theorem State.enterReaches_nil (s : State) (c : Candidate) : s.enterReaches c [] = s := rfl

@[simp] theorem State.enterReaches_cons (s : State) (c : Candidate) (d : Nat) (dests : List Nat) :
    s.enterReaches c (d :: dests) = (s.enterReach c d).enterReaches c dests := rfl

theorem State.enterReaches_wf {s : State} (h : Tab.wf s.routes) (c : Candidate) (dests : List Nat) :
    Tab.wf (s.enterReaches c dests).routes := by
  induction dests generalizing s with
  | nil => exact h
  | cons d dests ih => exact ih (by rw [State.enterReach_routes]; exact Tab.wf_put h _ _)

theorem State.enterReaches_sound {s : State} (h : s.RoutesSound) (c : Candidate) {dests : List Nat}
    (hd : ∀ d ∈ dests, d < 1024) : (s.enterReaches c dests).RoutesSound := by
  induction dests generalizing s with
  | nil => exact h
  | cons d dests ih =>
    obtain ⟨hhead, htail⟩ := List.forall_mem_cons.1 hd
    exact ih (State.enterReach_sound h c hhead) htail

/-- Distinct destinations do not disturb each other: each is entered once, as its list stood at the start. -/
theorem State.enterReaches_routeList (s : State) (c : Candidate) {dests : List Nat} (hn : dests.Nodup) (e : Nat) :
    (s.enterReaches c dests).routeList e =
      if e ∈ dests then (enterCandidate c (s.routeList e)).1 else s.routeList e := by
  induction dests generalizing s with
  | nil => simp
  | cons d dests ih =>
    obtain ⟨hd, hn⟩ := List.nodup_cons.1 hn
    rw [State.enterReaches_cons, ih _ hn, State.enterReach_routeList]
    by_cases he : e = d
    · subst he; simp [hd]
    · simp [he]

/-- "reach overflow" rises once for each full list that is met, and no other counter changes (R82, R192). -/
theorem State.enterReaches_counters {s : State} (c : Candidate) {dests : List Nat} (hn : dests.Nodup)
    (hmax : s.counters.reachOverflow ≤ Config.counterMax) :
    (s.enterReaches c dests).counters = { s.counters with
      reachOverflow := min (s.counters.reachOverflow + dests.countP fun d => c.meetsFull (s.routeList d))
        Config.counterMax } := by
  induction dests generalizing s with
  | nil => simp [hmax]
  | cons d dests ih =>
    obtain ⟨hd, hn⟩ := List.nodup_cons.1 hn
    have htail : (dests.countP fun e => c.meetsFull ((s.enterReach c d).routeList e)) =
        dests.countP fun e => c.meetsFull (s.routeList e) := by
      refine List.countP_congr fun e he => ?_
      rw [State.enterReach_routeList, if_neg (ne_of_mem_of_not_mem he hd)]
    have hcounters := State.enterReach_counters s c d
    cases hfull : c.meetsFull (s.routeList d) with
    | true =>
      rw [hfull, if_pos rfl] at hcounters
      rw [State.enterReaches_cons, ih hn (by rw [hcounters]; exact Nat.min_le_right _ _), htail, hcounters,
        List.countP_cons, if_pos hfull]
      simp only [Counters.bump, satSucc, Counters.mk.injEq, true_and, and_true]
      omega
    | false =>
      rw [hfull, if_neg Bool.false_ne_true] at hcounters
      rw [State.enterReaches_cons, ih hn (by rw [hcounters]; exact hmax), htail, hcounters,
        List.countP_cons, hfull, if_neg Bool.false_ne_true, Nat.add_zero]

/-! ## The destinations of a reach -/

/-- A destination code lies in the range of a reach (R81). -/
abbrev inReach (first count d : Nat) : Bool := decide (first ≤ d ∧ d < first + count)

theorem mem_reachDests {first count d : Nat} : d ∈ reachDests first count ↔ d < 1024 ∧ inReach first count d = true := by
  simp only [reachDests, List.mem_filter, List.mem_map, List.mem_range, decide_eq_true_eq]
  constructor
  · rintro ⟨⟨i, hi, rfl⟩, hd⟩
    omega
  · rintro ⟨hd, hfirst, hlast⟩
    exact ⟨⟨d - first, by omega, by omega⟩, hd⟩

theorem reachDests_nodup (first count : Nat) : (reachDests first count).Nodup :=
  (List.nodup_range.map (add_right_injective first)).filter _

theorem reachDests_perm (first count : Nat) :
    (reachDests first count).Perm ((List.range 1024).filter (inReach first count)) := by
  refine (List.perm_ext_iff_of_nodup (reachDests_nodup _ _) (List.nodup_range.filter _)).2 fun d => ?_
  rw [mem_reachDests, List.mem_filter, List.mem_range]

/-! ## A reach applied -/

section
variable (s : State) (g pref first count : Nat)

theorem State.applyReach_routes : (s.applyReach g pref first count).routes =
    pruneRoutes (fun d c => decide (c.group = g) && !inReach first count d)
      (s.enterReaches { group := g, pref := pref } (reachDests first count)).routes := rfl

/-- Only the entering of the candidate counts; the pruning does not. -/
theorem State.applyReach_counters (hmax : s.counters.reachOverflow ≤ Config.counterMax) :
    (s.applyReach g pref first count).counters = { s.counters with
      reachOverflow := min (s.counters.reachOverflow + (List.range 1024).countP fun d =>
        inReach first count d && Candidate.meetsFull { group := g, pref := pref } (s.routeList d))
        Config.counterMax } := by
  change (s.enterReaches { group := g, pref := pref } (reachDests first count)).counters = _
  rw [State.enterReaches_counters _ (reachDests_nodup _ _) hmax, (reachDests_perm _ _).countP_eq, List.countP_filter]
  simp only [Bool.and_comm]

variable {s}

theorem State.applyReach_wf (h : Tab.wf s.routes) : Tab.wf (s.applyReach g pref first count).routes := by
  rw [State.applyReach_routes]
  exact wf_pruneRoutes (State.enterReaches_wf h _ _) _

theorem State.applyReach_sound (h : s.RoutesSound) : (s.applyReach g pref first count).RoutesSound := by
  rw [State.RoutesSound, State.applyReach_routes]
  exact pruneRoutes_sound (State.enterReaches_sound h _ fun _ hd => (mem_reachDests.1 hd).1) _

/-- The list of a destination: the candidate is entered in it or not, and then the pruning filters it. -/
theorem State.applyReach_routeList (hw : Tab.wf s.routes) (d : Nat) :
    (s.applyReach g pref first count).routeList d =
      (if d ∈ reachDests first count then (enterCandidate { group := g, pref := pref } (s.routeList d)).1
        else s.routeList d).filter fun c => !(decide (c.group = g) && !inReach first count d) := by
  rw [State.routeList, State.applyReach_routes, find_pruneRoutes _ _ (State.enterReaches_wf hw _ _),
    ← State.enterReaches_routeList s _ (reachDests_nodup _ _), State.routeList]

/-- Within its range a reach leaves each list as the candidate was entered in it. -/
theorem State.applyReach_routeList_of_inReach (hw : Tab.wf s.routes) {d : Nat} (hd : d < 1024)
    (hin : inReach first count d = true) :
    (s.applyReach g pref first count).routeList d =
      (enterCandidate { group := g, pref := pref } (s.routeList d)).1 := by
  rw [State.applyReach_routeList g pref first count hw, if_pos (mem_reachDests.2 ⟨hd, hin⟩), hin]
  simp

/-- Outside its range a reach takes the group out of each list (R83). -/
theorem State.applyReach_routeList_of_not_inReach (hw : Tab.wf s.routes) {d : Nat}
    (hout : inReach first count d = false) :
    (s.applyReach g pref first count).routeList d = (s.routeList d).filter fun c => decide (c.group ≠ g) := by
  have hnot : d ∉ reachDests first count := by rw [mem_reachDests, hout]; simp
  rw [State.applyReach_routeList g pref first count hw, if_neg hnot, hout]
  simp

end

/-- Settles O25: in the range each list is the one the candidate was entered in, and elsewhere the pruned one. -/
theorem reachApplied : Obligations.ReachApplied := by
  intro s g pref first count htables hroutes hmax t new inRange holds
  obtain ⟨-, -, hwf, -, -, -⟩ := htables
  have hcounters : t.counters = _ := State.applyReach_counters s g pref first count hmax
  have hframe : t = { s with routes := t.routes, counters := t.counters } := applyReach_frame ..
  have hinside : ∀ d < 1024, inRange d = true → t.routeList d = (enterCandidate new (s.routeList d)).1 :=
    fun d hd hin => State.applyReach_routeList_of_inReach g pref first count hwf hd hin
  refine ⟨?frame, State.applyReach_sound g pref first count hroutes, State.applyReach_wf g pref first count hwf,
    ?overflow, fun d hd => ⟨?outside, ?taken, ?full⟩⟩
  case frame =>
    refine hframe.trans ?_
    rw [hcounters]
  case overflow =>
    rw [hcounters]
    simp only [Candidate.meetsFull, inReach, inRange, holds, Bool.and_assoc]
  case outside => exact State.applyReach_routeList_of_not_inReach g pref first count hwf
  case taken =>
    intro hin htakes
    rw [hinside d hd hin]
    exact enterCandidate_perm htakes
  case full =>
    intro hin hnot z hlen hz
    rw [hinside d hd hin, enterCandidate_of_full hnot hlen.ge hz]
    constructor
    · intro hbefore
      rw [if_pos hbefore]
      exact insertCandidate_perm _ _
    · intro hafter
      rw [if_neg (by simp [hafter])]

end Sys2Proof.Machine
end

section
/-! Settles O41. A ROUTE-ASK that leaves the receive queue meets the checks of R101 one after another: one equation for
each check that can stop it. The last check, of the route list, shares its equation with the selection (R102). -/

namespace Sys2Proof.Machine

/-! ## What a block sends, and what the checks look up -/

/-- While the station is LISTEN or ACTIVE a block's send is one offer (R170). -/
theorem State.offered_send {s : State} (h : s.running = true) (dest : Nat) (m : Msg) :
    Offered s (s.send dest m) dest m := by
  unfold Offered OnlyQueue State.send State.offer
  rw [if_pos h]
  split <;> exact ⟨rfl, rfl, rfl⟩

/-- A key is that of a live record where one of the records has it (R99). -/
theorem State.recordOfKey_isSome_iff {s : State} {client tag : Nat} :
    (s.recordOfKey client tag).isSome = true ↔ ∃ p ∈ s.calls, p.2.base.client = client ∧ p.2.base.tag = tag := by
  simp only [State.recordOfKey, List.find?_isSome, decide_eq_true_eq]

theorem State.lowestFreeRecord_eq_none {s : State}
    (h : ∀ r < Config.callRecords, (Tab.find s.calls r).isSome = true) : s.lowestFreeRecord = none := by
  rw [State.lowestFreeRecord, List.find?_range_eq_none]
  intro r hr
  simp [h r hr]

/-- The lowest FREE record: every lower one is live. -/
theorem State.lowestFreeRecord_eq_some {s : State} {r : Nat} (hr : r < Config.callRecords)
    (hfree : (Tab.find s.calls r).isSome = false) (hlower : ∀ q < r, (Tab.find s.calls q).isSome = true) :
    s.lowestFreeRecord = some r := by
  rw [State.lowestFreeRecord, List.find?_range_eq_some]
  refine ⟨by simpa using hfree, List.mem_range.2 hr, fun q hq => ?_⟩
  simp [hlower q hq]

/-! ## ROUTE-ASK: what each check makes of it (R101, R102) -/

section
variable {s : State} {client tag dest prec origin : Nat}

theorem State.takeRouteAsk_of_badField (h : 7 < prec ∨ 63 < origin) :
    s.takeRouteAsk client tag dest prec origin = s.bump .badFrame := if_pos h

variable (hprec : prec ≤ 7) (horigin : origin ≤ 63)
include hprec horigin

theorem State.takeRouteAsk_of_notActive (h : s.station ≠ .active) :
    s.takeRouteAsk client tag dest prec origin = s.refuseRoute client tag .notReady := by
  rw [State.takeRouteAsk, if_neg (by omega), if_pos h]

variable (hactive : s.station = .active)
include hactive

theorem State.takeRouteAsk_of_badDest (h : 1023 < dest) :
    s.takeRouteAsk client tag dest prec origin = s.refuseRoute client tag .badDest := by
  rw [State.takeRouteAsk, if_neg (by omega), if_neg (not_not_intro hactive), if_pos h]

variable (hdest : dest ≤ 1023)
include hdest

theorem State.takeRouteAsk_of_liveKey (h : (s.recordOfKey client tag).isSome = true) :
    s.takeRouteAsk client tag dest prec origin = s.refuseRoute client tag .duplicate := by
  rw [State.takeRouteAsk, if_neg (by omega), if_neg (not_not_intro hactive), if_neg (by omega), if_pos h]

variable (hkey : ¬ (s.recordOfKey client tag).isSome = true)
include hkey

theorem State.takeRouteAsk_of_noFreeRecord (h : s.lowestFreeRecord = none) :
    s.takeRouteAsk client tag dest prec origin = s.refuseRoute client tag .noRecord := by
  rw [State.takeRouteAsk, if_neg (by omega), if_neg (not_not_intro hactive), if_neg (by omega), if_neg hkey, h]

variable {r : Nat} (hfree : s.lowestFreeRecord = some r)
include hfree

/-- With a record to give, the route list decides between the last refusal and selection (R101, R102). -/
theorem State.takeRouteAsk_of_freeRecord : s.takeRouteAsk client tag dest prec origin =
    if s.routeList dest = [] then s.refuseRoute client tag .noRoute
    else s.select r (freshCall client tag dest prec origin) Config.maxAttempts := by
  rw [State.takeRouteAsk, if_neg (by omega), if_neg (not_not_intro hactive), if_neg (by omega), if_neg hkey, hfree]
  simp only [List.isEmpty_iff]

end

/-- ROUTE_ASK hands the fields of the oldest frame to the call unit, once the frame has left the queue (R169). -/
theorem exec_routeAsk_of_takes {s : State} {source dest tag wanted prec origin : Nat} {rest : List RxFrame}
    (h : s.takes source dest (.routeAsk tag wanted prec origin) rest) :
    exec .routeAsk s = .next (({ s with rx := rest } : State).takeRouteAsk source tag wanted prec origin) :=
  congrArg Host.Outcome.next
    (State.takeFrame_of_takes (k := fun s => s.takeRouteAsk source tag wanted prec origin) h rfl)

/-- Settles O41: each clause is the equation of its check; the refusals are each one offer. -/
theorem routeAskTaken : Obligations.RouteAskTaken := by
  intro s source dest tag wanted prec origin rest htakes live fails
  have hexec := exec_routeAsk_of_takes htakes
  set u : State := { s with rx := rest }
  have hrunning : u.running = true := htakes.1
  have hfails : ∀ {why}, u.takeRouteAsk source tag wanted prec origin = u.refuseRoute source tag why → fails why :=
    fun h => ⟨_, hexec.trans (congrArg Host.Outcome.next h), State.offered_send hrunning _ _⟩
  refine ⟨fun hbad => ?badField, fun hprec horigin =>
    ⟨?notReady, ?badDest, fun (hactive : u.station = .active) hdest => ⟨?duplicate, ?newKey⟩⟩⟩
  case badField => exact hexec.trans (congrArg Host.Outcome.next (State.takeRouteAsk_of_badField hbad))
  case notReady => exact fun h => hfails (State.takeRouteAsk_of_notActive hprec horigin h)
  case badDest => exact fun hactive h => hfails (State.takeRouteAsk_of_badDest hprec horigin hactive h)
  case duplicate =>
    exact fun hlive =>
      hfails (State.takeRouteAsk_of_liveKey hprec horigin hactive hdest (State.recordOfKey_isSome_iff.2 hlive))
  case newKey =>
    intro hnew
    have hkey : ¬ (u.recordOfKey source tag).isSome = true := by
      rw [State.recordOfKey_isSome_iff]
      exact fun ⟨p, hp, hsame⟩ => hnew p hp hsame
    refine ⟨fun hfull => ?noRecord, fun r hr hfree hlower => ?freeRecord⟩
    case noRecord =>
      exact hfails (State.takeRouteAsk_of_noFreeRecord hprec horigin hactive hdest hkey
        (State.lowestFreeRecord_eq_none hfull))
    case freeRecord =>
      have hask := State.takeRouteAsk_of_freeRecord hprec horigin hactive hdest hkey
        (State.lowestFreeRecord_eq_some hr hfree hlower)
      exact ⟨fun hnone => hfails (hask.trans (if_pos hnone)),
        fun hroute => hexec.trans (congrArg Host.Outcome.next (hask.trans (if_neg hroute)))⟩

end Sys2Proof.Machine
end

section
/-! Settles O53. Each stage divides once and rounds half-up (R143), and its result does not fall when an operand rises:
the limits of a stage are its values at the ends of the operands' ranges. -/

namespace Sys2Proof.Machine

/-! ## Stage 1: the rated duration (R139) -/

theorem ratedSeconds_le_max (commit now : Clock) : ratedSeconds commit now ≤ 65535 := Nat.min_le_right _ _

/-- Below the clamp the duration is the least number of seconds that covers the elapsed time. -/
theorem ratedSeconds_begun {commit now : Clock} (h : ratedSeconds commit now < 65535) :
    (now - commit).toNat ≤ 1000 * ratedSeconds commit now ∧
      1000 * ratedSeconds commit now < (now - commit).toNat + 1000 := by
  unfold ratedSeconds at h ⊢
  omega

theorem ratedSeconds_eq_max_iff (commit now : Clock) :
    ratedSeconds commit now = 65535 ↔ 65534000 < (now - commit).toNat := by
  unfold ratedSeconds
  omega

/-! ## Stage 2: the usage (R140) -/

theorem usage_nearest (d r : Nat) : 256 * usage d r ≤ d * r + 128 ∧ d * r + 128 < 256 * usage d r + 256 := by
  unfold usage
  omega

theorem usage_mono {d d' r r' : Nat} (hd : d ≤ d') (hr : r ≤ r') : usage d r ≤ usage d' r' :=
  Nat.div_le_div_right (Nat.add_le_add_right (Nat.mul_le_mul hd hr) 128)

@[simp] theorem usage_zero_rate (d : Nat) : usage d 0 = 0 := by simp [usage]

@[simp] theorem usage_zero_duration (r : Nat) : usage 0 r = 0 := by simp [usage]

theorem usage_le_max {d r : Nat} (hd : d ≤ 65535) (hr : r ≤ 65535) : usage d r ≤ 16776704 := usage_mono hd hr

/-! ## Stages 3 and 4: the base and the charge (R141) -/

theorem charge_nearest (a u m : Nat) :
    4096 * charge a u m ≤ (a + u) * m + 2048 ∧ (a + u) * m + 2048 < 4096 * charge a u m + 4096 := by
  unfold charge
  omega

theorem charge_mono {a a' u u' m m' : Nat} (ha : a ≤ a') (hu : u ≤ u') (hm : m ≤ m') :
    charge a u m ≤ charge a' u' m' :=
  Nat.div_le_div_right (Nat.add_le_add_right (Nat.mul_le_mul (Nat.add_le_add ha hu) hm) 2048)

/-- The multiplier 4096 is 1.0. -/
@[simp] theorem charge_unit_mult (a u : Nat) : charge a u 4096 = a + u := by
  unfold charge
  omega

/-- The multiplier 65536, one above the largest, is 16.0. -/
theorem charge_sixteenfold_mult (a u : Nat) : charge a u 65536 = 16 * (a + u) := by
  unfold charge
  omega

theorem base_le_charge {m : Nat} (a u : Nat) (hm : 4096 ≤ m) : a + u ≤ charge a u m := by
  rw [← charge_unit_mult a u]
  exact charge_mono le_rfl le_rfl hm

theorem charge_le_sixteenfold_base {m : Nat} (a u : Nat) (hm : m ≤ 65535) : charge a u m ≤ 16 * (a + u) := by
  rw [← charge_sixteenfold_mult a u]
  exact charge_mono le_rfl le_rfl (by omega)

theorem charge_le_max {a u m : Nat} (ha : a ≤ 65535) (hu : u ≤ 16776704) (hm : m ≤ 65535) :
    charge a u m ≤ 269471712 := charge_mono ha hu hm

/-! ## Stage 5: the transit (R142) -/

theorem transit_nearest (c f : Nat) :
    65536 * transit c f ≤ c * f + 32768 ∧ c * f + 32768 < 65536 * transit c f + 65536 := by
  unfold transit
  omega

theorem transit_mono {c c' f f' : Nat} (hc : c ≤ c') (hf : f ≤ f') : transit c f ≤ transit c' f' :=
  Nat.div_le_div_right (Nat.add_le_add_right (Nat.mul_le_mul hc hf) 32768)

@[simp] theorem transit_zero_fraction (c : Nat) : transit c 0 = 0 := by simp [transit]

@[simp] theorem transit_zero_charge (f : Nat) : transit 0 f = 0 := by simp [transit]

/-- The fraction 65536, one above the largest, is the whole charge. -/
theorem transit_whole_fraction (c : Nat) : transit c 65536 = c := by
  unfold transit
  omega

theorem transit_le_charge {f : Nat} (c : Nat) (hf : f ≤ 65535) : transit c f ≤ c := by
  conv_rhs => rw [← transit_whole_fraction c]
  exact transit_mono le_rfl (by omega)

/-- The largest fraction rounds to the whole charge up to 32768 and not above. -/
theorem transit_max_fraction_eq_self_iff (c : Nat) : transit c 65535 = c ↔ c ≤ 32768 := by
  unfold transit
  omega

/-- Settles O53: each stage by its rounding, its monotonicity and its values at the ends. -/
theorem ratingStages : Obligations.RatingStages := by
  refine ⟨fun commit now => ⟨ratedSeconds_le_max _ _, ratedSeconds_begun, (ratedSeconds_eq_max_iff _ _).symm⟩, ?_⟩
  intro d r a m f hd hr ha hmlow hm hf u c t
  have hdr : d * r ≤ 65535 * 65535 := Nat.mul_le_mul hd hr
  have hu : u ≤ 16776704 := usage_le_max hd hr
  have hbase : a + u ≤ 16842239 := Nat.add_le_add ha hu
  have hscaled : (a + u) * m ≤ 16842239 * 65535 := Nat.mul_le_mul hbase hm
  have hc : c ≤ 269471712 := charge_le_max ha hu hm
  have hcf : c * f ≤ 269471712 * 65535 := Nat.mul_le_mul hc hf
  have ht : t ≤ c := transit_le_charge c hf
  refine ⟨usage_nearest d r, hdr, by omega, hu, ?noRate, ?noTime, rfl, charge_nearest a u m, hbase, hscaled, hc,
    by omega, base_le_charge a u hmlow, charge_le_sixteenfold_base a u hm, charge_unit_mult a u, transit_nearest c f,
    by omega, ?noFraction, ?noCharge, ht, ?wholeTransit, ?partTransit⟩
  case noRate => rintro rfl; exact usage_zero_rate d
  case noTime => rintro rfl; exact usage_zero_duration r
  case noFraction => rintro rfl; exact transit_zero_fraction c
  case noCharge => intro hzero; simp only [t, hzero, transit_zero_charge]
  case wholeTransit => rintro rfl - hsmall; exact (transit_max_fraction_eq_self_iff c).2 hsmall
  case partTransit =>
    rintro rfl hlarge
    have hne : t ≠ c := fun heq => absurd ((transit_max_fraction_eq_self_iff c).1 heq) (by omega)
    omega

end Sys2Proof.Machine
end

section
/-! Settles O52. A rate request writes or removes one entry of the rate table and offers its answer; the offer leaves
the table, the calls and the configuration alone, so the next snapshot reads the table as the request left it. -/

namespace Sys2Proof.Machine

/-! ## What an offer leaves unchanged, and what a snapshot reads -/

theorem OnlyQueue.eq {s t : State} (h : OnlyQueue s t) : t = { s with tx := t.tx, counters := t.counters } := h

theorem Offered.calls_eq {s t : State} {dest : Nat} {m : Msg} (h : Offered s t dest m) : t.calls = s.calls := by
  rw [h.1.eq]

theorem Offered.rates_eq {s t : State} {dest : Nat} {m : Msg} (h : Offered s t dest m) : t.rates = s.rates := by
  rw [h.1.eq]

theorem Offered.config_eq {s t : State} {dest : Nat} {m : Msg} (h : Offered s t dest m) : t.config = s.config := by
  rw [h.1.eq]

/-- A command whose next state is a send, by a station that takes frames, makes one offer. -/
theorem exists_offered_of_exec_eq_send {e : Instr} {s u v : State} {dest : Nat} {m : Msg} (hexec : exec e s = .next v)
    (hsend : v = u.send dest m) (hrunning : u.running = true) : ∃ t, exec e s = .next t ∧ Offered u t dest m :=
  ⟨v, hexec, hsend ▸ State.offered_send hrunning dest m⟩

/-- The snapshot of a carrier with a present entry copies its values, at the multiplier of the pricing band (R134). -/
theorem State.snapshot_of_find_eq_some {s : State} {carrier : Nat} {e : RateEntry}
    (h : Tab.find s.rates carrier = some e) (band : Band) (prec : Nat) :
    ∃ sn, s.snapshot carrier band prec = some sn ∧ sn.setup = e.setup ∧ sn.rate = e.rate ∧
      sn.mult = e.mult (pricingBand s.config.exemption prec band) := by
  rw [State.snapshot, h]
  exact ⟨_, rfl, rfl, rfl, rfl⟩

/-- A carrier without an entry is unrated (R134). -/
theorem State.snapshot_of_find_eq_none {s : State} {carrier : Nat} (h : Tab.find s.rates carrier = none) (band : Band)
    (prec : Nat) : s.snapshot carrier band prec = none := by
  rw [State.snapshot, h]
  rfl

/-! ## RATE-SET (R129, R130) -/

/-- The entry that a RATE-SET writes: its values, each multiplier below 4096 raised to 4096. -/
def clampedEntry (setup rate m0 m1 m2 m3 : Nat) : RateEntry :=
  { setup := setup, rate := rate, green := max 4096 m0, amber := max 4096 m1, red := max 4096 m2, grace := max 4096 m3 }

section
variable {s : State} {source dest carrier setup rate m0 m1 m2 m3 : Nat} {rest : List RxFrame}

theorem State.takeRateSet_of_badTarget (h : 63 < carrier) : s.takeRateSet source carrier setup rate m0 m1 m2 m3 =
    s.send source (.mgmtDone 48 .badTarget (.carrier carrier)) := if_pos h

theorem State.takeRateSet_of_carrier (h : carrier ≤ 63) : s.takeRateSet source carrier setup rate m0 m1 m2 m3 =
    ({ s with rates := Tab.put s.rates carrier (clampedEntry setup rate m0 m1 m2 m3) } : State).send source
      (.mgmtDone 48 .ok (.carrier carrier)) := if_neg (Nat.not_lt.2 h)

theorem exec_rateSet_of_takes (h : s.takes source dest (.rateSet carrier setup rate m0 m1 m2 m3) rest) :
    exec .rateSet s = .next (({ s with rx := rest } : State).takeRateSet source carrier setup rate m0 m1 m2 m3) :=
  congrArg Host.Outcome.next
    (State.takeFrame_of_takes (k := fun s => s.takeRateSet source carrier setup rate m0 m1 m2 m3) h rfl)

/-- A RATE-SET that names a carrier is one write of the rate table and one offer. -/
theorem exec_rateSet_writes (h : s.takes source dest (.rateSet carrier setup rate m0 m1 m2 m3) rest)
    (hcarrier : carrier ≤ 63) :
    ∃ t, exec .rateSet s = .next t ∧
      Offered { s with rx := rest, rates := Tab.put s.rates carrier (clampedEntry setup rate m0 m1 m2 m3) } t source
        (.mgmtDone 48 .ok (.carrier carrier)) :=
  exists_offered_of_exec_eq_send (exec_rateSet_of_takes h) (State.takeRateSet_of_carrier hcarrier) h.1

theorem exec_rateSet_refuses (h : s.takes source dest (.rateSet carrier setup rate m0 m1 m2 m3) rest)
    (hcarrier : 63 < carrier) :
    ∃ t, exec .rateSet s = .next t ∧
      Offered { s with rx := rest } t source (.mgmtDone 48 .badTarget (.carrier carrier)) :=
  exists_offered_of_exec_eq_send (exec_rateSet_of_takes h) (State.takeRateSet_of_badTarget hcarrier) h.1

/-! ## RATE-CLEAR (R129, R131) -/

theorem State.takeRateClear_of_badTarget (h : 63 < carrier) : s.takeRateClear source carrier =
    s.send source (.mgmtDone 49 .badTarget (.carrier carrier)) := if_pos h

theorem State.takeRateClear_of_present (h : carrier ≤ 63) {e : RateEntry} (he : Tab.find s.rates carrier = some e) :
    s.takeRateClear source carrier =
      ({ s with rates := Tab.del s.rates carrier } : State).send source (.mgmtDone 49 .ok (.carrier carrier)) := by
  rw [State.takeRateClear, if_neg (Nat.not_lt.2 h), he]

theorem State.takeRateClear_of_absent (h : carrier ≤ 63) (he : Tab.find s.rates carrier = none) :
    s.takeRateClear source carrier = s.send source (.mgmtDone 49 .noChange (.carrier carrier)) := by
  rw [State.takeRateClear, if_neg (Nat.not_lt.2 h), he]

theorem exec_rateClear_of_takes (h : s.takes source dest (.rateClear carrier) rest) :
    exec .rateClear s = .next (({ s with rx := rest } : State).takeRateClear source carrier) :=
  congrArg Host.Outcome.next (State.takeFrame_of_takes (k := fun s => s.takeRateClear source carrier) h rfl)

theorem exec_rateClear_refuses (h : s.takes source dest (.rateClear carrier) rest) (hcarrier : 63 < carrier) :
    ∃ t, exec .rateClear s = .next t ∧
      Offered { s with rx := rest } t source (.mgmtDone 49 .badTarget (.carrier carrier)) :=
  exists_offered_of_exec_eq_send (exec_rateClear_of_takes h) (State.takeRateClear_of_badTarget hcarrier) h.1

theorem exec_rateClear_removes (h : s.takes source dest (.rateClear carrier) rest) (hcarrier : carrier ≤ 63)
    {e : RateEntry} (he : Tab.find s.rates carrier = some e) :
    ∃ t, exec .rateClear s = .next t ∧
      Offered { s with rx := rest, rates := Tab.del s.rates carrier } t source (.mgmtDone 49 .ok (.carrier carrier)) :=
  exists_offered_of_exec_eq_send (exec_rateClear_of_takes h) (State.takeRateClear_of_present hcarrier he) h.1

theorem exec_rateClear_noChange (h : s.takes source dest (.rateClear carrier) rest) (hcarrier : carrier ≤ 63)
    (he : Tab.find s.rates carrier = none) :
    ∃ t, exec .rateClear s = .next t ∧
      Offered { s with rx := rest } t source (.mgmtDone 49 .noChange (.carrier carrier)) :=
  exists_offered_of_exec_eq_send (exec_rateClear_of_takes h) (State.takeRateClear_of_absent hcarrier he) h.1

end

/-- Settles O52: each request by what it does to the table, and the table by what a key then reads. -/
theorem rateRequests : Obligations.RateRequests := by
  refine ⟨?set, ?clear, fun s source dest carrier setup rate m0 m1 m2 m3 rest => exec_rateSet_refuses⟩
  case set =>
    intro s source dest carrier setup rate m0 m1 m2 m3 rest htakes hcarrier
    obtain ⟨t, hexec, hoffer⟩ := exec_rateSet_writes htakes hcarrier
    have hentry : Tab.find t.rates carrier = some (clampedEntry setup rate m0 m1 m2 m3) := by
      rw [hoffer.rates_eq, Tab.find_put_self]
    have hothers : ∀ c, c ≠ carrier → Tab.find t.rates c = Tab.find s.rates c := fun c hc => by
      rw [hoffer.rates_eq, Tab.find_put_ne _ _ hc]
    have raised : ∀ {m : Nat}, m < 4096 → max 4096 m = 4096 := fun h => max_eq_left h.le
    have kept : ∀ {m : Nat}, 4096 ≤ m → max 4096 m = m := max_eq_right
    refine ⟨t, clampedEntry setup rate m0 m1 m2 m3, hexec, hoffer, rfl, rfl, raised, kept, raised, kept, raised, kept,
      raised, kept, hoffer.calls_eq, hentry, hothers, fun band prec => ?_⟩
    rw [← hoffer.config_eq]
    exact State.snapshot_of_find_eq_some hentry band prec
  case clear =>
    intro s source dest carrier rest htakes
    refine ⟨exec_rateClear_refuses htakes, fun hcarrier => ?_⟩
    cases he : Tab.find s.rates carrier with
    | some e =>
      obtain ⟨t, hexec, hoffer⟩ := exec_rateClear_removes htakes hcarrier he
      have hfind : ∀ c, Tab.find t.rates c = if c = carrier then none else Tab.find s.rates c := fun c => by
        rw [hoffer.rates_eq, Tab.find_del]
      exact ⟨t, hexec, fun _ => hoffer, fun h => absurd h (Option.some_ne_none e), hoffer.calls_eq, hfind,
        State.snapshot_of_find_eq_none ((hfind carrier).trans (if_pos rfl))⟩
    | none =>
      obtain ⟨t, hexec, hoffer⟩ := exec_rateClear_noChange htakes hcarrier he
      have hfind : ∀ c, Tab.find t.rates c = if c = carrier then none else Tab.find s.rates c := fun c => by
        rw [hoffer.rates_eq]
        split
        · next hc => rw [hc, he]
        · rfl
      exact ⟨t, hexec, fun h => absurd h Bool.false_ne_true, fun _ => hoffer, hoffer.calls_eq, hfind,
        State.snapshot_of_find_eq_none ((hfind carrier).trans (if_pos rfl))⟩

end Sys2Proof.Machine
end

section
/-! Settles O54. Each tally request is one offer, after at most one change of the banks. Which one, the read state of
the CLOSED bank decides, then the period or the index. -/

namespace Sys2Proof.Machine

theorem State.offered_of_eq_send {u v : State} {dest : Nat} {m : Msg} (hrunning : u.running = true)
    (hsend : v = u.send dest m) : Offered u v dest m := hsend ▸ State.offered_send hrunning dest m

section
variable {s : State} {source dest index period : Nat} {rest : List RxFrame}

/-! ## PERIOD-CLOSE (R155) -/

theorem State.takePeriodClose_of_held (h : s.closedHeld = true) : s.takePeriodClose source =
    s.send source (.mgmtDone 50 .bankBusy (.busy s.closedBank.period)) := if_pos h

theorem State.takePeriodClose_of_empty (h : s.closedHeld = false) : s.takePeriodClose source =
    ({ s with
      openBank := Bank.empty (s.openBank.period + 1), closedBank := s.openBank, closedHeld := true } : State).send source
      (.mgmtDone 50 .ok (.closed s.openBank.period s.openBank.entries.length (s.openBank.period + 1))) :=
  if_neg (Bool.not_eq_true _ ▸ h)

theorem exec_periodClose_of_takes (h : s.takes source dest .periodClose rest) :
    exec .periodClose s = .next (({ s with rx := rest } : State).takePeriodClose source) :=
  congrArg Host.Outcome.next (State.takeFrame_of_takes (k := fun s => s.takePeriodClose source) h rfl)

/-! ## TALLY-READ (R156) -/

theorem State.tallyAnswer_of_empty (h : s.closedHeld = false) :
    s.tallyAnswer index = .mgmtDone 51 .badIndex (.tally none index 0 none) := if_neg (Bool.not_eq_true _ ▸ h)

theorem State.tallyAnswer_of_pair {e : PairEntry} (h : s.closedHeld = true)
    (he : s.closedBank.entries[index]? = some e) : s.tallyAnswer index =
      .mgmtDone 51 .ok (.tally (some s.closedBank.period) index s.closedBank.entries.length (some e)) := by
  simp only [State.tallyAnswer, h, if_true, he]

/-- A bank of at most 96 pair entries has none at index 255, the index of the overflow entry. -/
theorem State.tallyAnswer_of_overflow (h : s.closedHeld = true)
    (hlength : s.closedBank.entries.length ≤ Config.pairEntries) : s.tallyAnswer 255 =
      .mgmtDone 51 .ok (.tally (some s.closedBank.period) 255 s.closedBank.entries.length
        (some { origin := 255, terminating := 255, sums := s.closedBank.overflow })) := by
  have hnone : s.closedBank.entries[255]? = none := List.getElem?_eq_none (hlength.trans (by decide))
  simp only [State.tallyAnswer, h, if_true, hnone]

theorem State.tallyAnswer_of_badIndex (h : s.closedHeld = true) (hlength : s.closedBank.entries.length ≤ index)
    (hindex : index ≠ 255) : s.tallyAnswer index =
      .mgmtDone 51 .badIndex (.tally (some s.closedBank.period) index s.closedBank.entries.length none) := by
  simp only [State.tallyAnswer, h, if_true, List.getElem?_eq_none hlength, if_neg hindex]

theorem exec_tallyRead_of_takes (h : s.takes source dest (.tallyRead index) rest) :
    exec .tallyRead s = .next (({ s with rx := rest } : State).send source (s.tallyAnswer index)) :=
  congrArg Host.Outcome.next (State.takeFrame_of_takes (k := fun s => s.send source (s.tallyAnswer index)) h rfl)

/-! ## TALLY-ACK (R157) -/

theorem State.takeTallyAck_of_empty (h : s.closedHeld = false) : s.takeTallyAck source period =
    s.send source (.mgmtDone 52 .periodMismatch (.acked none)) := if_neg (Bool.not_eq_true _ ▸ h)

theorem State.takeTallyAck_of_period (h : s.closedHeld = true) (hperiod : s.closedBank.period.toNat = period) :
    s.takeTallyAck source period =
      ({ s with closedBank := Bank.empty s.closedBank.period, closedHeld := false } : State).send source
        (.mgmtDone 52 .ok (.acked (some s.closedBank.period))) := by
  rw [State.takeTallyAck, if_pos h, if_pos hperiod]

theorem State.takeTallyAck_of_mismatch (h : s.closedHeld = true) (hperiod : s.closedBank.period.toNat ≠ period) :
    s.takeTallyAck source period =
      s.send source (.mgmtDone 52 .periodMismatch (.acked (some s.closedBank.period))) := by
  rw [State.takeTallyAck, if_pos h, if_neg hperiod]

theorem exec_tallyAck_of_takes (h : s.takes source dest (.tallyAck period) rest) :
    exec .tallyAck s = .next (({ s with rx := rest } : State).takeTallyAck source period) :=
  congrArg Host.Outcome.next (State.takeFrame_of_takes (k := fun s => s.takeTallyAck source period) h rfl)

end

/-- Settles O54: each clause is the equation of its case, read as one offer. -/
theorem tallyRequests : Obligations.TallyRequests := by
  refine ⟨?close, ?read, ?ack⟩
  case close =>
    intro s source dest rest htakes
    have hrunning : s.running = true := htakes.1
    exact ⟨_, exec_periodClose_of_takes htakes,
      fun hempty => State.offered_of_eq_send hrunning (State.takePeriodClose_of_empty hempty),
      fun hheld => State.offered_of_eq_send hrunning (State.takePeriodClose_of_held hheld)⟩
  case read =>
    intro s source dest index rest htakes hlength n period
    have answered : ∀ {m}, s.tallyAnswer index = m →
        Offered { s with rx := rest } (({ s with rx := rest } : State).send source (s.tallyAnswer index)) source m :=
      fun h => State.offered_of_eq_send htakes.1 (congrArg _ h)
    refine ⟨_, exec_tallyRead_of_takes htakes, fun hheld => ⟨fun e he => ?pair, fun hindex => ?overflow,
      fun hbeyond hindex => ⟨index, ?badIndex⟩⟩, fun hempty => ⟨index, ?empty⟩⟩
    case pair => exact answered (State.tallyAnswer_of_pair hheld he)
    case overflow => exact answered (hindex ▸ State.tallyAnswer_of_overflow hheld hlength)
    case badIndex => exact answered (State.tallyAnswer_of_badIndex hheld hbeyond hindex)
    case empty => exact answered (State.tallyAnswer_of_empty hempty)
  case ack =>
    intro s source dest period rest htakes
    have hrunning : s.running = true := htakes.1
    exact ⟨_, exec_tallyAck_of_takes htakes,
      fun hheld hperiod => State.offered_of_eq_send hrunning (State.takeTallyAck_of_period hheld hperiod),
      fun hheld hperiod => State.offered_of_eq_send hrunning (State.takeTallyAck_of_mismatch hheld hperiod),
      fun hempty => State.offered_of_eq_send hrunning (State.takeTallyAck_of_empty hempty)⟩

end Sys2Proof.Machine
end

section
/-! Settles O55. A posting makes one of three edits of the bank: it adds to the entry of the pair, appends an entry for
the pair, or adds to the overflow entry. What a posting keeps or counts is said of each edit; `Bank.post_cases` says
when each is made. -/

namespace Sys2Proof.Machine

/-! ## The sums of one entry (R150, R152) -/

@[simp] theorem addTo_zero {top a : Nat} (h : a ≤ top) : addTo top a 0 = a := min_eq_left h

theorem addTo_one_of_lt {top a : Nat} (h : a < top) : addTo top a 1 = a + 1 := min_eq_left h

section
variable {p : Posting}

/-- An unrated call adds to no sum of charges, and one to the unrated calls (R152). -/
theorem Posting.amounts_of_unrated (h : p.unrated = true) :
    p.settled = 0 ∧ p.disputedCharge = 0 ∧ p.transitShare = 0 ∧ p.unratedCalls = 1 := by
  simp [Posting.settled, Posting.disputedCharge, Posting.transitShare, Posting.unratedCalls, flagByte, h]

theorem Posting.amounts_of_settled (hrated : p.unrated = false) (h : p.disputed = false) :
    p.settled = p.charge ∧ p.disputedCharge = 0 ∧ p.transitShare = p.transit ∧ p.unratedCalls = 0 := by
  simp [Posting.settled, Posting.disputedCharge, Posting.transitShare, Posting.unratedCalls, flagByte, hrated, h]

theorem Posting.amounts_of_disputed (hrated : p.unrated = false) (h : p.disputed = true) :
    p.settled = 0 ∧ p.disputedCharge = p.charge ∧ p.transitShare = p.transit ∧ p.unratedCalls = 0 := by
  simp [Posting.settled, Posting.disputedCharge, Posting.transitShare, Posting.unratedCalls, flagByte, hrated, h]

end

/-- An entry stays within its accumulators whatever is posted (R150). -/
theorem Sums.inRange_posted (top : Nat) (e : Sums) (p : Posting) : (e.posted top p).InRange top :=
  ⟨min_le_right _ _, min_le_right _ _, min_le_right _ _, min_le_right _ _, min_le_right _ _, min_le_right _ _⟩

@[simp] theorem Sums.posted_settled (top : Nat) (e : Sums) (p : Posting) :
    (e.posted top p).settled = addTo max48 e.settled p.settled := rfl
@[simp] theorem Sums.posted_disputed (top : Nat) (e : Sums) (p : Posting) :
    (e.posted top p).disputed = addTo max48 e.disputed p.disputedCharge := rfl
@[simp] theorem Sums.posted_transit (top : Nat) (e : Sums) (p : Posting) :
    (e.posted top p).transit = addTo max48 e.transit p.transitShare := rfl
@[simp] theorem Sums.posted_unrated (top : Nat) (e : Sums) (p : Posting) :
    (e.posted top p).unrated = addTo max32 e.unrated p.unratedCalls := rfl

theorem Sums.posted_saturated_iff (top : Nat) (e : Sums) (p : Posting) :
    (e.posted top p).saturated = true ↔ e.saturated = true ∨ top < e.calls + 1 ∨ max48 < e.seconds + p.seconds ∨
      max48 < e.settled + p.settled ∨ max48 < e.disputed + p.disputedCharge ∨ max48 < e.transit + p.transitShare ∨
      max32 < e.unrated + p.unratedCalls := by
  rw [Sums.posted, Bool.or_eq_true, decide_eq_true_iff]

/-! ## The three edits of a bank (R151) -/

/-- An entry is that of a pair. -/
abbrev PairEntry.Names (o w : Nat) (e : PairEntry) : Prop := e.origin = o ∧ e.terminating = w

/-- The posting reaches the pair entry `e` at index `i` (R151 case 1). -/
def Bank.postPair (b : Bank) (i : Nat) (e : PairEntry) (p : Posting) : Bank :=
  { b with entries := b.entries.set i { e with sums := e.sums.posted max32 p } }

/-- The posting makes the entry of its pair (R151 case 3). -/
def Bank.postNew (b : Bank) (o w : Nat) (p : Posting) : Bank :=
  { b with entries := b.entries ++ [{ origin := o, terminating := w, sums := Sums.posted max32 {} p }] }

/-- The calls of all entries of a bank. -/
def Bank.totalCalls (b : Bank) : Nat := (b.entries.map fun e => e.sums.calls).sum + b.overflow.calls

section
variable {b : Bank} {o w i : Nat} {e : PairEntry}

theorem Bank.sound_postPair (h : b.Sound) (he : b.entries[i]? = some e) (p : Posting) : (b.postPair i e p).Sound := by
  obtain ⟨hlength, hnodup, hrange, hoverflow⟩ := h
  refine ⟨by simpa [Bank.postPair] using hlength, ?pairs, fun x hx => ?range, hoverflow⟩
  case pairs =>
    obtain ⟨hi, rfl⟩ := List.getElem?_eq_some_iff.1 he
    have hsame := List.set_getElem_self (as := b.entries.map fun x => (x.origin, x.terminating)) (i := i) (by simpa)
    rw [List.getElem_map] at hsame
    rw [Bank.postPair, List.map_set, hsame]
    exact hnodup
  case range =>
    obtain hold | rfl := List.mem_or_eq_of_mem_set hx
    · exact hrange x hold
    · exact Sums.inRange_posted max32 e.sums p

theorem Bank.sound_postNew (h : b.Sound) (hnew : ∀ x ∈ b.entries, ¬ x.Names o w)
    (hroom : b.entries.length < Config.pairEntries) (p : Posting) : (b.postNew o w p).Sound := by
  obtain ⟨hlength, hnodup, hrange, hoverflow⟩ := h
  refine ⟨by simpa [Bank.postNew] using hroom, ?pairs, fun x hx => ?range, hoverflow⟩
  case pairs =>
    rw [Bank.postNew, List.map_append, List.map_singleton, ← List.concat_eq_append]
    refine hnodup.concat fun hmem => ?_
    obtain ⟨x, hx, hpair⟩ := List.mem_map.1 hmem
    exact hnew x hx (Prod.mk.inj hpair)
  case range =>
    obtain hold | hlast := List.mem_append.1 hx
    · exact hrange x hold
    · rw [List.mem_singleton.1 hlast]
      exact Sums.inRange_posted max32 {} p

theorem Bank.sound_postOverflow (h : b.Sound) (p : Posting) : (b.postOverflow p).Sound := by
  obtain ⟨hlength, hnodup, hrange, -⟩ := h
  exact ⟨hlength, hnodup, hrange, Sums.inRange_posted max48 b.overflow p⟩

/-- Where an entry of a list is replaced, a sum over the list changes by what the entry's part changes. -/
theorem sum_map_set_add {α : Type} (f : α → Nat) {l : List α} {i : Nat} {x : α} (y : α) (h : l[i]? = some x) :
    ((l.set i y).map f).sum + f x = (l.map f).sum + f y := by
  obtain ⟨hi, rfl⟩ := List.getElem?_eq_some_iff.1 h
  have hwhole := List.sum_take_add_sum_drop (l.map f) i
  rw [List.drop_eq_getElem_cons (by simpa), List.sum_cons, List.getElem_map] at hwhole
  rw [List.map_set, List.sum_set, if_pos (by simpa)]
  omega

theorem Bank.totalCalls_postPair (he : b.entries[i]? = some e) (hcalls : e.sums.calls < max32) (p : Posting) :
    (b.postPair i e p).totalCalls = b.totalCalls + 1 := by
  have hsum := sum_map_set_add (fun x : PairEntry => x.sums.calls) { e with sums := e.sums.posted max32 p } he
  have hone : (e.sums.posted max32 p).calls = e.sums.calls + 1 := addTo_one_of_lt hcalls
  simp only [hone] at hsum
  simp only [Bank.totalCalls, Bank.postPair]
  omega

theorem Bank.totalCalls_postNew (o w : Nat) (p : Posting) : (b.postNew o w p).totalCalls = b.totalCalls + 1 := by
  have hone : (Sums.posted max32 {} p).calls = 1 := rfl
  simp only [Bank.totalCalls, Bank.postNew, List.map_append, List.map_singleton, List.sum_append, List.sum_singleton]
  omega

theorem Bank.totalCalls_postOverflow (hcalls : b.overflow.calls < max48) (p : Posting) :
    (b.postOverflow p).totalCalls = b.totalCalls + 1 := by
  have hone : (b.overflow.posted max48 p).calls = b.overflow.calls + 1 := addTo_one_of_lt hcalls
  simp only [Bank.totalCalls, Bank.postOverflow]
  omega

/-! ## Which edit a posting makes (R151) -/

theorem Bank.pairIndex_eq_none_iff : b.pairIndex o w = none ↔ ∀ x ∈ b.entries, ¬ x.Names o w := by
  simp [Bank.pairIndex]

theorem Bank.exists_getElem?_of_pairIndex_eq_some (h : b.pairIndex o w = some i) :
    ∃ e, b.entries[i]? = some e ∧ e.Names o w := by
  obtain ⟨hi, hnames, -⟩ := List.findIdx?_eq_some_iff_getElem.1 h
  exact ⟨b.entries[i], List.getElem?_eq_getElem hi, of_decide_eq_true hnames⟩

/-- In a sound bank one entry at most is that of a pair (R148). -/
theorem Bank.Sound.index_unique (h : b.Sound) {j : Nat} {x : PairEntry} (he : b.entries[i]? = some e)
    (hnames : e.Names o w) (hx : b.entries[j]? = some x) (hnamesx : x.Names o w) : i = j := by
  obtain ⟨-, hnodup, -⟩ := h
  obtain ⟨hi, rfl⟩ := List.getElem?_eq_some_iff.1 he
  obtain ⟨hj, rfl⟩ := List.getElem?_eq_some_iff.1 hx
  refine (hnodup.getElem_inj_iff (hi := by simpa) (hj := by simpa)).1 ?_
  rw [List.getElem_map, List.getElem_map, hnames.1, hnames.2, hnamesx.1, hnamesx.2]

theorem Bank.pairIndex_of_names (h : b.Sound) (he : b.entries[i]? = some e) (hnames : e.Names o w) :
    b.pairIndex o w = some i := by
  cases hfound : b.pairIndex o w with
  | none => exact absurd hnames (Bank.pairIndex_eq_none_iff.1 hfound e (List.mem_of_getElem? he))
  | some j =>
    obtain ⟨x, hx, hnamesx⟩ := Bank.exists_getElem?_of_pairIndex_eq_some hfound
    rw [h.index_unique he hnames hx hnamesx]

theorem Bank.post_of_pairIndex (hindex : b.pairIndex o w = some i) (he : b.entries[i]? = some e) (p : Posting) :
    b.post o w p = if e.sums.calls < max32 then (b.postPair i e p, false) else (b.postOverflow p, true) := by
  simp only [Bank.post, hindex, he, Bank.postPair]

theorem Bank.post_of_new (hnew : ∀ x ∈ b.entries, ¬ x.Names o w) (p : Posting) :
    b.post o w p =
      if b.entries.length < Config.pairEntries then (b.postNew o w p, false) else (b.postOverflow p, true) := by
  simp only [Bank.post, Bank.pairIndex_eq_none_iff.2 hnew, Bank.postNew]

/-- A posting reaches the entry of its pair, a new one, or the overflow entry (R151). -/
theorem Bank.post_cases (b : Bank) (o w : Nat) (p : Posting) :
    (∃ i e, b.entries[i]? = some e ∧ e.Names o w ∧ e.sums.calls < max32 ∧ b.post o w p = (b.postPair i e p, false)) ∨
    ((∀ x ∈ b.entries, ¬ x.Names o w) ∧ b.entries.length < Config.pairEntries ∧
      b.post o w p = (b.postNew o w p, false)) ∨
    b.post o w p = (b.postOverflow p, true) := by
  cases hindex : b.pairIndex o w with
  | some i =>
    obtain ⟨e, he, hnames⟩ := Bank.exists_getElem?_of_pairIndex_eq_some hindex
    rw [Bank.post_of_pairIndex hindex he]
    split
    · next hcalls => exact .inl ⟨i, e, he, hnames, hcalls, rfl⟩
    · exact .inr (.inr rfl)
  | none =>
    have hnew := Bank.pairIndex_eq_none_iff.1 hindex
    rw [Bank.post_of_new hnew]
    split
    · next hroom => exact .inr (.inl ⟨hnew, hroom, rfl⟩)
    · exact .inr (.inr rfl)

theorem Bank.sound_post (h : b.Sound) (o w : Nat) (p : Posting) : (b.post o w p).1.Sound := by
  obtain ⟨i, e, he, -, -, hpost⟩ | ⟨hnew, hroom, hpost⟩ | hpost := b.post_cases o w p <;> rw [hpost]
  · exact Bank.sound_postPair h he p
  · exact Bank.sound_postNew h hnew hroom p
  · exact Bank.sound_postOverflow h p

theorem Bank.period_post (b : Bank) (o w : Nat) (p : Posting) : (b.post o w p).1.period = b.period := by
  obtain ⟨i, e, -, -, -, hpost⟩ | ⟨-, -, hpost⟩ | hpost := b.post_cases o w p <;> rw [hpost] <;> rfl

/-- A posting counts one call, in one entry. -/
theorem Bank.totalCalls_post (hcalls : b.overflow.calls < max48) (o w : Nat) (p : Posting) :
    (b.post o w p).1.totalCalls = b.totalCalls + 1 := by
  obtain ⟨i, e, he, -, hbelow, hpost⟩ | ⟨-, -, hpost⟩ | hpost := b.post_cases o w p <;> rw [hpost]
  · exact Bank.totalCalls_postPair he hbelow p
  · exact Bank.totalCalls_postNew o w p
  · exact Bank.totalCalls_postOverflow hcalls p

/-- A posting leaves the entries of the other pairs as they are. -/
theorem Bank.getElem?_post_of_not_names (he : b.entries[i]? = some e) (hnames : ¬ e.Names o w) (p : Posting) :
    (b.post o w p).1.entries[i]? = some e := by
  obtain ⟨j, x, hx, hnamesx, -, hpost⟩ | ⟨-, -, hpost⟩ | hpost := b.post_cases o w p <;> rw [hpost]
  · have hne : j ≠ i := by
      rintro rfl
      obtain rfl : e = x := Option.some.inj (he.symm.trans hx)
      exact hnames hnamesx
    exact (List.getElem?_set_ne hne).trans he
  · exact (List.getElem?_append_left (List.getElem?_eq_some_iff.1 he).1).trans he
  · exact he

theorem Bank.post_of_names (h : b.Sound) (he : b.entries[i]? = some e) (hnames : e.Names o w)
    (hcalls : e.sums.calls < max32) (p : Posting) : b.post o w p = (b.postPair i e p, false) := by
  rw [Bank.post_of_pairIndex (Bank.pairIndex_of_names h he hnames) he, if_pos hcalls]

/-- The overflow entry takes what the pair's entry no longer counts and what finds no room for an entry (R151 cases 2
and 4). -/
theorem Bank.post_of_overflow (h : b.Sound) (p : Posting)
    (hfull : (∃ e ∈ b.entries, e.Names o w ∧ max32 ≤ e.sums.calls) ∨
      ((∀ e ∈ b.entries, ¬ e.Names o w) ∧ Config.pairEntries ≤ b.entries.length)) :
    b.post o w p = (b.postOverflow p, true) := by
  obtain ⟨e, hmem, hnames, hcalls⟩ | ⟨hnew, hroom⟩ := hfull
  · obtain ⟨i, he⟩ := List.mem_iff_getElem?.1 hmem
    rw [Bank.post_of_pairIndex (Bank.pairIndex_of_names h he hnames) he, if_neg (Nat.not_lt.2 hcalls)]
  · rw [Bank.post_of_new hnew, if_neg (Nat.not_lt.2 hroom)]

end

/-! ## The station's posting (R153) -/

section
variable {s : State} {o w : Nat} {p : Posting} {b : Bank}

theorem State.post_of_overflow (h : s.openBank.post o w p = (b, true)) :
    s.post o w p = ({ s with openBank := b } : State).bump .tallyOverflow := by
  simp only [State.post, h, if_true]

theorem State.post_of_entry (h : s.openBank.post o w p = (b, false)) : s.post o w p = { s with openBank := b } := by
  simp only [State.post, h, Bool.false_eq_true, if_false]

/-- A posting changes the OPEN bank and the counters alone. -/
theorem State.post_eq (s : State) (o w : Nat) (p : Posting) :
    s.post o w p = { s with openBank := (s.openBank.post o w p).1, counters := (s.post o w p).counters } := by
  unfold State.post
  dsimp only
  split <;> rfl

theorem State.post_openBank (s : State) (o w : Nat) (p : Posting) :
    (s.post o w p).openBank = (s.openBank.post o w p).1 := by
  rw [State.post_eq]

end

/-- Settles O55: the first part by the edit of the bank that the posting makes, the second by the kind of clear. -/
theorem postingCounts : Obligations.PostingCounts := by
  refine ⟨?bank, ?sums⟩
  case bank =>
    intro s o w p hsound hoverflow b b' pair
    have hb' : b' = (b.post o w p).1 := State.post_openBank s o w p
    refine ⟨?frame, hb' ▸ Bank.sound_post hsound o w p, hb' ▸ Bank.period_post b o w p,
      hb' ▸ Bank.totalCalls_post hoverflow o w p, fun i e he hother => ?others, fun i e he hpair hcalls => ?ofPair,
      fun hnew hroom => ?ofNew, fun hfull => ?ofOverflow⟩
    case frame => exact hb' ▸ State.post_eq s o w p
    case others => exact hb' ▸ Bank.getElem?_post_of_not_names he hother p
    case ofPair =>
      have hpost := State.post_of_entry (Bank.post_of_names hsound he hpair hcalls p)
      dsimp only [b']
      rw [hpost]
      exact ⟨rfl, rfl, rfl⟩
    case ofNew =>
      have hpost := State.post_of_entry ((Bank.post_of_new hnew p).trans (if_pos hroom))
      dsimp only [b']
      rw [hpost]
      exact ⟨rfl, rfl, rfl⟩
    case ofOverflow =>
      have hpost := State.post_of_overflow (Bank.post_of_overflow hsound p hfull)
      dsimp only [b']
      rw [hpost]
      exact ⟨rfl, rfl, rfl⟩
  case sums =>
    intro top e p hrange n
    refine ⟨Sums.inRange_posted top e p, rfl, rfl, ?_⟩
    obtain ⟨-, -, hsettled, hdisputed, htransit, hunrated⟩ := hrange
    simp only [n, Sums.posted_saturated_iff, Sums.posted_settled, Sums.posted_disputed, Sums.posted_transit,
      Sums.posted_unrated]
    cases hkind : p.unrated with
    | true =>
      obtain ⟨hs, hd, ht, hu⟩ := Posting.amounts_of_unrated hkind
      simp only [hs, hd, ht, hu, addTo_zero hsettled, addTo_zero hdisputed, addTo_zero htransit, Nat.add_zero,
        Nat.not_lt.2 hsettled, Nat.not_lt.2 hdisputed, Nat.not_lt.2 htransit]
      simp [addTo]
    | false =>
      cases hcharge : p.disputed with
      | true =>
        obtain ⟨hs, hd, ht, hu⟩ := Posting.amounts_of_disputed hkind hcharge
        simp only [hs, hd, ht, hu, addTo_zero hsettled, addTo_zero hunrated, Nat.add_zero, Nat.not_lt.2 hsettled,
          Nat.not_lt.2 hunrated]
        simp [addTo, or_comm]
      | false =>
        obtain ⟨hs, hd, ht, hu⟩ := Posting.amounts_of_settled hkind hcharge
        simp only [hs, hd, ht, hu, addTo_zero hdisputed, addTo_zero hunrated, Nat.add_zero, Nat.not_lt.2 hdisputed,
          Nat.not_lt.2 hunrated]
        simp [addTo, or_comm]

end Sys2Proof.Machine
end

section
/-! What every step keeps, one component of the state at a time: the elementary changes keep it, and so does each part
of a good configuration read. -/

namespace Sys2Proof.Machine

/-- A property of the state that every elementary change keeps, and every part of a good configuration read. -/
structure StepKept (P : State → Prop) : Prop where
  edit : ∀ {s t : State}, Edit s t → P s → P t
  configured : ∀ {s : State} (image : List Byte), field image 0 1 ≤ 31 → P s → P (s.configured image)
  afterReleases : ∀ {s : State}, P s → P s.afterReleases
  listening : ∀ {s : State}, P s → P s.listening

theorem StepKept.circuitEdits {P : State → Prop} (h : StepKept P) {s t : State} (he : CircuitEdits s t) (hs : P s) :
    P t :=
  he.edits.keeps (fun _ _ => h.edit) hs

/-- A good read keeps what its parts keep. -/
theorem StepKept.readGood {P : State → Prop} (h : StepKept P) {s : State} {image : List Byte}
    (ha : field image 0 1 ≤ 31) (hs : P s) : P (s.readGood image) := by
  obtain ⟨u, hreleases, hreaches⟩ := readGood_parts s image
  exact h.circuitEdits hreaches (h.listening (h.afterReleases (h.circuitEdits hreleases (h.configured image ha hs))))

/-- Every step keeps what the elementary changes and the parts of a good read keep. -/
theorem StepKept.step {P : State → Prop} (h : StepKept P) {s t : State} (hstep : step s = .next t)
    (hs : P s) : P t := by
  rcases step_edits hstep with he | ⟨image, rest, -, -, -, ha, rfl⟩
  · exact he.keeps (fun _ _ => h.edit) hs
  · have hqueue : P { s with pending := rest } := h.edit (Edit.queue s rest) hs
    exact h.readGood ha (h.edit (Edit.pins _ s.clock s.bprstLow false s.trimmed) hqueue)

/-! ## Lines and counters (R177, R192) -/

theorem stepKept_linesFollow : StepKept State.LinesFollow where
  edit {s t} h hs := by
    cases h with
    | circuit _ h => rw [h.frame.eq]; exact hs
    | reach => rw [applyReach_frame]; exact hs
    | quiet st => exact ⟨rfl, rfl⟩
    | listen => exact ⟨rfl, rfl⟩
    | active => exact ⟨rfl, rfl⟩
    | power => exact ⟨rfl, rfl⟩
    | _ => exact hs
  configured _ _ hs := hs
  afterReleases hs := hs
  listening _ := ⟨rfl, rfl⟩

/-- Every counter holds 0 to 65535 (R192). -/
def Counters.Sound (c : Counters) : Prop := ∀ n ∈ c.toList, n ≤ Config.counterMax

theorem Counters.sound_iff {c : Counters} : c.Sound ↔
    c.badCrc ≤ Config.counterMax ∧ c.badFrame ≤ Config.counterMax ∧ c.rxOverrun ≤ Config.counterMax ∧
    c.txDrop ≤ Config.counterMax ∧ c.reachOverflow ≤ Config.counterMax ∧ c.lateGrants ≤ Config.counterMax ∧
    c.holdsExpired ≤ Config.counterMax ∧ c.staleDrops ≤ Config.counterMax ∧ c.disputed ≤ Config.counterMax ∧
    c.orphanClears ≤ Config.counterMax ∧ c.suspectsPromoted ≤ Config.counterMax ∧ c.faults ≤ Config.counterMax ∧
    c.noAnswerTimeouts ≤ Config.counterMax ∧ c.routeFails ≤ Config.counterMax ∧
    c.tallyOverflow ≤ Config.counterMax ∧ c.notPermitted ≤ Config.counterMax := by
  simp [Counters.Sound, Counters.toList]

theorem Counters.sound_zero : ({} : Counters).Sound := by
  unfold Counters.Sound; decide

theorem Counters.sound_bump {c : Counters} (h : c.Sound) (k : Counter) : (c.bump k).Sound := by
  rw [Counters.sound_iff] at *
  have hsucc : ∀ n, satSucc n ≤ Config.counterMax := fun _ => Nat.min_le_right _ _
  cases k <;> simp only [Counters.bump, hsucc, h, and_self]

theorem Counters.Sound.reachOverflow_le {c : Counters} (h : c.Sound) : c.reachOverflow ≤ Config.counterMax :=
  h _ (by simp [Counters.toList])

theorem Counters.sound_setReachOverflow {c : Counters} (h : c.Sound) {n : Nat} (hn : n ≤ Config.counterMax) :
    ({ c with reachOverflow := n } : Counters).Sound := by
  rw [Counters.sound_iff] at *
  simp only [hn, h, and_self]

theorem State.CountersSound.applyReach {s : State} (h : s.CountersSound) (g pref first count : Nat) :
    (s.applyReach g pref first count).CountersSound := by
  rw [State.CountersSound, State.applyReach_counters _ _ _ _ _ (Counters.Sound.reachOverflow_le h)]
  exact Counters.sound_setReachOverflow h (Nat.min_le_right _ _)

theorem stepKept_countersSound : StepKept State.CountersSound where
  edit {s t} h hs := by
    cases h with
    | circuit _ h =>
      cases h with
      | bump k => exact Counters.sound_bump hs k
      | _ => exact hs
    | reach f rest => exact State.CountersSound.applyReach (s := { s with rx := rest }) hs _ _ _ _
    | clear => exact Counters.sound_zero
    | power => exact Counters.sound_zero
    | _ => exact hs
  configured _ _ hs := hs
  afterReleases _ := Counters.sound_zero
  listening hs := hs

/-! ## Route lists (R80) -/

theorem State.RoutesSound.prune {s : State} (h : s.RoutesSound) (gone : Nat → Candidate → Bool) :
    ({ s with routes := pruneRoutes gone s.routes } : State).RoutesSound :=
  pruneRoutes_sound h gone

theorem State.routesSound_nil {s : State} (h : s.routes = []) : s.RoutesSound := by
  intro p hp; rw [h] at hp; cases hp

theorem stepKept_routesSound : StepKept State.RoutesSound where
  edit {s t} h hs := by
    cases h with
    | circuit _ h =>
      cases h with
      | route c d hd =>
        intro p hp
        rcases Tab.mem_put hp with rfl | hp
        · exact ⟨hd, enterCandidate_sound (routesSound_list hs d)⟩
        · exact hs p hp
      | prune gone => exact hs.prune gone
      | _ => exact hs
    | reach => exact State.applyReach_sound _ _ _ _ hs
    | forget => exact hs.prune _
    | listen => exact State.routesSound_nil rfl
    | clear => exact State.routesSound_nil rfl
    | power => exact State.routesSound_nil rfl
    | _ => exact hs
  configured _ _ hs := hs
  afterReleases hs := hs
  listening _ := State.routesSound_nil rfl

/-! ## Rate entries (R128) -/

theorem stepKept_ratesSound : StepKept State.RatesSound where
  edit {s t} h hs := by
    cases h with
    | circuit _ h => rw [h.frame.eq]; exact hs
    | reach => rw [applyReach_frame]; exact hs
    | rate f rest k setup rate m0 m1 m2 m3 hrx hm hk =>
      intro p hp
      rcases Tab.mem_put hp with rfl | hp
      · exact ⟨hk, Nat.le_max_left .., Nat.le_max_left .., Nat.le_max_left .., Nat.le_max_left ..⟩
      · exact hs p hp
    | rateDel k => exact fun p hp => hs p (Tab.mem_del.1 hp).1
    | power => exact (fun _ hp => nomatch hp)
    | _ => exact hs
  configured _ _ hs := hs
  afterReleases hs := hs
  listening hs := hs

/-! ## Tally banks (R148, R149, R159) -/

theorem Bank.sound_empty (p : Period) : (Bank.empty p).Sound := by
  refine ⟨Nat.zero_le _, List.nodup_nil, (fun _ he => nomatch he), ?_⟩
  simp [Sums.InRange, Bank.empty]

theorem stepKept_tallySound : StepKept State.TallySound where
  edit {s t} h hs := by
    cases h with
    | circuit _ h => rw [h.frame.eq]; exact hs
    | reach => rw [applyReach_frame]; exact hs
    | post r rec gr commit p =>
      obtain ⟨hopen, hclosed, hheld, hperiod⟩ := hs
      exact ⟨Bank.sound_post hopen _ _ _, hclosed, hheld, (Bank.period_post ..).trans hperiod⟩
    | close =>
      obtain ⟨hopen, -, -, -⟩ := hs
      exact ⟨Bank.sound_empty _, hopen, (fun hheld => nomatch hheld), rfl⟩
    | ack =>
      obtain ⟨hopen, -, -, hperiod⟩ := hs
      exact ⟨hopen, Bank.sound_empty _, fun _ => rfl, hperiod⟩
    | power => exact ⟨Bank.sound_empty _, Bank.sound_empty _, fun _ => rfl, rfl⟩
    | _ => exact hs
  configured _ _ hs := hs
  afterReleases hs := hs
  listening hs := hs

/-! ## The receive queue, and the upper ends of rate values (R128, R166) -/

theorem State.RxSound.rest {s : State} (h : s.RxSound) {f : RxFrame} {rest : List RxFrame} (hrx : s.rx = f :: rest) :
    ({ s with rx := rest } : State).RxSound := by
  obtain ⟨hlen, hframes⟩ := h
  rw [hrx] at hlen hframes
  exact ⟨(Nat.le_succ _).trans hlen, fun g hg => hframes g (List.mem_cons_of_mem _ hg)⟩

theorem State.rxSound_nil {s : State} (h : s.rx = []) : s.RxSound := by
  refine ⟨by simp [h], fun f hf => ?_⟩
  rw [h] at hf; cases hf

/-- Every elementary change keeps the receive queue sound. -/
theorem Edit.rxSound {s t : State} (h : Edit s t) (hs : s.RxSound) : t.RxSound := by
  cases h with
  | circuit _ h => rw [h.frame.eq]; exact hs
  | rate f rest k setup rate m0 m1 m2 m3 hrx hm hk => exact hs.rest hrx
  | reach f rest g carrier pref first count hrx => rw [applyReach_frame]; exact hs.rest hrx
  | take f rest hrx => exact hs.rest hrx
  | receive f hr hl hf =>
    refine ⟨?_, fun g hg => ?_⟩
    · rw [List.length_append]; exact hl
    · rcases List.mem_append.1 hg with hg | hg
      · exact hs.2 g hg
      · rw [List.mem_singleton.1 hg]; exact hf
  | quiet st => exact State.rxSound_nil rfl
  | power => exact State.rxSound_nil rfl
  | _ => exact hs

/-- A sound receive queue and rate values up to 65535 stay so together. -/
theorem Edit.ratesInRange {s t : State} (h : Edit s t) (hs : s.RxSound ∧ s.RatesInRange) :
    t.RxSound ∧ t.RatesInRange := by
  refine ⟨h.rxSound hs.1, ?_⟩
  obtain ⟨hrx, hs⟩ := hs
  cases h with
  | circuit _ h => rw [h.frame.eq]; exact hs
  | reach => rw [applyReach_frame]; exact hs
  | rate f rest k setup rate m0 m1 m2 m3 hf hm hk =>
    intro p hp
    rcases Tab.mem_put hp with rfl | hp
    · have hfits := (hrx.2 f (by rw [hf]; exact List.mem_cons_self)).2.1
      rw [hm] at hfits
      simp only [Msg.fits, decide_eq_true_eq] at hfits
      simp only
      omega
    · exact hs p hp
  | rateDel k => exact fun p hp => hs p (Tab.mem_del.1 hp).1
  | power => exact (fun _ hp => nomatch hp)
  | _ => exact hs

theorem step_ratesInRange {s t : State} (hstep : step s = .next t) (hrx : s.RxSound) (hs : s.RatesInRange) :
    t.RatesInRange := by
  rcases step_edits hstep with he | ⟨image, rest, -, -, -, -, rfl⟩
  · exact (he.keeps (fun _ _ => Edit.ratesInRange) ⟨hrx, hs⟩).2
  · obtain ⟨u, hreleases, hreaches⟩ := readGood_parts { s with pending := rest, reading := false } image
    have hrates : ∀ p : State, p.rates = s.rates → p.RatesInRange := fun p hp => by
      rw [State.RatesInRange, hp]; exact hs
    exact hrates _ (hreaches.frame.rates.trans hreleases.frame.rates)

/-! ## The upper ends of the candidates' values (R80) -/

/-- A group record that a route list may name: its global number is 0 to 511, and both its preferences are within their
ends. -/
def Group.Reachable (g : Group) : Prop := g.global ≤ 511 ∧ g.cfg.preference ≤ 14 ∧ g.effPref ≤ 15

theorem effectivePref_le {preference : Nat} (h : preference ≤ 14) (d : Bool) : effectivePref preference d ≤ 15 := by
  unfold effectivePref; split <;> omega

theorem Group.Reachable.kept {g0 g : Group} (h : g0.Reachable) (hk : GroupKept g0 g) : g.Reachable := by
  obtain ⟨hglobal, hpref, heff⟩ := h
  refine ⟨hk.global ▸ hglobal, hk.cfg ▸ hpref, ?_⟩
  rcases hk.pref with he | ⟨d, he⟩
  · rw [he]; exact heff
  · rw [he]; exact effectivePref_le hpref d

/-- What keeps the candidates in their ranges: the frames of the receive queue, and the group records. -/
structure State.RangesKept (s : State) : Prop where
  rx : s.RxSound
  groups : ∀ p ∈ s.groups, p.2.Reachable
  routes : s.RoutesInRange

theorem State.RoutesInRange.routeList {s : State} (h : s.RoutesInRange) {d : Nat} {c : Candidate}
    (hc : c ∈ s.routeList d) : c.group ≤ 511 ∧ c.pref ≤ 15 := by
  unfold State.routeList at hc
  cases hf : Tab.find s.routes d with
  | none => simp [hf] at hc
  | some l => exact h _ (Tab.mem_of_find hf) c (by simpa [hf] using hc)

theorem State.RoutesInRange.put {s : State} (h : s.RoutesInRange) {c : Candidate} (hg : c.group ≤ 511)
    (hp : c.pref ≤ 15) (d : Nat) :
    ({ s with routes := Tab.put s.routes d (enterCandidate c (s.routeList d)).1 } : State).RoutesInRange := by
  intro p hp' e he
  rcases Tab.mem_put hp' with rfl | hp'
  · rcases mem_enterCandidate he with rfl | he
    · exact ⟨hg, hp⟩
    · exact h.routeList he
  · exact h p hp' e he

theorem mem_pruneRoutes {gone : Nat → Candidate → Bool} {t : Tab (List Candidate)} {p : Nat × List Candidate}
    (hp : p ∈ pruneRoutes gone t) {c : Candidate} (hc : c ∈ p.2) : ∃ q ∈ t, c ∈ q.2 := by
  obtain ⟨q, hq, he⟩ := List.mem_filterMap.1 hp
  simp only at he
  split at he
  · cases he
  · cases he; exact ⟨q, hq, (List.mem_filter.1 hc).1⟩

theorem State.RoutesInRange.prune {s : State} (h : s.RoutesInRange) (gone : Nat → Candidate → Bool) :
    ({ s with routes := pruneRoutes gone s.routes } : State).RoutesInRange := by
  intro p hp c hc
  obtain ⟨q, hq, hc⟩ := mem_pruneRoutes hp hc
  exact h q hq c hc

theorem State.RoutesInRange.enterReaches {s : State} (h : s.RoutesInRange) {c : Candidate} (hg : c.group ≤ 511)
    (hp : c.pref ≤ 15) (dests : List Nat) : (s.enterReaches c dests).RoutesInRange := by
  induction dests generalizing s with
  | nil => exact h
  | cons d ds ih =>
    rw [State.enterReaches_cons]
    refine ih ?_
    rw [State.RoutesInRange, State.enterReach_routes]
    exact h.put hg hp d

theorem State.RoutesInRange.applyReach {s : State} (h : s.RoutesInRange) {g pref : Nat} (hg : g ≤ 511)
    (hp : pref ≤ 15) (first count : Nat) : (s.applyReach g pref first count).RoutesInRange := by
  have henter := h.enterReaches (c := { group := g, pref := pref }) hg hp (reachDests first count)
  exact henter.prune _

theorem State.routesInRange_nil {s : State} (h : s.routes = []) : s.RoutesInRange := by
  intro p hp; rw [h] at hp; cases hp

/-- The source of a received REACH is an engine, so the groups it may name are 0 to 511 (R167). -/
theorem State.RxSound.reach_source {s : State} (h : s.RxSound) {f : RxFrame} {rest : List RxFrame}
    (hrx : s.rx = f :: rest) {g carrier pref first count : Nat} (hm : f.msg = .reach g carrier pref first count) :
    f.source < 32 := by
  obtain ⟨-, -, hsuits, -⟩ := h.2 f (by rw [hrx]; exact List.mem_cons_self)
  rw [hm] at hsuits
  simpa [Msg.suits, Msg.cls, classOfKind, Msg.kind] using hsuits

theorem Group.restarted_cfg (g : Group) (now : Clock) : (g.restarted now).cfg = g.cfg := rfl

/-- Every elementary change keeps the group records such that a route list may name them. -/
theorem Edit.reachable {s t : State} (h : Edit s t) (hs : ∀ p ∈ s.groups, p.2.Reachable) :
    ∀ p ∈ t.groups, p.2.Reachable := by
  cases h with
  | circuit _ h =>
    cases h with
    | group li g g0 h0 hk =>
      intro p hp
      rcases Tab.mem_put hp with rfl | hp
      · exact (hs _ (Tab.mem_of_find h0)).kept hk
      · exact hs p hp
    | _ => exact hs
  | reach => rw [applyReach_groups]; exact hs
  | listen =>
    intro p hp
    obtain ⟨q, hq, rfl⟩ := List.mem_map.1 hp
    exact hs q hq
  | hunts =>
    intro p hp
    obtain ⟨q, hq, rfl⟩ := List.mem_map.1 hp
    exact hs q hq
  | clear => exact (fun _ hp => nomatch hp)
  | power => exact (fun _ hp => nomatch hp)
  | _ => exact hs

/-- Changes inside the circuit, load, fault, hold and reach units enter own groups only. -/
theorem CircuitEdit.routesInRange {s t : State} (h : CircuitEdit s t) (hgroups : ∀ p ∈ s.groups, p.2.Reachable)
    (hs : s.RoutesInRange) : t.RoutesInRange := by
  cases h with
  | route c d _ hown =>
    obtain ⟨p, hp, hg, hpref⟩ := hown
    obtain ⟨hglobal, -, heff⟩ := hgroups p hp
    exact hs.put (hg ▸ hglobal) (hpref ▸ heff) d
  | prune gone => exact hs.prune gone
  | _ => exact hs

theorem Edit.rangesKept {s t : State} (h : Edit s t) (hs : s.RangesKept) : t.RangesKept := by
  refine ⟨h.rxSound hs.rx, h.reachable hs.groups, ?_⟩
  obtain ⟨hrx, hgroups, hroutes⟩ := hs
  cases h with
  | circuit _ h => exact h.routesInRange hgroups hroutes
  | reach f rest g carrier pref first count hf hm hg hp =>
    have hsource := hrx.reach_source hf hm
    exact State.RoutesInRange.applyReach (s := { s with rx := rest }) hroutes (by omega) hp first count
  | forget => exact hroutes.prune _
  | listen => exact State.routesInRange_nil rfl
  | clear => exact State.routesInRange_nil rfl
  | power => exact State.routesInRange_nil rfl
  | _ => exact hroutes

/-! ## What an image configures (R175, R181, R182) -/

theorem decodeGroup_inRange {image : List Byte} {li : Nat} {c : GroupConfig} (h : decodeGroup image li = some c) :
    c.InRange := by
  unfold decodeGroup at h
  extract_lets o first yellow amberFloor at h
  split at h
  · cases h
    have hs := field2_lt image (o + 15)
    have hfirst : first ≤ 1023 := by simp only [first, clamp]; omega
    have hyellow : yellow ≤ 256 := by simp only [yellow, clamp]; omega
    have hamber : amberFloor ≤ 7 := by simp only [amberFloor, clamp]; omega
    simp only [GroupConfig.InRange, clamp]
    omega
  · cases h

theorem mem_presentGroups {image : List Byte} {p : Nat × GroupConfig} (h : p ∈ presentGroups image) :
    p.1 < 16 ∧ decodeGroup image p.1 = some p.2 := by
  obtain ⟨li, hli, he⟩ := List.mem_filterMap.1 h
  cases hd : decodeGroup image li with
  | none => simp [hd] at he
  | some c =>
    simp only [hd, Option.map_some, Option.some.injEq] at he
    subst he
    exact ⟨List.mem_range.1 hli, hd⟩

/-- The groups within the budget are the first of the present ones (R182). -/
theorem withinBudget_prefix (used : Nat) (l : Tab GroupConfig) : (withinBudget used l).1 <+: l := by
  induction l generalizing used with
  | nil => exact List.prefix_rfl
  | cons p l ih =>
    obtain ⟨li, g⟩ := p
    unfold withinBudget
    split
    · exact (List.prefix_cons_inj _).2 (ih _)
    · exact List.nil_prefix

/-- A configured group stands under a local index 0 to 15, with its fields in their ranges. -/
theorem mem_withinBudget {used : Nat} {image : List Byte} {p : Nat × GroupConfig}
    (h : p ∈ (withinBudget used (presentGroups image)).1) : p.1 < 16 ∧ p.2.InRange := by
  obtain ⟨hli, hd⟩ := mem_presentGroups ((withinBudget_prefix _ _).subset h)
  exact ⟨hli, decodeGroup_inRange hd⟩

/-- The two ways a group is established: continued with the new fields, or built (R6, R7). -/
theorem establishedGroup_cases (old : Option Group) (address li : Nat) (cfg : GroupConfig) (now : Clock) :
    (∃ g, old = some g ∧ continues old cfg = true ∧
      establishedGroup old address li cfg now = { g with cfg := cfg, global := 16 * address + li }) ∨
    (continues old cfg = false ∧ establishedGroup old address li cfg now = builtGroup address li cfg now) := by
  unfold establishedGroup
  cases old with
  | none => exact .inr ⟨rfl, rfl⟩
  | some g =>
    simp only
    split
    · exact .inl ⟨g, rfl, ‹_›, rfl⟩
    · rename_i hc
      exact .inr ⟨Bool.not_eq_true _ ▸ hc, rfl⟩

theorem configured_reachable {s : State} {image : List Byte} (ha : field image 0 1 ≤ 31)
    (hs : ∀ p ∈ s.groups, p.2.Reachable) : ∀ p ∈ (s.configured image).groups, p.2.Reachable := by
  intro p hp
  obtain ⟨q, hq, rfl⟩ := List.mem_map.1 hp
  obtain ⟨hli, hrange⟩ := mem_withinBudget hq
  have hpref : q.2.preference ≤ 14 := hrange.2.2.2.2.2.1
  rcases establishedGroup_cases (Tab.find s.groups q.1) (field image 0 1) q.1 q.2 s.clock with
    ⟨g, hg, -, he⟩ | ⟨-, he⟩ <;> simp only [he]
  · exact ⟨by show 16 * _ + _ ≤ 511; omega, hpref, (hs _ (Tab.mem_of_find hg)).2.2⟩
  · exact ⟨by show 16 * _ + _ ≤ 511; omega, hpref, hpref.trans (by omega)⟩

theorem step_routesInRange {s t : State} (hstep : step s = .next t) (hrx : s.RxSound)
    (hgroups : ∀ p ∈ s.groups, p.2.Reachable) (hs : s.RoutesInRange) : t.RoutesInRange := by
  rcases step_edits hstep with he | ⟨image, rest, -, -, -, ha, rfl⟩
  · exact (he.keeps (fun _ _ => Edit.rangesKept) ⟨hrx, hgroups, hs⟩).routes
  · obtain ⟨u, hreleases, hreaches⟩ := readGood_parts { s with pending := rest, reading := false } image
    have hu : ∀ p ∈ u.groups, p.2.Reachable :=
      hreleases.edits.keeps (P := fun s => ∀ p ∈ s.groups, p.2.Reachable) (fun _ _ => Edit.reachable)
        (configured_reachable ha hgroups)
    have hl : ∀ p ∈ u.afterReleases.listening.groups, p.2.Reachable := by
      intro p hp
      obtain ⟨q, hq, rfl⟩ := List.mem_map.1 hp
      obtain ⟨o, ho, rfl⟩ := List.mem_map.1 hq
      obtain ⟨hglobal, hpref, -⟩ := hu o ho
      exact ⟨hglobal, hpref, effectivePref_le hpref _⟩
    have hkeep : ∀ {a b : State}, CircuitEdit a b → (∀ p ∈ a.groups, p.2.Reachable) ∧ a.RoutesInRange →
        (∀ p ∈ b.groups, p.2.Reachable) ∧ b.RoutesInRange := by
      intro a b h hab
      exact ⟨(Edit.circuit a b h).reachable hab.1, h.routesInRange hab.1 hab.2⟩
    exact (hreaches.keeps (fun _ _ => hkeep) ⟨hl, State.routesInRange_nil rfl⟩).2

end Sys2Proof.Machine
end

section
/-! Settles O2 and O56. What the commands of the call unit leave unchanged, said once; so no command touches the queue
of commands, and the pairs of the banks come from the banks and the call records as they stood. -/

namespace Sys2Proof.Machine

/-- What no operation of the call unit touches, and none of the operations it calls. -/
structure CallFrame (s t : State) : Prop where
  eq : t = { s with
    counters := t.counters, groups := t.groups, suspects := t.suspects, slots := t.slots, routes := t.routes
    views := t.views, calls := t.calls, serial := t.serial, roster := t.roster, tx := t.tx, rx := t.rx
    draws := t.draws }

theorem CallFrame.refl (s : State) : CallFrame s s := ⟨rfl⟩

theorem CallFrame.trans {s t u : State} (h : CallFrame s t) (h' : CallFrame t u) : CallFrame s u :=
  ⟨by rw [h'.eq, h.eq]⟩

theorem CircuitFrame.call {s t : State} (h : CircuitFrame s t) : CallFrame s t := ⟨by rw [h.eq]⟩

theorem CircuitEdits.callFrame {s t : State} (h : CircuitEdits s t) : CallFrame s t := h.frame.call

theorem CallFrame.foldl {α : Type} {f : State → α → State} (h : ∀ s a, CallFrame s (f s a)) (l : List α) (s : State) :
    CallFrame s (l.foldl f s) := by
  induction l generalizing s with
  | nil => exact .refl s
  | cons a l ih => exact (h s a).trans (ih _)

/-! ## The operations of the call unit -/

theorem send_callFrame (s : State) (d : Nat) (m : Msg) : CallFrame s (s.send d m) := (send_edits s d m).callFrame

theorem bump_callFrame (s : State) (k : Counter) : CallFrame s (s.bump k) := ⟨rfl⟩

theorem putRecord_callFrame (s : State) (r : Nat) (rec : CallRecord) : CallFrame s (s.putRecord r rec) := ⟨rfl⟩

theorem freeRecord_callFrame (s : State) (r : Nat) : CallFrame s (s.freeRecord r) := ⟨rfl⟩

theorem endDrop_callFrame (s : State) (rec : CallRecord) (gr : Grant) : CallFrame s (s.endDrop rec gr) :=
  (endDrop_edits s rec gr).callFrame

theorem markRecord_callFrame (s : State) (r : Nat) : CallFrame s (s.markRecord r) := by
  unfold State.markRecord
  split
  · exact .refl s
  · split <;> exact ⟨rfl⟩

theorem markReleased_callFrame (s : State) (r : Nat) : CallFrame s (s.markReleased r) := by
  unfold State.markReleased
  split
  · exact .refl s
  · extract_lets s'
    split <;> exact ⟨rfl⟩

theorem markCircuit_callFrame (s : State) (group circuit : Nat) : CallFrame s (s.markCircuit group circuit) := by
  refine CallFrame.foldl (fun s p => ?_) _ s
  split
  · exact markReleased_callFrame s _
  · exact .refl s

theorem offerCall_callFrame (s : State) (r : Nat) (b : CallBase) (group : Nat) (gr : Grant) :
    CallFrame s (s.offerCall r b group gr) :=
  (send_callFrame s _ _).trans (putRecord_callFrame _ _ _)

theorem congested_callFrame (s : State) (r : Nat) (b : CallBase) : CallFrame s (s.congested r b) :=
  ((send_callFrame s _ _).trans (bump_callFrame _ _)).trans (freeRecord_callFrame _ _)

theorem select_callFrame (fuel : Nat) : ∀ (s : State) (r : Nat) (b : CallBase), CallFrame s (s.select r b fuel) := by
  induction fuel with
  | zero => exact congested_callFrame
  | succ fuel ih =>
    intro s r b
    unfold State.select
    split
    · exact congested_callFrame s r b
    · rename_i c _
      extract_lets b' s1
      split
      · have hask := (requestHold_edits s s.address 0 c.group b'.prec).callFrame
        split <;> rename_i hq <;> rw [hq] at hask
        · exact hask.trans (offerCall_callFrame ..)
        · exact hask.trans (ih _ _ _)
      · have hserial : CallFrame s s1 := ⟨rfl⟩
        have hoffer := (offer_edits s1 (c.group / 16) (.holdAsk s1.serial.toNat r c.group b'.prec)).callFrame
        split <;> rename_i hq <;> rw [hq] at hoffer
        · exact (hserial.trans hoffer).trans (putRecord_callFrame ..)
        · exact (hserial.trans hoffer).trans (ih _ _ _)

theorem crankback_callFrame (s : State) (r : Nat) (b : CallBase) (o : AttemptOutcome) :
    CallFrame s (s.crankback r b o) :=
  select_callFrame _ s r _

theorem seize_callFrame (s : State) (r : Nat) (rec : CallRecord) (gr : Grant) : CallFrame s (s.seize r rec gr) := by
  unfold State.seize
  split
  · have htake := (takeHold_edits s s.address gr.slot gr.generation rec.group gr.circuit).callFrame
    split <;> rename_i hq <;> rw [hq] at htake
    · exact htake.trans (putRecord_callFrame ..)
    · exact (htake.trans (putRecord_callFrame ..)).trans (markRecord_callFrame _ _)
  · have hoffer := (offer_edits s (rec.group / 16) (.holdTake gr.slot gr.generation rec.group gr.circuit)).callFrame
    split <;> rename_i hq <;> rw [hq] at hoffer
    · exact hoffer.trans (putRecord_callFrame ..)
    · exact (hoffer.trans (putRecord_callFrame ..)).trans (markRecord_callFrame _ _)

theorem connect_callFrame (s : State) (r : Nat) : CallFrame s (s.connect r) := by
  unfold State.connect
  split
  · split <;> exact ⟨rfl⟩
  · exact .refl s

theorem reportFault_callFrame (s : State) (rec : CallRecord) (gr : Grant) : CallFrame s (s.reportFault rec gr) :=
  (reportFault_edits s rec gr).callFrame

theorem failAttempt_callFrame (s : State) (r : Nat) : CallFrame s (s.failAttempt r) := by
  unfold State.failAttempt
  split
  · exact .refl s
  · split
    · exact crankback_callFrame ..
    · exact .refl s

theorem peerGone_callFrame (s : State) (peer : Nat) : CallFrame s (s.peerGone peer) := by
  have hforget : CallFrame s (s.forgetPeer peer) := ⟨rfl⟩
  exact (hforget.trans (CallFrame.foldl failAttempt_callFrame _ _)).trans (freeHoldsOf_edits _ _).callFrame

/-! ## The commands that take a frame -/

/-- A command that takes a frame leaves unchanged what its block does. -/
theorem takeFrame_callFrame (s : State) {act : RxFrame → Option (State → State)}
    (h : ∀ f k, act f = some k → ∀ t, CallFrame t (k t)) : CallFrame s (s.takeFrame act) := by
  unfold State.takeFrame
  split
  · exact .refl s
  · split
    · exact .refl s
    · rename_i k hk
      extract_lets s1
      have h1 : CallFrame s s1 := ⟨rfl⟩
      split
      · exact h1.trans (h _ k hk s1)
      · exact h1

theorem takeGive_callFrame (s : State) (src serial ref group slot gen c t carrier band : Nat) :
    CallFrame s (s.takeGive src serial ref group slot gen c t carrier band) := by
  unfold State.takeGive
  split
  · split
    · exact offerCall_callFrame ..
    · exact (send_callFrame ..).trans (bump_callFrame ..)
  · exact bump_callFrame ..

theorem viewDeny_callFrame (s : State) (group : Nat) (b : Band) : CallFrame s (s.viewDeny group b) := by
  unfold State.viewDeny
  split <;> exact ⟨rfl⟩

theorem takeDeny_callFrame (s : State) (src serial ref group reason band : Nat) :
    CallFrame s (s.takeDeny src serial ref group reason band) := by
  unfold State.takeDeny
  split
  · split
    · exact bump_callFrame ..
    · rename_i o bd _ _ _
      refine (viewDeny_callFrame s group bd).trans ?_
      extract_lets s1
      split
      · exact crankback_callFrame ..
      · exact .refl _
  · exact bump_callFrame ..

theorem takeLost_callFrame (s : State) (src slot gen group c : Nat) : CallFrame s
    (s.takeLost src slot gen group c) := by
  unfold State.takeLost
  split
  · exact .refl s
  · exact markRecord_callFrame ..
  · have hdraw : CallFrame s { s with draws := s.draws + 1 } := ⟨rfl⟩
    exact hdraw.trans (markRecord_callFrame ..)

theorem takeRouteAsk_callFrame (s : State) (client tag dest prec origin : Nat) :
    CallFrame s (s.takeRouteAsk client tag dest prec origin) := by
  unfold State.takeRouteAsk
  split
  · exact bump_callFrame ..
  · repeat' split
    all_goals first
      | exact send_callFrame ..
      | exact select_callFrame ..

theorem seizeFrame_callFrame (s : State) (want : Nat) {act : State → Nat → CallRecord → Option State}
    (h : ∀ s r rec t, act s r rec = some t → CallFrame s t) : CallFrame s (s.seizeFrame want act) := by
  refine takeFrame_callFrame s fun f k hk t => ?_
  split at hk
  · split at hk
    · cases hk
      simp only
      split
      · split
        · cases ha : act t _ _ with
          | none => exact bump_callFrame ..
          | some u => exact h t _ _ u ha
        · exact bump_callFrame ..
      · exact bump_callFrame ..
    · split at hk
      · cases hk
      · cases hk; exact bump_callFrame ..
  · cases hk

theorem clearUnanswered_callFrame (s : State) (r : Nat) (rec : CallRecord) :
    CallFrame s (s.clearUnanswered r rec) := by
  refine CallFrame.trans (CallFrame.trans ?_ (send_callFrame ..)) (freeRecord_callFrame ..)
  split
  · exact endDrop_callFrame ..
  · exact .refl s

theorem clearOrphan_callFrame (s : State) (client tag group c : Nat) :
    CallFrame s (s.clearOrphan client tag group c) := by
  refine CallFrame.trans (CallFrame.trans (bump_callFrame s .orphanClears) ?_) (send_callFrame ..)
  split
  · have hdrop := (dropHold_edits (s.bump .orphanClears) (s.bump .orphanClears).address none group c).callFrame
    split <;> rename_i hq <;> rw [hq] at hdrop
    · exact hdrop.trans (markCircuit_callFrame ..)
    · exact hdrop
  · exact send_callFrame ..

theorem controlFrame_callFrame (s : State) (want : Nat) {act : State → Nat → Group → Nat → State × Bool}
    (h : ∀ s li g n, Tab.find s.groups li = some g → CallFrame s (act s li g n).1) :
    CallFrame s (s.controlFrame want act) := by
  refine takeFrame_callFrame s fun f k hk t => ?_
  split at hk
  · split at hk
    · cases hk
      simp only
      unfold State.control
      split
      · exact .refl t
      · split
        · exact send_callFrame ..
        · rename_i li g hg
          have hact := fun n => h t li g n (ownGroup_some hg).2.2
          generalize (if _ = 4 then g.cfg.working + g.cfg.spares else g.cfg.working) = top
          split
          · exact send_callFrame ..
          · rename_i n _ _ _ _ _
            have hn := hact n
            split <;> rename_i hq <;> rw [hq] at hn <;> exact hn.trans (send_callFrame ..)
    · cases hk
  · cases hk

theorem forceCircuit_callFrame (s : State) (li : Nat) (g : Group) (n : Nat) (hf : Tab.find s.groups li = some g) :
    CallFrame s (forceCircuit s li g n).1 := by
  have hmark : ∀ (t : State) (u c : Nat), CallFrame t (t.markForced u g.global c) := fun t u c => by
    unfold State.markForced
    split
    · exact markCircuit_callFrame ..
    · exact .refl t
  unfold forceCircuit
  split
  · rename_i k _ _ _
    have hfree := (freeSlot_edits s k).callFrame
    exact (hfree.trans (endUse_edits _ (by simpa using hf) ..).callFrame).trans (hmark ..)
  · exact (endUse_edits s hf ..).callFrame.trans (hmark ..)
  · exact .refl s

theorem takeReach_callFrame (s : State) (src g carrier pref first count : Nat) :
    CallFrame s (s.takeReach src g carrier pref first count) := by
  unfold State.takeReach
  split
  · exact bump_callFrame ..
  · split
    · exact .refl s
    · split
      · exact ⟨by rw [applyReach_frame]⟩
      · exact bump_callFrame ..

theorem takeLoad_callFrame (s : State) (src g band fl su free : Nat) :
    CallFrame s (s.takeLoad src g band fl su free) := by
  unfold State.takeLoad
  split
  · split <;> exact ⟨rfl⟩
  · exact bump_callFrame ..

theorem admitFrame_callFrame (s : State) (w : WireFrame) : CallFrame s (s.admitFrame w) := by
  unfold State.admitFrame
  split
  · exact bump_callFrame ..
  · split
    · exact bump_callFrame ..
    · split
      · exact bump_callFrame ..
      · split
        · extract_lets s1
          have h1 : CallFrame s s1 := bump_callFrame ..
          split
          · exact h1.trans (send_callFrame ..)
          · exact h1
        · split
          · exact ⟨rfl⟩
          · exact bump_callFrame ..

/-! ## The commands -/

/-- The queue of commands and the entries of both banks are as they were. -/
structure BooksKept (s t : State) : Prop where
  pending : t.pending = s.pending
  openBank : t.openBank = s.openBank
  closedBank : t.closedBank = s.closedBank

theorem BooksKept.trans {s t u : State} (h : BooksKept s t) (h' : BooksKept t u) : BooksKept s u :=
  ⟨h'.pending.trans h.pending, h'.openBank.trans h.openBank, h'.closedBank.trans h.closedBank⟩

theorem CallFrame.books {s t : State} (h : CallFrame s t) : BooksKept s t :=
  ⟨by rw [h.eq], by rw [h.eq], by rw [h.eq]⟩

theorem CircuitEdits.books {s t : State} (h : CircuitEdits s t) : BooksKept s t := h.callFrame.books

theorem takeFrame_books (s : State) {act : RxFrame → Option (State → State)}
    (h : ∀ f k, act f = some k → ∀ t, BooksKept t (k t)) : BooksKept s (s.takeFrame act) := by
  unfold State.takeFrame
  split
  · exact ⟨rfl, rfl, rfl⟩
  · split
    · exact ⟨rfl, rfl, rfl⟩
    · rename_i k hk
      extract_lets s1
      have h1 : BooksKept s s1 := ⟨rfl, rfl, rfl⟩
      split
      · exact h1.trans (h _ k hk s1)
      · exact h1

theorem readGood_books (s : State) (image : List Byte) : BooksKept s (s.readGood image) := by
  obtain ⟨u, hreleases, hreaches⟩ := readGood_parts s image
  have h1 : BooksKept s (s.configured image) := ⟨rfl, rfl, rfl⟩
  have h2 : BooksKept u u.afterReleases.listening := ⟨rfl, rfl, rfl⟩
  exact ((h1.trans hreleases.books).trans h2).trans hreaches.books

theorem softReset_books (s : State) : BooksKept s s.softReset := by
  have h1 : BooksKept s (s.quiet .starting) := ⟨rfl, rfl, rfl⟩
  have h2 := (emptyHolds_edits (s.quiet .starting)).books
  have h3 : ∀ u : State, BooksKept u
      ({ u with groups := u.groups.map fun p => (p.1, { p.2 with huntPtr := 0 }) } : State).listening :=
    fun _ => ⟨rfl, rfl, rfl⟩
  exact ((h1.trans h2).trans (h3 _)).trans (enterListen_circuitEdits _).books

theorem takePresent_books (s : State) (src code : Nat) : BooksKept s (s.takePresent src code) := by
  unfold State.takePresent
  split
  · have h1 : BooksKept s (s.quiet .halted) := ⟨rfl, rfl, rfl⟩
    exact h1.trans (emptyHolds_edits _).books
  · split
    · exact ((peerGone_callFrame s src).books.trans (setOfReach_edits _).books).trans (setOfLoads_edits _).books
    · split
      · exact ⟨rfl, rfl, rfl⟩
      · exact (bump_callFrame ..).books

theorem takeRateSet_books (s : State) (src carrier a r m0 m1 m2 m3 : Nat) :
    BooksKept s (s.takeRateSet src carrier a r m0 m1 m2 m3) := by
  unfold State.takeRateSet
  split
  · exact (send_callFrame ..).books
  · extract_lets e
    have h1 : BooksKept s { s with rates := Tab.put s.rates carrier e } := ⟨rfl, rfl, rfl⟩
    exact h1.trans (send_callFrame ..).books

theorem takeRateClear_books (s : State) (src carrier : Nat) : BooksKept s (s.takeRateClear src carrier) := by
  unfold State.takeRateClear
  split
  · exact (send_callFrame ..).books
  · split
    · have h1 : BooksKept s { s with rates := Tab.del s.rates carrier } := ⟨rfl, rfl, rfl⟩
      exact h1.trans (send_callFrame ..).books
    · exact (send_callFrame ..).books

/-- Every command but POWER_ON, CALL_CLEAR, PERIOD_CLOSE and TALLY_ACK. -/
def Instr.leavesBooks : Instr → Bool
  | .powerOn => false
  | .callClear => false
  | .periodClose => false
  | .tallyAck => false
  | _ => true

theorem exec_books {c : Instr} {s t : State} (hc : Instr.leavesBooks c = true) (h : exec c s = .next t) :
    BooksKept s t := by
  cases c <;> simp only [exec] at h <;> cases h
  case powerOn => cases hc
  case callClear => cases hc
  case periodClose => cases hc
  case tallyAck => cases hc
  case bprstAsserted => exact ⟨rfl, rfl, rfl⟩
  case bprstReleased => split <;> exact ⟨rfl, rfl, rfl⟩
  case configReadComplete image =>
    split
    · extract_lets s1
      have h1 : BooksKept s s1 := ⟨rfl, rfl, rfl⟩
      split
      · exact h1.trans (readGood_books s1 image)
      · exact ⟨rfl, rfl, rfl⟩
    · exact ⟨rfl, rfl, rfl⟩
  case listenDeadline =>
    split
    · exact ⟨rfl, rfl, rfl⟩
    · split
      · extract_lets src s1
        have h1 : BooksKept s s1 := ⟨rfl, rfl, rfl⟩
        exact ((h1.trans (send_callFrame s1 _ _).books).trans (setOfReach_edits _).books).trans
            (setOfLoads_edits _).books
      · exact ⟨rfl, rfl, rfl⟩
  case announceDeadline =>
    split
    · exact ⟨rfl, rfl, rfl⟩
    · split
      · have h1 := (announceSet_edits s).books
        exact ⟨h1.pending, h1.openBank, h1.closedBank⟩
      · exact ⟨rfl, rfl, rfl⟩
  case reachDeadline =>
    split
    · exact ⟨rfl, rfl, rfl⟩
    · split
      · have h1 := (setOfReach_edits s).books
        exact ⟨h1.pending, h1.openBank, h1.closedBank⟩
      · exact ⟨rfl, rfl, rfl⟩
  case holdExpiry k =>
    split
    · exact ⟨rfl, rfl, rfl⟩
    · split
      · exact (endHold_edits s k).books.trans (bump_callFrame ..).books
      · exact ⟨rfl, rfl, rfl⟩
  case answerTimeout r =>
    split
    · exact ⟨rfl, rfl, rfl⟩
    · split
      · split
        · exact ((bump_callFrame ..).trans (crankback_callFrame ..)).books
        · exact ⟨rfl, rfl, rfl⟩
      · exact ⟨rfl, rfl, rfl⟩
  case offerTimeout r =>
    split
    · exact ⟨rfl, rfl, rfl⟩
    · split
      · split
        · exact (((endDrop_callFrame ..).trans (send_callFrame ..)).trans (bump_callFrame ..)).books.trans
            (freeRecord_callFrame ..).books
        · exact ⟨rfl, rfl, rfl⟩
      · exact ⟨rfl, rfl, rfl⟩
  case stalenessEvent g =>
    split
    · exact ⟨rfl, rfl, rfl⟩
    · split
      · extract_lets s1
        have h1 : BooksKept s s1 := ⟨rfl, rfl, rfl⟩
        split
        · exact h1.trans (send_callFrame ..).books
        · exact h1
      · exact ⟨rfl, rfl, rfl⟩
  case absenceEvent p =>
    split
    · exact ⟨rfl, rfl, rfl⟩
    · split
      · have h1 : BooksKept s { s with roster := Tab.del s.roster p } := ⟨rfl, rfl, rfl⟩
        exact h1.trans (peerGone_callFrame ..).books
      · exact ⟨rfl, rfl, rfl⟩
  case frameReceived w ended =>
    split
    · exact ⟨rfl, rfl, rfl⟩
    · split
      · exact (bump_callFrame ..).books
      · extract_lets s1
        have h1 : BooksKept s s1 := by
          simp only [s1, State.refresh]; split <;> exact ⟨rfl, rfl, rfl⟩
        split
        · exact h1.trans (admitFrame_callFrame s1 w).books
        · exact h1
  case busIdleContention others =>
    split
    · split
      · exact ⟨rfl, rfl, rfl⟩
      · split
        · exact ⟨rfl, rfl, rfl⟩
        · split
          · rename_i i _ _ e _ _
            extract_lets w
            have h1 : BooksKept s { s with tx := s.tx.set i { e with onLine := some w } } := ⟨rfl, rfl, rfl⟩
            exact h1.trans (announce_edits _ _).books
          · exact ⟨rfl, rfl, rfl⟩
    · exact ⟨rfl, rfl, rfl⟩
  case bitMismatch => exact ⟨rfl, rfl, rfl⟩
  case frameSent => exact ⟨rfl, rfl, rfl⟩
  case seized =>
    refine (seizeFrame_callFrame s _ fun s r rec t ha => ?_).books
    split at ha <;> cases ha
    exact seize_callFrame ..
  case answered =>
    refine (seizeFrame_callFrame s _ fun s r rec t ha => ?_).books
    split at ha <;> cases ha
    · exact (seize_callFrame ..).trans (connect_callFrame ..)
    · exact connect_callFrame ..
  case seizeFailed =>
    refine (seizeFrame_callFrame s _ fun s r rec t ha => ?_).books
    split at ha <;> cases ha
    exact (reportFault_callFrame ..).trans (crankback_callFrame ..)
  case abandoned =>
    refine (seizeFrame_callFrame s _ fun s r rec t ha => ?_).books
    split at ha <;> cases ha <;> exact (endDrop_callFrame ..).trans (freeRecord_callFrame ..)
  case block =>
    exact (controlFrame_callFrame s _ fun s li g n hf => (blockCircuit_edits s li g n hf).callFrame).books
  case unblock =>
    exact (controlFrame_callFrame s _ fun s li g n hf => (unblockCircuit_edits s li g n hf).callFrame).books
  case forceRelease => exact (controlFrame_callFrame s _ forceCircuit_callFrame).books
  case restore =>
    exact (controlFrame_callFrame s _ fun s li g n hf => (restoreTerminal_edits s li g n hf).callFrame).books
  case holdAsk =>
    exact takeFrame_books s fun f k hk t => by
      split at hk <;> cases hk
      exact (answerAsk_edits ..).books
  case holdTake =>
    exact takeFrame_books s fun f k hk t => by
      split at hk <;> cases hk
      exact (answerTake_edits ..).books
  case holdDrop =>
    exact takeFrame_books s fun f k hk t => by
      split at hk <;> cases hk
      exact (answerDrop_edits ..).books
  case holdFault =>
    exact takeFrame_books s fun f k hk t => by
      split at hk <;> cases hk
      exact (faultHold_edits ..).books
  case holdGive =>
    exact takeFrame_books s fun f k hk t => by
      split at hk <;> cases hk
      exact (takeGive_callFrame ..).books
  case holdDeny =>
    exact takeFrame_books s fun f k hk t => by
      split at hk <;> cases hk
      exact (takeDeny_callFrame ..).books
  case holdLost =>
    exact takeFrame_books s fun f k hk t => by
      split at hk <;> cases hk
      exact (takeLost_callFrame ..).books
  case routeAsk =>
    exact takeFrame_books s fun f k hk t => by
      split at hk <;> cases hk
      exact (takeRouteAsk_callFrame ..).books
  case load =>
    exact takeFrame_books s fun f k hk t => by
      split at hk <;> cases hk
      exact (takeLoad_callFrame ..).books
  case reach =>
    exact takeFrame_books s fun f k hk t => by
      split at hk <;> cases hk
      exact (takeReach_callFrame ..).books
  case probe =>
    refine takeFrame_books s fun f k hk t => ?_
    split at hk <;> cases hk
    simp only
    split
    · exact (offerLoad_edits ..).books
    · exact ⟨rfl, rfl, rfl⟩
  case present =>
    exact takeFrame_books s fun f k hk t => by
      split at hk <;> cases hk
      exact takePresent_books ..
  case rateSet =>
    exact takeFrame_books s fun f k hk t => by
      split at hk <;> cases hk
      exact takeRateSet_books ..
  case rateClear =>
    exact takeFrame_books s fun f k hk t => by
      split at hk <;> cases hk
      exact takeRateClear_books ..
  case tallyRead =>
    exact takeFrame_books s fun f k hk t => by
      split at hk <;> cases hk
      exact (send_callFrame ..).books
  case statusRead =>
    exact takeFrame_books s fun f k hk t => by
      split at hk <;> cases hk
      exact (send_callFrame ..).books
  case stationReset =>
    exact takeFrame_books s fun f k hk t => by
      split at hk <;> cases hk
      exact softReset_books t

end Sys2Proof.Machine
end

section
/-! Settles O2 and O56. Only four commands touch the queue of commands or the entries of the banks: POWER_ON,
CALL_CLEAR, PERIOD_CLOSE and TALLY_ACK, and none of them loses a waiting command. -/

namespace Sys2Proof.Machine

/-- Every pair of a bank's entry was a pair of a bank's entry before, or is the pair of a live record's call (R151). -/
def State.PairsFrom (s t : State) : Prop :=
  ∀ e ∈ t.openBank.entries ++ t.closedBank.entries,
    (∃ d ∈ s.openBank.entries ++ s.closedBank.entries, d.Names e.origin e.terminating) ∨
    ∃ p ∈ s.calls, ∃ gr, p.2.phase.grant = some gr ∧ e.Names p.2.base.origin gr.carrier

theorem BooksKept.pairsFrom {s t : State} (h : BooksKept s t) : State.PairsFrom s t := by
  intro e he
  rw [h.openBank, h.closedBank] at he
  exact .inl ⟨e, he, rfl, rfl⟩

theorem State.PairsFrom.books {s t u : State} (h : State.PairsFrom s t) (h' : BooksKept t u) : State.PairsFrom s u := by
  rw [State.PairsFrom, h'.openBank, h'.closedBank]
  exact h

/-- A posting leaves the pairs of a bank as they were, but for the pair posted (R151). -/
theorem Bank.names_post {b : Bank} {o w : Nat} {p : Posting} {e : PairEntry} (h : e ∈ (b.post o w p).1.entries) :
    (∃ d ∈ b.entries, d.Names e.origin e.terminating) ∨ e.Names o w := by
  rcases Bank.post_cases b o w p with ⟨i, d, hd, hnames, -, he⟩ | ⟨-, -, he⟩ | he <;> rw [he] at h
  · rcases List.mem_or_eq_of_mem_set h with h | rfl
    · exact .inl ⟨e, h, rfl, rfl⟩
    · exact .inr hnames
  · rcases List.mem_append.1 h with h | h
    · exact .inl ⟨e, h, rfl, rfl⟩
    · rw [List.mem_singleton.1 h]; exact .inr ⟨rfl, rfl⟩
  · exact .inl ⟨e, h, rfl, rfl⟩

theorem post_pending (s : State) (o w : Nat) (p : Posting) : (s.post o w p).pending = s.pending := by
  rw [State.post_eq]

theorem post_pairsFrom {s : State} {q : Nat × CallRecord} (hq : q ∈ s.calls) {gr : Grant}
    (hgr : q.2.phase.grant = some gr) (p : Posting) :
    State.PairsFrom s (s.post q.2.base.origin gr.carrier p) := by
  intro e he
  rw [State.post_eq] at he
  rcases List.mem_append.1 he with he | he
  · rcases Bank.names_post he with ⟨d, hd, hnames⟩ | hnames
    · exact .inl ⟨d, List.mem_append_left _ hd, hnames⟩
    · exact .inr ⟨q, hq, gr, hgr, hnames⟩
  · exact .inl ⟨e, List.mem_append_right _ he, rfl, rfl⟩

/-- The queue of commands is as it was, and every pair comes from the banks or the call records. -/
structure BooksFrom (s t : State) : Prop where
  pending : t.pending = s.pending
  pairs : State.PairsFrom s t

theorem BooksKept.booksFrom {s t : State} (h : BooksKept s t) : BooksFrom s t := ⟨h.pending, h.pairsFrom⟩

theorem BooksFrom.kept {s t u : State} (h : BooksFrom s t) (h' : BooksKept t u) : BooksFrom s u :=
  ⟨h'.pending.trans h.pending, h.pairs.books h'⟩

/-- A command that takes a frame leaves the queue of commands and the pairs as its block does. -/
theorem takeFrame_booksFrom (s : State) {act : RxFrame → Option (State → State)}
    (h : ∀ f k, act f = some k → ∀ t, BooksFrom t (k t)) : BooksFrom s (s.takeFrame act) := by
  unfold State.takeFrame
  split
  · exact BooksKept.booksFrom ⟨rfl, rfl, rfl⟩
  · split
    · exact BooksKept.booksFrom ⟨rfl, rfl, rfl⟩
    · rename_i k hk
      extract_lets s1
      split
      · exact ⟨(h _ k hk s1).pending, (h _ k hk s1).pairs⟩
      · exact BooksKept.booksFrom ⟨rfl, rfl, rfl⟩

theorem clearConnected_booksFrom {s : State} {r : Nat} {rec : CallRecord} (hr : (r, rec) ∈ s.calls) {gr : Grant}
    {commit : Clock} (hp : rec.phase = .connected gr commit) : BooksFrom s (s.clearConnected r rec gr commit) := by
  have hpost : BooksFrom s (s.post rec.base.origin gr.carrier (s.posting rec gr commit)) :=
    ⟨post_pending .., post_pairsFrom hr (by rw [hp]; rfl) _⟩
  exact hpost.kept (((endDrop_callFrame ..).trans (send_callFrame ..)).trans (freeRecord_callFrame ..)).books

theorem takeClear_booksFrom (s : State) (client tag group circuit : Nat) :
    BooksFrom s (s.takeClear client tag group circuit) := by
  unfold State.takeClear
  split
  · exact (bump_callFrame ..).books.booksFrom
  · split
    · rename_i r rec hk
      split
      · exact clearConnected_booksFrom (recordOfKey_some hk).1 ‹_›
      · exact (clearUnanswered_callFrame ..).books.booksFrom
    · exact (clearOrphan_callFrame ..).books.booksFrom

theorem takePeriodClose_booksFrom (s : State) (src : Nat) : BooksFrom s (s.takePeriodClose src) := by
  unfold State.takePeriodClose
  split
  · exact (send_callFrame ..).books.booksFrom
  · extract_lets closed opened
    have hclose : BooksFrom s { s with openBank := opened, closedBank := closed, closedHeld := true } := by
      refine ⟨rfl, fun e he => .inl ⟨e, List.mem_append_left _ ?_, rfl, rfl⟩⟩
      simpa [opened, closed, Bank.empty] using he
    exact hclose.kept (send_callFrame ..).books

theorem takeTallyAck_booksFrom (s : State) (src period : Nat) : BooksFrom s (s.takeTallyAck src period) := by
  unfold State.takeTallyAck
  split
  · split
    · have hack : BooksFrom s { s with closedBank := Bank.empty s.closedBank.period, closedHeld := false } := by
        refine ⟨rfl, fun e he => .inl ⟨e, List.mem_append_left _ ?_, rfl, rfl⟩⟩
        simpa [Bank.empty] using he
      exact hack.kept (send_callFrame ..).books
    · exact (send_callFrame ..).books.booksFrom
  · exact (send_callFrame ..).books.booksFrom

/-- No command touches the queue of commands, and the pairs of the banks come from the banks and the call records. -/
theorem exec_booksFrom {c : Instr} {s t : State} (h : exec c s = .next t) : BooksFrom s t := by
  cases hc : Instr.leavesBooks c with
  | true => exact (exec_books hc h).booksFrom
  | false =>
    cases c with
    | powerOn => cases h; exact ⟨rfl, fun e he => nomatch he⟩
    | callClear =>
      cases h
      exact takeFrame_booksFrom s fun f k hk t => by
        split at hk <;> cases hk
        exact takeClear_booksFrom ..
    | periodClose =>
      cases h
      exact takeFrame_booksFrom s fun f k hk t => by
        split at hk <;> cases hk
        exact takePeriodClose_booksFrom ..
    | tallyAck =>
      cases h
      exact takeFrame_booksFrom s fun f k hk t => by
        split at hk <;> cases hk
        exact takeTallyAck_booksFrom ..
    | _ => cases hc

/-- The pairs stay carriers 0 to 63 while the calls' origins and carriers are (R149). -/
theorem step_pairsInRange {s t : State} (hstep : step s = .next t) (hcalls : s.CallsSound) (hcarriers : s.CarriersSound)
    (hs : s.PairsInRange) : t.PairsInRange := by
  have hfrom : State.PairsFrom s t := by
    unfold step at hstep
    split at hstep
    · cases hstep
      unfold State.tick
      split <;> exact fun e he => .inl ⟨e, he, rfl, rfl⟩
    · exact (exec_booksFrom hstep).pairs
  intro e he
  rcases hfrom e he with ⟨d, hd, horigin, hterminating⟩ | ⟨p, hp, gr, hgr, horigin, hterminating⟩
  · exact ⟨horigin ▸ (hs d hd).1, hterminating ▸ (hs d hd).2⟩
  · obtain ⟨-, -, -, -, -, -, hrange, -⟩ := (hcalls.1 p hp).2
    exact ⟨horigin ▸ hrange, hterminating ▸ hcarriers p hp gr hgr⟩

/-- Settles O2: every command answers a next state, and no command touches the queue of commands. -/
theorem commandsComplete : Obligations.CommandsComplete := by
  intro c s
  obtain ⟨t, h⟩ : ∃ t, exec c s = .next t := by cases c <;> exact ⟨_, rfl⟩
  exact ⟨t, h, (exec_booksFrom h).pending⟩

theorem State.reachable_of_sound {s : State} (hconfig : s.ConfigSound) (hgroups : s.GroupsSound) :
    ∀ p ∈ s.groups, p.2.Reachable := by
  intro p hp
  obtain ⟨haddress, hsound⟩ := hgroups
  obtain ⟨hli, hglobal, -, -, -, -, -, heff⟩ := hsound p hp
  obtain ⟨-, -, -, -, -, hpref, -⟩ := (hconfig.2.1 p hp).2
  exact ⟨by omega, hpref, heff ▸ effectivePref_le hpref _⟩

/-- Settles O56, one component of the state at a time. -/
theorem stepKeepsBounds : Obligations.StepKeepsBounds := by
  intro s t hstep
  refine ⟨stepKept_linesFollow.step hstep, stepKept_countersSound.step hstep, stepKept_routesSound.step hstep,
    stepKept_ratesSound.step hstep, stepKept_tallySound.step hstep, step_ratesInRange hstep,
    fun hrx hconfig hgroups => ?_, step_pairsInRange hstep⟩
  exact step_routesInRange hstep hrx (State.reachable_of_sound hconfig hgroups)

end Sys2Proof.Machine
end

section
/-! Settles O57. What stands in some station states only is kept by every elementary change, as are the two queues; a
good configuration read begins in STARTING, where all of it is empty. -/

namespace Sys2Proof.Machine

/-! ## The transmit queue (R163, R170) -/

/-- A transmit queue as R163 and R170 give it. -/
def QueueSound (l : List TxEntry) : Prop :=
  l.length ≤ Config.txCapacity ∧ l.countP (·.onLine.isSome) ≤ 1 ∧
    l.Pairwise fun a b => ∀ g, a.waitingLoad g = true → b.body ≠ .load g

theorem TxEntry.waitingLoad_iff {g : Nat} {e : TxEntry} :
    e.waitingLoad g = true ↔ e.onLine = none ∧ e.body = .load g := by
  simp [TxEntry.waitingLoad, Option.isNone_iff_eq_none]

theorem QueueSound.nil : QueueSound [] := ⟨Nat.zero_le _, Nat.zero_le _, .nil⟩

theorem QueueSound.sublist {l l' : List TxEntry} (h : QueueSound l) (hsub : l'.Sublist l) : QueueSound l' :=
  ⟨hsub.length_le.trans h.1, (hsub.countP_le).trans h.2.1, h.2.2.sublist hsub⟩

/-- A waiting entry joins a queue with room, a LOAD only where none for its group waits. -/
theorem QueueSound.append {l : List TxEntry} (h : QueueSound l) {e : TxEntry} (hroom : l.length < Config.txCapacity)
    (hwaits : e.onLine = none) (hload : ∀ g, e.body = .load g → l.any (·.waitingLoad g) = false) :
    QueueSound (l ++ [e]) := by
  obtain ⟨-, hcount, hpair⟩ := h
  refine ⟨by rw [List.length_append]; exact hroom, by simpa [hwaits] using hcount, ?_⟩
  rw [List.pairwise_append]
  refine ⟨hpair, List.pairwise_singleton _ _, fun a ha b hb g hg hbody => ?_⟩
  rw [List.mem_singleton.1 hb] at hbody
  have := List.any_eq_false.1 (hload g hbody) a ha
  exact this hg

/-- An entry comes into sending where none is: it keeps its place and its body, and waits no longer. -/
theorem QueueSound.win {l : List TxEntry} (h : QueueSound l) {i : Nat} {e : TxEntry} (hi : l[i]? = some e)
    (hidle : l.any (·.onLine.isSome) = false) (w : WireFrame) : QueueSound (l.set i { e with onLine := some w }) := by
  obtain ⟨hlen, -, hpair⟩ := h
  have hzero : l.countP (·.onLine.isSome) = 0 := List.countP_eq_zero.2 (List.any_eq_false.1 hidle)
  obtain ⟨hlt, rfl⟩ := List.getElem?_eq_some_iff.1 hi
  refine ⟨by rwa [List.length_set], ?_, ?_⟩
  · rw [List.countP_set hlt, hzero]; split <;> simp
  · rw [List.pairwise_iff_getElem] at hpair ⊢
    intro j k hj hk hjk g hg
    rw [List.length_set] at hj hk
    have hbody : (l.set i { l[i] with onLine := some w })[k].body = l[k].body := by
      rw [List.getElem_set]; split
      · subst i; rfl
      · rfl
    rw [hbody]
    refine hpair j k hj hk hjk g ?_
    rw [List.getElem_set] at hg
    split at hg
    · cases (TxEntry.waitingLoad_iff.1 hg).1
    · exact hg

/-- What stands behind an entry that returns to waiting: a LOAD takes in a newer waiting LOAD of its group (R170). -/
def TxBody.takeIn : TxBody → List TxEntry → List TxEntry
  | .load group, rest => rest.filter fun d => !d.waitingLoad group
  | .msg _, rest => rest

theorem returnToWaiting_sending {e : TxEntry} (h : e.onLine.isSome = true) (rest : List TxEntry) :
    returnToWaiting (e :: rest) = { e with onLine := none } :: e.body.takeIn rest := by
  rw [returnToWaiting, if_pos h]
  obtain ⟨dest, body, onLine⟩ := e
  cases body <;> rfl

theorem returnToWaiting_waiting {e : TxEntry} (h : e.onLine = none) (rest : List TxEntry) :
    returnToWaiting (e :: rest) = e :: returnToWaiting rest := by
  rw [returnToWaiting, if_neg (by simp [h])]

theorem TxBody.takeIn_sublist (b : TxBody) (rest : List TxEntry) : List.Sublist (b.takeIn rest) rest := by
  cases b with
  | msg m => exact List.Sublist.refl _
  | load group => exact List.filter_sublist

theorem returnToWaiting_length_le (l : List TxEntry) : (returnToWaiting l).length ≤ l.length := by
  induction l with
  | nil => exact Nat.le_refl _
  | cons e rest ih =>
    cases h : e.onLine with
    | none => rw [returnToWaiting_waiting h]; exact Nat.succ_le_succ ih
    | some w =>
      rw [returnToWaiting_sending (by simp [h])]
      exact Nat.succ_le_succ (e.body.takeIn_sublist rest).length_le

/-- No entry of the queue after the return holds a body that no entry held. -/
theorem body_of_mem_returnToWaiting {l : List TxEntry} {d : TxEntry} (h : d ∈ returnToWaiting l) :
    ∃ e ∈ l, e.body = d.body := by
  induction l with
  | nil => cases h
  | cons e rest ih =>
    cases he : e.onLine with
    | none =>
      rw [returnToWaiting_waiting he] at h
      rcases List.mem_cons.1 h with rfl | h
      · exact ⟨d, List.mem_cons_self, rfl⟩
      · obtain ⟨x, hx, hb⟩ := ih h
        exact ⟨x, List.mem_cons_of_mem _ hx, hb⟩
    | some w =>
      rw [returnToWaiting_sending (by simp [he])] at h
      rcases List.mem_cons.1 h with rfl | h
      · exact ⟨e, List.mem_cons_self, rfl⟩
      · exact ⟨d, List.mem_cons_of_mem _ ((e.body.takeIn_sublist rest).subset h), rfl⟩

theorem returnToWaiting_countP {l : List TxEntry} (h : l.countP (·.onLine.isSome) ≤ 1) :
    (returnToWaiting l).countP (·.onLine.isSome) = 0 := by
  induction l with
  | nil => rfl
  | cons e rest ih =>
    cases he : e.onLine with
    | none =>
      rw [returnToWaiting_waiting he]
      simp only [List.countP_cons, he, Option.isSome_none, Bool.false_eq_true, if_false, Nat.add_zero] at h ⊢
      exact ih h
    | some w =>
      rw [returnToWaiting_sending (by simp [he])]
      simp only [List.countP_cons, he, Option.isSome_none, Option.isSome_some, Bool.false_eq_true, if_false, if_true,
        Nat.add_zero] at h ⊢
      have := (e.body.takeIn_sublist rest).countP_le (p := (·.onLine.isSome))
      omega

/-- The entry in sending returns to waiting in its place, a LOAD taking in a newer one of its group (R164, R170). -/
theorem QueueSound.back {l : List TxEntry} (h : QueueSound l) : QueueSound (returnToWaiting l) := by
  obtain ⟨hlen, hcount, hpair⟩ := h
  refine ⟨(returnToWaiting_length_le l).trans hlen, by rw [returnToWaiting_countP hcount]; exact Nat.zero_le _, ?_⟩
  clear hlen
  induction l with
  | nil => exact .nil
  | cons e rest ih =>
    rw [List.pairwise_cons] at hpair
    cases he : e.onLine with
    | none =>
      rw [returnToWaiting_waiting he, List.pairwise_cons]
      rw [List.countP_cons] at hcount
      refine ⟨fun d hd g hg => ?_, ih (by omega) hpair.2⟩
      obtain ⟨x, hx, hbody⟩ := body_of_mem_returnToWaiting hd
      rw [← hbody]; exact hpair.1 x hx g hg
    | some w =>
      rw [returnToWaiting_sending (by simp [he]), List.pairwise_cons]
      have hwaits : ∀ d ∈ rest, d.onLine = none := by
        have hzero : rest.countP (·.onLine.isSome) = 0 := by
          simp only [List.countP_cons, he, Option.isSome_some, if_true] at hcount; omega
        intro d hd
        simpa using List.countP_eq_zero.1 hzero d hd
      refine ⟨fun d hd g hg hbody => ?_, hpair.2.sublist (e.body.takeIn_sublist rest)⟩
      have hload : e.body = .load g := (TxEntry.waitingLoad_iff.1 hg).2
      rw [hload] at hd
      obtain ⟨hd, hnot⟩ := List.mem_filter.1 hd
      simp [TxEntry.waitingLoad_iff.2 ⟨hwaits d hd, hbody⟩] at hnot

theorem Edit.txSound {s t : State} (h : Edit s t) (hs : s.TxSound) : t.TxSound := by
  cases h with
  | circuit _ h =>
    cases h with
    | enqueue e _ hroom hwaits hload => exact QueueSound.append hs hroom hwaits hload
    | _ => exact hs
  | reach => rw [applyReach_frame]; exact hs
  | win i e w hi hidle => exact QueueSound.win hs hi hidle w
  | back => exact QueueSound.back hs
  | sent => exact QueueSound.sublist hs List.filter_sublist
  | quiet => exact QueueSound.nil
  | power => exact QueueSound.nil
  | _ => exact hs

/-! ## What stands in some station states only (R55, R88, R100, R172, R183, R186, R187) -/

theorem State.isPresent_put (s : State) (k : Nat) (v : Clock) {a : Nat} (h : s.isPresent a = true) :
    ({ s with roster := Tab.put s.roster k v } : State).isPresent a = true := by
  unfold State.isPresent at *
  rw [Tab.find_put]; split
  · rfl
  · exact h

theorem State.isPresent_del {s : State} {k a : Nat} (h : s.isPresent a = true) (hk : k ≠ a) :
    ({ s with roster := Tab.del s.roster k } : State).isPresent a = true := by
  unfold State.isPresent at *
  rwa [Tab.find_del, if_neg (Ne.symm hk)]

/-- A frame waits in the receive queue of a station that takes frames only. -/
theorem State.KeptInState.running_of_rx {s : State} (h : s.KeptInState) {f : RxFrame} {rest : List RxFrame}
    (hrx : s.rx = f :: rest) : s.running = true := by
  cases hr : s.running with
  | true => rfl
  | false => rw [(h.1 hr).2.1] at hrx; cases hrx

theorem State.KeptInState.listening {s : State} (h : s.calls = []) : s.listening.KeptInState := by
  refine ⟨fun hr => ?_, fun _ => h, fun _ => ?_, rfl, rfl, rfl⟩
  · exact absurd (show s.listening.running = true from rfl) (by simp [hr])
  · simp [State.isPresent, State.listening, Tab.find, State.address, State.setStation]

theorem Edit.keptInState {s t : State} (h : Edit s t) (hs : s.KeptInState) : t.KeptInState := by
  obtain ⟨hqueues, hcalls, hown, hlisten, hannounce, hreach⟩ := id hs
  have htake : ∀ {f : RxFrame} {rest : List RxFrame}, s.rx = f :: rest →
      ({ s with rx := rest } : State).KeptInState := fun hrx =>
    ⟨fun hr => absurd (hs.running_of_rx hrx) (by rw [show s.running = false from hr]; simp), hcalls, hown, hlisten,
      hannounce, hreach⟩
  cases h with
  | circuit _ h =>
    cases h with
    | enqueue e hr => exact ⟨fun h => absurd hr (by rw [show s.running = false from h]; simp), hs.2⟩
    | _ => exact hs
  | putRecord r rec hm =>
    refine ⟨hqueues, fun hst => ?_, hown, hlisten, hannounce, hreach⟩
    rcases hm.1 with hactive | hlive
    · exact absurd hactive hst
    · exact absurd (hcalls hst) hlive
  | freeRecord r =>
    refine ⟨hqueues, fun hst => ?_, hown, hlisten, hannounce, hreach⟩
    rw [State.freeRecord_calls, hcalls hst]; rfl
  | rosterDel k hk =>
    refine ⟨fun hr => ?_, hcalls, fun hr => State.isPresent_del (hown hr) hk, hlisten, hannounce, hreach⟩
    obtain ⟨htx, hrx, hroster⟩ := hqueues hr
    exact ⟨htx, hrx, by show Tab.del s.roster k = []; rw [hroster]; rfl⟩
  | rosterPut k v hr =>
    exact ⟨fun h => absurd hr (by rw [show s.running = false from h]; simp), hcalls,
      fun hr => State.isPresent_put s k v (hown hr), hlisten, hannounce, hreach⟩
  | rate f rest k setup rate m0 m1 m2 m3 hrx => exact htake hrx
  | reach f rest g carrier pref first count hrx => rw [applyReach_frame]; exact htake hrx
  | take f rest hrx => exact htake hrx
  | receive f hr => exact ⟨fun h => absurd hr (by rw [show s.running = false from h]; simp), hs.2⟩
  | announceNext d h => exact ⟨hqueues, hcalls, hown, hlisten, h.symm.trans hannounce, hreach⟩
  | reachNext d h => exact ⟨hqueues, hcalls, hown, hlisten, hannounce, h.symm.trans hreach⟩
  | win i e w =>
    refine ⟨fun hr => ?_, hs.2⟩
    obtain ⟨htx, hrest⟩ := hqueues hr
    exact ⟨by simp [htx], hrest⟩
  | back =>
    refine ⟨fun hr => ?_, hs.2⟩
    obtain ⟨htx, hrest⟩ := hqueues hr
    exact ⟨by simp [htx, returnToWaiting], hrest⟩
  | sent =>
    refine ⟨fun hr => ?_, hs.2⟩
    obtain ⟨htx, hrest⟩ := hqueues hr
    exact ⟨by simp [htx], hrest⟩
  | quiet st hst =>
    have hr : (s.quiet st).running = false := by rcases hst with rfl | rfl <;> rfl
    refine ⟨fun _ => ⟨rfl, rfl, rfl⟩, fun _ => rfl, (fun h => by rw [hr] at h; cases h), ?_, hr.symm, ?_⟩ <;>
      rcases hst with rfl | rfl <;> rfl
  | listen hcalls => exact State.KeptInState.listening hcalls
  | active d hst =>
    have hr : s.running = true := by simp [State.running, hst]
    exact ⟨fun h => absurd (show State.running _ = true from rfl) (by rw [h]; simp), fun h => absurd rfl h,
      fun _ => hown hr, rfl, hannounce.trans hr, rfl⟩
  | power => exact ⟨fun _ => ⟨rfl, rfl, rfl⟩, fun _ => rfl, (fun h => nomatch h), rfl, rfl, rfl⟩
  | _ => exact hs

/-- What O57 says of a state. -/
def State.QueuesKept (s : State) : Prop := s.KeptInState ∧ s.TxSound ∧ s.RxSound

theorem Edit.queuesKept {s t : State} (h : Edit s t) (hs : s.QueuesKept) : t.QueuesKept :=
  ⟨h.keptInState hs.1, h.txSound hs.2.1, h.rxSound hs.2.2⟩

theorem CircuitEdits.queuesKept {s t : State} (h : CircuitEdits s t) (hs : s.QueuesKept) : t.QueuesKept :=
  h.edits.keeps (fun _ _ => Edit.queuesKept) hs

/-- In STARTING the queues, the roster, the call table and the deadlines are empty, and stay so while the
configuration changes. -/
theorem configured_queuesKept {s : State} (image : List Byte) (hs : s.KeptInState) (hst : s.station = .starting) :
    (s.configured image).QueuesKept := by
  have hr : s.running = false := by simp [State.running, hst]
  obtain ⟨hqueues, hcalls, -, hdeadlines⟩ := hs
  obtain ⟨htx, hrx, hroster⟩ := hqueues hr
  refine ⟨⟨fun _ => ⟨htx, hrx, hroster⟩, hcalls, fun h => ?_, hdeadlines⟩, ?_, State.rxSound_nil hrx⟩
  · exact absurd (show s.running = true from h) (by simp [hr])
  · show QueueSound s.tx
    rw [htx]; exact QueueSound.nil

theorem readGood_queuesKept {s : State} (image : List Byte) (hs : s.KeptInState) (hst : s.station = .starting) :
    (s.readGood image).QueuesKept := by
  obtain ⟨u, hreleases, hreaches⟩ := readGood_parts s image
  have hu : u.QueuesKept := hreleases.queuesKept (configured_queuesKept image hs hst)
  have hcalls : u.calls = [] := by
    rw [hreleases.frame.calls]; exact hs.2.1 (by rw [hst]; decide)
  exact hreaches.queuesKept ((Edit.listen u.afterReleases hcalls).queuesKept hu)

/-- Settles O57. -/
theorem stepKeepsQueues : Obligations.StepKeepsQueues := by
  intro s t hkept htx hrx hstep
  rcases step_edits hstep with he | ⟨image, rest, -, hst, -, -, rfl⟩
  · exact he.keeps (P := State.QueuesKept) (fun _ _ => Edit.queuesKept) ⟨hkept, htx, hrx⟩
  · exact readGood_queuesKept (s := { s with pending := rest, reading := false }) image hkept hst

end Sys2Proof.Machine
end

section
/-! Settles O58. A write of a table keeps its other entries, and a record is written under its own key or a new one; an
image configures groups in their ranges and within the terminal budget. -/

namespace Sys2Proof

/-! ## What a write does to the list of a table's entries -/

/-- A write of a listed key changes that entry and no other. -/
theorem Tab.map_put_of_find {α β : Type} {t : Tab α} (hw : Tab.wf t) {k : Nat} {v v0 : α} (h : Tab.find t k = some v0)
    (f : Nat × α → β) (hf : f (k, v) = f (k, v0)) : (Tab.put t k v).map f = t.map f := by
  induction t with
  | nil => cases h
  | cons p t ih =>
    obtain ⟨j, w⟩ := p
    rw [Tab.wf, List.pairwise_cons] at hw
    simp only [Tab.find] at h
    simp only [Tab.put]
    split at h
    · rename_i hj
      cases h
      subst hj
      simp [hf]
    · rename_i hj
      have hlt : j < k := hw.1 _ (Tab.mem_of_find h)
      rw [if_neg (by omega), if_neg hj, List.map_cons, List.map_cons, ih hw.2 h]

/-- A write of a key that is not listed adds its entry. -/
theorem Tab.put_perm_of_find_none {α : Type} {t : Tab α} {k : Nat} (v : α) (h : Tab.find t k = none) :
    (Tab.put t k v).Perm ((k, v) :: t) := by
  induction t with
  | nil => exact List.Perm.refl _
  | cons p t ih =>
    obtain ⟨j, w⟩ := p
    simp only [Tab.find] at h
    simp only [Tab.put]
    split at h
    · cases h
    · rename_i hj
      split
      · exact List.Perm.refl _
      · exact ((ih h).cons _).trans (List.Perm.swap _ _ _)

namespace Machine

/-! ## Tables in their canonical form -/

theorem State.TablesSound.of_frame {s t : State} (h : CircuitFrame s t) (hs : s.TablesSound)
    (hgroups : Tab.wf t.groups) (hroutes : Tab.wf t.routes) : t.TablesSound := by
  obtain ⟨hroster, -, -, hviews, hcalls, hrates⟩ := hs
  exact ⟨h.roster ▸ hroster, hgroups, hroutes, h.views ▸ hviews, h.calls ▸ hcalls, h.rates ▸ hrates⟩

theorem Edit.tablesSound {s t : State} (h : Edit s t) (hs : s.TablesSound) : t.TablesSound := by
  obtain ⟨hroster, hgroups, hroutes, hviews, hcalls, hrates⟩ := id hs
  cases h with
  | circuit _ h =>
    refine hs.of_frame h.frame ?_ ?_
    · cases h with
      | group li g => exact Tab.wf_put hgroups li g
      | _ => exact hgroups
    · cases h with
      | route c d => exact Tab.wf_put hroutes d _
      | prune gone => exact wf_pruneRoutes hroutes gone
      | _ => exact hroutes
  | putRecord r rec => exact ⟨hroster, hgroups, hroutes, hviews, Tab.wf_put hcalls r rec, hrates⟩
  | freeRecord r => exact ⟨hroster, hgroups, hroutes, hviews, Tab.wf_del hcalls r, hrates⟩
  | view k v => exact ⟨hroster, hgroups, hroutes, Tab.wf_put hviews k v, hcalls, hrates⟩
  | rosterDel k => exact ⟨Tab.wf_del hroster k, hgroups, hroutes, hviews, hcalls, hrates⟩
  | rosterPut k v => exact ⟨Tab.wf_put hroster k v, hgroups, hroutes, hviews, hcalls, hrates⟩
  | forget k =>
    have hkept : Tab.wf (s.forgetPeer k).routes := wf_pruneRoutes hroutes fun _ c => decide (c.group / 16 = k)
    exact ⟨hroster, hgroups, hkept, Tab.wf_filter hviews _, hcalls, hrates⟩
  | rate f rest k => exact ⟨hroster, hgroups, hroutes, hviews, hcalls, Tab.wf_put hrates k _⟩
  | reach f rest g carrier pref first count =>
    have hreach := State.applyReach_wf (s := { s with rx := rest }) g pref first count hroutes
    rw [applyReach_frame]
    exact ⟨hroster, hgroups, hreach, hviews, hcalls, hrates⟩
  | rateDel k => exact ⟨hroster, hgroups, hroutes, hviews, hcalls, Tab.wf_del hrates k⟩
  | quiet => exact ⟨.nil, hgroups, hroutes, hviews, .nil, hrates⟩
  | listen =>
    exact ⟨List.pairwise_singleton _ _, Tab.wf_mapVal hgroups fun _ g => g.restarted s.clock, .nil, .nil, hcalls,
        hrates⟩
  | hunts =>
    exact ⟨hroster, Tab.wf_mapVal hgroups fun _ g => { g with huntPtr := 0 }, hroutes, hviews, hcalls, hrates⟩
  | clear => exact ⟨hroster, .nil, .nil, .nil, hcalls, hrates⟩
  | power => exact ⟨.nil, .nil, .nil, .nil, .nil, .nil⟩
  | _ => exact hs

theorem presentGroups_wf (image : List Byte) : Tab.wf (presentGroups image) := by
  unfold Tab.wf presentGroups
  rw [List.pairwise_filterMap]
  refine List.Pairwise.imp (fun {i j} hij p hp q hq => ?_) List.pairwise_lt_range
  obtain ⟨c, -, rfl⟩ := Option.map_eq_some_iff.1 hp
  obtain ⟨d, -, rfl⟩ := Option.map_eq_some_iff.1 hq
  exact hij

theorem withinBudget_wf (image : List Byte) (used : Nat) : Tab.wf (withinBudget used (presentGroups image)).1 :=
  (presentGroups_wf image).sublist (withinBudget_prefix used _).sublist

theorem State.TablesSound.withGroups {s : State} (h : s.TablesSound) {groups : Tab Group} (hg : Tab.wf groups) :
    ({ s with groups := groups } : State).TablesSound :=
  ⟨h.1, hg, h.2.2⟩

/-! ## The configuration (R181, R182) -/

theorem decodeEngine_inRange {image : List Byte} (ha : field image 0 1 ≤ 31) : (decodeEngine image).InRange := by
  have hfraction := field2_lt image 13
  simp only [decodeEngine, EngineConfig.InRange, clamp]
  omega

theorem EngineConfig.initial_inRange : EngineConfig.initial.InRange := by
  simp [EngineConfig.InRange, EngineConfig.initial]

/-- The configured groups fit the terminal budget, with the terminals taken before them (R182). -/
theorem withinBudget_sum_le (l : Tab GroupConfig) {used : Nat} (hused : used ≤ Config.terminalBudget) :
    used + ((withinBudget used l).1.map fun p => p.2.working + p.2.spares).sum ≤ Config.terminalBudget := by
  induction l generalizing used with
  | nil => simpa [withinBudget] using hused
  | cons p l ih =>
    obtain ⟨li, g⟩ := p
    unfold withinBudget
    split
    · rename_i hfits
      have := ih hfits
      simp only [List.map_cons, List.sum_cons]
      omega
    · simpa using hused

theorem establishedGroup_cfg (old : Option Group) (address li : Nat) (cfg : GroupConfig) (now : Clock) :
    (establishedGroup old address li cfg now).cfg = cfg := by
  rcases establishedGroup_cases old address li cfg now with ⟨g, -, -, he⟩ | ⟨-, he⟩ <;> rw [he]
  rfl

/-- The two configuration parts of the groups: which there are, and how many terminals they take. -/
theorem State.ConfigSound.mapGroups {s : State} (h : s.ConfigSound) {f : Nat → Group → Group}
    (hf : ∀ li g, (f li g).cfg = g.cfg) :
    ({ s with groups := s.groups.map fun p => (p.1, f p.1 p.2) } : State).ConfigSound := by
  obtain ⟨hengine, hgroups, hsum⟩ := h
  refine ⟨hengine, fun p hp => ?_, ?_⟩
  · obtain ⟨q, hq, rfl⟩ := List.mem_map.1 hp
    exact ⟨(hgroups q hq).1, by rw [hf]; exact (hgroups q hq).2⟩
  · simpa [List.map_map, Function.comp_def, hf] using hsum

theorem State.ConfigSound.noGroups {s : State} (hengine : s.config.InRange) (h : s.groups = []) : s.ConfigSound := by
  refine ⟨hengine, fun p hp => ?_, by simp [h]⟩
  rw [h] at hp; cases hp

theorem Edit.configSound {s t : State} (h : Edit s t) (hw : s.TablesSound) (hs : s.ConfigSound) : t.ConfigSound := by
  cases h with
  | circuit _ h =>
    cases h with
    | group li g g0 h0 hk =>
      obtain ⟨hengine, hgroups, hsum⟩ := hs
      have hmem := hgroups _ (Tab.mem_of_find h0)
      refine ⟨hengine, fun p hp => ?_, ?_⟩
      · rcases Tab.mem_put hp with rfl | hp
        · exact ⟨hmem.1, by rw [hk.cfg]; exact hmem.2⟩
        · exact hgroups p hp
      · rw [State.setGroup_groups, Tab.map_put_of_find hw.2.1 h0 _ (by simp only [hk.cfg])]
        exact hsum
    | _ => exact hs
  | reach => rw [applyReach_frame]; exact hs
  | listen => exact hs.mapGroups (f := fun _ g => g.restarted s.clock) fun _ _ => rfl
  | hunts => exact hs.mapGroups (f := fun _ g => { g with huntPtr := 0 }) fun _ _ => rfl
  | clear => exact State.ConfigSound.noGroups hs.1 rfl
  | power => exact State.ConfigSound.noGroups EngineConfig.initial_inRange rfl
  | _ => exact hs

theorem configured_configSound (s : State) {image : List Byte} (ha : field image 0 1 ≤ 31) :
    (s.configured image).ConfigSound := by
  refine ⟨decodeEngine_inRange ha, fun p hp => ?_, ?_⟩
  · obtain ⟨q, hq, rfl⟩ := List.mem_map.1 hp
    obtain ⟨hli, hrange⟩ := mem_withinBudget hq
    exact ⟨hli, by rw [establishedGroup_cfg]; exact hrange⟩
  · have hsum := withinBudget_sum_le (presentGroups image) (Nat.zero_le Config.terminalBudget)
    simpa [State.configured, List.map_map, Function.comp_def, establishedGroup_cfg] using hsum

/-! ## The call records (R99, R106, R110) -/

/-- The key of a live record (R99). -/
def callKey (p : Nat × CallRecord) : Nat × Nat := (p.2.base.client, p.2.base.tag)

theorem State.CallsSound.putRecord {s : State} (h : s.CallsSound) (hw : Tab.wf s.calls) {r : Nat} {rec : CallRecord}
    (hm : s.MayPut r rec.base) (hr : s.RecordOk r → rec.Sound) : (s.putRecord r rec).CallsSound := by
  obtain ⟨hrecords, hkeys⟩ := h
  obtain ⟨-, hnumber, hkey⟩ := hm
  have hsound : rec.Sound := hr ⟨hw, fun r0 hf => (hrecords _ (Tab.mem_of_find hf)).2⟩
  refine ⟨fun p hp => ?_, ?_⟩
  · rcases Tab.mem_put hp with rfl | hp
    · refine ⟨?_, hsound⟩
      rcases hnumber hw with hlt | hlive
      · exact hlt
      · obtain ⟨r0, hf⟩ := Option.isSome_iff_exists.1 hlive
        exact (hrecords _ (Tab.mem_of_find hf)).1
    · exact hrecords p hp
  · show ((Tab.put s.calls r rec).map callKey).Nodup
    rcases hkey hw with ⟨r0, hf, hclient, htag⟩ | ⟨hfree, hnew⟩
    · rw [Tab.map_put_of_find hw hf callKey (by simp [callKey, hclient, htag])]
      exact hkeys
    · rw [((Tab.put_perm_of_find_none rec hfree).map callKey).nodup_iff, List.map_cons, List.nodup_cons]
      refine ⟨fun hin => ?_, hkeys⟩
      obtain ⟨p, hp, he⟩ := List.mem_map.1 hin
      simp only [callKey, Prod.mk.injEq] at he
      exact hnew p hp he

theorem State.callsSound_nil {s : State} (h : s.calls = []) : s.CallsSound := by
  unfold State.CallsSound
  simp [h]

theorem Edit.callsSound {s t : State} (h : Edit s t) (hw : s.TablesSound) (hs : s.CallsSound) : t.CallsSound := by
  cases h with
  | circuit _ h => rw [h.frame.eq]; exact hs
  | reach => rw [applyReach_frame]; exact hs
  | putRecord r rec hm hr => exact hs.putRecord hw.2.2.2.2.1 hm hr
  | freeRecord r =>
    exact ⟨fun p hp => hs.1 p (Tab.mem_del.1 hp).1, hs.2.sublist (List.filter_sublist.map _)⟩
  | quiet => exact State.callsSound_nil rfl
  | power => exact State.callsSound_nil rfl
  | _ => exact hs

/-- What O58 says of a state, but for the carriers. -/
structure State.CallsKept (s : State) : Prop where
  tables : s.TablesSound
  config : s.ConfigSound
  calls : s.CallsSound

theorem stepKept_callsKept : StepKept State.CallsKept where
  edit h hs := ⟨h.tablesSound hs.tables, h.configSound hs.tables hs.config, h.callsSound hs.tables hs.calls⟩
  configured {s} image ha hs :=
    ⟨hs.tables.withGroups (Tab.wf_mapVal (withinBudget_wf image 0) fun li c =>
        establishedGroup (Tab.find s.groups li) (field image 0 1) li c s.clock),
      configured_configSound s ha, hs.calls⟩
  afterReleases hs :=
    ⟨hs.tables.withGroups (Tab.wf_mapVal hs.tables.2.1 fun _ g => g.settled),
      hs.config.mapGroups (f := fun _ g => g.settled) fun _ _ => rfl, hs.calls⟩
  listening {s} hs :=
    ⟨⟨List.pairwise_singleton _ _, Tab.wf_mapVal hs.tables.2.1 fun _ g => g.restarted s.clock, .nil, .nil,
        hs.tables.2.2.2.2⟩,
      hs.config.mapGroups (f := fun _ g => g.restarted s.clock) fun _ _ => rfl, hs.calls⟩

/-! ## The carriers that grants name (R99, R109) -/

theorem State.NamesCarrier.le {s : State} {carrier : Nat} (h : s.NamesCarrier carrier) (hconfig : s.ConfigSound)
    (hs : s.CarriersSound) : carrier ≤ 63 := by
  rcases h with ⟨p, hp, rfl⟩ | ⟨p, hp, gr, hgr, rfl⟩ | h
  · exact (hconfig.2.1 p hp).2.1
  · exact hs p hp gr hgr
  · omega

theorem Edit.carriersSound {s t : State} (h : Edit s t) (hconfig : s.ConfigSound) (hs : s.CarriersSound) :
    t.CarriersSound := by
  cases h with
  | circuit _ h => rw [h.frame.eq]; exact hs
  | reach => rw [applyReach_frame]; exact hs
  | putRecord r rec hm hr hc =>
    intro p hp gr hgr
    rcases Tab.mem_put hp with rfl | hp
    · exact (hc gr hgr).le hconfig hs
    · exact hs p hp gr hgr
  | freeRecord r => exact fun p hp => hs p (Tab.mem_del.1 hp).1
  | quiet => exact fun p hp => nomatch hp
  | power => exact fun p hp => nomatch hp
  | _ => exact hs

theorem stepKept_carriers : StepKept fun s => s.CallsKept ∧ s.CarriersSound where
  edit h hs := ⟨stepKept_callsKept.edit h hs.1, h.carriersSound hs.1.config hs.2⟩
  configured image ha hs := ⟨stepKept_callsKept.configured image ha hs.1, hs.2⟩
  afterReleases hs := ⟨stepKept_callsKept.afterReleases hs.1, hs.2⟩
  listening hs := ⟨stepKept_callsKept.listening hs.1, hs.2⟩

/-- Settles O58. -/
theorem stepKeepsCalls : Obligations.StepKeepsCalls := by
  intro s t htables hconfig hcalls hstep
  have hs : s.CallsKept := ⟨htables, hconfig, hcalls⟩
  obtain ⟨htables', hconfig', hcalls'⟩ := stepKept_callsKept.step hstep hs
  exact ⟨htables', hconfig', hcalls', fun hcarriers => (stepKept_carriers.step hstep ⟨hs, hcarriers⟩).2⟩

end Machine
end Sys2Proof
end

section
/-! Settles O1, O3 and O10: what a step is, that the machine right after reset has every kept property, and the power-on
and backplane steps. -/

namespace Sys2Proof.Machine

theorem step_cons {s : State} {c : Instr} {rest : List Instr} (h : s.pending = c :: rest) :
    step s = exec c { s with pending := rest } := by
  simp only [step, h]

theorem step_nil {s : State} (h : s.pending = []) : step s = .next s.tick := by
  simp only [step, h]

/-- Settles O1, by the shape of the queue and the level of BPRST. -/
theorem stepTakesFront : Obligations.StepTakesFront := by
  intro s
  refine ⟨fun c rest h => step_cons h, fun h hlow => ?_, fun h hlow => ?_⟩
  · rw [step_nil h, State.tick, if_neg (by simp [hlow])]
  · rw [step_nil h, State.tick, if_pos hlow]

/-- Every slot of the emptied hold table is free at generation 0. -/
theorem emptySlots_get {k : Nat} (h : k < Config.holdSlots) :
    emptySlots[k]? = some { generation := 0, hold := none } := by
  have hk : k < 64 := h
  simp [emptySlots, hk]

/-- No hold stands in an emptied hold table. -/
theorem State.holdAt_of_emptied {s : State} (h : s.slots = emptySlots) (k : Nat) : s.holdAt k = none := by
  unfold State.holdAt
  rcases Nat.lt_or_ge k 64 with hk | hk
  · rw [h, emptySlots_get hk]; rfl
  · rw [Vector.getElem?_eq_none hk]; rfl

theorem State.reset_slots : State.reset.slots = emptySlots := rfl

theorem State.reset_holdsLinked : State.reset.HoldsLinked :=
  ⟨fun k h hk => (by rw [State.holdAt_of_emptied State.reset_slots] at hk; cases hk),
    fun li g c t u k bp fr hg => (by cases hg)⟩

theorem State.reset_tallySound : State.reset.TallySound :=
  ⟨Bank.sound_empty 1, Bank.sound_empty 0, fun _ => rfl, rfl⟩

/-- Settles O3: the lists and tables of the reset machine are empty, its counters 0, its banks emptied. -/
theorem resetIsSound : Obligations.ResetIsSound := by
  refine ⟨⟨rfl, rfl⟩, ?kept, QueueSound.nil, State.rxSound_nil rfl, Counters.sound_zero, ?config, ?tables, ?routes,
    ?reach, ?rates, ?rateRanges, State.callsSound_nil rfl, ?carriers, State.reset_tallySound, ?pairs, ?loads, ?groups,
    State.reset_holdsLinked, ?suspects, ?backed⟩
  case kept => exact ⟨fun _ => ⟨rfl, rfl, rfl⟩, fun _ => rfl, fun h => (nomatch h), rfl, rfl, rfl⟩
  case config => exact State.ConfigSound.noGroups EngineConfig.initial_inRange rfl
  case tables => exact ⟨.nil, .nil, .nil, .nil, .nil, .nil⟩
  case routes => exact State.routesSound_nil rfl
  case reach => exact State.routesInRange_nil rfl
  case rates | rateRanges | carriers | loads => intro p hp; cases hp
  case pairs => intro e he; cases he
  case groups => exact ⟨Nat.zero_le _, fun p hp => (nomatch hp)⟩
  case suspects => exact ⟨Nat.zero_le _, .nil, fun e he => (nomatch he)⟩
  case backed => exact ⟨fun p hp => (nomatch hp), fun p hp => (nomatch hp)⟩

/-- Settles O10, each step by its definition. -/
theorem powerAndBackplane : Obligations.PowerAndBackplane := by
  refine ⟨fun s => ⟨_, rfl, ?power⟩, fun s => ⟨rfl, fun h => ?released, fun h => ?idle⟩⟩
  case power =>
    refine ⟨rfl, rfl, rfl, rfl, rfl, rfl, rfl, rfl, rfl, rfl, rfl, ?counters, rfl, rfl, fun k hk => emptySlots_get hk,
      rfl, rfl, rfl, rfl, rfl, rfl, rfl, rfl, rfl, rfl, rfl, rfl⟩
    case counters => intro n hn; simpa [State.reset, Counters.toList] using hn
  case released => exact congrArg Host.Outcome.next (if_pos h)
  case idle => exact congrArg Host.Outcome.next (if_neg (by simp [h]))

end Sys2Proof.Machine
end

section
/-! Settles O4. A payload is its fields' bytes one behind the other, so it spells them; a field behind `v` bytes is read
at an offset that is `v` less, and the bytes of a field that was read are the bytes it was read from. -/

namespace Sys2Proof.Machine

/-- Fields as bytes, one behind the other, each most significant byte first (section 9.5). -/
def fieldBytes (fields : List (Nat × Nat)) : List Byte := fields.flatMap fun f => toBytes f.1 f.2

@[simp] theorem fieldBytes_nil : fieldBytes [] = [] := rfl

@[simp] theorem fieldBytes_cons (w v : Nat) (fields : List (Nat × Nat)) :
    fieldBytes ((w, v) :: fields) = toBytes w v ++ fieldBytes fields := rfl

theorem fieldBytes_append (a b : List (Nat × Nat)) : fieldBytes (a ++ b) = fieldBytes a ++ fieldBytes b :=
  List.flatMap_append

theorem fieldBytes_pairs (l : List Nat) : fieldBytes (l.map fun n => (2, n)) = l.flatMap (toBytes 2) := by
  rw [fieldBytes, List.flatMap_map]

theorem spells_fieldBytes {fields : List (Nat × Nat)} (h : ∀ f ∈ fields, f.2 < 256 ^ f.1) :
    Spells (fieldBytes fields) fields := by
  induction fields with
  | nil => rfl
  | cons f fields ih =>
    exact spells_cons (h f List.mem_cons_self) (ih fun f hf => h f (List.mem_cons_of_mem _ hf))

/-- A frame whose payload is the bytes of some fields spells them. -/
theorem laidOut {m : Msg} {cls kind : Nat} {fields : List (Nat × Nat)} (hcls : m.cls = cls) (hkind : m.kind = kind)
    (h : m.payload = fieldBytes fields) :
    m.cls = cls ∧ m.kind = kind ∧ ((∀ f ∈ fields, f.2 < 256 ^ f.1) → Spells m.payload fields) :=
  ⟨hcls, hkind, fun hfit => by rw [h]; exact spells_fieldBytes hfit⟩

/-! ## Reading back what was laid out -/

theorem field_behind {v o : Nat} (h : v ≤ o) (w n : Nat) (rest : List Byte) :
    field (toBytes v n ++ rest) o w = field rest (o - v) w := by
  obtain ⟨o, rfl⟩ := Nat.exists_eq_add_of_le h
  rw [field_tail, Nat.add_sub_cancel_left]

theorem field_whole {w n : Nat} (h : n < 256 ^ w) : field (toBytes w n) 0 w = n := by
  simpa using field_head w n [] h

/-- Every frame an engine takes is read back from its payload. -/
theorem parseMsg_payload {m : Msg} (h : m.fits = true) : parseMsg m.kind m.payload = some m := by
  cases m <;>
    simp only [Msg.fits, decide_eq_true_eq, Bool.false_eq_true] at h <;>
    simp [Msg.kind, Msg.payload, holdBytes, parseMsg, field_head, field_behind, field_whole, h]

/-! ## Laying out what was read -/

theorem toBytes_field_zero {p : List Byte} {w : Nat} (h : w ≤ p.length) : toBytes w (field p 0 w) = p.take w := by
  have hlen : (p.take w).length = w := by simp [h]
  unfold field
  conv_lhs => rw [List.drop_zero, ← hlen, hlen]
  conv_lhs => arg 1; rw [← hlen]
  exact toBytes_fromBytes _

theorem take_append_toBytes_field {p : List Byte} {o w : Nat} (h : o + w ≤ p.length) :
    p.take o ++ toBytes w (field p o w) = p.take (o + w) := by
  have hread : field p o w = field (p.drop o) 0 w := by simp [field]
  rw [hread, toBytes_field_zero (by simp; omega), List.take_add]

/-- A payload that is read is the payload of what was read, under its own kind number. -/
theorem parseMsg_some {k : Nat} {p : List Byte} {m : Msg} (h : parseMsg k p = some m) :
    m.kind = k ∧ m.payload = p ∧ m.fits = true := by
  refine and_assoc.1 ⟨?_, parseMsg_fits h⟩
  unfold parseMsg at h
  split at h <;> cases h
  all_goals
    rename_i hlen
    simp [Msg.kind, Msg.payload, holdBytes, toBytes_field_zero, take_append_toBytes_field, hlen,
      ← List.length_eq_zero_iff]

/-! ## The contents of a MGMT-DONE -/

theorem mgmtDone_payload {x : MgmtContents} {fields : List (Nat × Nat)} (h : x.bytes = fieldBytes fields) (kind : Nat)
    (code : MgmtCode) : (Msg.mgmtDone kind code x).payload = fieldBytes ((1, kind) :: (1, code.code) :: fields) := by
  simp [Msg.payload, h]

theorem mgmtCode_eq {k : Nat} {code : MgmtCode}
    (h : [MgmtCode.ok, .noChange, .badTarget, .badIndex, .periodMismatch, .bankBusy, .notPermitted][k]? = some code) :
    code.code = k := by
  obtain ⟨hk, rfl⟩ := List.getElem?_eq_some_iff.1 h
  simp only [List.length_cons, List.length_nil] at hk
  interval_cases k <;> rfl

theorem periodBytes_eq (p : Option Period) :
    periodBytes p = fieldBytes [(1, if p.isSome = true then 1 else 0), (2, (p.map (·.toNat)).getD 0)] := by
  cases p <;> simp [periodBytes]

theorem flagByte_eq (b : Bool) : flagByte b = if b = true then 1 else 0 := rfl

/-- The bytes of an entry: calls past 32 bits are FFFFFFFFH with the saturated byte 1. -/
theorem entryBytes_eq (e : PairEntry) :
    entryBytes e = fieldBytes [(1, e.origin), (1, e.terminating),
      (4, if e.sums.calls < 2 ^ 32 then e.sums.calls else 0xFFFFFFFF), (6, e.sums.seconds), (6, e.sums.settled),
      (6, e.sums.disputed), (6, e.sums.transit), (4, e.sums.unrated),
      (1, if e.sums.calls < 2 ^ 32 then (if e.sums.saturated = true then 1 else 0) else 1)] := by
  rcases Nat.lt_or_ge e.sums.calls (2 ^ 32) with h | h
  · have hsat : (e.sums.saturated || decide (2 ^ 32 ≤ e.sums.calls)) = e.sums.saturated := by
      rw [decide_eq_false (Nat.not_le.2 h), Bool.or_false]
    simp only [entryBytes, hsat, if_pos h, flagByte_eq, fieldBytes_cons, fieldBytes_nil, List.append_nil,
      List.append_assoc]
  · have hsat : (e.sums.saturated || decide (2 ^ 32 ≤ e.sums.calls)) = true := by
      rw [decide_eq_true h, Bool.or_true]
    simp only [entryBytes, hsat, if_neg (Nat.not_lt.2 h), flagByte_eq, fieldBytes_cons, fieldBytes_nil, List.append_nil,
      List.append_assoc, if_true]

theorem routeFailCode_eq {i : Nat} {code : RouteFailCode}
    (h : [RouteFailCode.notReady, .badDest, .duplicate, .noRecord, .noRoute, .congested, .offerExpired][i]? =
      some code) :
    code.code = i + 1 := by
  obtain ⟨hi, rfl⟩ := List.getElem?_eq_some_iff.1 h
  simp only [List.length_cons, List.length_nil] at hi
  interval_cases i <;> rfl

theorem lastCode_eq {j : Nat} {last : Option AttemptOutcome}
    (h : [none, some AttemptOutcome.notOwner, some .closed, some .full, some .admission, some .noSlot, some .noAnswer,
      some .busFull, some .peerAbsent, some .seizeFailed][j]? = some last) : lastCode last = j := by
  obtain ⟨hj, rfl⟩ := List.getElem?_eq_some_iff.1 h
  simp only [List.length_cons, List.length_nil] at hj
  interval_cases j <;> rfl

/-- Settles O4: each row of section 9.5 is the bytes of its fields. -/
theorem payloadReadBack : Obligations.PayloadReadBack := by
  refine ⟨fun m => parseMsg_payload, fun k p m => parseMsg_some, ?_⟩
  intro laid flag failCodes outcomes mgmtCodes
  have row : ∀ {m : Msg} {cls kind : Nat} {fields : List (Nat × Nat)}, m.cls = cls → m.kind = kind →
      m.payload = fieldBytes fields → laid m cls kind fields := laidOut
  refine ⟨fun _ _ _ _ => row rfl rfl ?ask, fun _ _ _ _ _ _ _ _ _ => row rfl rfl ?give,
    fun _ _ _ _ _ => row rfl rfl ?deny, fun slot gen group circuit => ?byId, fun _ _ _ _ => row rfl rfl ?route,
    fun _ _ _ => row rfl rfl ?seize, fun _ _ _ => row rfl rfl ?clear, fun _ _ _ _ _ => row rfl rfl ?load,
    fun _ _ _ _ _ => row rfl rfl ?reach, fun _ => row rfl rfl ?present, fun _ => row rfl rfl ?probe,
    fun _ _ _ _ _ _ _ => row rfl rfl ?rate, fun _ => row rfl rfl ?rateClear, row rfl rfl rfl,
    fun _ => row rfl rfl ?read, fun _ => row rfl rfl ?ack, fun _ _ _ => row rfl rfl ?control, row rfl rfl rfl,
    row rfl rfl rfl, fun _ _ _ _ _ _ _ quote => row rfl rfl ?offer, fun _ _ _ _ code last hcode hlast =>
    row rfl rfl ?fail, fun _ _ _ _ _ => row rfl rfl ?done, fun kind k code hcode => ?mgmt⟩
  case byId =>
    intro fields
    exact ⟨row rfl rfl (by simp [Msg.payload, holdBytes, fields]),
      fun _ => row rfl rfl (by simp [Msg.payload, fields]),
      row rfl rfl (by simp [Msg.payload, holdBytes, fields]), row rfl rfl (by simp [Msg.payload, holdBytes, fields])⟩
  case offer => cases quote <;> simp [Msg.payload, quoteBytes, flag]
  case fail => simp [Msg.payload, routeFailCode_eq hcode, lastCode_eq hlast]
  case mgmt =>
    intro done period
    have answer : ∀ {x : MgmtContents} {fields : List (Nat × Nat)}, x.bytes = fieldBytes fields → done x fields :=
      fun h => row rfl rfl (by rw [mgmtDone_payload h, mgmtCode_eq hcode])
    have hperiod : ∀ p, periodBytes p = fieldBytes (period p) := periodBytes_eq
    refine ⟨answer rfl, fun _ => answer (by simp [MgmtContents.bytes]),
        fun _ _ _ => answer (by simp [MgmtContents.bytes]),
      fun _ _ _ => answer (by simp [MgmtContents.bytes]), fun _ => answer (by simp [MgmtContents.bytes]),
      fun p => answer (hperiod p), fun p _ _ => answer ?empty, fun p _ _ e _ => answer ?entry,
      fun _ _ _ _ _ c => answer ?status⟩
    case empty => simp [MgmtContents.bytes, fieldBytes_append, hperiod]
    case entry => simp only [MgmtContents.bytes, fieldBytes_append, hperiod, entryBytes_eq, fieldBytes_cons,
      fieldBytes_nil, List.append_assoc, List.append_nil, flag]
    case status =>
      rw [fieldBytes_append, fieldBytes_pairs]
      simp [MgmtContents.bytes, Counters.toList, flag, flagByte]
  all_goals simp [Msg.payload]

end Sys2Proof.Machine
end

section
/-! Settles O5 to O9, the bus interface: the receive checks, one equation for each outcome of them (R165 to R168); the
offers to the transmit queue (R50, R170); contention (R163); and the end of sending (R164). -/

namespace Sys2Proof.Machine

/-! ## Receiving (R165 to R168) -/

theorem State.refresh_eq_heardFrom (s : State) (source : Nat) : s.refresh source = s.heardFrom source := by
  unfold State.refresh State.heardFrom
  split <;> rfl

@[simp] theorem State.heardFrom_address (s : State) (source : Nat) : (s.heardFrom source).address = s.address := rfl
@[simp] theorem State.heardFrom_running (s : State) (source : Nat) : (s.heardFrom source).running = s.running := rfl
@[simp] theorem State.heardFrom_rx (s : State) (source : Nat) : (s.heardFrom source).rx = s.rx := rfl

/-- The end was seen, the length agrees with the payload, and the CRC is good (R165). -/
theorem frameIntact_iff {w : WireFrame} {ended : Reception} : frameIntact w ended = true ↔
    ended = .whole ∧ w.length.toNat = w.payload.length ∧ frameCrc w = w.crc.toNat := by
  simp [frameIntact, and_assoc]

section
variable {s : State} {w : WireFrame} {ended : Reception}

theorem exec_frameReceived_of_overtaken (h : s.running = false ∨ ended = .overtaken) :
    exec (.frameReceived w ended) s = .next s :=
  congrArg Host.Outcome.next (if_pos (by simpa using h))

theorem exec_frameReceived_of_broken (hrun : s.running = true) (hend : ended ≠ .overtaken)
    (h : frameIntact w ended = false) : exec (.frameReceived w ended) s = .next (s.bump .badCrc) :=
  congrArg Host.Outcome.next ((if_neg (by simp [hrun, hend])).trans (if_pos (by simp [h])))

theorem exec_frameReceived_of_intact (hrun : s.running = true) (hend : ended ≠ .overtaken)
    (h : frameIntact w ended = true) : exec (.frameReceived w ended) s =
      .next (if w.dest.toNat = s.address ∨ w.dest.toNat = Config.broadcast then
        (s.heardFrom (frameSource w)).admitFrame w else s.heardFrom (frameSource w)) := by
  refine congrArg Host.Outcome.next ((if_neg (by simp [hrun, hend])).trans ((if_neg (by simp [h])).trans ?_))
  simp only [State.refresh_eq_heardFrom, State.heardFrom_address]

/-- Check 2 of R166: no engine takes the kind, the length is not its length, or the source is 63. -/
theorem State.admitFrame_of_unread (h : frameSource w = 63 ∨ parseMsg w.kind.toNat w.payload = none) :
    s.admitFrame w = s.bump .badFrame := by
  have hread : (if frameSource w = 63 then none else parseMsg w.kind.toNat w.payload) = none := by
    rcases h with h | h <;> simp [h]
  simp only [State.admitFrame, hread]

section
variable {m : Msg} (hsource : frameSource w ≠ 63) (hread : parseMsg w.kind.toNat w.payload = some m)
include hsource hread

/-- A payload that is read meets checks 3 to 5 of R166. -/
theorem State.admitFrame_of_read : s.admitFrame w =
    if frameClass w ≠ m.cls then s.bump .badFrame
    else if !m.suits (frameSource w) w.dest.toNat s.address then s.bump .badFrame
    else if m.isManagement && decide ((frameSource w) < 48) then
      if w.dest.toNat = s.address then
        (s.bump .notPermitted).send (frameSource w) (.mgmtDone m.kind .notPermitted .nothing)
      else s.bump .notPermitted
    else if s.rx.length < Config.rxCapacity then
      { s with rx := s.rx ++ [{ source := (frameSource w), dest := w.dest.toNat, msg := m }] }
    else s.bump .rxOverrun := by
  have hget : (if frameSource w = 63 then none else parseMsg w.kind.toNat w.payload) = some m := by
    rw [if_neg hsource, hread]
  simp only [State.admitFrame, hget, State.bump_address]
  rfl

theorem State.admitFrame_of_unsuited
    (h : frameClass w ≠ m.cls ∨ m.suits (frameSource w) w.dest.toNat s.address = false) :
    s.admitFrame w = s.bump .badFrame := by
  rw [State.admitFrame_of_read hsource hread]
  rcases h with h | h <;> simp [h]

section
variable (hcls : frameClass w = m.cls) (hsuits : m.suits (frameSource w) w.dest.toNat s.address = true)
include hcls hsuits

theorem State.admitFrame_of_notPermitted (hmgmt : m.isManagement = true) (hlow : frameSource w < 48) :
    s.admitFrame w = if w.dest.toNat = s.address then
        (s.bump .notPermitted).send (frameSource w) (.mgmtDone m.kind .notPermitted .nothing)
      else s.bump .notPermitted := by
  rw [State.admitFrame_of_read hsource hread, if_neg (not_not_intro hcls), if_neg (by simp [hsuits]),
    if_pos (by simp [hmgmt, hlow])]

theorem State.admitFrame_of_permitted (h : m.isManagement = true → 48 ≤ frameSource w) :
    s.admitFrame w = if s.rx.length < Config.rxCapacity then
      { s with rx := s.rx ++ [{ source := (frameSource w), dest := w.dest.toNat, msg := m }] }
      else s.bump .rxOverrun := by
  rw [State.admitFrame_of_read hsource hread, if_neg (not_not_intro hcls), if_neg (by simp [hsuits]),
    if_neg (by simpa using h)]

end
end
end

theorem Msg.isManagement_iff (m : Msg) : m.isManagement = true ↔ m.kind ∈ [48, 49, 50, 51, 52, 53, 54, 55] := by
  simp only [Msg.isManagement, decide_eq_true_eq, List.mem_cons, List.not_mem_nil, or_false]
  omega

theorem Msg.eq_stationReset_iff (m : Msg) : m = .stationReset ↔ m.kind = 55 := by
  cases m <;> simp [Msg.kind]

/-- What suits a frame of each kind (R167). -/
theorem Msg.suits_eq (m : Msg) (source dest own : Nat) : m.suits source dest own =
    if m.cls = 0 then decide (source < 32 ∧ dest = own)
    else if m.cls = 1 then decide (32 ≤ source ∧ source ≤ 62 ∧ dest = own)
    else if m.cls = 2 then decide (source < 32)
    else if m.kind = 55 then decide (dest = own) else true := by
  simp only [Msg.suits, Msg.eq_stationReset_iff]

/-- Settles O6, by the first check that the frame fails. -/
theorem receiveChecks : Obligations.ReceiveChecks := by
  refine ⟨fun s w ended => ?checks, fun own source dest m => ⟨Msg.isManagement_iff m, fun hsource hdest => ?suits⟩⟩
  case checks =>
    obtain ⟨t, hexec⟩ : ∃ t, exec (.frameReceived w ended) s = .next t := ⟨_, rfl⟩
    have next : ∀ {u : State}, exec (.frameReceived w ended) s = .next u → t = u := fun h =>
      Host.Outcome.next.inj (hexec.symm.trans h)
    refine ⟨t, hexec, fun h => next (exec_frameReceived_of_overtaken h), fun hrun hend =>
      ⟨fun h => ?broken, fun hgood => ?intact⟩⟩
    case broken => exact next (exec_frameReceived_of_broken hrun hend
        (by rw [← Bool.not_eq_true, frameIntact_iff]; exact h))
    case intact =>
      have hintact := exec_frameReceived_of_intact hrun hend (frameIntact_iff.2 hgood)
      set u := s.heardFrom (frameSource w)
      refine ⟨fun hown hall => next (hintact.trans (by rw [if_neg (by simp [hown, hall])])), fun hdest => ?_⟩
      rw [if_pos hdest] at hintact
      have admitted : ∀ {v : State}, u.admitFrame w = v → t = v := fun h => next (hintact.trans (congrArg _ h))
      refine ⟨fun h => admitted (State.admitFrame_of_unread h), fun m hsource hread =>
        ⟨fun h => admitted (State.admitFrame_of_unsuited hsource hread h), fun hcls hsuits =>
          ⟨fun hmgmt hlow hdest => ?_, fun hmgmt hlow hdest => ?_, fun hhigh hfull => ?_, fun hhigh hroom => ?_⟩⟩⟩
      · exact admitted ((State.admitFrame_of_notPermitted (s := u) hsource hread hcls hsuits hmgmt hlow).trans
          (if_neg hdest))
      · rw [admitted ((State.admitFrame_of_notPermitted (s := u) hsource hread hcls hsuits hmgmt hlow).trans
          (if_pos hdest))]
        exact State.offered_send (s := u.bump .notPermitted) hrun _ _
      · exact admitted ((State.admitFrame_of_permitted (s := u) hsource hread hcls hsuits hhigh).trans
          (if_neg (Nat.not_lt.2 hfull)))
      · exact admitted ((State.admitFrame_of_permitted (s := u) hsource hread hcls hsuits hhigh).trans (if_pos hroom))
  case suits =>
    rw [Msg.suits_eq]
    simp only [Msg.cls, List.mem_cons, List.not_mem_nil, or_false]
    refine ⟨?_, ?_, ?_, ?_, ?_⟩ <;> intro hk
    · have : classOfKind m.kind = 0 := by unfold classOfKind; split_ifs <;> omega
      simp [this]; omega
    · have : classOfKind m.kind = 1 := by unfold classOfKind; split_ifs <;> omega
      simp [this]; omega
    · have : classOfKind m.kind = 2 := by unfold classOfKind; split_ifs <;> omega
      simp [this]; omega
    · have : classOfKind m.kind = 3 := by unfold classOfKind; split_ifs <;> omega
      simp [this]; omega
    · have : classOfKind 55 = 3 := rfl
      simp [hk, this]

/-! ## A frame as composed (R162) -/

theorem Msg.payload_length_lt {m : Msg} (h : m.fits = true) : m.payload.length < 64 := by
  cases m <;> simp only [Msg.fits, Bool.false_eq_true] at h <;> simp [Msg.payload, holdBytes]

theorem Msg.kind_lt (m : Msg) : m.kind < 64 := by cases m <;> simp [Msg.kind]

theorem Msg.cls_lt (m : Msg) : m.cls < 4 := by unfold Msg.cls classOfKind; split_ifs <;> omega

theorem crcStep_lt {r : Nat} (b : Bool) : crcStep r b < 65536 := by
  have h : r * 2 % 65536 < 2 ^ 16 := Nat.mod_lt _ (by decide)
  unfold crcStep
  split
  · exact Nat.xor_lt_two_pow h (by decide)
  · exact h

theorem crcBits_lt (bits : List Bool) {r : Nat} (h : r < 65536) : crcBits bits r < 65536 := by
  induction bits generalizing r with
  | nil => exact h
  | cons b bits ih => exact ih (crcStep_lt b)

theorem crcBytes_lt (bs : List Byte) {r : Nat} (h : r < 65536) : crcBytes bs r < 65536 := by
  induction bs generalizing r with
  | nil => exact h
  | cons b bs ih => rw [crcBytes, Sys2Proof.Machine.force_eq]; exact ih (crcBits_lt _ h)

theorem frameCrc_lt (w : WireFrame) : frameCrc w < 65536 := crcBytes_lt _ (crcBits_lt _ (by decide))

section
variable {source dest : Nat} {m : Msg}

theorem frameSource_wireFrame (h : source < 64) : frameSource (wireFrame source dest m) = source := by
  have := m.cls_lt
  simp only [frameSource, wireFrame, BitVec.toNat_ofNat]
  omega

theorem frameClass_wireFrame (h : source < 64) : frameClass (wireFrame source dest m) = m.cls := by
  have := m.cls_lt
  simp only [frameClass, wireFrame, BitVec.toNat_ofNat]
  omega

theorem wireFrame_dest (h : dest < 64) : (wireFrame source dest m).dest.toNat = dest := by
  simp only [wireFrame, BitVec.toNat_ofNat]; omega

theorem wireFrame_kind : (wireFrame source dest m).kind.toNat = m.kind := by
  have := m.kind_lt
  simp only [wireFrame, BitVec.toNat_ofNat]; omega

theorem wireFrame_intact (h : m.fits = true) : frameIntact (wireFrame source dest m) .whole = true := by
  have hlen := m.payload_length_lt h
  rw [frameIntact_iff]
  refine ⟨rfl, ?_, ?_⟩
  · simp only [wireFrame, BitVec.toNat_ofNat]; omega
  · show frameCrc (wireFrame source dest m) = (BitVec.ofNat 16 (frameCrc (wireFrame source dest m))).toNat
    rw [BitVec.toNat_ofNat]
    exact (Nat.mod_eq_of_lt (frameCrc_lt _)).symm

end

/-- Settles O5: a frame as composed is intact, and its payload is read back as what was composed. -/
theorem frameReceivedWhole : Obligations.FrameReceivedWhole := by
  intro s source dest m hrun haddress hfits hsource hdest hsuits hmgmt hroom
  have hdest64 : dest < 64 := by
    rcases hdest with rfl | rfl
    · omega
    · decide
  have hfrom : frameSource (wireFrame source dest m) = source := frameSource_wireFrame (by omega)
  have hto : (wireFrame source dest m).dest.toNat = dest := wireFrame_dest hdest64
  have hread : parseMsg (wireFrame source dest m).kind.toNat (wireFrame source dest m).payload = some m := by
    rw [wireFrame_kind]; exact parseMsg_payload hfits
  rw [exec_frameReceived_of_intact hrun (by decide) (wireFrame_intact hfits), hto, if_pos hdest, hfrom,
    State.admitFrame_of_permitted (by omega) hread (frameClass_wireFrame (by omega)) (by rw [hfrom, hto]; exact hsuits)
      (by rw [hfrom]; exact hmgmt), hfrom, hto]
  exact congrArg Host.Outcome.next (if_pos hroom)

/-! ## Offers (R50, R170) -/

/-- An offer answers whether the queue took the frame. -/
theorem State.offer_snd_iff {s : State} (h : s.running = true) (dest : Nat) (m : Msg) :
    (s.offer dest m).2 = true ↔ s.tx.length < Config.txCapacity := by
  rw [State.offer, if_pos h]
  split <;> simp_all

theorem State.offer_of_not_running {s : State} (h : s.running = false) (dest : Nat) (m : Msg) :
    s.offer dest m = (s, false) := by
  rw [State.offer, if_neg (by simp [h])]

theorem State.offerLoad_of_not_running {s : State} (h : s.running = false) (group : Nat) : s.offerLoad group = s := by
  rw [State.offerLoad, if_neg (by simp [h])]

theorem any_waitingLoad_iff {tx : List TxEntry} {group : Nat} : (tx.any (·.waitingLoad group)) = true ↔
    ∃ e ∈ tx, e.onLine = none ∧ e.body = .load group := by
  simp only [List.any_eq_true, TxEntry.waitingLoad_iff]

theorem State.loadOffered {s : State} (h : s.running = true) (group : Nat) :
    LoadOffered s (s.offerLoad group) group := by
  unfold LoadOffered OnlyQueue State.offerLoad
  rw [if_pos h]
  simp only [← any_waitingLoad_iff]
  split
  · exact ⟨rfl, rfl, rfl⟩
  · split <;> exact ⟨rfl, rfl, rfl⟩

/-- A group record handed over is written recomputed, and its triple is tested (R39, R49). -/
theorem State.groupHanded {s : State} (h : s.running = true) (li : Nat) (g : Group) :
    GroupHanded s (s.handGroup li g) li g := by
  unfold GroupHanded TripleTested State.handGroup
  simp only [ne_eq, ite_not]
  split
  · rfl
  · exact State.loadOffered (s := s.setGroup li g.recomputed) h _

theorem State.handGroup_of_not_running {s : State} (h : s.running = false) (li : Nat) (g : Group) :
    s.handGroup li g = { s with groups := Tab.put s.groups li g.recomputed } := by
  unfold State.handGroup
  simp only
  split
  · exact State.offerLoad_of_not_running (s := s.setGroup li g.recomputed) h _
  · rfl

/-- Settles O7, by the station state. -/
theorem offersAnswered : Obligations.OffersAnswered := fun _ dest group li m g =>
  ⟨fun h => ⟨State.offered_send h dest m, State.offer_snd_iff h dest m, State.loadOffered h group,
      State.groupHanded h li g⟩,
    fun h => ⟨State.offer_of_not_running h dest m, State.offerLoad_of_not_running h group,
      State.handGroup_of_not_running h li g⟩⟩

/-! ## Contention (R163, R170) -/

theorem TxBody.cls_lt (b : TxBody) : b.cls < 4 := by
  cases b with
  | msg m => exact m.cls_lt
  | load group => exact (by decide : (2 : Nat) < 4)

/-- The contender is the oldest waiting entry of the lowest class. -/
theorem contender_eq_some {tx : List TxEntry} {i : Nat} {e : TxEntry} (hidle : ∀ d ∈ tx, d.onLine = none)
    (he : tx[i]? = some e)
    (hfirst : ∀ j d, tx[j]? = some d → e.body.cls < d.body.cls ∨ (e.body.cls = d.body.cls ∧ i ≤ j)) :
    contender tx = some i := by
  have hfound : tx.findIdx? (fun d => d.onLine.isNone && decide (d.body.cls = e.body.cls)) = some i := by
    obtain ⟨hi, rfl⟩ := List.getElem?_eq_some_iff.1 he
    rw [List.findIdx?_eq_some_iff_getElem]
    refine ⟨hi, by simp [hidle _ (List.getElem_mem hi)], fun j hj => ?_⟩
    have := hfirst j tx[j] (List.getElem?_eq_getElem _)
    simp only [Bool.and_eq_true, decide_eq_true_eq, not_and]
    omega
  have hlower : ∀ c < e.body.cls, tx.findIdx? (fun d => d.onLine.isNone && decide (d.body.cls = c)) = none := by
    intro c hc
    rw [List.findIdx?_eq_none_iff]
    intro d hd
    obtain ⟨j, hj⟩ := List.mem_iff_getElem?.1 hd
    have := hfirst j d hj
    simp only [Bool.and_eq_false_iff, decide_eq_false_iff_not]
    omega
  have hcls := e.body.cls_lt
  unfold contender
  generalize e.body.cls = cls at hfound hlower hcls
  interval_cases cls <;> simp [hfound, hlower]

section
variable {s : State} {others : List (BitVec 8)} {i : Nat} {e : TxEntry}

/-- The contender goes in sending where no other station sends a lower arbitration value. -/
theorem exec_contention (hrun : s.running = true) (hidle : ∀ d ∈ s.tx, d.onLine = none) (hi : contender s.tx = some i)
    (he : s.tx[i]? = some e) : exec (.busIdleContention others) s =
      .next (if others.all fun o => decide (s.arbitration e ≤ o) then
        ({ s with tx := s.tx.set i { e with onLine := some (wireFrame s.address e.dest (s.msgOf e.body)) } }
          : State).announce e.body
      else s) := by
  have hsending : s.sending = false := by
    rw [State.sending, List.any_eq_false]
    intro d hd
    simp [hidle d hd]
  refine congrArg Host.Outcome.next ((if_pos (by simp [hrun, hsending])).trans ?_)
  simp only [hi, he]

theorem arbitration_le_iff (haddress : s.address ≤ 31) (o : BitVec 8) :
    s.arbitration e ≤ o ↔ e.body.cls * 64 + s.address ≤ o.toNat := by
  have := e.body.cls_lt
  rw [BitVec.le_def, State.arbitration, BitVec.toNat_ofNat, Nat.mod_eq_of_lt (by omega)]

end

/-- Settles O8: the entry contends, and its arbitration value decides. -/
theorem contentionDecides : Obligations.ContentionDecides := by
  intro s others i e hrun haddress hidle he hfirst
  have hcontends := exec_contention (others := others) hrun hidle (contender_eq_some hidle he hfirst) he
  refine ⟨fun ⟨o, ho, hlow⟩ => ?lost, fun hwins => ?won⟩
  case lost =>
    rw [hcontends, if_neg]
    rw [List.all_eq_true]
    intro hall
    have := (arbitration_le_iff haddress o).1 (of_decide_eq_true (hall o ho))
    omega
  case won =>
    have hall : (others.all fun o => decide (s.arbitration e ≤ o)) = true := by
      rw [List.all_eq_true]
      exact fun o ho => decide_eq_true ((arbitration_le_iff haddress o).2 (hwins o ho))
    rw [hcontends, if_pos hall]
    refine ⟨fun m hm => ?message, fun group li g hg hown hli hfind => ?load⟩
    case message => simp only [hm, State.announce, State.msgOf]
    case load =>
      subst hli
      have hgroup := State.ownGroup_eq_some hown hfind
      have hgroup' : ∀ tx, ({ s with tx := tx } : State).ownGroup group = some (group % 16, g) := fun _ => hgroup
      simp only [hg, State.announce, State.msgOf, State.loadMsg, hgroup, hgroup', State.setGroup, flagByte,
        LoadRecord.triple]

/-! ## The end of sending (R164, R170) -/

theorem returnToWaiting_append {older : List TxEntry} (h : ∀ d ∈ older, d.onLine = none) (l : List TxEntry) :
    returnToWaiting (older ++ l) = older ++ returnToWaiting l := by
  induction older with
  | nil => rfl
  | cons d older ih =>
    rw [List.cons_append, returnToWaiting_waiting (h d List.mem_cons_self),
      ih fun d hd => h d (List.mem_cons_of_mem _ hd), List.cons_append]

/-- Settles O9: the entry in sending stands alone between waiting ones. -/
theorem sendingEnds : Obligations.SendingEnds := by
  intro s older newer e htx he holder hnewer
  have hback : exec .bitMismatch s =
      .next { s with tx := older ++ { e with onLine := none } :: e.body.takeIn newer } := by
    show Host.Outcome.next ({ s with tx := returnToWaiting s.tx } : State) = _
    rw [htx, returnToWaiting_append holder, returnToWaiting_sending he]
  refine ⟨?sent, fun m hm => ?message, fun group hg => ?load⟩
  case sent =>
    have keep : ∀ l : List TxEntry, (∀ d ∈ l, d.onLine = none) → l.filter (·.onLine.isNone) = l := fun l h =>
      List.filter_eq_self.2 fun d hd => by simp [h d hd]
    show Host.Outcome.next ({ s with tx := s.tx.filter (·.onLine.isNone) } : State) = _
    rw [htx, List.filter_append, List.filter_cons_of_neg (by simpa [Option.isSome_iff_ne_none] using he),
        keep older holder,
      keep newer hnewer]
  case message => rw [hback, hm]; rfl
  case load =>
    rw [hback, hg]
    have hfilter : TxBody.takeIn (.load group) newer = newer.filter fun d => decide (d.body ≠ .load group) := by
      refine List.filter_congr fun d hd => ?_
      simp [TxEntry.waitingLoad, hnewer d hd]
    rw [hfilter]

end Sys2Proof.Machine
end

section
/-! Settles O11 and O12: the fields of a configuration image with their defaults and clamps (R175, R181), the groups
within the terminal budget (R182), and a read that fails (R180). -/

namespace Sys2Proof.Machine

/-! ## Fields with a default (R175) -/

/-- Bytes of one length that spell one number are one string of bytes. -/
theorem eq_of_fromBytes_eq {a b : List Byte} (hlen : a.length = b.length) (h : fromBytes a = fromBytes b) : a = b := by
  rw [← toBytes_fromBytes a, ← toBytes_fromBytes b, hlen, h]

theorem fromBytes_allOnes (w : Nat) : fromBytes (List.replicate w 0xFF#8) = 256 ^ w - 1 := by
  induction w with
  | zero => rfl
  | succ w ih =>
    rw [List.replicate_succ, fromBytes_cons, ih, List.length_replicate, Nat.pow_succ]
    have := Nat.pow_pos (n := w) (by decide : 0 < 256)
    simp only [BitVec.reduceToNat]
    omega

theorem field_eq_allOnes_iff {image : List Byte} {offset width : Nat} (h : offset + width ≤ image.length) :
    field image offset width = 256 ^ width - 1 ↔ ∀ i < width, image[offset + i]? = some 0xFF#8 := by
  have hlen : ((image.drop offset).take width).length = width := by
    rw [List.length_take, List.length_drop]; omega
  have hones : field image offset width = 256 ^ width - 1 ↔
      (image.drop offset).take width = List.replicate width 0xFF#8 := by
    rw [← fromBytes_allOnes width]
    exact ⟨eq_of_fromBytes_eq (by rw [hlen, List.length_replicate]), congrArg fromBytes⟩
  rw [hones]
  constructor
  · intro heq i hi
    have := congrArg (·[i]?) heq
    simpa [hi] using this
  · intro hall
    refine List.ext_getElem? fun i => ?_
    rcases Nat.lt_or_ge i width with hi | hi
    · simp [hi, hall i hi]
    · rw [List.getElem?_eq_none (by omega), List.getElem?_eq_none (by simpa using hi)]

theorem fieldOr_eq_default {image : List Byte} {offset width : Nat} (default : Nat)
    (h : field image offset width = 256 ^ width - 1) : fieldOr image offset width default = default := by
  simp only [fieldOr, h, if_true]

theorem fieldOr_eq_field {image : List Byte} {offset width : Nat} (default : Nat)
    (h : field image offset width ≠ 256 ^ width - 1) :
    fieldOr image offset width default = field image offset width := by
  simp only [fieldOr, h, if_false]

/-! ## Groups present and within the budget (R182) -/

theorem decodeGroup_isSome_iff (image : List Byte) (li : Nat) :
    (decodeGroup image li).isSome = true ↔ field image (16 + 17 * li) 1 = 1 := by
  unfold decodeGroup
  simp only
  split <;> simp_all

theorem mem_presentGroups_iff {image : List Byte} {li : Nat} {cfg : GroupConfig} :
    (li, cfg) ∈ presentGroups image ↔ li < 16 ∧ decodeGroup image li = some cfg := by
  simp [presentGroups]

/-- The groups are taken in order up to the first that would pass the budget. -/
theorem withinBudget_take (l : Tab GroupConfig) {used : Nat} (hused : used ≤ Config.terminalBudget) :
    ∃ k ≤ l.length, (withinBudget used l).1 = l.take k ∧ ((withinBudget used l).2 = true ↔ k < l.length) ∧
      used + ((l.take k).map fun p => p.2.working + p.2.spares).sum ≤ Config.terminalBudget ∧
      (k < l.length →
        Config.terminalBudget < used + ((l.take (k + 1)).map fun p => p.2.working + p.2.spares).sum) := by
  induction l generalizing used with
  | nil => exact ⟨0, Nat.le_refl _, rfl, by simp [withinBudget], by simpa using hused, fun h => absurd h (by simp)⟩
  | cons p l ih =>
    obtain ⟨li, g⟩ := p
    rcases Nat.lt_or_ge Config.terminalBudget (used + g.working + g.spares) with hover | hfits
    · refine ⟨0, Nat.zero_le _, ?_⟩
      simp only [withinBudget, if_neg (Nat.not_le.2 hover)]
      refine ⟨rfl, by simp, by simpa using hused, fun _ => ?_⟩
      simp only [Nat.zero_add, List.take_succ_cons, List.take_zero, List.map_cons, List.map_nil, List.sum_cons,
        List.sum_nil]
      omega
    · obtain ⟨k, hk, htake, htrim, hsum, hnext⟩ := ih hfits
      refine ⟨k + 1, Nat.succ_le_succ hk, ?_⟩
      simp only [withinBudget, if_pos hfits, htake, List.take_succ_cons, List.map_cons, List.sum_cons, List.length_cons]
      refine ⟨trivial, by rw [htrim]; omega, by omega, fun h => ?_⟩
      have := hnext (by omega)
      omega

/-- Settles O11. -/
theorem imageDecoded : Obligations.ImageDecoded := by
  refine ⟨fun image offset width default _ hwithin => ⟨fun h => ?ones, fun h => ?other⟩,
    fun low high v h => ?clamp, fun image => ⟨rfl, rfl, rfl, rfl, rfl, rfl, rfl, rfl, rfl, rfl, rfl,
      decodeEngine_inRange⟩, fun image li => ⟨decodeGroup_isSome_iff image li, fun g hg => ?group⟩,
    fun image => ⟨presentGroups_wf image, fun li cfg => mem_presentGroups_iff⟩, fun l => ?budget⟩
  case ones => exact fieldOr_eq_default default ((field_eq_allOnes_iff hwithin).2 h)
  case other =>
    refine fieldOr_eq_field default fun hones => ?_
    obtain ⟨i, hi, hne⟩ := h
    exact hne ((field_eq_allOnes_iff hwithin).1 hones i hi)
  case clamp => unfold clamp; omega
  case group =>
    have hrange := decodeGroup_inRange hg
    have hpresent := (decodeGroup_isSome_iff image li).1 (by rw [hg]; rfl)
    simp only [decodeGroup, hpresent, if_true, Option.some.injEq] at hg
    subst hg
    exact ⟨rfl, rfl, rfl, rfl, rfl, rfl, rfl, rfl, rfl, rfl, rfl, rfl, hrange⟩
  case budget =>
    obtain ⟨k, hk, htake, htrim, hsum, hnext⟩ := withinBudget_take l (Nat.zero_le Config.terminalBudget)
    rw [Nat.zero_add] at hsum
    exact ⟨k, hk, htake, htrim, hsum, fun h => by simpa using hnext h⟩

/-! ## A read (R180) -/

theorem imageGood_iff {image : List Byte} : (imageGood image && decide (field image 0 1 ≤ 31)) = true ↔
    image.length = 290 ∧ crcBytes (image.take 288) 0xFFFF = field image 288 2 ∧ field image 0 1 ≤ 31 := by
  have hlen : imageLength = 290 := rfl
  simp [imageGood, hlen, and_assoc]

section
variable {s : State} {image : List Byte} (hstation : s.station = .starting) (hreading : s.reading = true)
include hstation hreading

/-- A read in progress in STARTING completes, well or not. -/
theorem exec_configReadComplete : exec (.configReadComplete image) s =
    .next (if imageGood image && decide (field image 0 1 ≤ 31) then ({ s with reading := false } : State).readGood image
      else ({ s with reading := false } : State).readFailed) :=
  congrArg Host.Outcome.next (if_pos (by simp [hstation, hreading]))

end

/-- Settles O12, by the one equation of the read. -/
theorem readFails : Obligations.ReadFails := by
  intro s image hstation hreading hbad
  rw [exec_configReadComplete hstation hreading, if_neg (by rw [imageGood_iff]; exact hbad)]
  rfl

end Sys2Proof.Machine
end

section
/-! Settles O18, O19, O20 and O22. A set of frames is one run of offers, whatever its route lists take meanwhile: the
queue takes the first of them as far as it has room and counts the rest. -/

namespace Sys2Proof.Machine

/-! ## A run of offers (R170) -/

/-- "tx drop" after so many refusals (R192). -/
@[irreducible] def dropsAfter (refused drops : Nat) : Nat := satSucc^[refused] drops

@[simp] theorem dropsAfter_zero (n : Nat) : dropsAfter 0 n = n := by simp [dropsAfter]

@[simp] theorem dropsAfter_one (n : Nat) : dropsAfter 1 n = satSucc n := by simp [dropsAfter]

theorem dropsAfter_add (j k n : Nat) : dropsAfter (j + k) n = dropsAfter j (dropsAfter k n) := by
  simp [dropsAfter, Function.iterate_add_apply]

/-- The state after a run of offers: the queue takes entries as far as it has room, and each refusal is counted. -/
def State.enqueue (s : State) (es : List TxEntry) : State :=
  { s with
    tx := (s.tx ++ es).take Config.txCapacity
    counters := { s.counters with
      txDrop := dropsAfter (s.tx.length + es.length - Config.txCapacity) s.counters.txDrop } }

/-- Rises that stop at a maximum (R192). -/
theorem dropsAfter_eq {n : Nat} (h : n ≤ Config.counterMax) (k : Nat) :
    dropsAfter k n = min (n + k) Config.counterMax := by
  induction k generalizing n with
  | zero => simp [h]
  | succ k ih =>
    have hmax : satSucc n ≤ Config.counterMax := Nat.min_le_right _ _
    rw [dropsAfter_add, dropsAfter_one, ih hmax]
    simp only [satSucc]
    omega

section
variable {s : State}

@[simp] theorem State.enqueue_groups (es : List TxEntry) : (s.enqueue es).groups = s.groups := rfl
@[simp] theorem State.enqueue_routes (es : List TxEntry) : (s.enqueue es).routes = s.routes := rfl
@[simp] theorem State.enqueue_tx (es : List TxEntry) : (s.enqueue es).tx = (s.tx ++ es).take Config.txCapacity := rfl

theorem State.enqueue_length (es : List TxEntry) : (s.enqueue es).tx.length ≤ Config.txCapacity := by
  rw [State.enqueue_tx, List.length_take]; exact Nat.min_le_left _ _

theorem State.enqueue_nil (h : s.tx.length ≤ Config.txCapacity) : s.enqueue [] = s := by
  have hdrops : s.tx.length + 0 - Config.txCapacity = 0 := by omega
  simp only [State.enqueue, List.append_nil, List.take_of_length_le h, List.length_nil, hdrops,
    dropsAfter_zero]

theorem State.enqueue_enqueue (as bs : List TxEntry) : (s.enqueue as).enqueue bs = s.enqueue (as ++ bs) := by
  have htx : ((s.tx ++ as).take Config.txCapacity ++ bs).take Config.txCapacity =
      (s.tx ++ (as ++ bs)).take Config.txCapacity := by
    rw [← List.append_assoc, List.take_append, List.take_append (l₁ := s.tx ++ as), List.take_take, List.length_take]
    congr 2
    omega
  have hdrops : ((s.tx ++ as).take Config.txCapacity).length + bs.length - Config.txCapacity +
      (s.tx.length + as.length - Config.txCapacity) = s.tx.length + (as ++ bs).length - Config.txCapacity := by
    simp only [List.length_take, List.length_append]
    omega
  simp only [State.enqueue, htx, ← dropsAfter_add, hdrops]

/-- Room: one entry more. -/
theorem State.enqueue_one_of_room (h : s.tx.length < Config.txCapacity) (e : TxEntry) :
    s.enqueue [e] = { s with tx := s.tx ++ [e] } := by
  have hdrops : s.tx.length + 1 - Config.txCapacity = 0 := by omega
  have htake : (s.tx ++ [e]).take Config.txCapacity = s.tx ++ [e] := List.take_of_length_le (by simp; omega)
  simp only [State.enqueue, htake, List.length_singleton, hdrops, dropsAfter_zero]

/-- A full queue: one refusal more. -/
theorem State.enqueue_one_of_full (h : s.tx.length = Config.txCapacity) (e : TxEntry) :
    s.enqueue [e] = s.bump .txDrop := by
  have hdrops : s.tx.length + 1 - Config.txCapacity = 1 := by omega
  have htake : (s.tx ++ [e]).take Config.txCapacity = s.tx := by rw [← h]; exact List.take_left
  simp only [State.enqueue, htake, List.length_singleton, hdrops, dropsAfter_one]
  rfl

section
variable (hrun : s.running = true) (hlen : s.tx.length ≤ Config.txCapacity)
include hrun hlen

theorem State.send_eq_enqueue (dest : Nat) (m : Msg) : s.send dest m = s.enqueue [waiting dest m] := by
  rw [State.send, State.offer, if_pos hrun]
  split
  · rename_i hroom; rw [State.enqueue_one_of_room hroom]; rfl
  · rename_i hfull; rw [State.enqueue_one_of_full (by omega)]

theorem State.offerLoad_eq_enqueue {group : Nat} (h : s.tx.any (·.waitingLoad group) = false) : s.offerLoad group =
    s.enqueue [{ dest := Config.broadcast, body := .load group, onLine := none }] := by
  rw [State.offerLoad, if_pos hrun, if_neg (by simp [h])]
  split
  · rename_i hroom; rw [State.enqueue_one_of_room hroom]
  · rename_i hfull; rw [State.enqueue_one_of_full (by omega)]

end

theorem State.offerLoad_of_waiting {group : Nat} (h : s.tx.any (·.waitingLoad group) = true) :
    s.offerLoad group = s := by
  rw [State.offerLoad, if_pos h]; exact ite_self _

/-! ## A run of offers and the route lists -/

theorem State.enterReach_enqueue (es : List TxEntry) (c : Candidate) (d : Nat) :
    (s.enqueue es).enterReach c d = (s.enterReach c d).enqueue es := by
  unfold State.enterReach
  simp only
  split <;> simp_all [State.enqueue, State.routeList, State.bump, Counters.bump]

theorem State.enterReaches_enqueue (s : State) (es : List TxEntry) (c : Candidate) (dests : List Nat) :
    (s.enqueue es).enterReaches c dests = (s.enterReaches c dests).enqueue es := by
  induction dests generalizing s with
  | nil => rfl
  | cons d dests ih => rw [State.enterReaches_cons, State.enterReach_enqueue, ih, State.enterReaches_cons]

theorem State.applyOwnReach_enqueue (es : List TxEntry) (g : Group) :
    (s.enqueue es).applyOwnReach g = (s.applyOwnReach g).enqueue es := by
  have h := s.enterReaches_enqueue es { group := g.global, pref := g.effPref }
      (reachDests g.cfg.destFirst g.cfg.destCount)
  unfold State.enterReaches at h
  unfold State.applyOwnReach State.applyReach
  simp only [h]
  rfl

end

/-- The reaches of own groups applied one after another (R84, R85). -/
def State.applyOwnReaches (s : State) (groups : Tab Group) : State :=
  groups.foldl (fun s p => s.applyOwnReach p.2) s

@[simp] theorem State.applyOwnReaches_nil (s : State) : s.applyOwnReaches [] = s := rfl

@[simp] theorem State.applyOwnReaches_cons (s : State) (p : Nat × Group) (groups : Tab Group) :
    s.applyOwnReaches (p :: groups) = (s.applyOwnReach p.2).applyOwnReaches groups := rfl

theorem State.applyOwnReaches_enqueue (s : State) (es : List TxEntry) (groups : Tab Group) :
    (s.enqueue es).applyOwnReaches groups = (s.applyOwnReaches groups).enqueue es := by
  induction groups generalizing s with
  | nil => rfl
  | cons p groups ih => rw [State.applyOwnReaches_cons, State.applyOwnReach_enqueue, ih, State.applyOwnReaches_cons]

/-- Nothing but the route lists and "reach overflow" differs. -/
def ReachesOnly (s t : State) : Prop :=
  t = { s with routes := t.routes, counters := { s.counters with reachOverflow := t.counters.reachOverflow } }

theorem ReachesOnly.trans {s t u : State} (h : ReachesOnly s t) (h' : ReachesOnly t u) : ReachesOnly s u := by
  unfold ReachesOnly at h' ⊢
  rw [h', h]

theorem State.enterReaches_only (s : State) (c : Candidate) (dests : List Nat) :
    ReachesOnly s (s.enterReaches c dests) := by
  induction dests generalizing s with
  | nil => rfl
  | cons d dests ih =>
    refine ReachesOnly.trans ?_ (ih _)
    unfold ReachesOnly State.enterReach
    simp only
    split <;> rfl

theorem State.applyReach_only (s : State) (g pref first count : Nat) : ReachesOnly s
    (s.applyReach g pref first count) :=
  ReachesOnly.trans (s.enterReaches_only { group := g, pref := pref } (reachDests first count)) rfl

theorem State.applyOwnReaches_only (s : State) (groups : Tab Group) : ReachesOnly s (s.applyOwnReaches groups) := by
  induction groups generalizing s with
  | nil => rfl
  | cons p groups ih => exact (s.applyReach_only _ _ _ _).trans (ih _)

section
variable {s t : State} (h : ReachesOnly s t)
include h

/-- A run of offers after reaches were applied. -/
theorem ReachesOnly.enqueue (es : List TxEntry) : t.enqueue es = { s with
    tx := (t.enqueue es).tx, routes := (t.enqueue es).routes
    counters := { s.counters with
      txDrop := (t.enqueue es).counters.txDrop, reachOverflow := (t.enqueue es).counters.reachOverflow } } := by
  unfold ReachesOnly at h
  rw [h]
  rfl

theorem ReachesOnly.running : t.running = s.running := by rw [h]; rfl
theorem ReachesOnly.tx : t.tx = s.tx := by rw [h]
theorem ReachesOnly.groups : t.groups = s.groups := by rw [h]
theorem ReachesOnly.clock : t.clock = s.clock := by rw [h]
theorem ReachesOnly.txDrop : t.counters.txDrop = s.counters.txDrop := by rw [h]

end

/-! ## Sets of frames (R52, R85, R87) -/

theorem State.setOfReach_fold (groups : Tab Group) {s : State} (hrun : s.running = true)
    (hlen : s.tx.length ≤ Config.txCapacity) :
    groups.foldl (fun s p => (s.applyOwnReach p.2).send Config.broadcast (reachMsg p.2)) s =
      (s.applyOwnReaches groups).enqueue (groups.map fun p => waitingReach p.2) := by
  induction groups generalizing s with
  | nil => exact (State.enqueue_nil hlen).symm
  | cons p groups ih =>
    have honly := s.applyReach_only p.2.global p.2.effPref p.2.cfg.destFirst p.2.cfg.destCount
    change ReachesOnly s (s.applyOwnReach p.2) at honly
    have hsend : (s.applyOwnReach p.2).send Config.broadcast (reachMsg p.2) =
        (s.applyOwnReach p.2).enqueue [waitingReach p.2] :=
      State.send_eq_enqueue (honly.running.trans hrun) (by rw [honly.tx]; exact hlen) _ _
    rw [List.foldl_cons, hsend, ih (s := (s.applyOwnReach p.2).enqueue _) (honly.running.trans hrun)
      (State.enqueue_length _), State.applyOwnReaches_enqueue, State.enqueue_enqueue, List.map_cons,
      List.singleton_append, State.applyOwnReaches_cons]

/-- A set of REACH is the own reaches applied and one run of offers. -/
theorem State.setOfReach_eq {s : State} (hrun : s.running = true) (hlen : s.tx.length ≤ Config.txCapacity) :
    s.setOfReach = (s.applyOwnReaches s.groups).enqueue (s.groups.map fun p => waitingReach p.2) :=
  State.setOfReach_fold s.groups hrun hlen

theorem waitingLoad_waitingLoadOf {g : Group} {group : Nat} :
    (waitingLoadOf g).waitingLoad group = decide (g.global = group) := by
  simp [TxEntry.waitingLoad, waitingLoadOf]

/-- An entry that joins the queue adds its own waiting LOAD at most. -/
theorem State.any_waitingLoad_enqueue_of_ne {s : State} (hlen : s.tx.length ≤ Config.txCapacity) {es : List TxEntry}
    {group : Nat} (h : ∀ e ∈ es, e.waitingLoad group = false) :
    (s.enqueue es).tx.any (·.waitingLoad group) = s.tx.any (·.waitingLoad group) := by
  have hrest : (es.take (Config.txCapacity - s.tx.length)).any (·.waitingLoad group) = false := by
    rw [List.any_eq_false]
    exact fun e he => by simp [h e (List.mem_of_mem_take he)]
  rw [State.enqueue_tx, List.take_append, List.take_of_length_le hlen, List.any_append, hrest, Bool.or_false]

theorem State.setOfLoads_fold (groups : Tab Group) (hnodup : (groups.map (·.2.global)).Nodup) {s : State}
    (hrun : s.running = true) (hlen : s.tx.length ≤ Config.txCapacity) :
    groups.foldl (fun s p => s.offerLoad p.2.global) s =
      s.enqueue ((groups.filter fun p => !s.tx.any (·.waitingLoad p.2.global)).map fun p => waitingLoadOf p.2) := by
  induction groups generalizing s with
  | nil => exact (State.enqueue_nil hlen).symm
  | cons p groups ih =>
    rw [List.map_cons, List.nodup_cons] at hnodup
    obtain ⟨hnew, hnodup⟩ := hnodup
    rw [List.foldl_cons]
    cases hany : s.tx.any (·.waitingLoad p.2.global) with
    | true => rw [State.offerLoad_of_waiting hany, ih hnodup hrun hlen, List.filter_cons_of_neg (by simp [hany])]
    | false =>
      have hothers : ∀ q ∈ groups, (s.enqueue [waitingLoadOf p.2]).tx.any (·.waitingLoad q.2.global) =
          s.tx.any (·.waitingLoad q.2.global) := by
        intro q hq
        refine State.any_waitingLoad_enqueue_of_ne hlen fun e he => ?_
        rw [List.mem_singleton.1 he, waitingLoad_waitingLoadOf]
        exact decide_eq_false fun heq => hnew (List.mem_map.2 ⟨q, hq, heq.symm⟩)
      have hoffer : s.offerLoad p.2.global = s.enqueue [waitingLoadOf p.2] := State.offerLoad_eq_enqueue hrun hlen hany
      rw [hoffer, ih (s := s.enqueue _) hnodup hrun (State.enqueue_length _), State.enqueue_enqueue,
        List.filter_congr fun q hq => congrArg (!·) (hothers q hq), List.filter_cons_of_pos (by simp [hany])]
      rfl

/-- A set of LOADs is one run of offers, one for each group without a waiting LOAD. -/
theorem State.setOfLoads_eq {s : State} (hnodup : (s.groups.map (·.2.global)).Nodup) (hrun : s.running = true)
    (hlen : s.tx.length ≤ Config.txCapacity) : s.setOfLoads =
      s.enqueue ((s.groups.filter fun p => !s.tx.any (·.waitingLoad p.2.global)).map fun p => waitingLoadOf p.2) :=
  State.setOfLoads_fold s.groups hnodup hrun hlen

/-- Settles O19: a set is a run of offers. -/
theorem setsOfFrames : Obligations.SetsOfFrames := by
  intro s hrun hlen hmax
  refine ⟨?reach, fun hnodup => ?loads⟩
  case reach =>
    have honly := s.applyOwnReaches_only s.groups
    have hset := State.setOfReach_eq hrun hlen
    rw [hset]
    simp only [State.enqueue, honly.tx, honly.txDrop, List.length_append, ← dropsAfter_eq hmax]
    rw [honly]
    rfl
  case loads =>
    rw [State.setOfLoads_eq hnodup hrun hlen]
    simp only [State.enqueue, List.length_append, ← dropsAfter_eq hmax]

/-! ## The end of the listen window (R184) -/

/-- The station has just become ACTIVE (R184). -/
def State.activated (s : State) : State :=
  { s.setStation .active with
    listenDeadline := none, reachDeadline := some (after s.clock (1000 * s.config.reachPeriod)) }

section
variable {s : State} {d : Clock} (h : s.listenDeadline = some d)
include h

theorem exec_listenDeadline : exec .listenDeadline s =
    .next (if decide (s.station = .listen) && reached s.clock d then
      ((s.activated.send Config.broadcast (.present 2)).setOfReach).setOfLoads else s) := by
  show execListenDeadline s = _
  simp only [execListenDeadline, h]
  rfl

end

theorem waitingLoad_waiting (dest : Nat) (m : Msg) (group : Nat) : (waiting dest m).waitingLoad group = false := by
  simp [TxEntry.waitingLoad, waiting]

/-- A frame, a set of REACH and a set of LOADs are the own reaches applied and one run of offers. -/
theorem State.send_setOfReach_setOfLoads {s : State} (hrun : s.running = true)
    (hlen : s.tx.length ≤ Config.txCapacity) (hnodup : (s.groups.map (·.2.global)).Nodup) (dest : Nat) (m : Msg) :
    ((s.send dest m).setOfReach).setOfLoads =
      (s.applyOwnReaches s.groups).enqueue (waiting dest m :: (s.groups.map fun p => waitingReach p.2) ++
        (s.groups.filter fun p => !s.tx.any (·.waitingLoad p.2.global)).map fun p => waitingLoadOf p.2) := by
  have honly := s.applyOwnReaches_only s.groups
  have hreach : (s.send dest m).setOfReach = (s.applyOwnReaches s.groups).enqueue
      (waiting dest m :: s.groups.map fun p => waitingReach p.2) := by
    rw [State.send_eq_enqueue hrun hlen, State.setOfReach_eq (s := s.enqueue _) hrun (State.enqueue_length _),
      State.enqueue_groups, State.applyOwnReaches_enqueue, State.enqueue_enqueue, List.singleton_append]
  have hany : ∀ group, (s.send dest m).setOfReach.tx.any (·.waitingLoad group) = s.tx.any (·.waitingLoad group) := by
    intro group
    rw [hreach, State.any_waitingLoad_enqueue_of_ne (by rw [honly.tx]; exact hlen), honly.tx]
    intro e he
    rcases List.mem_cons.1 he with rfl | he
    · exact waitingLoad_waiting _ _ _
    · obtain ⟨p, -, rfl⟩ := List.mem_map.1 he
      exact waitingLoad_waiting _ _ _
  have hgroups : (s.send dest m).setOfReach.groups = s.groups := by
    rw [hreach, State.enqueue_groups, honly.groups]
  rw [State.setOfLoads_eq (by rw [hgroups]; exact hnodup) (by rw [hreach]; exact honly.running.trans hrun)
    (by rw [hreach]; exact State.enqueue_length _)]
  simp only [hany, hgroups]
  rw [hreach, State.enqueue_enqueue]

/-- Settles O18: the three runs of offers are one. -/
theorem listenEnds : Obligations.ListenEnds := by
  intro s d hd
  rw [exec_listenDeadline hd]
  refine ⟨fun h => ?early, fun hstation hdue hlen hnodup => ?due⟩
  case early =>
    have hno : ¬ (s.station = .listen ∧ (s.clock - d).toNat < 2 ^ 31) := fun ⟨hl, hd⟩ =>
      h.elim (fun h => h hl) (fun h => Nat.not_le.2 hd h)
    rw [if_neg (by simpa only [Bool.and_eq_true, decide_eq_true_eq, reached] using hno)]
  case due =>
    have hyes : (decide (s.station = .listen) && reached s.clock d) = true :=
      Bool.and_eq_true_iff.2 ⟨decide_eq_true hstation, decide_eq_true hdue⟩
    rw [if_pos hyes]
    have hsets := State.send_setOfReach_setOfLoads (s := s.activated) rfl hlen hnodup Config.broadcast (.present 2)
    have honly := s.activated.applyOwnReaches_only s.activated.groups
    refine ⟨_, rfl, ?_, ⟨_, State.offered_send (s := s.activated) rfl _ _, rfl⟩, ?_⟩
    · rw [hsets]; exact honly.enqueue _
    · rw [hsets, State.enqueue_tx, honly.tx, ← List.append_assoc]
      rfl

/-! ## The deadlines (R51, R53, R88) -/

/-- The fewest whole periods past a deadline that is late by less than half the clock's range. -/
theorem advance_fewest {now deadline : Clock} {period : Nat} (hlow : 1 ≤ period) (hhigh : period ≤ 60000)
    (hdue : reached now deadline = true) :
    ∃ k, advance now deadline period = deadline + BitVec.ofNat 32 (k * period) ∧ 1 ≤ k ∧
      reached now (deadline + BitVec.ofNat 32 (k * period)) = false ∧
      ∀ j < k, reached now (deadline + BitVec.ofNat 32 (j * period)) = true := by
  have hlate : (now - deadline).toNat < 2 ^ 31 := of_decide_eq_true hdue
  have hleft : ∀ n, reached now (deadline + BitVec.ofNat 32 n) =
      decide ((2 ^ 32 - n % 2 ^ 32 + (now - deadline).toNat) % 2 ^ 32 < 2 ^ 31) := by
    intro n
    rw [reached, sub_add_eq_sub_sub, BitVec.toNat_sub, BitVec.toNat_ofNat]
  have hdiv := Nat.div_add_mod (now - deadline).toNat period
  have hmod := Nat.mod_lt (now - deadline).toNat hlow
  refine ⟨(now - deadline).toNat / period + 1, by rw [advance, after, Nat.mul_comm], Nat.le_add_left _ _, ?past,
      ?before⟩
  all_goals generalize (now - deadline).toNat = late at *
  case past =>
    have hover : (late / period + 1) * period = period * (late / period) + period := by ring
    rw [hleft, hover]
    apply decide_eq_false
    omega
  case before =>
    intro j hj
    have hwithin : j * period ≤ period * (late / period) := by
      rw [Nat.mul_comm]; exact Nat.mul_le_mul_left _ (Nat.le_of_lt_succ hj)
    rw [hleft]
    apply decide_eq_true
    omega

section
variable {s : State} {d : Clock}

theorem exec_announceDeadline (h : s.announceDeadline = some d) : exec .announceDeadline s =
    .next (if s.running && reached s.clock d then
      { s.announceSet with announceDeadline := some (advance s.clock d s.config.announcePeriod) } else s) := by
  show execAnnounceDeadline s = _
  simp only [execAnnounceDeadline, h]

theorem exec_reachDeadline (h : s.reachDeadline = some d) : exec .reachDeadline s =
    .next (if decide (s.station = .active) && reached s.clock d then
      { s.setOfReach with reachDeadline := some (advance s.clock d (1000 * s.config.reachPeriod)) } else s) := by
  show execReachDeadline s = _
  simp only [execReachDeadline, h]

end

theorem State.announceSet_of_groups {s : State} (h : s.groups ≠ []) : s.announceSet = s.setOfLoads := by
  rw [State.announceSet, if_neg (by simp [h])]

/-- Without a group a PRESENT with the state byte goes out in place of the LOADs (R53). -/
theorem State.announceSet_of_noGroup {s : State} (h : s.groups = []) :
    s.announceSet = s.send Config.broadcast (.present s.station.code) := by
  rw [State.announceSet, if_pos (by simp [h])]

theorem State.code_of_running {s : State} (h : s.running = true) :
    s.station.code = if s.station = .active then 2 else 1 := by
  have hst : s.station = .listen ∨ s.station = .active := of_decide_eq_true h
  rcases hst with h | h <;> rw [h] <;> rfl

/-- Settles O20. -/
theorem deadlinesAdvance : Obligations.DeadlinesAdvance := by
  intro s d hconfig
  obtain ⟨-, hannounce, hreach, -⟩ := hconfig
  refine ⟨fun h => ⟨fun hearly => ?announceEarly, fun hrun hdue => ?announceDue⟩,
    fun h => ⟨fun hearly => ?reachEarly, fun hactive hdue => ?reachDue⟩⟩
  case announceEarly =>
    rw [exec_announceDeadline h, if_neg]
    rcases hearly with h | h <;> simp [h]
  case announceDue =>
    obtain ⟨k, hk, hpos, hpast, hbefore⟩ := advance_fewest (by omega) (by omega : s.config.announcePeriod ≤ 60000) hdue
    refine ⟨s.announceSet, k, ?_, fun hnone => ?_, State.announceSet_of_groups, hpos, hpast, hbefore⟩
    · rw [exec_announceDeadline h, if_pos (by simp [hrun, hdue]), hk]
    · rw [State.announceSet_of_noGroup hnone, State.code_of_running hrun]
      exact State.offered_send hrun _ _
  case reachEarly =>
    rw [exec_reachDeadline h, if_neg]
    rcases hearly with h | h <;> simp [h]
  case reachDue =>
    obtain ⟨k, hk, hpos, hpast, hbefore⟩ :=
      advance_fewest (by omega) (by omega : 1000 * s.config.reachPeriod ≤ 60000) hdue
    refine ⟨k, ?_, hpos, hpast, hbefore⟩
    rw [exec_reachDeadline h, if_pos (by simp [hactive, hdue]), hk]

/-! ## Status read (R191) -/

theorem pow_dvd_rosterBitmap {roster : Tab Clock} {k : Nat} (h : ∀ p ∈ roster, k ≤ p.1) :
    2 ^ k ∣ rosterBitmap roster := by
  refine List.dvd_sum fun n hn => ?_
  obtain ⟨p, hp, rfl⟩ := List.mem_map.1 hn
  exact Nat.pow_dvd_pow _ (h p hp)

/-- The roster's keys are distinct, so the bit of an engine is set just when it is PRESENT. -/
theorem testBit_rosterBitmap {roster : Tab Clock} (h : Tab.wf roster) (n : Nat) :
    (rosterBitmap roster).testBit n = (Tab.find roster n).isSome := by
  induction roster with
  | nil => simp [rosterBitmap]
  | cons p roster ih =>
    obtain ⟨hlow, h⟩ := List.pairwise_cons.1 h
    obtain ⟨rest, hrest⟩ := pow_dvd_rosterBitmap fun q hq => Nat.succ_le_of_lt (hlow q hq)
    have hcons : rosterBitmap (p :: roster) = 2 ^ (p.1 + 1) * rest + 2 ^ p.1 := by
      rw [← hrest, Nat.add_comm]; rfl
    have htail := ih h
    rw [hrest, Nat.testBit_two_pow_mul] at htail
    rw [hcons, Nat.testBit_two_pow_mul_add _ (Nat.pow_lt_pow_right (by decide) (Nat.lt_succ_self _)), Tab.find]
    rcases Nat.lt_or_ge n (p.1 + 1) with hn | hn
    · rw [if_pos hn, Nat.testBit_two_pow]
      by_cases hp : p.1 = n
      · simp [hp]
      · have hnone : (Tab.find roster n).isSome = false := by
          rw [← htail]; simp; omega
        simp [hp, hnone]
    · rw [if_neg (Nat.not_lt.2 hn), if_neg (by omega), ← htail, decide_eq_true hn, Bool.true_and]

/-- Settles O22. -/
theorem statusAnswered : Obligations.StatusAnswered := by
  intro s source dest rest htakes hroster
  refine ⟨_, rosterBitmap s.roster, congrArg Host.Outcome.next (State.takeFrame_of_takes htakes rfl), ?_,
    testBit_rosterBitmap hroster⟩
  have hmsg : ({ s with rx := rest } : State).statusMsg = .mgmtDone 54 .ok
      (.status (if s.station = .active then 2 else 1)
      s.address (rosterBitmap s.roster) s.trimmed s.clock s.counters) := by
    rw [State.statusMsg, State.code_of_running (s := { s with rx := rest }) htakes.1]
    rfl
  rw [← hmsg]
  exact State.offered_send (s := { s with rx := rest }) htakes.1 _ _

end Sys2Proof.Machine
end

section
/-! Settles O14. On entry to LISTEN the route lists are rebuilt from the own groups alone: a list holds the first six of
the sorted candidates entered in it, whatever was entered after them. -/

namespace Sys2Proof.Machine

/-! ## The first six of a sorted list -/

/-- An insertion before the last candidate is an insertion before it in the rest. -/
theorem insertCandidate_append_of_before {c z : Candidate} (h : c.before z = true) (l : List Candidate) :
    insertCandidate c (l ++ [z]) = insertCandidate c l ++ [z] := by
  induction l with
  | nil => simp [insertCandidate, h]
  | cons d l ih =>
    simp only [List.cons_append, insertCandidate]
    split
    · rfl
    · rw [ih, List.cons_append]

/-- A candidate that is before none of a list goes to its end. -/
theorem insertCandidate_of_after {c : Candidate} {l : List Candidate} (h : ∀ d ∈ l, c.before d = false) :
    insertCandidate c l = l ++ [c] := by
  induction l with
  | nil => rfl
  | cons d l ih =>
    rw [insertCandidate, if_neg (by simp [h d List.mem_cons_self]), ih fun e he => h e (List.mem_cons_of_mem _ he),
      List.cons_append]

theorem take_insertCandidate_take (c : Candidate) (l : List Candidate) (n : Nat) :
    (insertCandidate c (l.take n)).take n = (insertCandidate c l).take n := by
  induction l generalizing n with
  | nil => simp
  | cons d l ih =>
    cases n with
    | zero => rfl
    | succ n =>
      simp only [List.take_succ_cons, insertCandidate]
      split
      · cases n with
        | zero => rfl
        | succ n => simp [List.take_take]
      · rw [List.take_succ_cons, List.take_succ_cons, ih]

/-- A new group entered in a sorted list of at most six leaves the first six (R81, R82). -/
theorem enterCandidate_eq_take {c : Candidate} {l : List Candidate} (hsorted : l.Pairwise fun a b => a.before b = true)
    (hlen : l.length ≤ Config.routeCandidates) (hnew : c.heldBy l = false) :
    (enterCandidate c l).1 = (insertCandidate c l).take Config.routeCandidates := by
  have hinsert := (insertCandidate_perm c l).length_eq
  rw [List.length_cons] at hinsert
  rcases Nat.lt_or_ge l.length Config.routeCandidates with hroom | hfull
  · rw [enterCandidate_of_room hnew hroom, List.take_of_length_le (by omega)]
  · have hne : l ≠ [] := fun h => by simp [h] at hfull
    obtain ⟨front, z, rfl⟩ : ∃ front z, l = front ++ [z] := ⟨_, _, (List.dropLast_append_getLast hne).symm⟩
    rw [enterCandidate_of_full hnew hfull (List.getLast?_concat ..), List.dropLast_concat]
    have hfront : (insertCandidate c front).length = Config.routeCandidates := by
      rw [(insertCandidate_perm c front).length_eq, List.length_cons]
      rw [List.length_append, List.length_singleton] at hlen hfull
      omega
    split
    · rename_i hbefore
      rw [insertCandidate_append_of_before hbefore, ← hfront, List.take_left]
    · rename_i hafter
      have hnone : ∀ d ∈ front ++ [z], c.before d = false := by
        intro d hd
        rw [List.mem_append, List.mem_singleton] at hd
        rcases hd with hd | rfl
        · refine Bool.not_eq_true _ ▸ fun h => hafter (Candidate.before_trans h ?_)
          exact (List.pairwise_append.1 hsorted).2.2 d hd z (List.mem_singleton_self z)
        · exact Bool.not_eq_true _ ▸ hafter
      have hlength : (front ++ [z]).length = Config.routeCandidates := Nat.le_antisymm hlen hfull
      rw [insertCandidate_of_after hnone, ← hlength, List.take_left]

/-! ## The route lists of the own groups (R84) -/

/-- An own group's reach contains a destination. -/
def Group.reaches (d : Nat) (g : Group) : Bool := decide (g.cfg.destFirst ≤ d ∧ d < g.cfg.destFirst + g.cfg.destCount)

/-- An own group as a candidate. -/
def Group.candidate (g : Group) : Candidate := { group := g.global, pref := g.effPref }

/-- The own candidates of a destination, in the order in which they are entered. -/
def ownCandidates (groups : Tab Group) (d : Nat) : List Candidate :=
  (groups.filter fun p => p.2.reaches d).map fun p => p.2.candidate

/-- The own candidates of a destination entered in a list, in the order of R80. -/
def enterAll (l : List Candidate) (cs : List Candidate) : List Candidate :=
  cs.foldl (fun l c => insertCandidate c l) l

theorem enterAll_perm (l cs : List Candidate) : (enterAll l cs).Perm (cs ++ l) := by
  induction cs generalizing l with
  | nil => rfl
  | cons c cs ih =>
    exact (ih _).trans (((insertCandidate_perm c l).append_left cs).trans List.perm_middle)

theorem enterAll_sorted {l cs : List Candidate} (hl : l.Pairwise fun a b => a.before b = true)
    (hnodup : ((cs ++ l).map (·.group)).Nodup) : (enterAll l cs).Pairwise fun a b => a.before b = true := by
  induction cs generalizing l with
  | nil => exact hl
  | cons c cs ih =>
    rw [List.cons_append, List.map_cons, List.nodup_cons] at hnodup
    obtain ⟨hnew, hrest⟩ := hnodup
    refine ih (insertCandidate_sorted hl fun d hd heq => hnew ?_) ?_
    · exact List.mem_map.2 ⟨d, List.mem_append_right _ hd, heq⟩
    · have hperm := (((insertCandidate_perm c l).append_left cs).trans List.perm_middle).map (·.group)
      rw [hperm.nodup_iff, List.map_cons, List.nodup_cons]
      exact ⟨hnew, hrest⟩

/-- Own groups of distinct numbers applied one after another: each list is the first six of what was entered in it. -/
theorem State.applyOwnReaches_routeList {groups : Tab Group} {s : State} (hw : Tab.wf s.routes) {d : Nat}
    (hd : d < 1024) {l : List Candidate} (hlist : s.routeList d = l.take Config.routeCandidates)
    (hsorted : l.Pairwise fun a b => a.before b = true)
    (hnodup : ((groups.map fun p => p.2.candidate) ++ l).map (·.group) |>.Nodup) :
    (s.applyOwnReaches groups).routeList d =
      (enterAll l (ownCandidates groups d)).take Config.routeCandidates := by
  induction groups generalizing s l with
  | nil => exact hlist
  | cons p groups ih =>
    rw [List.map_cons, List.cons_append, List.map_cons, List.nodup_cons] at hnodup
    obtain ⟨hnew, hnodup⟩ := hnodup
    have hnot : ∀ c ∈ l, c.group ≠ p.2.global := fun c hc heq =>
      hnew (List.mem_map.2 ⟨c, List.mem_append_right _ hc, heq⟩)
    have hkept : Tab.wf (s.applyOwnReach p.2).routes := State.applyReach_wf _ _ _ _ hw
    rw [State.applyOwnReaches_cons]
    cases hreach : p.2.reaches d with
    | true =>
      have hcandidates : ownCandidates (p :: groups) d = p.2.candidate :: ownCandidates groups d := by
        simp [ownCandidates, hreach]
      have hentered : (s.applyOwnReach p.2).routeList d =
          (insertCandidate p.2.candidate l).take Config.routeCandidates := by
        have hheld : p.2.candidate.heldBy (s.routeList d) = false := by
          rw [hlist, List.any_eq_false]
          exact fun c hc => mt of_decide_eq_true (hnot c (List.mem_of_mem_take hc))
        have henter := State.applyReach_routeList_of_inReach p.2.global p.2.effPref p.2.cfg.destFirst p.2.cfg.destCount
          hw hd hreach
        refine henter.trans ?_
        change (enterCandidate p.2.candidate (s.routeList d)).1 = _
        rw [hlist] at hheld ⊢
        rw [enterCandidate_eq_take (c := p.2.candidate) (hsorted.sublist (List.take_sublist _ _))
          (List.length_take_le _ _) hheld, take_insertCandidate_take]
      rw [hcandidates]
      refine ih hkept hentered (insertCandidate_sorted hsorted hnot) ?_
      have hperm := ((insertCandidate_perm p.2.candidate l).append_left (groups.map fun p => p.2.candidate)).trans
        List.perm_middle
      rw [(hperm.map _).nodup_iff, List.map_cons, List.nodup_cons]
      exact ⟨hnew, hnodup⟩
    | false =>
      have hcandidates : ownCandidates (p :: groups) d = ownCandidates groups d := by
        simp [ownCandidates, hreach]
      have hout := State.applyReach_routeList_of_not_inReach p.2.global p.2.effPref p.2.cfg.destFirst
        p.2.cfg.destCount hw hreach
      rw [hcandidates]
      refine ih hkept (hout.trans ?_) hsorted hnodup
      rw [hlist, List.filter_eq_self]
      exact fun c hc => decide_eq_true (hnot c (List.mem_of_mem_take hc))

/-- The own groups alone make up the route lists that they are entered in when there were none (R84). -/
theorem State.ownRoutes_of_applyOwnReaches {s t : State} (hroutes : s.routes = [])
    (hnodup : (s.groups.map (·.2.global)).Nodup) (ht : t.routes = (s.applyOwnReaches s.groups).routes)
    (hgroups : t.groups = s.groups) : t.OwnRoutes := by
  intro d hd
  have hsub : ((ownCandidates s.groups d ++ ([] : List Candidate)).map fun c => c.group).Nodup := by
    rw [List.append_nil, ownCandidates, List.map_map]
    exact hnodup.sublist (List.filter_sublist.map _)
  have hall : (((s.groups.map fun p => p.2.candidate) ++ ([] : List Candidate)).map fun c => c.group).Nodup := by
    rw [List.append_nil, List.map_map]; exact hnodup
  refine ⟨enterAll [] (ownCandidates s.groups d), ?_, enterAll_sorted .nil hsub, ?_⟩
  · rw [hgroups]
    have hperm := enterAll_perm [] (ownCandidates s.groups d)
    rw [List.append_nil] at hperm
    exact hperm
  · have hnil : s.routeList d = ([] : List Candidate).take Config.routeCandidates := by
      rw [State.routeList, hroutes]; rfl
    rw [← State.applyOwnReaches_routeList (by rw [hroutes]; exact .nil) hd hnil .nil hall, State.routeList, ht]
    rfl

/-! ## Entry to LISTEN (R183) -/

/-- The estimator starts over and the current triple counts as announced (R47, R55). -/
theorem Group.restarted_eq (g : Group) (now : Clock) : g.restarted now = { g with load := (g.restarted now).load } :=
    rfl

@[simp] theorem Group.restarted_global (g : Group) (now : Clock) : (g.restarted now).global = g.global := rfl

theorem Group.recomputed_restarted (g : Group) (now : Clock) : (g.restarted now).recomputed = g.restarted now := rfl

theorem Group.restarted_load (g : Group) (now : Clock) : (g.restarted now).load.smoothed = 65535 ∧
    (g.restarted now).load.lastAttempt = now ∧ (g.restarted now).load.surge = false ∧
    (g.restarted now).load.announced = (g.restarted now).load.triple :=
  ⟨rfl, rfl, rfl, rfl⟩

theorem State.enterListen_eq (s : State) : s.enterListen =
    (s.listening.applyOwnReaches s.listening.groups).send Config.broadcast (.present 1) := rfl

theorem State.listening_groups (s : State) :
    s.listening.groups = s.groups.map fun p => (p.1, p.2.restarted s.clock) := rfl

theorem State.enterListen_groups (s : State) : s.enterListen.groups =
    s.groups.map fun p => (p.1, p.2.restarted s.clock) := by
  rw [State.enterListen_eq, send_groups, (State.applyOwnReaches_only _ _).groups, State.listening_groups]

theorem State.find_enterListen (s : State) (li : Nat) :
    Tab.find s.enterListen.groups li = (Tab.find s.groups li).map fun g => g.restarted s.clock := by
  rw [State.enterListen_groups, Tab.find_mapVal s.groups fun _ g => g.restarted s.clock]

theorem State.enterListen_sent {s : State} (h : s.tx = []) : s.enterListen =
    (s.listening.applyOwnReaches s.listening.groups).enqueue [waiting Config.broadcast (.present 1)] := by
  have honly := s.listening.applyOwnReaches_only s.listening.groups
  have htx : s.listening.tx = [] := h
  exact State.send_eq_enqueue (honly.running.trans rfl) (by rw [honly.tx, htx]; exact Nat.zero_le _) _ _

/-- The entry to LISTEN with an empty transmit queue: PRESENT waits alone, and the own groups make up the lists. -/
theorem State.enterListen_frame {s : State} (h : s.tx = []) : s.enterListen = { s with
    station := .listen, ready := false, fault := false, roster := [(s.address, s.clock)], views := []
    listenDeadline := some (s.clock + BitVec.ofNat 32 s.config.listenWindow)
    announceDeadline := some (s.clock + BitVec.ofNat 32 s.config.announcePeriod), reachDeadline := none
    tx := [waiting Config.broadcast (.present 1)]
    groups := s.enterListen.groups, routes := s.enterListen.routes
    counters := { s.counters with reachOverflow := s.enterListen.counters.reachOverflow } } := by
  have honly := s.listening.applyOwnReaches_only s.listening.groups
  have htx : s.listening.tx = [] := h
  have hroom : (s.listening.applyOwnReaches s.listening.groups).tx.length < Config.txCapacity := by
    rw [honly.tx, htx]; decide
  rw [State.enterListen_sent h, State.enqueue_one_of_room hroom, honly.tx, htx]
  unfold ReachesOnly at honly
  rw [honly]
  rfl

theorem State.enterListen_ownRoutes {s : State} (h : s.tx = []) (hnodup : (s.groups.map (·.2.global)).Nodup) :
    s.enterListen.OwnRoutes := by
  refine State.ownRoutes_of_applyOwnReaches (s := s.listening) rfl ?_ ?_ (State.enterListen_groups s)
  · rw [State.listening_groups, List.map_map]; exact hnodup
  · rw [State.enterListen_sent h]; rfl

/-- Settles O14. -/
theorem entryToListen : Obligations.EntryToListen := by
  intro s htx hnodup
  refine ⟨State.enterListen_frame htx, ?_, fun i p hp => ⟨p.2.restarted s.clock, ?_, Group.restarted_eq _ _,
    Group.recomputed_restarted _ _, Group.restarted_load _ _⟩, State.enterListen_ownRoutes htx hnodup⟩
  · rw [State.enterListen_groups, List.map_map]; rfl
  · rw [State.enterListen_groups, List.getElem?_map, hp]; rfl

end Sys2Proof.Machine
end

section
/-! Rules for the entries of one group (R1 to R4, R31 to R35): what a circuit's use is, which circuit a terminal serves,
and that each rewriting of the entries keeps the group sound. -/

namespace Sys2Proof.Machine

/-! ## The use of a circuit -/

/-- Who uses a circuit, and by which hold slot while it is HELD (R3). -/
def Circuit.use : Circuit → Option (Nat × Option Nat)
  | .held _ u k _ _ => some (u, some k)
  | .busy _ u _ _ => some (u, none)
  | _ => none

@[simp] theorem Circuit.use_idle (t : Nat) : (Circuit.idle t).use = none := rfl
@[simp] theorem Circuit.use_blocked (t : Nat) : (Circuit.blocked t).use = none := rfl
@[simp] theorem Circuit.use_faulty : Circuit.faulty.use = none := rfl
@[simp] theorem Circuit.use_held (t u k : Nat) (bp fr : Bool) : (Circuit.held t u k bp fr).use = some (u, some k) := rfl
@[simp] theorem Circuit.use_busy (t u : Nat) (bp fr : Bool) : (Circuit.busy t u bp fr).use = some (u, none) := rfl

@[simp] theorem Circuit.terminal_idle (t : Nat) : (Circuit.idle t).terminal = some t := rfl
@[simp] theorem Circuit.terminal_blocked (t : Nat) : (Circuit.blocked t).terminal = some t := rfl
@[simp] theorem Circuit.terminal_faulty : Circuit.faulty.terminal = none := rfl
@[simp] theorem Circuit.terminal_held (t u k : Nat) (bp fr : Bool) : (Circuit.held t u k bp fr).terminal = some t := rfl
@[simp] theorem Circuit.terminal_busy (t u : Nat) (bp fr : Bool) : (Circuit.busy t u bp fr).terminal = some t := rfl

theorem Circuit.use_eq_held_iff {x : Circuit} {u k : Nat} :
    x.use = some (u, some k) ↔ ∃ t bp fr, x = .held t u k bp fr := by
  cases x <;> simp [Circuit.use]

theorem Circuit.use_eq_busy_iff {x : Circuit} {u : Nat} : x.use = some (u, none) ↔ ∃ t bp fr, x = .busy t u bp fr := by
  cases x <;> simp [Circuit.use]

/-- The circuit carries no hold slot. -/
def Circuit.Slotless (x : Circuit) : Prop := ∀ u k, x.use ≠ some (u, some k)

theorem Circuit.slotless_of_use_none {x : Circuit} (h : x.use = none) : x.Slotless := fun u k hk => by
  rw [h] at hk; cases hk

theorem Circuit.slotless_busy (t u : Nat) (bp fr : Bool) : (Circuit.busy t u bp fr).Slotless := fun _ _ h => by
  cases h

/-- The use of a group's circuit. -/
def Group.useAt (g : Group) (c : Nat) : Option (Nat × Option Nat) := (g.circuits[c]?).bind Circuit.use

theorem Group.useAt_eq {g : Group} {c : Nat} {x : Circuit} (h : g.circuits[c]? = some x) : g.useAt c = x.use := by
  simp [Group.useAt, h]

theorem Group.useAt_eq_some_iff {g : Group} {c : Nat} {u : Nat × Option Nat} :
    g.useAt c = some u ↔ ∃ x, g.circuits[c]? = some x ∧ x.use = some u := Option.bind_eq_some_iff

theorem Group.useAt_eq_held_iff {g : Group} {c u k : Nat} :
    g.useAt c = some (u, some k) ↔ ∃ t bp fr, g.circuits[c]? = some (.held t u k bp fr) := by
  rw [Group.useAt_eq_some_iff]
  constructor
  · rintro ⟨x, hx, hu⟩
    obtain ⟨t, bp, fr, rfl⟩ := Circuit.use_eq_held_iff.1 hu
    exact ⟨t, bp, fr, hx⟩
  · rintro ⟨t, bp, fr, hx⟩
    exact ⟨_, hx, rfl⟩

/-- What naming a circuit reads after a write of one circuit. -/
theorem getElem?_set_circuit {l : List Circuit} {c : Nat} {x : Circuit} (h : l[c]? = some x) (y : Circuit) (j : Nat) :
    (l.set c y)[j]? = if j = c then some y else l[j]? := by
  have hlt : c < l.length := (List.getElem?_eq_some_iff.1 h).1
  rw [List.getElem?_set]
  by_cases hj : c = j
  · subst hj; simp [hlt]
  · rw [if_neg hj, if_neg (Ne.symm hj)]

/-! ## The circuit that a terminal serves -/

/-- The circuit entry that a terminal serves (R4). -/
def Group.serves (g : Group) (t : Nat) : Option Circuit :=
  match g.terminals[t]? with
  | some (.serving c) => g.circuits[c]?
  | _ => none

theorem Group.serves_eq_some_iff {g : Group} {t : Nat} {x : Circuit} :
    g.serves t = some x ↔ ∃ c, g.terminals[t]? = some (.serving c) ∧ g.circuits[c]? = some x := by
  unfold Group.serves
  constructor
  · intro h
    split at h
    · exact ⟨_, ‹_›, h⟩
    · cases h
  · rintro ⟨c, ht, hx⟩
    rw [ht]; exact hx

theorem State.servedBy_eq (s : State) (li t : Nat) :
    s.servedBy li t = (Tab.find s.groups li).bind fun g => g.serves t := by
  unfold State.servedBy
  cases Tab.find s.groups li <;> rfl

theorem State.servedBy_of_find {s : State} {li : Nat} {g : Group} (h : Tab.find s.groups li = some g) (t : Nat) :
    s.servedBy li t = g.serves t := by
  rw [State.servedBy_eq, h]; rfl

section
variable {a li : Nat} {g : Group}

/-- A circuit's serving terminal serves it (R3, R4). -/
theorem Group.Sound.serving (h : g.Sound a li) {c t : Nat} {x : Circuit} (hx : g.circuits[c]? = some x)
    (ht : x.terminal = some t) : g.terminals[t]? = some (.serving c) :=
  (h.2.2.2.2.1 c t).1 (by rw [hx]; exact ht)

theorem Group.Sound.serves_of (h : g.Sound a li) {c t : Nat} {x : Circuit} (hx : g.circuits[c]? = some x)
    (ht : x.terminal = some t) : g.serves t = some x :=
  Group.serves_eq_some_iff.2 ⟨c, h.serving hx ht, hx⟩

theorem Group.Sound.lt_working (h : g.Sound a li) {c : Nat} {x : Circuit} (hx : g.circuits[c]? = some x) :
    c < g.cfg.working :=
  h.2.1 ▸ (List.getElem?_eq_some_iff.1 hx).1

/-- The terminal of a circuit serves no other circuit. -/
theorem Group.Sound.circuit_unique (h : g.Sound a li) {c d t : Nat} {x : Circuit} (hx : g.circuits[c]? = some x)
    (ht : x.terminal = some t) (hd : g.terminals[t]? = some (.serving d)) : d = c := by
  have := h.serving hx ht
  rw [hd] at this
  simpa using this

/-- A serving terminal is the terminal of the circuit it serves. -/
theorem Group.Sound.terminal_of_serving (h : g.Sound a li) {c t : Nat} (ht : g.terminals[t]? = some (.serving c)) :
    ∃ x, g.circuits[c]? = some x ∧ x.terminal = some t :=
  Option.bind_eq_some_iff.1 ((h.2.2.2.2.1 c t).2 ht)

/-! ## One circuit entry changes on its terminal -/

/-- The group after one circuit entry has been rewritten. -/
abbrev Group.setCircuit (g : Group) (c : Nat) (y : Circuit) : Group := { g with circuits := g.circuits.set c y }

theorem Group.setCircuit_get {c : Nat} {x : Circuit} (hx : g.circuits[c]? = some x) (y : Circuit) (j : Nat) :
    (g.setCircuit c y).circuits[j]? = if j = c then some y else g.circuits[j]? :=
  getElem?_set_circuit hx y j

/-- A circuit that stays on its terminal leaves the group sound (R3, R4). -/
theorem Group.Sound.setCircuit (h : g.Sound a li) {c t : Nat} {x y : Circuit} (hx : g.circuits[c]? = some x)
    (ht : x.terminal = some t) (hy : y.terminal = some t) : (g.setCircuit c y).Sound a li := by
  obtain ⟨hglobal, hcircuits, hterminals, hhunt, hnames, hspare, hpref⟩ := h
  refine ⟨hglobal, by rwa [List.length_set], hterminals, hhunt, fun c' t' => ?_, ?_, hpref⟩
  · rw [← hnames c' t', Group.setCircuit_get hx]
    split
    · rename_i hc; subst hc; simp [hx, ht, hy]
    · rfl
  · rintro ⟨hf, hs⟩
    refine hspare ⟨(List.mem_or_eq_of_mem_set hf).resolve_right ?_, hs⟩
    rintro rfl; cases hy

/-- The pointer of the next hunt may be any circuit (R9). -/
theorem Group.Sound.setHunt (h : g.Sound a li) {p : Nat} (hp : p < g.cfg.working) :
    ({ g with huntPtr := p } : Group).Sound a li := by
  obtain ⟨hglobal, hcircuits, hterminals, -, hnames, hspare, hpref⟩ := h
  exact ⟨hglobal, hcircuits, hterminals, hp, hnames, hspare, hpref⟩

/-- Other terminals serve what they served. -/
theorem Group.Sound.serves_setCircuit (h : g.Sound a li) {c t : Nat} {x : Circuit} (hx : g.circuits[c]? = some x)
    (ht : x.terminal = some t) (y : Circuit) {t' : Nat} {z : Circuit} (hne : t' ≠ t) (hz : g.serves t' = some z) :
    (g.setCircuit c y).serves t' = some z := by
  obtain ⟨d, hd, hzd⟩ := Group.serves_eq_some_iff.1 hz
  refine Group.serves_eq_some_iff.2 ⟨d, hd, ?_⟩
  rw [Group.setCircuit_get hx, if_neg ?_, hzd]
  rintro rfl
  obtain ⟨w, hw, hwt⟩ := h.terminal_of_serving hd
  rw [hx] at hw
  cases hw
  rw [ht] at hwt
  exact hne (by simpa using hwt.symm)

theorem Group.Sound.serves_setCircuit_self (h : g.Sound a li) {c t : Nat} {x y : Circuit}
    (hx : g.circuits[c]? = some x) (ht : x.terminal = some t) : (g.setCircuit c y).serves t = some y :=
  Group.serves_eq_some_iff.2 ⟨c, h.serving hx ht, by rw [Group.setCircuit_get hx, if_pos rfl]⟩

/-! ## Fault handling and restoring (R31 to R35) -/

theorem lowestSpare_eq_some {l : List TermRole} {sp : Nat} (h : lowestSpare l = some sp) :
    l[sp]? = some .spare ∧ ∀ j < sp, l[j]? ≠ some .spare := by
  obtain ⟨hlt, hsp, hlow⟩ := List.findIdx?_eq_some_iff_getElem.1 h
  refine ⟨?_, fun j hj hjs => ?_⟩
  · rw [List.getElem?_eq_getElem hlt]
    cases hr : l[sp] <;> simp [hr, TermRole.isSpare] at hsp ⊢
  · have := hlow j hj
    obtain ⟨hjl, hje⟩ := List.getElem?_eq_some_iff.1 hjs
    rw [hje] at this
    exact this rfl

theorem lowestSpare_eq_none {l : List TermRole} (h : lowestSpare l = none) : TermRole.spare ∉ l := by
  intro hmem
  have := List.findIdx?_eq_none_iff.1 h _ hmem
  cases this

theorem lowestFaulty_eq_some {l : List Circuit} {c : Nat} (h : lowestFaulty l = some c) : l[c]? = some .faulty := by
  obtain ⟨hlt, hc, -⟩ := List.findIdx?_eq_some_iff_getElem.1 h
  rw [List.getElem?_eq_getElem hlt]
  cases hr : l[c] <;> simp [hr, Circuit.isFaulty] at hc ⊢

theorem lowestFaulty_eq_none {l : List Circuit} (h : lowestFaulty l = none) : Circuit.faulty ∉ l := by
  intro hmem
  have := List.findIdx?_eq_none_iff.1 h _ hmem
  cases this

/-- What fault handling makes of circuit `c`: it moves to the lowest SPARE terminal, or is FAULTY (R31, R32). -/
theorem Group.faulted_cases (g : Group) (c t : Nat) (b : Bool) :
    (∃ sp, lowestSpare (g.terminals.set t .faulty) = some sp ∧ g.faulted c t b = { g with
      terminals := (g.terminals.set t .faulty).set sp (.serving c)
      circuits := g.circuits.set c (if b then .blocked sp else .idle sp) }) ∨
    (lowestSpare (g.terminals.set t .faulty) = none ∧ g.faulted c t b = { g with
      terminals := g.terminals.set t .faulty, circuits := g.circuits.set c .faulty }) := by
  unfold Group.faulted
  simp only
  split
  · rename_i sp hsp; exact .inl ⟨sp, hsp, rfl⟩
  · rename_i hsp; exact .inr ⟨hsp, rfl⟩

/-- The group record after fault handling, with its load record recomputed and its preference following demotion
(R5, R31, R35). -/
def Group.faultTaken (g : Group) (c t : Nat) (b : Bool) : Group :=
  { (g.faulted c t b).recomputed with
    effPref := effectivePref g.cfg.preference (demoted (g.faulted c t b).terminals) }

@[simp] theorem Group.faultTaken_circuits (g : Group) (c t : Nat) (b : Bool) :
    (g.faultTaken c t b).circuits = (g.faulted c t b).circuits := rfl
@[simp] theorem Group.faultTaken_terminals (g : Group) (c t : Nat) (b : Bool) :
    (g.faultTaken c t b).terminals = (g.faulted c t b).terminals := rfl
@[simp] theorem Group.faultTaken_cfg (g : Group) (c t : Nat) (b : Bool) : (g.faultTaken c t b).cfg = g.cfg :=
  (g.faulted_kept c t b).cfg
@[simp] theorem Group.faultTaken_global (g : Group) (c t : Nat) (b : Bool) : (g.faultTaken c t b).global = g.global :=
  (g.faulted_kept c t b).global
@[simp] theorem Group.faultTaken_huntPtr (g : Group) (c t : Nat) (b : Bool) :
    (g.faultTaken c t b).huntPtr = g.huntPtr := by
  show (g.faulted c t b).huntPtr = _
  rcases g.faulted_cases c t b with ⟨sp, -, h⟩ | ⟨-, h⟩ <;> rw [h]

/-- The circuit leaves its use; every other circuit stays as it is. -/
theorem Group.faulted_get (g : Group) {c t : Nat} {x : Circuit} (hx : g.circuits[c]? = some x) (b : Bool) :
    ∃ y, y.use = none ∧ ∀ j, (g.faulted c t b).circuits[j]? = if j = c then some y else g.circuits[j]? := by
  rcases g.faulted_cases c t b with ⟨sp, -, h⟩ | ⟨-, h⟩ <;> rw [h]
  · exact ⟨_, by cases b <;> rfl, getElem?_set_circuit hx _⟩
  · exact ⟨_, rfl, getElem?_set_circuit hx _⟩

/-- The terminals of the two kinds of fault handling: the faulty one, and the spare that takes its circuit. -/
theorem set_set_terminal {l : List TermRole} {t sp c : Nat} (ht : t < l.length)
    (hsp : (l.set t .faulty)[sp]? = some .spare) (j : Nat) :
    sp ≠ t ∧ l[sp]? = some .spare ∧ ((l.set t .faulty).set sp (.serving c))[j]? =
      if j = sp then some (.serving c) else if j = t then some .faulty else l[j]? := by
  have hne : sp ≠ t := by
    rintro rfl; rw [List.getElem?_set_self ht] at hsp; cases hsp
  have hold : l[sp]? = some .spare := by rwa [List.getElem?_set_ne (Ne.symm hne)] at hsp
  have hlt : sp < (l.set t .faulty).length := by
    rw [List.length_set]; exact (List.getElem?_eq_some_iff.1 hold).1
  refine ⟨hne, hold, ?_⟩
  by_cases hj : j = sp
  · subst hj; rw [if_pos rfl, List.getElem?_set_self hlt]
  · rw [if_neg hj, List.getElem?_set_ne (Ne.symm hj)]
    by_cases hjt : j = t
    · subst hjt; rw [if_pos rfl, List.getElem?_set_self ht]
    · rw [if_neg hjt, List.getElem?_set_ne (Ne.symm hjt)]

theorem Group.Sound.faultTaken (h : g.Sound a li) {c t : Nat} {x : Circuit} (hx : g.circuits[c]? = some x)
    (ht : x.terminal = some t) (b : Bool) : (g.faultTaken c t b).Sound a li := by
  have hserving := h.serving hx ht
  have htl : t < g.terminals.length := (List.getElem?_eq_some_iff.1 hserving).1
  obtain ⟨hglobal, hcircuits, hterminals, hhunt, hnames, hspare, hpref⟩ := h
  have hc : ∀ t', x.terminal = some t' ↔ t' = t := fun t' => by rw [ht]; simp [eq_comm]
  refine ⟨by rwa [Group.faultTaken_global], ?_, ?_, by rwa [Group.faultTaken_huntPtr, Group.faultTaken_cfg],
    fun c' t' => ?_, ?_, by rw [Group.faultTaken_cfg]; rfl⟩ <;>
    simp only [Group.faultTaken_circuits, Group.faultTaken_terminals, Group.faultTaken_cfg] <;>
    rcases g.faulted_cases c t b with ⟨sp, hlow, he⟩ | ⟨hlow, he⟩ <;> rw [he]
  · rwa [List.length_set]
  · rwa [List.length_set]
  · rwa [List.length_set, List.length_set]
  · rwa [List.length_set]
  · obtain ⟨hne, hold, hget⟩ := set_set_terminal (c := c) htl (lowestSpare_eq_some hlow).1 t'
    rw [hget]
    have hy : (if b then Circuit.blocked sp else .idle sp).terminal = some sp := by cases b <;> rfl
    have hnames' := hnames c' t'
    have hsp := hnames c' sp
    rw [getElem?_set_circuit hx]
    grind
  · rw [getElem?_set_circuit hx, List.getElem?_set]
    have hnames' := hnames c' t'
    grind [Circuit.terminal_faulty]
  · rintro ⟨hf, -⟩
    refine hspare ⟨(List.mem_or_eq_of_mem_set hf).resolve_right ?_, ?_⟩
    · cases b <;> simp
    · exact List.mem_of_getElem? (set_set_terminal (c := c) htl (lowestSpare_eq_some hlow).1 0).2.1
  · exact fun hboth => lowestSpare_eq_none hlow hboth.2

/-- Terminals other than the faulty one serve what they served. -/
theorem Group.Sound.serves_faulted (h : g.Sound a li) {c t : Nat} {x : Circuit} (hx : g.circuits[c]? = some x)
    (ht : x.terminal = some t) (b : Bool) {t' : Nat} {z : Circuit} (hne : t' ≠ t) (hz : g.serves t' = some z) :
    (g.faulted c t b).serves t' = some z := by
  have htl : t < g.terminals.length := (List.getElem?_eq_some_iff.1 (h.serving hx ht)).1
  obtain ⟨d, hd, hzd⟩ := Group.serves_eq_some_iff.1 hz
  have hdc : d ≠ c := by
    rintro rfl
    obtain ⟨w, hw, hwt⟩ := h.terminal_of_serving hd
    rw [hx] at hw; cases hw; rw [ht] at hwt
    exact hne (by simpa using hwt.symm)
  obtain ⟨y, -, hget⟩ := g.faulted_get (t := t) hx b
  refine Group.serves_eq_some_iff.2 ⟨d, ?_, by rw [hget, if_neg hdc, hzd]⟩
  rcases g.faulted_cases c t b with ⟨sp, hlow, he⟩ | ⟨hlow, he⟩ <;> rw [he]
  · obtain ⟨-, hold, hget⟩ := set_set_terminal (c := c) htl (lowestSpare_eq_some hlow).1 t'
    rw [hget, if_neg ?_, if_neg hne, hd]
    rintro rfl; rw [hd] at hold; cases hold
  · rw [List.getElem?_set_ne (Ne.symm hne), hd]

/-- What a restored terminal does: it serves the lowest FAULTY circuit, or becomes SPARE (R34). -/
theorem Group.restored_cases (g : Group) (t : Nat) :
    (∃ c, lowestFaulty g.circuits = some c ∧ g.restoredTerminal t = { g with
      terminals := g.terminals.set t (.serving c), circuits := g.circuits.set c (.idle t) }) ∨
    (lowestFaulty g.circuits = none ∧ g.restoredTerminal t = { g with terminals := g.terminals.set t .spare }) := by
  unfold Group.restoredTerminal
  split
  · rename_i c hc; exact .inl ⟨c, hc, rfl⟩
  · rename_i hc; exact .inr ⟨hc, rfl⟩

/-- The group record after a restoring (R34, R35). -/
def Group.restoreTaken (g : Group) (t : Nat) : Group :=
  { (g.restoredTerminal t).recomputed with
    effPref := effectivePref g.cfg.preference (demoted (g.restoredTerminal t).terminals) }

@[simp] theorem Group.restoreTaken_circuits (g : Group) (t : Nat) :
    (g.restoreTaken t).circuits = (g.restoredTerminal t).circuits := rfl
@[simp] theorem Group.restoreTaken_terminals (g : Group) (t : Nat) :
    (g.restoreTaken t).terminals = (g.restoredTerminal t).terminals := rfl
@[simp] theorem Group.restoreTaken_cfg (g : Group) (t : Nat) : (g.restoreTaken t).cfg = g.cfg :=
  (g.restoredTerminal_kept t).cfg
@[simp] theorem Group.restoreTaken_global (g : Group) (t : Nat) : (g.restoreTaken t).global = g.global :=
  (g.restoredTerminal_kept t).global
@[simp] theorem Group.restoreTaken_huntPtr (g : Group) (t : Nat) : (g.restoreTaken t).huntPtr = g.huntPtr := by
  show (g.restoredTerminal t).huntPtr = _
  rcases g.restored_cases t with ⟨c, -, h⟩ | ⟨-, h⟩ <;> rw [h]

theorem Group.Sound.restoreTaken (h : g.Sound a li) {t : Nat} (ht : g.terminals[t]? = some .faulty) :
    (g.restoreTaken t).Sound a li := by
  have htl : t < g.terminals.length := (List.getElem?_eq_some_iff.1 ht).1
  obtain ⟨hglobal, hcircuits, hterminals, hhunt, hnames, hspare, hpref⟩ := h
  refine ⟨by rwa [Group.restoreTaken_global], ?_, ?_, by rwa [Group.restoreTaken_huntPtr, Group.restoreTaken_cfg],
    fun c' t' => ?_, ?_, by rw [Group.restoreTaken_cfg]; rfl⟩ <;>
    simp only [Group.restoreTaken_circuits, Group.restoreTaken_terminals, Group.restoreTaken_cfg] <;>
    rcases g.restored_cases t with ⟨c, hlow, he⟩ | ⟨hlow, he⟩ <;> rw [he]
  · rwa [List.length_set]
  · exact hcircuits
  · rwa [List.length_set]
  · rwa [List.length_set]
  · have hx := lowestFaulty_eq_some hlow
    have hnames' := hnames c' t'
    have hfree := hnames c' t
    rw [getElem?_set_circuit hx, List.getElem?_set]
    grind [Circuit.terminal_idle, Circuit.terminal_faulty]
  · have hnames' := hnames c' t'
    rw [List.getElem?_set]
    grind
  · rintro ⟨-, hs⟩
    refine hspare ⟨List.mem_of_getElem? (lowestFaulty_eq_some hlow), ?_⟩
    exact (List.mem_or_eq_of_mem_set hs).resolve_right (by simp)
  · exact fun hboth => lowestFaulty_eq_none hlow hboth.1

/-- The terminals that served a circuit serve it still. -/
theorem Group.serves_restored {t t' : Nat} {z : Circuit} (hne : t' ≠ t) (hz : g.serves t' = some z)
    (hzt : z.terminal.isSome = true) :
    (g.restoredTerminal t).serves t' = some z := by
  obtain ⟨d, hd, hzd⟩ := Group.serves_eq_some_iff.1 hz
  rcases g.restored_cases t with ⟨c, hlow, he⟩ | ⟨-, he⟩ <;> rw [he] <;> refine Group.serves_eq_some_iff.2 ⟨d, ?_, ?_⟩
  · rw [List.getElem?_set_ne (Ne.symm hne), hd]
  · have hx := lowestFaulty_eq_some hlow
    rw [getElem?_set_circuit hx, if_neg ?_, hzd]
    rintro rfl
    rw [hx] at hzd; cases hzd; cases hzt
  · rw [List.getElem?_set_ne (Ne.symm hne), hd]
  · exact hzd

end

end Sys2Proof.Machine
end

section
/-! The releases of a reset (R7, R8, R15): what they make of a group's entries, whatever their order. Each release adds
one circuit to those that have been released, and leaves what the others left as it is. -/

namespace Sys2Proof.Machine

/-! ## The entries of one group -/

/-- Circuit and terminal name each other (R3, R4). -/
def Group.Linked (g : Group) : Prop :=
  ∀ c t, (g.circuits[c]?).bind Circuit.terminal = some t ↔ g.terminals[t]? = some (TermRole.serving c)

theorem Group.Sound.linked {a li : Nat} {g : Group} (h : g.Sound a li) : g.Linked := h.2.2.2.2.1

theorem Group.Linked.serving {g : Group} (h : g.Linked) {c t : Nat} {x : Circuit} (hx : g.circuits[c]? = some x)
    (ht : x.terminal = some t) : g.terminals[t]? = some (.serving c) :=
  (h c t).1 (by rw [hx]; exact ht)

/-- What fault handling of a serving terminal changes of a group's entries: that terminal, its circuit, and the lowest
SPARE terminal, if there is one (R31 to R33). -/
structure FaultEntries (g g' : Group) (c t : Nat) : Prop where
  circuits : g'.circuits.length = g.circuits.length
  terminals : g'.terminals.length = g.terminals.length
  circuit : ∀ {j : Nat}, j ≠ c → g'.circuits[j]? = g.circuits[j]?
  condemned : g'.terminals[t]? = some TermRole.faulty
  terminal : ∀ {j : Nat}, j ≠ t → g.terminals[j]? ≠ some TermRole.spare → g'.terminals[j]? = g.terminals[j]?
  spareBefore : ∀ {j : Nat}, g'.terminals[j]? = some TermRole.spare → g.terminals[j]? = some TermRole.spare
  moved : (∃ sp : Nat, g.terminals[sp]? = some TermRole.spare ∧ g'.terminals[sp]? = some (TermRole.serving c) ∧
      g'.circuits[c]? = some (Circuit.idle sp) ∧ (∀ j < sp, g.terminals[j]? ≠ some TermRole.spare) ∧
      ∀ j, j ≠ sp → g.terminals[j]? = some TermRole.spare → g'.terminals[j]? = some TermRole.spare) ∨
    (g'.circuits[c]? = some Circuit.faulty ∧ TermRole.spare ∉ g'.terminals ∧ TermRole.spare ∉ g.terminals)

theorem Group.faulted_entries {g : Group} {c t : Nat} {x : Circuit} (hx : g.circuits[c]? = some x)
    (ht : g.terminals[t]? = some (.serving c)) : FaultEntries g (g.faulted c t false) c t := by
  have hlt : t < g.terminals.length := (List.getElem?_eq_some_iff.1 ht).1
  have hset : ∀ j, (g.terminals.set t .faulty)[j]? = if j = t then some .faulty else g.terminals[j]? := by
    intro j
    by_cases hj : j = t
    · subst hj; rw [if_pos rfl, List.getElem?_set_self hlt]
    · rw [if_neg hj, List.getElem?_set_ne (Ne.symm hj)]
  rcases g.faulted_cases c t false with ⟨sp, hlow, he⟩ | ⟨hlow, he⟩ <;> rw [he]
  · obtain ⟨hsp, hlower⟩ := lowestSpare_eq_some hlow
    obtain ⟨hne, hspare, -⟩ := set_set_terminal (c := c) hlt hsp 0
    have hget := fun j => (set_set_terminal (c := c) hlt hsp j).2.2
    refine ⟨List.length_set, by rw [List.length_set, List.length_set], fun hj => List.getElem?_set_ne (Ne.symm hj),
      by rw [hget, if_neg (Ne.symm hne), if_pos rfl], fun hj hs => ?_, fun hj => ?_, .inl ⟨sp, hspare, ?_, ?_, ?_, ?_⟩⟩
    · rw [hget, if_neg (by rintro rfl; exact hs hspare), if_neg hj]
    · grind
    · rw [hget, if_pos rfl]
    · rw [getElem?_set_circuit hx, if_pos rfl]; rfl
    · intro j hj hs
      exact hlower j hj (by rw [hset, if_neg (by rintro rfl; rw [ht] at hs; cases hs), hs])
    · intro j hj hs
      rw [hget, if_neg hj, if_neg (by rintro rfl; rw [ht] at hs; cases hs), hs]
  · have hnone := lowestSpare_eq_none hlow
    refine ⟨List.length_set, List.length_set, fun hj => List.getElem?_set_ne (Ne.symm hj),
      by rw [hset, if_pos rfl], fun hj _ => by rw [hset, if_neg hj], fun hj => absurd (List.mem_of_getElem? hj) hnone,
      .inr ⟨by rw [getElem?_set_circuit hx, if_pos rfl], hnone, fun hmem => ?_⟩⟩
    obtain ⟨j, hj⟩ := List.mem_iff_getElem?.1 hmem
    exact hnone (List.mem_of_getElem? (i := j) (by rw [hset, if_neg (by rintro rfl; rw [ht] at hj; cases hj), hj]))

/-- What the release of some circuits in use makes of a group's entries, in whatever order they are taken (R15, R31 to
R33). -/
structure ReleasedBy (done : Nat → Prop) (old new : Group) : Prop where
  circuits : new.circuits.length = old.circuits.length
  terminals : new.terminals.length = old.terminals.length
  untouched : ∀ {c : Nat} {x : Circuit}, old.circuits[c]? = some x → ¬ done c → new.circuits[c]? = some x
  freed : ∀ {c : Nat} {x : Circuit}, old.circuits[c]? = some x → done c → x.faultWaits = false →
    new.circuits[c]? = some x.released
  faulty : ∀ {c : Nat} {x : Circuit}, old.circuits[c]? = some x → done c → x.faultWaits = true →
    ∀ {t : Nat}, x.terminal = some t → new.terminals[t]? = some TermRole.faulty
  moved : ∀ {c : Nat} {x : Circuit}, old.circuits[c]? = some x → done c → x.faultWaits = true →
    (∃ sp : Nat, old.terminals[sp]? = some TermRole.spare ∧ new.terminals[sp]? = some (TermRole.serving c) ∧
      new.circuits[c]? = some (Circuit.idle sp)) ∨
    (new.circuits[c]? = some Circuit.faulty ∧ TermRole.spare ∉ new.terminals)
  kept : ∀ {t : Nat}, old.terminals[t]? ≠ some TermRole.spare →
    (∀ (c : Nat) (x : Circuit), old.circuits[c]? = some x → x.terminal = some t → done c → x.faultWaits = false) →
    new.terminals[t]? = old.terminals[t]?
  spares : ∀ {t : Nat}, old.terminals[t]? = some TermRole.spare → new.terminals[t]? = some TermRole.spare ∨
    ∃ (c : Nat) (x : Circuit), old.circuits[c]? = some x ∧ done c ∧ x.faultWaits = true ∧
      new.terminals[t]? = some (TermRole.serving c)
  lowest : ∀ {a b : Nat}, a < b → old.terminals[a]? = some TermRole.spare → new.terminals[a]? = some TermRole.spare →
    old.terminals[b]? = some TermRole.spare → new.terminals[b]? = some TermRole.spare

theorem ReleasedBy.refl (g : Group) : ReleasedBy (fun _ => False) g g where
  circuits := rfl
  terminals := rfl
  untouched h _ := h
  freed _ h := h.elim
  faulty _ h := h.elim
  moved _ h := h.elim
  kept _ _ := rfl
  spares h := .inl h
  lowest _ _ _ h := h

/-- Only the entries matter. -/
theorem ReleasedBy.of_entries {done : Nat → Prop} {old new new' : Group} (h : ReleasedBy done old new)
    (hcircuits : new'.circuits = new.circuits) (hterminals : new'.terminals = new.terminals) :
    ReleasedBy done old new' := by
  obtain ⟨h1, h2, h3, h4, h5, h6, h7, h8, h9⟩ := h
  rw [← hcircuits] at h1 h3 h4 h6
  rw [← hterminals] at h2 h5 h6 h7 h8 h9
  exact ⟨h1, h2, h3, h4, h5, h6, h7, h8, h9⟩

/-- A reset that has released just the circuits of its test has done its releases. -/
theorem ReleasedBy.releasedGroup {done : Nat → Prop} {old new : Group} (h : ReleasedBy done old new)
    {test : Circuit → Bool} (hdone : ∀ c x, old.circuits[c]? = some x → (done c ↔ test x = true)) :
    ReleasedGroup test old new := by
  refine ⟨h.circuits, h.terminals, fun c x hx => ⟨fun ht => ?_, fun ht hw => ?_, fun ht hw => ⟨fun t => ?_, ?_⟩⟩,
    fun t hspare hnone => ?_, fun t hspare => ?_, fun a b => h.lowest⟩
  · exact h.untouched hx (by rw [hdone c x hx, ht]; exact Bool.false_ne_true)
  · exact h.freed hx ((hdone c x hx).2 ht) hw
  · exact h.faulty hx ((hdone c x hx).2 ht) hw
  · exact h.moved hx ((hdone c x hx).2 ht) hw
  · exact h.kept hspare fun c x hx ht hd => hnone c x hx ht ((hdone c x hx).1 hd)
  · refine (h.spares hspare).imp_right fun ⟨c, x, hx, hd, hw, hs⟩ => ⟨c, x, hx, (hdone c x hx).1 hd, hw, hs⟩

/-- A terminal that is SPARE now was SPARE before the releases. -/
theorem ReleasedBy.spare_before {done : Nat → Prop} {old new : Group} (h : ReleasedBy done old new) {sp : Nat}
    (hsp : new.terminals[sp]? = some .spare) :
    old.terminals[sp]? = some .spare := by
  by_contra hne
  by_cases hnone : ∀ j y, old.circuits[j]? = some y → y.terminal = some sp → done j → y.faultWaits = false
  · rw [h.kept hne hnone] at hsp; exact hne hsp
  · push Not at hnone
    obtain ⟨j, y, hy, hyt, hj, hw⟩ := hnone
    have := h.faulty hy hj (by simpa using hw) hyt
    rw [hsp] at this
    cases this

section
variable {done : Nat → Prop} {old new : Group} (h : ReleasedBy done old new) {c : Nat} {x : Circuit}
  (hx : old.circuits[c]? = some x) (hnew : ¬ done c)
include h hx hnew

/-- One more circuit without a waiting fault. -/
theorem ReleasedBy.free (hwait : x.faultWaits = false) :
    ReleasedBy (fun j => done j ∨ j = c) old (new.setCircuit c x.released) := by
  have hget := Group.setCircuit_get (h.untouched hx hnew) x.released
  have hother : ∀ {j : Nat} {y : Circuit}, old.circuits[j]? = some y → (done j ∨ j = c) → y.faultWaits = true →
      done j ∧ j ≠ c := by
    intro j y hy hj hw
    have hne : j ≠ c := by rintro rfl; rw [hx] at hy; cases hy; rw [hwait] at hw; cases hw
    exact ⟨hj.resolve_right hne, hne⟩
  refine ⟨by simpa using h.circuits, h.terminals, fun {j y} hy hj => ?_, fun {j y} hy hj hw => ?_,
    fun {j y} hy hj hw => ?_, fun {j y} hy hj hw => ?_, fun {t} hspare hnone => ?_, fun {t} hspare => ?_, h.lowest⟩
  · rw [hget, if_neg fun hc => hj (.inr hc)]
    exact h.untouched hy fun hd => hj (.inl hd)
  · rw [hget]
    split
    · rename_i hc; subst hc; rw [hx] at hy; cases hy; rfl
    · exact h.freed hy (hj.resolve_right ‹_›) hw
  · exact h.faulty hy (hother hy hj hw).1 hw
  · obtain ⟨hd, hne⟩ := hother hy hj hw
    rw [hget, if_neg hne]
    exact h.moved hy hd hw
  · exact h.kept hspare fun j y hy ht hd => hnone j y hy ht (.inl hd)
  · exact (h.spares hspare).imp_right fun ⟨j, y, hy, hd, hw, hs⟩ => ⟨j, y, hy, .inl hd, hw, hs⟩

variable (hlinked : old.Linked) {t : Nat} (ht : x.terminal = some t)
include hlinked ht

/-- The terminal of a circuit that has not been released serves it still. -/
theorem ReleasedBy.serving : new.terminals[t]? = some (.serving c) := by
  have hold := hlinked.serving hx ht
  rw [h.kept (by rw [hold]; simp) ?_, hold]
  intro j y hy hyt hj
  have hsame := hlinked.serving hy hyt
  rw [hold] at hsame
  cases hsame
  exact absurd hj hnew

/-- One more circuit with a waiting fault: its terminal is FAULTY, and it moves to the lowest spare or is FAULTY. -/
theorem ReleasedBy.fault (hwait : x.faultWaits = true) :
    ReleasedBy (fun j => done j ∨ j = c) old (new.faulted c t false) := by
  have hserving := h.serving hx hnew hlinked ht
  have hcircuit := h.untouched hx hnew
  have hold := hlinked.serving hx ht
  have hbefore : ∀ {sp : Nat}, new.terminals[sp]? = some .spare → old.terminals[sp]? = some .spare := h.spare_before
  obtain ⟨hcircuits, hterminals, hcircuits', hcondemned, hterminal, hspares, hmoved⟩ :=
    Group.faulted_entries hcircuit hserving
  refine ⟨hcircuits.trans h.circuits, hterminals.trans h.terminals, fun {j y} hy hj => ?_, fun {j y} hy hj hw => ?_,
    fun {j y} hy hj hw u hu => ?_, fun {j y} hy hj hw => ?_, fun {u} hspare hnone => ?_, fun {u} hspare => ?_,
    fun {a b} hab ha ha' hb => ?_⟩
  · rw [hcircuits' fun hc => hj (.inr hc)]
    exact h.untouched hy fun hd => hj (.inl hd)
  · have hne : j ≠ c := by rintro rfl; rw [hx] at hy; cases hy; rw [hwait] at hw; cases hw
    rw [hcircuits' hne]
    exact h.freed hy (hj.resolve_right hne) hw
  · by_cases hut : u = t
    · rw [hut]; exact hcondemned
    · have hne : j ≠ c := by rintro rfl; rw [hx] at hy; cases hy; rw [ht] at hu; cases hu; exact hut rfl
      have hnow := h.faulty hy (hj.resolve_right hne) hw hu
      rw [hterminal hut (by rw [hnow]; simp), hnow]
  · by_cases hjc : j = c
    · subst hjc
      exact hmoved.imp (fun ⟨sp, hsp, hs, hi, _⟩ => ⟨sp, hbefore hsp, hs, hi⟩) fun ⟨hf, hno, _⟩ => ⟨hf, hno⟩
    · rcases h.moved hy (hj.resolve_right hjc) hw with ⟨sp, hsp, hs, hi⟩ | ⟨hf, hno⟩
      · have hst : sp ≠ t := by rintro rfl; rw [hs] at hserving; cases hserving; exact hjc rfl
        exact .inl ⟨sp, hsp, by rw [hterminal hst (by rw [hs]; simp), hs], by rw [hcircuits' hjc, hi]⟩
      · refine .inr ⟨by rw [hcircuits' hjc, hf], fun hmem => ?_⟩
        obtain ⟨k, hk⟩ := List.mem_iff_getElem?.1 hmem
        exact hno (List.mem_of_getElem? (hspares hk))
  · have hut : u ≠ t := by
      rintro rfl
      have := hnone c x hx ht (.inr rfl)
      rw [hwait] at this; cases this
    rw [hterminal hut fun hs => hspare (hbefore hs)]
    exact h.kept hspare fun j y hy hyt hd => hnone j y hy hyt (.inl hd)
  · rcases h.spares hspare with hs | ⟨j, y, hy, hd, hw, hs⟩
    · rcases hmoved with ⟨sp, hsp, hserves, -, -, hothers⟩ | ⟨-, -, hno⟩
      · by_cases hu : u = sp
        · rw [hu]; exact .inr ⟨c, x, hx, .inr rfl, hwait, hserves⟩
        · exact .inl (hothers u hu hs)
      · exact absurd (List.mem_of_getElem? hs) hno
    · have hut : u ≠ t := by rintro rfl; rw [hspare] at hold; cases hold
      exact .inr ⟨j, y, hy, .inl hd, hw, by rw [hterminal hut (by rw [hs]; simp), hs]⟩
  · rcases hmoved with ⟨sp, hsp, hserves, -, hlower, hothers⟩ | ⟨-, hno, -⟩
    · have hb' := h.lowest hab ha (hspares ha') hb
      have hbsp : b ≠ sp := by
        rintro rfl
        exact hlower a hab (hspares ha')
      exact hothers b hbsp hb'
    · exact absurd (List.mem_of_getElem? ha') hno

end

/-! ## One release in a station that takes no offers -/

theorem State.send_of_not_running {s : State} (h : s.running = false) (dest : Nat) (m : Msg) : s.send dest m = s := by
  rw [State.send, State.offer_of_not_running h]

/-- What a reset release may touch of a state: groups, route lists and two counters. -/
def ReleaseFrame (s t : State) : Prop :=
  t = { s with
    groups := t.groups, routes := t.routes
    counters := { s.counters with faults := t.counters.faults, reachOverflow := t.counters.reachOverflow } }

theorem ReleaseFrame.trans {s t u : State} (h : ReleaseFrame s t) (h' : ReleaseFrame t u) : ReleaseFrame s u := by
  unfold ReleaseFrame at h' ⊢
  rw [h', h]

theorem ReleaseFrame.running {s t : State} (h : ReleaseFrame s t) : t.running = s.running := by rw [h]; rfl

theorem ReachesOnly.releaseFrame {s t : State} (h : ReachesOnly s t) : ReleaseFrame s t := by
  unfold ReachesOnly at h
  unfold ReleaseFrame
  rw [h]

/-- What a release leaves as it is of a group record, besides the entries. -/
structure FieldsKept (g g' : Group) : Prop where
  cfg : g'.cfg = g.cfg
  global : g'.global = g.global
  huntPtr : g'.huntPtr = g.huntPtr
  smoothed : g'.load.smoothed = g.load.smoothed
  lastAttempt : g'.load.lastAttempt = g.load.lastAttempt
  surge : g'.load.surge = g.load.surge
  announced : g'.load.announced = g.load.announced

theorem FieldsKept.refl (g : Group) : FieldsKept g g := ⟨rfl, rfl, rfl, rfl, rfl, rfl, rfl⟩

theorem FieldsKept.trans {g g' g'' : Group} (h : FieldsKept g g') (h' : FieldsKept g' g'') : FieldsKept g g'' :=
  ⟨h'.cfg.trans h.cfg, h'.global.trans h.global, h'.huntPtr.trans h.huntPtr, h'.smoothed.trans h.smoothed,
    h'.lastAttempt.trans h.lastAttempt, h'.surge.trans h.surge, h'.announced.trans h.announced⟩

/-- The effective preference follows the demotion condition (R2, R35). -/
def Group.PrefFollows (g : Group) : Prop := g.effPref = effectivePref g.cfg.preference (demoted g.terminals)

/-- One group record is written; the keys of the table stay. -/
structure GroupRewritten (s t : State) (li : Nat) (g : Group) : Prop where
  frame : ReleaseFrame s t
  wf : Tab.wf t.groups
  keys : t.groups.map (·.1) = s.groups.map (·.1)
  find : ∀ j, Tab.find t.groups j = if j = li then some g else Tab.find s.groups j

theorem setGroup_rewritten {s : State} (hw : Tab.wf s.groups) {li : Nat} {g0 : Group}
    (hg : Tab.find s.groups li = some g0) (g : Group) : GroupRewritten s (s.setGroup li g) li g :=
  ⟨rfl, Tab.wf_put hw _ _, Tab.map_put_of_find hw hg _ rfl, fun _ => Tab.find_put _ _ _ _⟩

theorem GroupRewritten.trans {s t u : State} {li : Nat} {g g' : Group} (h : GroupRewritten s t li g)
    (h' : GroupRewritten t u li g') : GroupRewritten s u li g' :=
  ⟨h.frame.trans h'.frame, h'.wf, h'.keys.trans h.keys, fun j => by
    rw [h'.find, h.find]; split <;> rfl⟩

theorem GroupRewritten.reaches {s t u : State} {li : Nat} {g : Group} (h : GroupRewritten s t li g)
    (h' : ReachesOnly t u) : GroupRewritten s u li g :=
  ⟨h.frame.trans h'.releaseFrame, by rw [h'.groups]; exact h.wf, by rw [h'.groups]; exact h.keys, fun j => by
    rw [h'.groups]; exact h.find j⟩

/-- The group record after fault handling: the preference is written where the demotion condition turned. -/
def Group.afterFault (g : Group) (c t : Nat) : Group :=
  if demoted (g.faulted c t false).terminals = demoted g.terminals then (g.faulted c t false).recomputed
  else { (g.faulted c t false).recomputed with
    effPref := effectivePref (g.faulted c t false).cfg.preference (demoted (g.faulted c t false).terminals) }

theorem Group.faulted_fields (g : Group) (c t : Nat) (b : Bool) :
    FieldsKept g (g.faulted c t b) ∧ (g.faulted c t b).effPref = g.effPref := by
  rcases g.faulted_cases c t b with ⟨sp, -, h⟩ | ⟨-, h⟩ <;> rw [h] <;> exact ⟨⟨rfl, rfl, rfl, rfl, rfl, rfl, rfl⟩, rfl⟩

theorem Group.afterFault_entries (g : Group) (c t : Nat) : (g.afterFault c t).circuits =
    (g.faulted c t false).circuits ∧
    (g.afterFault c t).terminals = (g.faulted c t false).terminals := by
  unfold Group.afterFault
  split <;> exact ⟨rfl, rfl⟩

theorem Group.afterFault_fields (g : Group) (c t : Nat) : FieldsKept g (g.afterFault c t) := by
  refine (g.faulted_fields c t false).1.trans ?_
  unfold Group.afterFault
  split <;> exact ⟨rfl, rfl, rfl, rfl, rfl, rfl, rfl⟩

theorem Group.PrefFollows.afterFault {g : Group} (h : g.PrefFollows) (c t : Nat) : (g.afterFault c t).PrefFollows := by
  obtain ⟨hfields, hpref⟩ := g.faulted_fields c t false
  unfold Group.afterFault Group.PrefFollows
  split
  · rename_i hsame
    show (g.faulted c t false).effPref = effectivePref (g.faulted c t false).cfg.preference _
    rw [hpref, h, hfields.cfg]
    exact congrArg _ hsame.symm
  · rfl

theorem State.applyOwnReach_only (s : State) (g : Group) : ReachesOnly s (s.applyOwnReach g) :=
  s.applyReach_only _ _ _ _

theorem faultHandle_rewritten {s : State} (hrun : s.running = false) (hw : Tab.wf s.groups) {li : Nat} {g : Group}
    (hg : Tab.find s.groups li = some g) (c t : Nat) :
    GroupRewritten s (s.faultHandle li c t false) li (g.afterFault c t) := by
  have hbump : Tab.find (s.bump .faults).groups li = some g := hg
  have hwrite : GroupRewritten s ((s.bump .faults).handGroup li (g.faulted c t false)) li
      (g.faulted c t false).recomputed := by
    rw [State.handGroup_of_not_running (s := s.bump .faults) hrun]
    exact ⟨rfl, Tab.wf_put hw _ _, Tab.map_put_of_find hw hg _ rfl, fun _ => Tab.find_put _ _ _ _⟩
  have hnow : Tab.find ((s.bump .faults).handGroup li (g.faulted c t false)).groups li =
      some (g.faulted c t false).recomputed := by rw [hwrite.find, if_pos rfl]
  have hrunning := hwrite.frame.running.trans hrun
  simp only [State.faultHandle, hbump, State.evalDemotion, hnow]
  generalize (s.bump .faults).handGroup li (g.faulted c t false) = u at hwrite hnow hrunning ⊢
  rw [Group.recomputed_terminals]
  unfold Group.afterFault
  split
  · exact hwrite
  · have hreach : ∀ k, ReachesOnly (u.setGroup li k)
        (((u.setGroup li k).applyOwnReach k).send Config.broadcast (reachMsg k)) := by
      intro k
      have honly := State.applyOwnReach_only (u.setGroup li k) k
      rw [State.send_of_not_running (honly.running.trans hrunning)]
      exact honly
    exact (hwrite.trans (setGroup_rewritten hwrite.wf hnow _)).reaches (hreach _)

section
variable {s : State} {li c : Nat} {g : Group} {x : Circuit} (hg : Tab.find s.groups li = some g)
  (hx : g.circuits[c]? = some x)
include hg hx

/-- The release of a circuit in use without a waiting fault (R15 steps 2 and 3). -/
theorem release_of_calm (hrun : s.running = false) (huse : x.inUse = true) (hwait : x.faultWaits = false) :
    s.release li c = s.setGroup li (g.setCircuit c x.released).recomputed := by
  cases x <;> simp_all [Circuit.inUse, Circuit.isHeld, Circuit.isBusy, Circuit.faultWaits, State.release, State.endUse,
    Circuit.released, State.handGroup_of_not_running hrun, State.setGroup]

/-- The release of a circuit in use with a waiting fault (R15 step 1). -/
theorem release_of_faultWaits (hwait : x.faultWaits = true) :
    ∃ t, x.terminal = some t ∧ s.release li c = s.faultHandle li c t false := by
  cases x <;> simp_all [Circuit.faultWaits, State.release, State.endUse]

end

/-! ## The releases of a reset, one after another -/

/-- What the releases of some circuits have made of a state. -/
structure Released (done : List (Nat × Nat)) (s u : State) : Prop where
  frame : ReleaseFrame s u
  wf : Tab.wf u.groups
  keys : u.groups.map (·.1) = s.groups.map (·.1)
  group : ∀ li g0, Tab.find s.groups li = some g0 → ∃ g, Tab.find u.groups li = some g ∧
    ReleasedBy (fun c => (li, c) ∈ done) g0 g ∧ FieldsKept g0 g ∧ (g0.PrefFollows → g.PrefFollows)
  calm : (∀ p ∈ done, ∀ g x, Tab.find s.groups p.1 = some g → g.circuits[p.2]? = some x → x.faultWaits = false) →
    u.counters = s.counters ∧ u.routes = s.routes

theorem Released.nil {s : State} (hw : Tab.wf s.groups) : Released [] s s where
  frame := rfl
  wf := hw
  keys := rfl
  group _ g0 hg := ⟨g0, hg, by simpa using ReleasedBy.refl g0, FieldsKept.refl g0, id⟩
  calm _ := ⟨rfl, rfl⟩

/-- A circuit may be released: its group's circuits and terminals name each other, and it is in use. -/
def State.Releasable (s : State) (p : Nat × Nat) : Prop :=
  ∃ g x, Tab.find s.groups p.1 = some g ∧ g.Linked ∧ g.circuits[p.2]? = some x ∧ x.inUse = true

/-- One release more. -/
theorem Released.snoc {done : List (Nat × Nat)} {s u : State} (h : Released done s u) (hrun : s.running = false)
    {p : Nat × Nat} (hnew : p ∉ done) (hp : s.Releasable p) : Released (done ++ [p]) s (u.release p.1 p.2) := by
  obtain ⟨li, c⟩ := p
  obtain ⟨g0, x, hg0, hlinked, hx, huse⟩ := hp
  obtain ⟨g, hg, hby, hfields, hpref⟩ := h.group li g0 hg0
  have hnow := hby.untouched hx hnew
  have hrunning := h.frame.running.trans hrun
  have hone : ∃ g', GroupRewritten u (u.release li c) li g' ∧ ReleasedBy (fun j => (li, j) ∈ done ∨ j = c) g0 g' ∧
      FieldsKept g g' ∧ (g.PrefFollows → g'.PrefFollows) ∧
      (x.faultWaits = false → (u.release li c).counters = u.counters ∧ (u.release li c).routes = u.routes) := by
    cases hwait : x.faultWaits with
    | false =>
      rw [release_of_calm hg hnow hrunning huse hwait]
      exact ⟨_, setGroup_rewritten h.wf hg _, (hby.free hx hnew hwait).of_entries rfl rfl,
          ⟨rfl, rfl, rfl, rfl, rfl, rfl,
        rfl⟩, id, fun _ => ⟨rfl, rfl⟩⟩
    | true =>
      obtain ⟨t, ht, hrelease⟩ := release_of_faultWaits hg hnow hwait
      obtain ⟨hcircuits, hterminals⟩ := g.afterFault_entries c t
      rw [hrelease]
      exact ⟨_, faultHandle_rewritten hrunning h.wf hg c t,
        (hby.fault hx hnew hlinked ht hwait).of_entries hcircuits hterminals, g.afterFault_fields c t,
        fun hp => hp.afterFault c t, fun hno => (by cases hno)⟩
  obtain ⟨g', hwrite, hby', hfields', hpref', hcalm⟩ := hone
  refine ⟨h.frame.trans hwrite.frame, hwrite.wf, hwrite.keys.trans h.keys, fun lj k0 hk0 => ?_, fun hno => ?_⟩
  · by_cases hlj : lj = li
    · subst hlj
      rw [hg0] at hk0
      cases hk0
      refine ⟨g', by rw [hwrite.find, if_pos rfl], ?_, hfields.trans hfields', hpref' ∘ hpref⟩
      simpa using hby'
    · obtain ⟨k, hk, hkby, hkfields, hkpref⟩ := h.group lj k0 hk0
      refine ⟨k, by rw [hwrite.find, if_neg hlj, hk], ?_, hkfields, hkpref⟩
      simpa [hlj] using hkby
  · have hbefore := h.calm fun q hq => hno q (List.mem_append_left _ hq)
    have hlast := hcalm (hno (li, c) (List.mem_append_right _ (List.mem_singleton_self _)) g0 x hg0 hx)
    exact ⟨hlast.1.trans hbefore.1, hlast.2.trans hbefore.2⟩

/-- Distinct circuits in use released one after another. -/
theorem released_foldl {s : State} (hrun : s.running = false) (hw : Tab.wf s.groups) (l : List (Nat × Nat))
    (hnodup : l.Nodup) (hl : ∀ p ∈ l, s.Releasable p) :
    Released l s (l.foldl (fun s p => s.release p.1 p.2) s) := by
  induction l using List.reverseRecOn with
  | nil => exact Released.nil hw
  | append_singleton l p ih =>
    rw [List.nodup_append] at hnodup
    obtain ⟨hl', -, hdisj⟩ := hnodup
    rw [List.foldl_append, List.foldl_cons, List.foldl_nil]
    exact (ih hl' fun q hq => hl q (List.mem_append_left _ hq)).snoc hrun
      (fun hmem => hdisj p hmem p (List.mem_singleton_self p) rfl)
      (hl p (List.mem_append_right _ (List.mem_singleton_self p)))

/-! ## Which circuits a reset releases -/

theorem insertRank_perm {α : Type} (rank : α → Nat) (c : α) (l : List α) : (insertRank rank c l).Perm (c :: l) := by
  induction l with
  | nil => rfl
  | cons d ds ih =>
    simp only [insertRank]
    split
    · rfl
    · exact (ih.cons d).trans (.swap c d ds)

theorem sortRank_perm {α : Type} (rank : α → Nat) (l : List α) : (sortRank rank l).Perm l := by
  induction l with
  | nil => rfl
  | cons c cs ih => exact (insertRank_perm rank c _).trans (ih.cons c)

/-- The circuits of one group that a reset's test names. -/
def State.tested (s : State) (test : Circuit → Bool) (li : Nat) : List (Nat × Nat) :=
  match Tab.find s.groups li with
  | none => []
  | some g =>
    ((List.range g.circuits.length).filter fun c => match g.circuits[c]? with | some x => test x | none => false).map
      fun c => (li, c)

theorem State.resetOrder_perm (s : State) (indices : List Nat) (test : Circuit → Bool) :
    (s.resetOrder indices test).Perm (indices.flatMap (s.tested test)) := sortRank_perm _ _

theorem State.mem_tested {s : State} {test : Circuit → Bool} {li : Nat} {p : Nat × Nat} :
    p ∈ s.tested test li ↔ p.1 = li ∧ ∃ g x, Tab.find s.groups li = some g ∧ g.circuits[p.2]? = some x ∧
      test x = true := by
  unfold State.tested
  cases hg : Tab.find s.groups li with
  | none => simp
  | some g =>
    simp only [List.mem_map, List.mem_filter, List.mem_range, Option.some.injEq]
    constructor
    · rintro ⟨c, ⟨hc, htest⟩, rfl⟩
      rw [List.getElem?_eq_getElem hc] at htest
      exact ⟨rfl, g, _, rfl, List.getElem?_eq_getElem hc, htest⟩
    · rintro ⟨rfl, g', x, rfl, hx, htest⟩
      exact ⟨p.2, ⟨(List.getElem?_eq_some_iff.1 hx).1, by rw [hx]; exact htest⟩, rfl⟩

theorem State.tested_nodup (s : State) (test : Circuit → Bool) (li : Nat) : (s.tested test li).Nodup := by
  unfold State.tested
  split
  · exact .nil
  · exact (List.nodup_range.filter _).map fun a b h => congrArg Prod.snd h

theorem State.mem_resetOrder {s : State} {indices : List Nat} {test : Circuit → Bool} {p : Nat × Nat} :
    p ∈ s.resetOrder indices test ↔ p.1 ∈ indices ∧ ∃ g x, Tab.find s.groups p.1 = some g ∧
      g.circuits[p.2]? = some x ∧ test x = true := by
  rw [(s.resetOrder_perm indices test).mem_iff, List.mem_flatMap]
  simp only [State.mem_tested]
  constructor
  · rintro ⟨li, hli, rfl, h⟩; exact ⟨hli, h⟩
  · rintro ⟨hli, h⟩; exact ⟨p.1, hli, rfl, h⟩

theorem State.resetOrder_nodup (s : State) {indices : List Nat} (h : indices.Nodup) (test : Circuit → Bool) :
    (s.resetOrder indices test).Nodup := by
  rw [(s.resetOrder_perm indices test).nodup_iff, List.nodup_flatMap]
  refine ⟨fun li _ => s.tested_nodup test li, h.imp fun {a b} hab p hp hq => ?_⟩
  exact hab ((State.mem_tested.1 hp).1.symm.trans (State.mem_tested.1 hq).1)

/-- The releases of a reset, with the one draw used up. -/
theorem State.releaseGroups_eq (s : State) (indices : List Nat) (test : Circuit → Bool) :
    s.releaseGroups indices test =
      { (s.resetOrder indices test).foldl (fun s p => s.release p.1 p.2) s with
        draws := ((s.resetOrder indices test).foldl (fun s p => s.release p.1 p.2) s).draws + 1 } := rfl

section
variable {s : State} {indices : List Nat} {test : Circuit → Bool}

/-- The releases of the groups of a reset: a group that it names has its circuits of the test released. -/
theorem released_releaseGroups (hrun : s.running = false) (hw : Tab.wf s.groups) (hnodup : indices.Nodup)
    (huse : ∀ x, test x = true → x.inUse = true)
    (hlinked : ∀ li ∈ indices, ∀ g, Tab.find s.groups li = some g → g.Linked) :
    ∃ u, Released (s.resetOrder indices test) s u ∧ s.releaseGroups indices test = { u with draws := s.draws + 1 } := by
  have h := released_foldl hrun hw (s.resetOrder indices test) (s.resetOrder_nodup hnodup test) fun p hp => by
    obtain ⟨hli, g, x, hg, hx, htest⟩ := State.mem_resetOrder.1 hp
    exact ⟨g, x, hg, hlinked p.1 hli g hg, hx, huse x htest⟩
  refine ⟨_, h, ?_⟩
  rw [State.releaseGroups_eq]
  have hdraws : ((s.resetOrder indices test).foldl (fun s p => s.release p.1 p.2) s).draws = s.draws := by
    rw [h.frame]
  rw [hdraws]

/-- A group that the reset names. -/
theorem Released.releasedGroup {u : State} (h : Released (s.resetOrder indices test) s u) {li : Nat}
    (hli : li ∈ indices) {g0 : Group} (hg : Tab.find s.groups li = some g0) :
    ∃ g, Tab.find u.groups li = some g ∧ ReleasedGroup test g0 g ∧ FieldsKept g0 g ∧
      (g0.PrefFollows → g.PrefFollows) := by
  obtain ⟨g, hfind, hby, hrest⟩ := h.group li g0 hg
  refine ⟨g, hfind, hby.releasedGroup fun c x hx => ?_, hrest⟩
  rw [State.mem_resetOrder]
  constructor
  · rintro ⟨-, g', x', hg', hx', ht⟩
    rw [hg] at hg'; cases hg'
    rw [hx] at hx'; cases hx'
    exact ht
  · exact fun ht => ⟨hli, g0, x, hg, hx, ht⟩

end

end Sys2Proof.Machine
end

section
/-! Settles O13 and O15 to O17: the hard reset's read, the soft reset and the address conflict. Each is some releases in
a station that takes no offers, and what is set before and after them. -/

namespace Sys2Proof.Machine

/-! ## Keys and global numbers -/

theorem nodup_keys_of_wf {α : Type} {t : Tab α} (h : Tab.wf t) : (t.map (·.1)).Nodup := by
  rw [List.Nodup, List.pairwise_map]
  exact List.Pairwise.imp (fun h => Nat.ne_of_lt h) h

theorem exists_find_iff_mem_keys {α : Type} {t : Tab α} {k : Nat} : (∃ v, Tab.find t k = some v) ↔ k ∈ t.map (·.1) := by
  induction t with
  | nil => simp
  | cons p t ih =>
    rw [Tab.find, List.map_cons, List.mem_cons]
    by_cases hk : p.1 = k
    · simp [hk]
    · simp [hk, Ne.symm hk, ih]

/-- Groups numbered by their local indices have distinct global numbers (R1). -/
theorem globals_nodup {groups : Tab Group} (hw : Tab.wf groups) {a : Nat}
    (h : ∀ li g, Tab.find groups li = some g → g.global = 16 * a + li) : (groups.map (·.2.global)).Nodup := by
  have hglobals : groups.map (·.2.global) = (groups.map (·.1)).map (16 * a + ·) := by
    rw [List.map_map]
    exact List.map_congr_left fun p hp => h p.1 p.2 (Tab.find_of_mem hw hp)
  rw [hglobals]
  exact (nodup_keys_of_wf hw).map (add_right_injective _)

/-- A group found after the releases was found before them. -/
theorem find_of_keys {s u : State} (hkeys : u.groups.map (·.1) = s.groups.map (·.1)) {li : Nat} {g : Group}
    (hg : Tab.find u.groups li = some g) : ∃ g0, Tab.find s.groups li = some g0 :=
  exists_find_iff_mem_keys.2 (hkeys ▸ exists_find_iff_mem_keys.1 ⟨g, hg⟩)

/-! ## Releases of circuits whatever they are -/

/-- What the releases of the named groups keep, of whatever circuits. -/
structure ReleasesKeep (named : Nat → Prop) (s u : State) : Prop where
  frame : ReleaseFrame s u
  wf : Tab.wf u.groups
  keys : u.groups.map (·.1) = s.groups.map (·.1)
  group : ∀ li g0, Tab.find s.groups li = some g0 → ∃ g, Tab.find u.groups li = some g ∧ FieldsKept g0 g ∧
    (¬ named li → g = g0)

theorem ReleasesKeep.refl {s : State} (hw : Tab.wf s.groups) (named : Nat → Prop) : ReleasesKeep named s s :=
  ⟨rfl, hw, rfl, fun _ g0 hg => ⟨g0, hg, FieldsKept.refl g0, fun _ => rfl⟩⟩

theorem GroupRewritten.releasesKeep {s t : State} {li : Nat} {g g' : Group} (h : GroupRewritten s t li g')
    (hg : Tab.find s.groups li = some g) (hfields : FieldsKept g g') {named : Nat → Prop} (hli : named li) :
    ReleasesKeep named s t := by
  refine ⟨h.frame, h.wf, h.keys, fun lj k hk => ?_⟩
  by_cases hlj : lj = li
  · subst hlj
    rw [hg] at hk; cases hk
    exact ⟨g', by rw [h.find, if_pos rfl], hfields, fun hn => absurd hli hn⟩
  · exact ⟨k, by rw [h.find, if_neg hlj, hk], FieldsKept.refl k, fun _ => rfl⟩

theorem ReleasesKeep.trans {named : Nat → Prop} {s t u : State} (h : ReleasesKeep named s t)
    (h' : ReleasesKeep named t u) : ReleasesKeep named s u := by
  refine ⟨h.frame.trans h'.frame, h'.wf, h'.keys.trans h.keys, fun li g0 hg0 => ?_⟩
  obtain ⟨g, hg, hfields, hsame⟩ := h.group li g0 hg0
  obtain ⟨g', hg', hfields', hsame'⟩ := h'.group li g hg
  exact ⟨g', hg', hfields.trans hfields', fun hn => (hsame' hn).trans (hsame hn)⟩

theorem release_of_not_inUse {s : State} {li c : Nat} (h : ∀ g x, Tab.find s.groups li = some g →
    g.circuits[c]? = some x → x.inUse = false) : s.release li c = s := by
  unfold State.release
  split
  · rfl
  · rename_i g hg
    split
    · rename_i hx; exact absurd (h g _ hg hx) (by simp [Circuit.inUse, Circuit.isHeld])
    · rename_i hx; exact absurd (h g _ hg hx) (by simp [Circuit.inUse, Circuit.isBusy])
    · rfl

theorem release_keeps {s : State} (hrun : s.running = false) (hw : Tab.wf s.groups) {named : Nat → Prop} {li : Nat}
    (hli : named li) (c : Nat) : ReleasesKeep named s (s.release li c) := by
  by_cases huse : ∃ g x, Tab.find s.groups li = some g ∧ g.circuits[c]? = some x ∧ x.inUse = true
  · obtain ⟨g, x, hg, hx, huse⟩ := huse
    cases hwait : x.faultWaits with
    | false =>
      rw [release_of_calm hg hx hrun huse hwait]
      exact (setGroup_rewritten hw hg (g.setCircuit c x.released).recomputed).releasesKeep hg
          ⟨rfl, rfl, rfl, rfl, rfl, rfl, rfl⟩ hli
    | true =>
      obtain ⟨t, -, hrelease⟩ := release_of_faultWaits hg hx hwait
      rw [hrelease]
      exact (faultHandle_rewritten hrun hw hg c t).releasesKeep hg (g.afterFault_fields c t) hli
  · rw [release_of_not_inUse fun g x hg hx => Bool.not_eq_true _ ▸ fun hu => huse ⟨g, x, hg, hx, hu⟩]
    exact ReleasesKeep.refl hw named

theorem releasesKeep_foldl {named : Nat → Prop} (l : List (Nat × Nat)) (hl : ∀ p ∈ l, named p.1) {s : State}
    (hrun : s.running = false) (hw : Tab.wf s.groups) :
    ReleasesKeep named s (l.foldl (fun s p => s.release p.1 p.2) s) := by
  induction l generalizing s with
  | nil => exact ReleasesKeep.refl hw named
  | cons p l ih =>
    have hone := release_keeps hrun hw (hl p List.mem_cons_self) p.2
    exact hone.trans (ih (fun q hq => hl q (List.mem_cons_of_mem _ hq)) (hone.frame.running.trans hrun) hone.wf)

theorem releasesKeep_releaseGroups {s : State} (hrun : s.running = false) (hw : Tab.wf s.groups) (indices : List Nat)
    (test : Circuit → Bool) :
    ∃ u, ReleasesKeep (· ∈ indices) s u ∧ s.releaseGroups indices test = { u with draws := s.draws + 1 } := by
  have h := releasesKeep_foldl (s.resetOrder indices test) (fun p hp => (State.mem_resetOrder.1 hp).1) hrun hw
  refine ⟨_, h, ?_⟩
  have hdraws : ((s.resetOrder indices test).foldl (fun s p => s.release p.1 p.2) s).draws = s.draws := by
    rw [h.frame]
  rw [State.releaseGroups_eq, hdraws]

/-! ## The hold table emptied (R8, R59) -/

theorem State.quiet_not_running (s : State) {st : Station} (h : st ≠ .listen ∧ st ≠ .active) :
    (s.quiet st).running = false := by
  simp [State.quiet, State.running, h]

/-- The HELD circuits are released, in a station of whatever state that takes no offers. -/
theorem State.emptyHolds_released {s : State} (hrun : s.running = false) (hw : Tab.wf s.groups) (hg : s.GroupsSound) :
    ∃ u, Released (s.resetOrder (s.groups.map (·.1)) (·.isHeld)) s u ∧
      s.emptyHolds = { u with draws := s.draws + 1, slots := emptySlots } := by
  obtain ⟨u, hu, heq⟩ := released_releaseGroups (test := (·.isHeld)) hrun hw (nodup_keys_of_wf hw)
    (fun x hx => by simp [Circuit.inUse, hx]) fun li _ g hfind => (hg.2 _ (Tab.mem_of_find hfind)).2.linked
  exact ⟨u, hu, by rw [State.emptyHolds, heq]⟩

theorem State.GroupsSound.prefFollows {s : State} (h : s.GroupsSound) {li : Nat} {g : Group}
    (hg : Tab.find s.groups li = some g) : g.PrefFollows :=
  (h.2 _ (Tab.mem_of_find hg)).2.2.2.2.2.2.2

/-- Settles O17: the station is quiet, then its HELD circuits are released. -/
theorem addressConflict : Obligations.AddressConflict := by
  intro s dest code rest htakes htables hgroups
  obtain ⟨-, hw, -⟩ := htables
  set q : State := ({ s with rx := rest } : State).quiet .halted with hq
  obtain ⟨u, hu, heq⟩ := State.emptyHolds_released (s := q) (State.quiet_not_running _ (by decide)) hw hgroups
  have hexec : exec .present s = .next q.emptyHolds := by
    refine congrArg Host.Outcome.next ((State.takeFrame_of_takes
      (k := fun u => u.takePresent s.address code) htakes rfl).trans ?_)
    exact if_pos rfl
  rw [heq] at hexec
  refine ⟨_, hexec, ?frame, fun hcalm => ?calm, hu.keys, fun li g0 hg0 => ?group⟩
  case frame =>
    have hframe := hu.frame
    unfold ReleaseFrame at hframe
    rw [hframe]
    rfl
  case calm =>
    refine hu.calm fun p hp g x hg hx => ?_
    obtain ⟨-, g', x', hg', hx', htest⟩ := State.mem_resetOrder.1 hp
    rw [hg] at hg'; cases hg'
    rw [hx] at hx'; cases hx'
    exact hcalm (p.1, g) (Tab.mem_of_find hg) x (List.mem_of_getElem? hx) htest
  case group =>
    obtain ⟨g, hg, hreleased, hfields, hpref⟩ := hu.releasedGroup (exists_find_iff_mem_keys.1 ⟨g0, hg0⟩) hg0
    refine ⟨g, hg, hfields.cfg, hfields.global, hfields.huntPtr, ?_, hreleased, hfields.smoothed, hfields.lastAttempt,
      hfields.surge, hfields.announced⟩
    rw [← hfields.cfg]
    exact hpref (hgroups.prefFollows hg0)

/-- Settles O16: the station is quiet, its HELD circuits are released, the hunt pointers are 0, and it enters
LISTEN. -/
theorem softReset : Obligations.SoftReset := by
  intro s source dest rest htakes htables hgroups
  obtain ⟨-, hw, -⟩ := htables
  set q : State := ({ s with rx := rest } : State).quiet .starting with hq
  obtain ⟨u, hu, heq⟩ := State.emptyHolds_released (s := q) (State.quiet_not_running _ (by decide)) hw hgroups
  set v : State := { u with draws := q.draws + 1, slots := emptySlots } with hv
  set w : State := { v with groups := v.groups.map fun p => (p.1, { p.2 with huntPtr := 0 }) } with hwdef
  have hexec : exec .stationReset s = .next w.enterListen := by
    refine congrArg Host.Outcome.next ((State.takeFrame_of_takes (k := fun u => u.softReset) htakes rfl).trans ?_)
    show ({ q.emptyHolds with groups := _ } : State).enterListen = _
    rw [heq]
  have hframe := hu.frame
  unfold ReleaseFrame at hframe
  have htx : w.tx = [] := by show u.tx = []; rw [hframe]; rfl
  have hfind : ∀ li, Tab.find w.groups li = (Tab.find u.groups li).map fun g => { g with huntPtr := 0 } :=
    fun li => Tab.find_mapVal u.groups (fun _ g => { g with huntPtr := 0 }) li
  have hclock : w.clock = s.clock := by show u.clock = _; rw [hframe]; rfl
  have hsound : ∀ li g0, Tab.find s.groups li = some g0 → g0.global = 16 * s.address + li := fun li g0 hg =>
    (hgroups.2 _ (Tab.mem_of_find hg)).2.1
  have hglobals : ∀ li g, Tab.find w.groups li = some g → g.global = 16 * s.address + li := by
    intro li g hg
    rw [hfind, Option.map_eq_some_iff] at hg
    obtain ⟨k, hk, rfl⟩ := hg
    obtain ⟨g0, hg0⟩ := find_of_keys hu.keys hk
    obtain ⟨k', hk', -, hfields, -⟩ := hu.group li g0 hg0
    rw [hk] at hk'; cases hk'
    exact hfields.global.trans (hsound li g0 hg0)
  have hwf : Tab.wf w.groups := Tab.wf_mapVal hu.wf fun _ g => { g with huntPtr := 0 }
  refine ⟨_, hexec, ?frame, State.enterListen_ownRoutes htx (globals_nodup hwf hglobals), ?keys,
      fun li g0 hg0 => ?group⟩
  case frame =>
    rw [State.enterListen_frame htx]
    have hwframe : w = { s with
        station := .starting, ready := false, fault := false, rx := [], tx := [], calls := [], roster := []
        listenDeadline := none, announceDeadline := none, reachDeadline := none
        slots := emptySlots, draws := s.draws + 1, groups := w.groups, routes := w.routes
        counters := { s.counters with
          faults := w.counters.faults, reachOverflow := w.counters.reachOverflow } } := by
      rw [hwdef, hv, hframe]; rfl
    rw [hwframe]
    rfl
  case keys =>
    rw [State.enterListen_groups, List.map_map]
    show (u.groups.map _).map _ = _
    rw [List.map_map]
    exact hu.keys
  case group =>
    obtain ⟨g, hg, hreleased, hfields, hpref⟩ := hu.releasedGroup (exists_find_iff_mem_keys.1 ⟨g0, hg0⟩) hg0
    refine ⟨({ g with huntPtr := 0 } : Group).restarted s.clock, ?_, hfields.cfg, hfields.global, rfl, ?_, hreleased,
      Group.recomputed_restarted _ _, Group.restarted_load _ _⟩
    · rw [State.find_enterListen, hfind, hg, hclock]; rfl
    · rw [← hfields.cfg]
      exact hpref (hgroups.prefFollows hg0)

end Sys2Proof.Machine
end

section
/-! Settles O13 and O15: a good read establishes the configured groups, releases the circuits of those it continues, and
enters LISTEN. -/

namespace Sys2Proof.Machine

section
variable (s : State) (image : List Byte)

/-- The configured groups of an image: those within the terminal budget (R182). -/
def configuredGroups : Tab GroupConfig := (withinBudget 0 (presentGroups image)).1

/-- The groups of an image that a reset continues (R7). -/
def State.continuedGroups : Tab GroupConfig :=
  (configuredGroups image).filter fun p => continues (Tab.find s.groups p.1) p.2

/-- A good read up to the end of its releases. -/
def State.readReleased : State :=
  (s.configured image).releaseGroups ((s.continuedGroups image).map (·.1)) (·.inUse)

theorem State.readGood_eq : s.readGood image = (s.readReleased image).afterReleases.enterListen := rfl

theorem configuredGroups_wf : Tab.wf (configuredGroups image) := withinBudget_wf image 0

theorem State.configured_wf : Tab.wf (s.configured image).groups :=
  Tab.wf_mapVal (configuredGroups_wf image) fun li cfg =>
    establishedGroup (Tab.find s.groups li) (field image 0 1) li cfg s.clock

variable {s image}

theorem State.find_configured {li : Nat} {cfg : GroupConfig} (h : (li, cfg) ∈ configuredGroups image) :
    Tab.find (s.configured image).groups li =
      some (establishedGroup (Tab.find s.groups li) (field image 0 1) li cfg s.clock) := by
  have hfind := Tab.find_mapVal (configuredGroups image)
    (fun li cfg => establishedGroup (Tab.find s.groups li) (field image 0 1) li cfg s.clock) li
  rw [Tab.find_of_mem (configuredGroups_wf image) h] at hfind
  exact hfind

theorem State.of_find_configured {li : Nat} {g : Group} (h : Tab.find (s.configured image).groups li = some g) :
    ∃ cfg, (li, cfg) ∈ configuredGroups image ∧
      g = establishedGroup (Tab.find s.groups li) (field image 0 1) li cfg s.clock := by
  have hfind := Tab.find_mapVal (configuredGroups image)
    (fun li cfg => establishedGroup (Tab.find s.groups li) (field image 0 1) li cfg s.clock) li
  obtain ⟨cfg, hcfg, rfl⟩ := Option.map_eq_some_iff.1 (hfind.symm.trans h)
  exact ⟨cfg, Tab.mem_of_find hcfg, rfl⟩

theorem continues_iff {old : Option Group} {cfg : GroupConfig} : continues old cfg = true ↔
    ∃ g, old = some g ∧ g.cfg.working = cfg.working ∧ g.cfg.spares = cfg.spares := by
  cases old <;> simp [continues]

theorem continues_eq_any (old : Option Group) (cfg : GroupConfig) : continues old cfg =
    old.any fun g => decide (g.cfg.working = cfg.working ∧ g.cfg.spares = cfg.spares) := by
  cases old <;> rfl

/-- A configured group is continued just when its local index is one of the continued groups. -/
theorem State.mem_continued_iff {li : Nat} {cfg : GroupConfig} (h : (li, cfg) ∈ configuredGroups image) :
    li ∈ (s.continuedGroups image).map (·.1) ↔ continues (Tab.find s.groups li) cfg = true := by
  rw [List.mem_map]
  constructor
  · rintro ⟨⟨lj, cfg'⟩, hmem, rfl⟩
    obtain ⟨hin, hcontinues⟩ := List.mem_filter.1 hmem
    have hsame := Tab.find_of_mem (configuredGroups_wf image) hin
    rw [Tab.find_of_mem (configuredGroups_wf image) h] at hsame
    cases hsame
    exact hcontinues
  · exact fun hcontinues => ⟨(li, cfg), List.mem_filter.2 ⟨h, hcontinues⟩, rfl⟩

theorem establishedGroup_global (old : Option Group) (address li : Nat) (cfg : GroupConfig) (now : Clock) :
    (establishedGroup old address li cfg now).global = 16 * address + li := by
  rcases establishedGroup_cases old address li cfg now with ⟨g, -, -, he⟩ | ⟨-, he⟩ <;> rw [he]
  rfl

theorem State.configured_not_running (hstation : s.station = .starting) :
    (s.configured image).running = false := by
  show decide (s.station = .listen ∨ s.station = .active) = false
  simp [hstation]

/-- A good image is read in STARTING while a read is in progress. -/
theorem exec_configReadComplete_good (hstation : s.station = .starting) (hreading : s.reading = true)
    (hgood : image.length = 290 ∧ crcBytes (image.take 288) 0xFFFF = field image 288 2 ∧ field image 0 1 ≤ 31) :
    exec (.configReadComplete image) s = .next (({ s with reading := false } : State).readGood image) := by
  rw [exec_configReadComplete hstation hreading, if_pos (imageGood_iff.2 hgood)]

/-- What a good read makes of a state in STARTING, given what its releases keep. -/
theorem State.readGood_frame (hstation : s.station = .starting) (hkept : s.KeptInState) {named : Nat → Prop} {u : State}
    (hu : ReleasesKeep named (s.configured image) u)
    (heq : s.readReleased image = { u with draws := s.draws + 1 }) :
    s.readGood image = { s with
      station := .listen, ready := false, fault := false
      config := decodeEngine image, trimmed := (withinBudget 0 (presentGroups image)).2
      listenDeadline := some (s.clock + BitVec.ofNat 32 (decodeEngine image).listenWindow)
      announceDeadline := some (s.clock + BitVec.ofNat 32 (decodeEngine image).announcePeriod)
      reachDeadline := none, roster := [(field image 0 1, s.clock)]
      counters := { reachOverflow := (s.readGood image).counters.reachOverflow }
      slots := emptySlots, views := [], calls := [], rx := [], draws := s.draws + 1
      tx := [waiting Config.broadcast (.present 1)]
      groups := (s.readGood image).groups, suspects := (s.readGood image).suspects
      routes := (s.readGood image).routes } ∧
    (s.readGood image).suspects = (s.configured image).suspects ∧
    (s.readGood image).groups = u.groups.map (fun p => (p.1, p.2.settled.restarted s.clock)) ∧
    (s.readGood image).OwnRoutes := by
  obtain ⟨hqueues, hcalls, -⟩ := hkept
  have hrun : s.running = false := by simp [State.running, hstation]
  obtain ⟨htx, hrx, -⟩ := hqueues hrun
  have hnocalls := hcalls (by rw [hstation]; decide)
  have hframe := hu.frame
  unfold ReleaseFrame at hframe
  set w : State := (s.readReleased image).afterReleases with hw
  have hwframe : w = { s with
      config := decodeEngine image, trimmed := (withinBudget 0 (presentGroups image)).2
      counters := {}, slots := emptySlots, draws := s.draws + 1
      groups := w.groups, suspects := (s.configured image).suspects, routes := w.routes } := by
    rw [hw, heq, hframe]; rfl
  have hwtx : w.tx = [] := by rw [hwframe]; exact htx
  have hwgroups : w.groups = u.groups.map fun p => (p.1, p.2.settled) := by rw [hw, heq]; rfl
  have hfind : ∀ li, Tab.find w.groups li = (Tab.find u.groups li).map fun g => g.settled := fun li => by
    rw [hwgroups]; exact Tab.find_mapVal u.groups (fun _ g => g.settled) li
  have hglobals : ∀ li g, Tab.find w.groups li = some g → g.global = 16 * field image 0 1 + li := by
    intro li g hg
    rw [hfind, Option.map_eq_some_iff] at hg
    obtain ⟨k, hk, rfl⟩ := hg
    obtain ⟨g0, hg0⟩ := find_of_keys hu.keys hk
    obtain ⟨cfg, -, rfl⟩ := State.of_find_configured hg0
    obtain ⟨k', hk', hfields, -⟩ := hu.group li _ hg0
    rw [hk] at hk'; cases hk'
    exact hfields.global.trans (establishedGroup_global _ _ _ _ _)
  have hwf : Tab.wf w.groups := by rw [hwgroups]; exact Tab.wf_mapVal hu.wf fun _ g => g.settled
  have hlisten := State.enterListen_frame hwtx
  rw [State.readGood_eq, ← hw]
  refine ⟨?_, ?_, ?_, State.enterListen_ownRoutes hwtx (globals_nodup hwf hglobals)⟩
  · rw [hlisten]
    rw [hwframe, hnocalls, hrx]
    rfl
  · rw [hlisten, hwframe]
  · rw [State.enterListen_groups, hwgroups, List.map_map]
    have hclock : w.clock = s.clock := by rw [hwframe]
    rw [hclock]
    rfl

/-- A group after a good read is what the releases left of it, settled and restarted. -/
theorem State.find_readGood {u : State} (h : (s.readGood image).groups =
    u.groups.map (fun p => (p.1, p.2.settled.restarted s.clock))) {li : Nat} {g : Group}
    (hg : Tab.find u.groups li = some g) :
    Tab.find (s.readGood image).groups li = some (g.settled.restarted s.clock) := by
  rw [h, Tab.find_mapVal u.groups (fun _ g => g.settled.restarted s.clock), hg]
  rfl

end

/-! ## A group built from its configuration (R6) -/

theorem demoted_builtTerminals (working spares : Nat) :
    demoted ((List.range working).map TermRole.serving ++ List.replicate spares TermRole.spare) = false := by
  have hno : ((List.range working).map TermRole.serving ++ List.replicate spares TermRole.spare).any
      (·.isFaulty) = false := by
    rw [List.any_eq_false]
    intro r hr
    rcases List.mem_append.1 hr with hr | hr
    · obtain ⟨c, -, rfl⟩ := List.mem_map.1 hr
      exact Bool.false_ne_true
    · rw [List.eq_of_mem_replicate hr]
      exact Bool.false_ne_true
  rw [demoted, hno, Bool.and_false]

theorem countP_idle_eq_zero (working : Nat) {p : Circuit → Bool} (h : ∀ t, p (.idle t) = false) :
    ((List.range working).map Circuit.idle).countP p = 0 := by
  rw [List.countP_eq_zero]
  intro x hx
  obtain ⟨t, -, rfl⟩ := List.mem_map.1 hx
  rw [h t]
  exact Bool.false_ne_true

/-- The load record of a group whose circuits are all IDLE (R5, R39). -/
theorem Group.load_of_allIdle {g : Group} (hpos : 1 ≤ g.cfg.working)
    (h : g.circuits = (List.range g.cfg.working).map .idle) :
    g.recomputed.load.inService = g.cfg.working ∧ g.recomputed.load.occupied = 0 ∧
    g.recomputed.load.free = g.cfg.working ∧ g.recomputed.load.figure = 0 := by
  have hservice : g.inService = g.cfg.working := by
    rw [Group.inService, h, countP_idle_eq_zero _ fun _ => rfl, countP_idle_eq_zero _ fun _ => rfl, Nat.add_zero,
      Nat.sub_zero]
  have hoccupied : g.occupied = 0 := by
    rw [Group.occupied, h, countP_idle_eq_zero _ fun _ => rfl, countP_idle_eq_zero _ fun _ => rfl]
  refine ⟨hservice, hoccupied, ?_, ?_⟩
  · rw [Group.recomputed_free, hservice, hoccupied, Nat.sub_zero]
  · show loadFigure g.inService g.occupied = 0
    rw [hservice, hoccupied, loadFigure, if_neg (by omega), Nat.mul_zero, Nat.zero_div]

/-- Settles O13: the groups that are not continued stand as they were built. -/
theorem readGood : Obligations.ReadGood := by
  intro s image hstation hreading hkept htables hlen hcrc haddress
  have hexec := exec_configReadComplete_good hstation hreading ⟨hlen, hcrc, haddress⟩
  set q : State := { s with reading := false } with hq
  obtain ⟨u, hu, heq⟩ := releasesKeep_releaseGroups (State.configured_not_running (s := q) (image := image) hstation)
    (q.configured_wf image) ((q.continuedGroups image).map (·.1)) (·.inUse)
  obtain ⟨hframe, hsuspects, hgroups, hroutes⟩ := State.readGood_frame (s := q) hstation hkept hu heq
  refine ⟨_, hexec, hframe, hroutes, ?keys, fun li cfg hcfg hnot => ?built⟩
  case keys =>
    rw [hgroups, List.map_map]
    refine hu.keys.trans ?_
    show ((withinBudget 0 (presentGroups image)).1.map _).map _ = _
    rw [List.map_map]
    rfl
  case built =>
    have hnew : continues (Tab.find s.groups li) cfg = false := by
      refine Bool.not_eq_true _ ▸ fun h => ?_
      obtain ⟨g0, hg0, hsame⟩ := continues_iff.1 h
      exact hnot g0 hg0 hsame
    have hout : li ∉ (q.continuedGroups image).map (·.1) := by
      rw [State.mem_continued_iff hcfg]
      exact fun h => Bool.false_ne_true (hnew.symm.trans h)
    have hestablished : establishedGroup (Tab.find q.groups li) (field image 0 1) li cfg q.clock =
        builtGroup (field image 0 1) li cfg s.clock := by
      rcases establishedGroup_cases (Tab.find q.groups li) (field image 0 1) li cfg q.clock with ⟨_, _, hc, _⟩ | ⟨_, he⟩
      · exact absurd (hnew.symm.trans hc) Bool.false_ne_true
      · exact he
    obtain ⟨g, hg, -, hsame⟩ := hu.group li _ (State.find_configured hcfg)
    rw [hsame hout, hestablished] at hg
    obtain ⟨-, hrange⟩ := mem_withinBudget hcfg
    have hload := Group.load_of_allIdle (g := { (builtGroup (field image 0 1) li cfg s.clock).settled with
      load := { (builtGroup (field image 0 1) li cfg s.clock).load with
        smoothed := 65535, surge := false, lastAttempt := s.clock } }) hrange.2.1.1 rfl
    obtain ⟨hservice, hoccupied, hfree, hfigure⟩ := hload
    refine ⟨_, State.find_readGood hgroups hg, rfl, rfl, ?_, rfl, rfl, rfl, hservice, hoccupied, hfree, hfigure, rfl,
        rfl,
      rfl, rfl, fun e he heli => ?_⟩
    · show effectivePref cfg.preference (demoted _) = cfg.preference
      exact congrArg _ (demoted_builtTerminals _ _)
    · rw [hsuspects] at he
      obtain ⟨-, hany⟩ := List.mem_filter.1 he
      obtain ⟨p, hp, hpe⟩ := List.any_eq_true.1 hany
      exact hout (List.mem_map.2 ⟨p, hp, (of_decide_eq_true hpe).trans heli⟩)

/-- Settles O15: a group that is continued keeps its entries but for what the releases make of them. -/
theorem hardResetContinues : Obligations.HardResetContinues := by
  intro s image hstation hreading hkept htables hsound hlen hcrc haddress
  have hexec := exec_configReadComplete_good hstation hreading ⟨hlen, hcrc, haddress⟩
  set q : State := { s with reading := false } with hq
  have hcontinued : ∀ li ∈ (q.continuedGroups image).map (·.1), ∀ g,
      Tab.find (q.configured image).groups li = some g → ∃ g0 cfg, Tab.find s.groups li = some g0 ∧
        g = { g0 with cfg := cfg, global := 16 * field image 0 1 + li } := by
    intro li hli g hg
    obtain ⟨cfg, hcfg, rfl⟩ := State.of_find_configured hg
    rcases establishedGroup_cases (Tab.find q.groups li) (field image 0 1) li cfg q.clock with ⟨g0, h0, -, he⟩ | ⟨hc, -⟩
    · exact ⟨g0, cfg, h0, he⟩
    · exact absurd (hc.symm.trans ((State.mem_continued_iff hcfg).1 hli)) Bool.false_ne_true
  have hlinked : ∀ li ∈ (q.continuedGroups image).map (·.1), ∀ g,
      Tab.find (q.configured image).groups li = some g → g.Linked := by
    intro li hli g hg
    obtain ⟨g0, cfg, h0, rfl⟩ := hcontinued li hli g hg
    exact (hsound.2 _ (Tab.mem_of_find h0)).2.linked
  have hnodup : ((q.continuedGroups image).map (·.1)).Nodup :=
    (nodup_keys_of_wf (configuredGroups_wf image)).sublist (List.filter_sublist.map _)
  obtain ⟨u, hu, heq⟩ := released_releaseGroups (test := (·.inUse))
    (State.configured_not_running (s := q) (image := image) hstation) (q.configured_wf image) hnodup
        (fun _ h => h) hlinked
  obtain ⟨-, hsuspects, hgroups, -⟩ := State.readGood_frame (s := q) (named := fun _ => True) hstation hkept
    ⟨hu.frame, hu.wf, hu.keys, fun li g0 hg0 => by
      obtain ⟨g, hg, -, hfields, -⟩ := hu.group li g0 hg0
      exact ⟨g, hg, hfields, fun h => absurd trivial h⟩⟩ heq
  refine ⟨_, hexec, ?suspects, fun li cfg g0 hcfg hg0 hworking hspares => ?group⟩
  case suspects =>
    rw [hsuspects]
    refine List.filter_congr fun e _ => ?_
    rw [List.any_filter]
    refine List.any_congr rfl fun p => ?_
    rw [continues_eq_any, Bool.and_comm]
  case group =>
    have hc : continues (Tab.find q.groups li) cfg = true := continues_iff.2 ⟨g0, hg0, hworking, hspares⟩
    have hli : li ∈ (q.continuedGroups image).map (·.1) := (State.mem_continued_iff hcfg).2 hc
    obtain ⟨g0', cfg', h0, he⟩ := hcontinued li hli _ (State.find_configured hcfg)
    rw [hg0] at h0
    cases h0
    obtain ⟨g, hg, hreleased, hfields, -⟩ := hu.releasedGroup hli (State.find_configured hcfg)
    have hglobal := hfields.global.trans (establishedGroup_global _ _ _ _ _)
    have hconfig := hfields.cfg.trans (establishedGroup_cfg _ _ _ _ _)
    rw [he] at hreleased
    refine ⟨_, State.find_readGood hgroups hg, hconfig, hglobal, rfl, ?_, hreleased, Group.recomputed_restarted _ _,
      Group.restarted_load _ _⟩
    rw [← hconfig]
    rfl

end Sys2Proof.Machine
end

section
/-! Settles O23, O24 and O28: staleness and probes (R54, R92, R95), the checks of LOAD and REACH (R86, R90), and the
surge estimator (R45, R46). -/

namespace Sys2Proof.Machine

/-! ## Staleness and probes -/

theorem ageExceeds_eq (now time : Clock) (limit : Nat) :
    ageExceeds now time limit = decide (limit < (now - time).toNat) := rfl

section
variable {s : State} {g : Nat} {v : ViewEntry}

theorem exec_stalenessEvent_of_unknown (h : Tab.find s.views g = none) : exec (.stalenessEvent g) s = .next s := by
  show execStalenessEvent g s = _
  simp only [execStalenessEvent, h]

theorem exec_stalenessEvent (h : Tab.find s.views g = some v) : exec (.stalenessEvent g) s =
    .next (if s.running && !v.stale && ageExceeds s.clock v.heard s.config.viewLifetime then
      if s.isPresent (g / 16) then
        ({ s with views := Tab.put s.views g { v with stale := true } } : State).send (g / 16) (.probe g)
      else { s with views := Tab.put s.views g { v with stale := true } }
    else s) := by
  show execStalenessEvent g s = _
  simp only [execStalenessEvent, h]
  rfl

end

/-- What a PROBE for a global group draws (R54). -/
def State.answerProbe (s : State) (g : Nat) : State :=
  match s.ownGroup g with
  | some (_, grp) => s.offerLoad grp.global
  | none => s

theorem exec_probe_of_takes {s : State} {source dest g : Nat} {rest : List RxFrame}
    (h : s.takes source dest (.probe g) rest) : exec .probe s = .next (({ s with rx := rest } : State).answerProbe g) :=
  congrArg Host.Outcome.next (State.takeFrame_of_takes (k := fun s => s.answerProbe g) h rfl)

/-- Settles O23. -/
theorem stalenessProbes : Obligations.StalenessProbes := by
  refine ⟨fun s g v hv => ⟨fun hnot => ?fresh, fun hrun hfresh hold => ?stale⟩,
    fun s g => exec_stalenessEvent_of_unknown, fun s source dest g rest htakes hgroups => ?probe⟩
  case fresh =>
    rw [exec_stalenessEvent hv, if_neg]
    rw [ageExceeds_eq]
    rcases hnot with h | h | h
    · simp [h]
    · simp [h]
    · rw [decide_eq_false (Nat.not_lt.2 h), Bool.and_false]; exact Bool.false_ne_true
  case stale =>
    have hdue : (s.running && !v.stale && ageExceeds s.clock v.heard s.config.viewLifetime) = true := by
      rw [ageExceeds_eq, hrun, hfresh, decide_eq_true hold]; rfl
    refine ⟨_, (exec_stalenessEvent hv).trans (congrArg _ (if_pos hdue)), fun hpresent => ?_, fun habsent => ?_⟩
    · rw [if_pos hpresent]
      exact State.offered_send (s := { s with views := Tab.put s.views g { v with stale := true } }) hrun _ _
    · rw [if_neg (by simp [habsent])]
  case probe =>
    have hexec := exec_probe_of_takes htakes
    set u : State := { s with rx := rest }
    refine ⟨fun hown hsome => ?_, fun hnone => ?_⟩
    · obtain ⟨grp, hfind⟩ := Option.isSome_iff_exists.1 hsome
      have hglobal : grp.global = 16 * s.address + g % 16 := (hgroups.2 _ (Tab.mem_of_find hfind)).2.1
      have hnumber : grp.global = g := by omega
      have hanswer : u.answerProbe g = u.offerLoad g := by
        simp only [State.answerProbe, State.ownGroup_eq_some (s := u) hown hfind, hnumber]
      exact ⟨_, hexec, by rw [hanswer]; exact State.loadOffered (s := u) htakes.1 g⟩
    · rw [hexec]
      simp only [State.answerProbe, State.ownGroup_eq_none (s := u) hnone]

/-! ## LOAD and REACH -/

theorem bandOfCode_code (b : Band) : bandOfCode b.code = some b := by cases b <;> rfl

theorem bandOfCode_eq_none_iff {n : Nat} : bandOfCode n = none ↔ 5 < n := by
  unfold bandOfCode
  split <;> simp_all
  omega

section
variable {s : State} {source g band floor surge free : Nat}

theorem loadValid_iff : loadValid source g band floor surge free = true ↔
    g / 16 = source ∧ band ≤ 5 ∧ floor ≤ 8 ∧ surge ≤ 1 ∧ free ≤ 240 := decide_eq_true_iff

theorem State.takeLoad_of_invalid (h : ¬ (g / 16 = source ∧ band ≤ 5 ∧ floor ≤ 8 ∧ surge ≤ 1 ∧ free ≤ 240)) :
    s.takeLoad source g band floor surge free = s.bump .badFrame := by
  have hinvalid : loadValid source g band floor surge free = false := decide_eq_false h
  simp only [State.takeLoad, hinvalid]

theorem State.takeLoad_of_valid (h : g / 16 = source ∧ band ≤ 5 ∧ floor ≤ 8 ∧ surge ≤ 1 ∧ free ≤ 240) {b : Band}
    (hb : bandOfCode band = some b) : s.takeLoad source g band floor surge free =
      if source = s.address then s
      else { s with
        views := Tab.put s.views g { stale := false, band := b, floor := some (floor, b), heard := s.clock } } := by
  simp only [State.takeLoad, loadValid_iff.2 h, hb, h.1]

theorem exec_load_of_takes {dest : Nat} {rest : List RxFrame}
    (h : s.takes source dest (.load g band floor surge free) rest) :
    exec .load s = .next (({ s with rx := rest } : State).takeLoad source g band floor surge free) :=
  congrArg Host.Outcome.next (State.takeFrame_of_takes (k := fun s => s.takeLoad source g band floor surge free) h rfl)

theorem exec_reach_of_takes {dest carrier pref first count : Nat} {rest : List RxFrame}
    (h : s.takes source dest (.reach g carrier pref first count) rest) :
    exec .reach s = .next (({ s with rx := rest } : State).takeReach source g carrier pref first count) :=
  congrArg Host.Outcome.next
    (State.takeFrame_of_takes (k := fun s => s.takeReach source g carrier pref first count) h rfl)

end

/-- Settles O24, by the first check that fails. -/
theorem announcementsTaken : Obligations.AnnouncementsTaken := by
  refine ⟨fun s source dest g band floor surge free rest htakes => ⟨fun hbad => ?_, fun hgood => ⟨fun hown => ?_,
    fun hother b hb => ?_⟩⟩, fun s source dest g carrier pref first count rest htakes => ?reach⟩
  · rw [exec_load_of_takes htakes, State.takeLoad_of_invalid hbad]; rfl
  · cases hb : bandOfCode band with
    | none => exact absurd (bandOfCode_eq_none_iff.1 hb) (Nat.not_lt.2 hgood.2.1)
    | some b =>
      rw [exec_load_of_takes htakes, State.takeLoad_of_valid hgood hb]
      exact congrArg Host.Outcome.next (if_pos hown)
  · rw [exec_load_of_takes htakes, State.takeLoad_of_valid hgood (hb ▸ bandOfCode_code b)]
    exact congrArg Host.Outcome.next (if_neg hother)
  case reach =>
    have hexec := exec_reach_of_takes htakes
    set u : State := { s with rx := rest }
    refine ⟨fun hsource => ?_, fun hsource hown => ?_, fun hsource hother hbad => ?_,
        fun hsource hother hgood => ?_⟩ <;>
      rw [hexec, State.takeReach]
    · rw [if_pos hsource]; rfl
    · have hsame : g / 16 = u.address := hsource.trans hown
      rw [if_neg (not_not_intro hsource), if_pos hsame]
    all_goals
      have hnotOwn : g / 16 ≠ u.address := fun h => hother (hsource.symm.trans h)
      rw [if_neg (not_not_intro hsource), if_neg hnotOwn]
    · rw [if_neg hbad]; rfl
    · rw [if_pos hgood]

/-! ## The surge estimator (R45, R46) -/

section
variable {s x : Nat}

/-- Toward a longer interval: an eighth of the difference, rounded down. -/
theorem smooth_of_le (h : s ≤ x) : smooth s x = s + (x - s) / 8 := if_pos h

/-- Toward a shorter interval: an eighth of the difference, rounded up. -/
theorem smooth_of_lt (h : x < s) : smooth s x = s - (s - x + 7) / 8 := if_neg (Nat.not_le.2 h)

end

theorem Group.attempted_smoothed (g : Group) (now : Clock) :
    (g.attempted now).load.smoothed = smooth g.load.smoothed (min (now - g.load.lastAttempt).toNat 65535) := rfl

theorem Group.attempted_lastAttempt (g : Group) (now : Clock) : (g.attempted now).load.lastAttempt = now := rfl

theorem Group.attempted_surge_iff (g : Group) (now : Clock) : (g.attempted now).load.surge = true ↔
    0 < g.cfg.surgeInterval ∧ (g.attempted now).load.smoothed < g.cfg.surgeInterval :=
  decide_eq_true_iff

/-- Settles O28, by the two directions of the smoothing. -/
theorem surgeEstimator : Obligations.SurgeEstimator := by
  intro g now x old new
  have hx : x ≤ 65535 := Nat.min_le_right _ _
  have hnew : new = smooth old x := g.attempted_smoothed now
  have hup : old ≤ x → new = old + (x - old) / 8 := fun h => hnew.trans (smooth_of_le h)
  have hdown : x < old → new = old - (old - x + 7) / 8 := fun h => hnew.trans (smooth_of_lt h)
  refine ⟨rfl, hup, fun h => ⟨(old - x + 7) / 8, ?_, ?_, ?_⟩, g.attempted_surge_iff now, fun h => ?_, fun h => ?_,
    fun h hnear => ?_, fun h => ?_⟩
  · have := hdown h; omega
  · omega
  · omega
  · rcases Nat.lt_or_ge x old with hlt | hle
    · have := hdown hlt; omega
    · have := hup hle; omega
  · have := hdown h; omega
  · have := hup h; omega
  · have hzero : min (now - (g.attempted now).load.lastAttempt).toNat 65535 = 0 := by
      rw [Group.attempted_lastAttempt, sub_self]; rfl
    have hagain := (g.attempted now).attempted_smoothed now
    rw [hzero, smooth_of_lt h] at hagain
    rw [hagain]
    change new - _ < new
    omega

end Sys2Proof.Machine
end

section
/-! What the operations of the circuit, fault and hold units do to group records, hold slots and suspects, said once: a
chain of core moves, each of which keeps groups, holds and suspects sound, and keeps every use it does not name. -/

namespace Sys2Proof.Machine

/-! ## Groups and holds, read by key -/

/-- Every group found is sound, under a local index 0 to 15 of an engine address. -/
def State.GroupsFound (s : State) : Prop :=
  s.address ≤ 31 ∧ ∀ li g, Tab.find s.groups li = some g → li < 16 ∧ g.Sound s.address li

theorem State.GroupsSound.found {s : State} (h : s.GroupsSound) : s.GroupsFound :=
  ⟨h.1, fun _ _ hg => h.2 _ (Tab.mem_of_find hg)⟩

theorem State.GroupsFound.groupsSound {s : State} (h : s.GroupsFound) (hw : Tab.wf s.groups) : s.GroupsSound :=
  ⟨h.1, fun p hp => h.2 p.1 p.2 (Tab.find_of_mem hw hp)⟩

/-- Two groups of one global number are one group. -/
theorem State.GroupsFound.index_unique {s : State} (h : s.GroupsFound) {li lj : Nat} {g k : Group}
    (hg : Tab.find s.groups li = some g) (hk : Tab.find s.groups lj = some k) (he : g.global = k.global) : li = lj := by
  have h1 := (h.2 li g hg).2.1
  have h2 := (h.2 lj k hk).2.1
  omega

/-- A sound group is found by its global number. -/
theorem State.GroupsFound.ownGroup {s : State} (h : s.GroupsFound) {li : Nat} {g : Group}
    (hg : Tab.find s.groups li = some g) : s.ownGroup g.global = some (li, g) := by
  obtain ⟨hli, hsound⟩ := h.2 li g hg
  have hglobal := hsound.1
  have hmod : g.global % 16 = li := by omega
  rw [State.ownGroup_eq_some (by omega) (by rw [hmod]; exact hg), hmod]

theorem State.GroupsFound.ownCircuit {s : State} (h : s.GroupsFound) {li : Nat} {g : Group}
    (hg : Tab.find s.groups li = some g) {c : Nat} {x : Circuit} (hx : g.circuits[c]? = some x) :
    s.ownCircuit g.global c = some (li, g, x) := by
  simp only [State.ownCircuit, h.ownGroup hg, if_pos ((h.2 li g hg).2.lt_working hx), hx, Option.map_some]

/-- What naming a circuit finds, taken apart. -/
theorem State.GroupsFound.of_ownCircuit {s : State} (h : s.GroupsFound) {group c li : Nat} {g : Group} {x : Circuit}
    (ho : s.ownCircuit group c = some (li, g, x)) :
    Tab.find s.groups li = some g ∧ g.global = group ∧ g.circuits[c]? = some x ∧ li = group % 16 := by
  obtain ⟨hog, -, hx⟩ := ownCircuit_some ho
  obtain ⟨haddr, hli, hg⟩ := ownGroup_some hog
  have hglobal := (h.2 li g hg).2.1
  exact ⟨hg, by omega, hx, hli⟩

theorem State.holdAt_congr {s t : State} (h : t.slots = s.slots) (k : Nat) : t.holdAt k = s.holdAt k := by
  rw [State.holdAt, h]; rfl

theorem State.slots_freeSlot (s : State) (k j : Nat) :
    (s.freeSlot k).slots[j]? = if j = k then (s.slots[k]?).map fun x => { x with hold := none } else s.slots[j]? := by
  unfold State.freeSlot
  cases hk : s.slots[k]? with
  | none =>
    simp only
    split
    · rename_i h; rw [h, hk]; rfl
    · rfl
  | some x =>
    have hlt : k < 64 := by
      rcases Nat.lt_or_ge k 64 with h | h
      · exact h
      · rw [Vector.getElem?_eq_none h] at hk; cases hk
    simp only [State.setSlot, Vector.getElem?_setIfInBounds]
    by_cases h : k = j
    · subst h; simp [hlt]
    · rw [if_neg h, if_neg (Ne.symm h)]

theorem State.holdAt_freeSlot (s : State) (k j : Nat) :
    (s.freeSlot k).holdAt j = if j = k then none else s.holdAt j := by
  rw [State.holdAt, State.slots_freeSlot]
  split
  · cases s.slots[k]? <;> rfl
  · rfl

theorem State.slots_setSlot (s : State) {k : Nat} (hk : k < 64) (x : Slot) (j : Nat) :
    (s.setSlot k x).slots[j]? = if j = k then some x else s.slots[j]? := by
  simp only [State.setSlot, Vector.getElem?_setIfInBounds]
  by_cases h : k = j
  · subst h; simp [hk]
  · rw [if_neg h, if_neg (Ne.symm h)]

theorem State.holdAt_setSlot (s : State) {k : Nat} (hk : k < 64) (x : Slot) (j : Nat) :
    (s.setSlot k x).holdAt j = if j = k then x.hold else s.holdAt j := by
  rw [State.holdAt, State.slots_setSlot s hk]
  split
  · rfl
  · rfl

/-- Hold slots and HELD circuits name each other, said by the use of the circuits. -/
theorem State.holdsLinked_iff {s : State} : s.HoldsLinked ↔
    (∀ k h, s.holdAt k = some h → ∃ li g, Tab.find s.groups li = some g ∧ h.group = g.global ∧
      g.useAt h.circuit = some (h.requester, some k)) ∧
    (∀ li g c u k, Tab.find s.groups li = some g → g.useAt c = some (u, some k) →
      ∃ h, s.holdAt k = some h ∧ h.group = g.global ∧ h.circuit = c ∧ h.requester = u) := by
  constructor
  · rintro ⟨hslots, hcircuits⟩
    refine ⟨fun k h hk => ?_, fun li g c u k hg hu => ?_⟩
    · obtain ⟨li, g, t, bp, fr, hg, hgroup, hx⟩ := hslots k h hk
      exact ⟨li, g, hg, hgroup, Group.useAt_eq hx⟩
    · obtain ⟨t, bp, fr, hx⟩ := Group.useAt_eq_held_iff.1 hu
      exact hcircuits li g c t u k bp fr hg hx
  · rintro ⟨hslots, hcircuits⟩
    refine ⟨fun k h hk => ?_, fun li g c t u k bp fr hg hx => ?_⟩
    · obtain ⟨li, g, hg, hgroup, hu⟩ := hslots k h hk
      obtain ⟨t, bp, fr, hx⟩ := Group.useAt_eq_held_iff.1 hu
      exact ⟨li, g, t, bp, fr, hg, hgroup, hx⟩
    · exact hcircuits li g c u k hg (Group.useAt_eq hx)

/-- Groups sound and holds linked: what the operations on circuits rest on. -/
structure State.CircuitsSound (s : State) : Prop where
  found : s.GroupsFound
  linked : s.HoldsLinked

/-! ## One group record rewritten -/

/-- One group record is written, and nothing else of groups, slots, suspects and configuration differs. -/
structure GroupWritten (s t : State) (li : Nat) (g : Group) : Prop where
  find : ∀ j, Tab.find t.groups j = if j = li then some g else Tab.find s.groups j
  slots : t.slots = s.slots
  suspects : t.suspects = s.suspects
  config : t.config = s.config

/-- Groups, slots, suspects and configuration are as they were. -/
structure CoreSame (s t : State) : Prop where
  groups : t.groups = s.groups
  slots : t.slots = s.slots
  suspects : t.suspects = s.suspects
  config : t.config = s.config

theorem CoreSame.trans {s t u : State} (h : CoreSame s t) (h' : CoreSame t u) : CoreSame s u :=
  ⟨h'.groups.trans h.groups, h'.slots.trans h.slots, h'.suspects.trans h.suspects, h'.config.trans h.config⟩

theorem GroupWritten.same {s t u : State} {li : Nat} {g : Group} (h : GroupWritten s t li g) (h' : CoreSame t u) :
    GroupWritten s u li g :=
  ⟨fun j => by rw [h'.groups]; exact h.find j, h'.slots.trans h.slots, h'.suspects.trans h.suspects,
    h'.config.trans h.config⟩

theorem GroupWritten.trans {s t u : State} {li : Nat} {g g' : Group} (h : GroupWritten s t li g)
    (h' : GroupWritten t u li g') : GroupWritten s u li g' := by
  refine ⟨fun j => ?_, h'.slots.trans h.slots, h'.suspects.trans h.suspects, h'.config.trans h.config⟩
  rw [h'.find, h.find]
  split <;> rfl

theorem bump_same (s : State) (k : Counter) : CoreSame s (s.bump k) := ⟨rfl, rfl, rfl, rfl⟩

theorem offer_same (s : State) (d : Nat) (m : Msg) : CoreSame s (s.offer d m).1 := by
  unfold State.offer
  split
  · split <;> exact ⟨rfl, rfl, rfl, rfl⟩
  · exact ⟨rfl, rfl, rfl, rfl⟩

theorem send_same (s : State) (d : Nat) (m : Msg) : CoreSame s (s.send d m) := offer_same s d m

theorem offerLoad_same (s : State) (group : Nat) : CoreSame s (s.offerLoad group) := by
  unfold State.offerLoad
  split
  · split
    · exact ⟨rfl, rfl, rfl, rfl⟩
    · split <;> exact ⟨rfl, rfl, rfl, rfl⟩
  · exact ⟨rfl, rfl, rfl, rfl⟩

theorem applyReach_same (s : State) (g p first count : Nat) : CoreSame s (s.applyReach g p first count) := by
  rw [applyReach_frame]; exact ⟨rfl, rfl, rfl, rfl⟩

theorem CoreSame.foldl {α : Type} {f : State → α → State} (h : ∀ s a, CoreSame s (f s a)) (l : List α) (s : State) :
    CoreSame s (l.foldl f s) := by
  induction l generalizing s with
  | nil => exact ⟨rfl, rfl, rfl, rfl⟩
  | cons a l ih => exact (h s a).trans (ih _)

theorem setOfReach_same (s : State) : CoreSame s s.setOfReach :=
  CoreSame.foldl (fun s _ => (applyReach_same s _ _ _ _).trans (send_same _ _ _)) _ s

theorem setOfLoads_same (s : State) : CoreSame s s.setOfLoads := CoreSame.foldl (fun s _ => offerLoad_same s _) _ s

theorem announceSet_same (s : State) : CoreSame s s.announceSet := by
  unfold State.announceSet
  split
  · exact send_same ..
  · exact setOfLoads_same s

theorem setGroup_written (s : State) (li : Nat) (g : Group) : GroupWritten s (s.setGroup li g) li g :=
  ⟨fun j => by rw [State.setGroup_groups, Tab.find_put], rfl, rfl, rfl⟩

theorem handGroup_written (s : State) (li : Nat) (g : Group) : GroupWritten s (s.handGroup li g) li g.recomputed := by
  rw [State.handGroup_eq]
  exact ⟨fun j => Tab.find_put _ _ _ _, rfl, rfl, rfl⟩

theorem GroupWritten.find_self {s t : State} {li : Nat} {g : Group} (h : GroupWritten s t li g) :
    Tab.find t.groups li = some g := by rw [h.find, if_pos rfl]

/-- The demotion notice leaves the record with the preference that follows its terminals (R35). -/
theorem evalDemotion_written {s : State} {li : Nat} {g : Group} (hg : Tab.find s.groups li = some g) {was : Bool}
    (hpref : g.effPref = effectivePref g.cfg.preference was) :
    GroupWritten s (s.evalDemotion li was) li
      { g with effPref := effectivePref g.cfg.preference (demoted g.terminals) } := by
  unfold State.evalDemotion
  rw [hg]
  simp only
  split
  · rename_i hd
    refine ⟨fun j => ?_, rfl, rfl, rfl⟩
    rw [hd, ← hpref]
    split
    · rename_i hj; rw [hj, hg]
    · rfl
  · exact (setGroup_written s li _).same ((applyReach_same _ _ _ _ _).trans (send_same _ _ _))

theorem faultHandle_written {s : State} {li : Nat} {g : Group} (hg : Tab.find s.groups li = some g)
    (hpref : g.effPref = effectivePref g.cfg.preference (demoted g.terminals)) (c t : Nat) (b : Bool) :
    GroupWritten s (s.faultHandle li c t b) li (g.faultTaken c t b) := by
  unfold State.faultHandle
  have hg' : Tab.find (s.bump .faults).groups li = some g := hg
  simp only [hg']
  have hhand := handGroup_written (s.bump .faults) li (g.faulted c t b)
  have hkept := g.faulted_kept c t b
  have hpref' : (g.faulted c t b).recomputed.effPref =
      effectivePref (g.faulted c t b).recomputed.cfg.preference (demoted g.terminals) := by
    rw [Group.recomputed_cfg, hkept.cfg, Group.recomputed_effPref, ← hpref]
    rcases g.faulted_cases c t b with ⟨sp, -, he⟩ | ⟨-, he⟩ <;> rw [he]
  have hdemotion := hhand.trans (evalDemotion_written hhand.find_self hpref')
  rw [show (g.faulted c t b).recomputed.cfg.preference = g.cfg.preference from congrArg _ hkept.cfg] at hdemotion
  exact ⟨hdemotion.find, hdemotion.slots, hdemotion.suspects, hdemotion.config⟩

theorem restore_written {s : State} {li : Nat} {g : Group}
    (hpref : g.effPref = effectivePref g.cfg.preference (demoted g.terminals)) (t : Nat) :
    GroupWritten s ((s.handGroup li (g.restoredTerminal t)).evalDemotion li (demoted g.terminals)) li
      (g.restoreTaken t) := by
  have hhand := handGroup_written s li (g.restoredTerminal t)
  have hkept := g.restoredTerminal_kept t
  have hpref' : (g.restoredTerminal t).recomputed.effPref =
      effectivePref (g.restoredTerminal t).recomputed.cfg.preference (demoted g.terminals) := by
    rw [Group.recomputed_cfg, hkept.cfg, Group.recomputed_effPref, ← hpref]
    rcases g.restored_cases t with ⟨c, -, he⟩ | ⟨-, he⟩ <;> rw [he]
  have hdemotion := hhand.trans (evalDemotion_written hhand.find_self hpref')
  rw [show (g.restoredTerminal t).recomputed.cfg.preference = g.cfg.preference from congrArg _ hkept.cfg] at hdemotion
  exact hdemotion

/-! ## Core moves -/

/-- What a move does to the hold slots: it keeps them with the circuit's slot, frees the slot that the circuit carried,
or allocates a free slot to it (R57, R61, R62). -/
inductive SlotsFollow (s t : State) (g g' : Group) (c : Nat) : Prop
  | kept (hcircuit : ∀ u k, g'.useAt c = some (u, some k) ↔ g.useAt c = some (u, some k)) (hslots : t.slots = s.slots)
  | freed (u k : Nat) (hold : g.useAt c = some (u, some k)) (hnew : ∀ u' k', g'.useAt c ≠ some (u', some k'))
      (hslots : t.slots = (s.freeSlot k).slots)
  | granted (k : Nat) (x : Slot) (h : Hold) (hk : k < 64) (hold : g.useAt c = none)
      (hnew : g'.useAt c = some (h.requester, some k)) (hfree : s.holdAt k = none) (hx : x.hold = some h)
      (hgroup : h.group = g.global) (hcircuit : h.circuit = c) (hslots : t.slots = (s.setSlot k x).slots)

/-- One group record is rewritten at one circuit and one terminal. `P` names the uses that may end or change; `Q` says
whether the suspect list is followed too. -/
structure GroupMove (P : Nat → Nat → Nat × Option Nat → Prop) (Q : Prop) (s t : State) (li : Nat) (g g' : Group)
    (c term : Nat) : Prop where
  found : Tab.find s.groups li = some g
  find : ∀ j, Tab.find t.groups j = if j = li then some g' else Tab.find s.groups j
  suspects : t.suspects = s.suspects
  config : t.config = s.config
  global : g'.global = g.global
  sound : g'.Sound s.address li
  others : ∀ j, j ≠ c → g'.useAt j = g.useAt j
  use : ∀ u, g.useAt c = some u → g'.useAt c = some u ∨ P li c u
  slots : SlotsFollow s t g g' c
  serves : ∀ t' x, t' ≠ term → g.serves t' = some x → x.maySuspect = true → g'.serves t' = some x
  suspect : Q → (li, term) ∈ s.suspects → ∃ y, g'.serves term = some y ∧ y.maySuspect = true

/-- A change of groups, slots and suspects. -/
inductive CoreMove (P : Nat → Nat → Nat × Option Nat → Prop) (Q : Prop) : State → State → Prop
  | same {s t : State} (h : CoreSame s t) : CoreMove P Q s t
  | group {s t : State} {li : Nat} {g g' : Group} {c term : Nat} (h : GroupMove P Q s t li g g' c term) :
      CoreMove P Q s t
  | suspects {s t : State} (hgroups : t.groups = s.groups) (hslots : t.slots = s.slots) (hconfig : t.config = s.config)
      (h : Q → t.SuspectsSound) : CoreMove P Q s t

/-- A chain of core moves. -/
abbrev CoreMoves (P : Nat → Nat → Nat × Option Nat → Prop) (Q : Prop) : State → State → Prop :=
  Relation.ReflTransGen (CoreMove P Q)

section
variable {P : Nat → Nat → Nat × Option Nat → Prop} {Q : Prop} {s t : State}

theorem CoreMove.one (h : CoreMove P Q s t) : CoreMoves P Q s t := .single h

theorem CoreSame.moves (h : CoreSame s t) : CoreMoves P Q s t := (CoreMove.same h).one

theorem CoreMove.mono {P' : Nat → Nat → Nat × Option Nat → Prop} (h : CoreMove P Q s t)
    (hP : ∀ li c u, P li c u → P' li c u) : CoreMove P' Q s t := by
  cases h with
  | same h => exact .same h
  | suspects h1 h2 h3 h4 => exact .suspects h1 h2 h3 h4
  | group h =>
    exact .group ⟨h.found, h.find, h.suspects, h.config, h.global, h.sound, h.others,
      fun u hu => (h.use u hu).imp_right (hP _ _ _), h.slots, h.serves, h.suspect⟩

theorem CoreMoves.mono {P' : Nat → Nat → Nat × Option Nat → Prop} (h : CoreMoves P Q s t)
    (hP : ∀ li c u, P li c u → P' li c u) : CoreMoves P' Q s t :=
  Relation.ReflTransGen.mono (fun _ _ h => CoreMove.mono h hP) _ _ h

section
variable {li : Nat} {g g' : Group} {c term : Nat}

theorem GroupMove.address (h : GroupMove P Q s t li g g' c term) : t.address = s.address :=
  congrArg EngineConfig.address h.config

theorem GroupMove.groupsFound (h : GroupMove P Q s t li g g' c term) (hs : s.GroupsFound) : t.GroupsFound := by
  refine ⟨h.address ▸ hs.1, fun lj k hk => ?_⟩
  rw [h.address]
  rw [h.find] at hk
  split at hk
  · rename_i hj
    subst hj
    cases hk
    exact ⟨(hs.2 _ _ h.found).1, h.sound⟩
  · exact hs.2 lj k hk

theorem GroupMove.find_self (h : GroupMove P Q s t li g g' c term) : Tab.find t.groups li = some g' := by
  rw [h.find, if_pos rfl]

/-- What a circuit of any group carries after a move. -/
theorem GroupMove.useAt_cases (h : GroupMove P Q s t li g g' c term) {lj : Nat} {k : Group}
    (hk : Tab.find t.groups lj = some k) :
    ∃ k0, Tab.find s.groups lj = some k0 ∧ k.global = k0.global ∧ ∀ j, ¬ (lj = li ∧ j = c) →
        k.useAt j = k0.useAt j := by
  rw [h.find] at hk
  split at hk
  · rename_i hj
    subst hj
    cases hk
    exact ⟨g, h.found, h.global, fun j hj => h.others j fun hjc => hj ⟨rfl, hjc⟩⟩
  · exact ⟨k, hk, rfl, fun _ _ => rfl⟩

theorem GroupMove.useAt_forward (h : GroupMove P Q s t li g g' c term) {lj : Nat} {k0 : Group}
    (hk : Tab.find s.groups lj = some k0) :
    ∃ k, Tab.find t.groups lj = some k ∧ k.global = k0.global ∧ ∀ j, ¬ (lj = li ∧ j = c) → k.useAt j = k0.useAt j := by
  by_cases hj : lj = li
  · subst hj
    rw [h.found] at hk
    cases hk
    exact ⟨g', h.find_self, h.global, fun j hj => h.others j fun hjc => hj ⟨rfl, hjc⟩⟩
  · exact ⟨k0, by rw [h.find, if_neg hj, hk], rfl, fun _ _ => rfl⟩

/-- The slot of a HELD circuit names that circuit, so no other circuit carries it. -/
theorem State.HoldsLinked.slot_unique (hl : s.HoldsLinked) (hf : s.GroupsFound) {li lj : Nat} {g k : Group}
    (hg : Tab.find s.groups li = some g) (hk : Tab.find s.groups lj = some k) {c d u v n : Nat}
    (hc : g.useAt c = some (u, some n)) (hd : k.useAt d = some (v, some n)) : li = lj ∧ c = d := by
  obtain ⟨h, hh, hgroup, hcircuit, -⟩ := (State.holdsLinked_iff.1 hl).2 li g c u n hg hc
  obtain ⟨h', hh', hgroup', hcircuit', -⟩ := (State.holdsLinked_iff.1 hl).2 lj k d v n hk hd
  rw [hh] at hh'
  cases hh'
  exact ⟨hf.index_unique hg hk (hgroup.symm.trans hgroup'), hcircuit.symm.trans hcircuit'⟩

/-- Linked holds stay linked where the moved circuit and its slot change together. -/
theorem GroupMove.holdsLinked (h : GroupMove P Q s t li g g' c term) (hs : s.CircuitsSound) : t.HoldsLinked := by
  obtain ⟨hslots, hcircuits⟩ := State.holdsLinked_iff.1 hs.linked
  rw [State.holdsLinked_iff]
  cases h.slots with
  | kept hcircuit hsame =>
    refine ⟨fun k x hk => ?_, fun lj k d u n hk hu => ?_⟩
    · rw [State.holdAt_congr hsame] at hk
      obtain ⟨lj, k0, hk0, hgroup, hu⟩ := hslots k x hk
      obtain ⟨k1, hk1, hglobal, huse⟩ := h.useAt_forward hk0
      refine ⟨lj, k1, hk1, hgroup.trans hglobal.symm, ?_⟩
      by_cases hj : lj = li ∧ x.circuit = c
      · obtain ⟨rfl, hxc⟩ := hj
        rw [h.find_self] at hk1; cases hk1
        rw [h.found] at hk0; cases hk0
        rw [hxc] at hu ⊢
        exact (hcircuit _ _).2 hu
      · rw [huse _ hj]; exact hu
    · obtain ⟨k0, hk0, hglobal, huse⟩ := h.useAt_cases hk
      rw [State.holdAt_congr hsame, hglobal]
      refine hcircuits lj k0 d u n hk0 ?_
      by_cases hj : lj = li ∧ d = c
      · obtain ⟨rfl, rfl⟩ := hj
        rw [h.find_self] at hk; cases hk
        rw [h.found] at hk0; cases hk0
        exact (hcircuit _ _).1 hu
      · rw [← huse _ hj]; exact hu
  | freed q n hold hnew hsame =>
    refine ⟨fun k x hk => ?_, fun lj k d u m hk hu => ?_⟩
    · rw [State.holdAt_congr hsame, State.holdAt_freeSlot] at hk
      split at hk
      · cases hk
      · rename_i hne
        obtain ⟨lj, k0, hk0, hgroup, hu⟩ := hslots k x hk
        obtain ⟨k1, hk1, hglobal, huse⟩ := h.useAt_forward hk0
        refine ⟨lj, k1, hk1, hgroup.trans hglobal.symm, ?_⟩
        rw [huse, hu]
        rintro ⟨rfl, hxc⟩
        rw [h.found] at hk0; cases hk0
        rw [hxc, hold] at hu
        simp only [Option.some.injEq, Prod.mk.injEq] at hu
        exact hne hu.2.symm
    · have hj : ¬ (lj = li ∧ d = c) := by
        rintro ⟨rfl, rfl⟩
        rw [h.find_self] at hk; cases hk
        exact hnew _ _ hu
      obtain ⟨k0, hk0, hglobal, huse⟩ := h.useAt_cases hk
      rw [huse _ hj] at hu
      rw [State.holdAt_congr hsame, State.holdAt_freeSlot, hglobal, if_neg ?_]
      · exact hcircuits lj k0 d u m hk0 hu
      · rintro rfl
        obtain ⟨h1, h2⟩ := hs.linked.slot_unique hs.found hk0 h.found hu hold
        exact hj ⟨h1, h2⟩
  | granted n x y hn hold hnew hfree hx hgroup hcircuit hsame =>
    refine ⟨fun k z hk => ?_, fun lj k d u m hk hu => ?_⟩
    · rw [State.holdAt_congr hsame, State.holdAt_setSlot _ hn] at hk
      split at hk
      · rename_i hkn
        subst hkn
        rw [hx] at hk; cases hk
        exact ⟨li, g', h.find_self, hgroup.trans h.global.symm, by rw [hcircuit]; exact hnew⟩
      · obtain ⟨lj, k0, hk0, hgroup', hu⟩ := hslots k z hk
        obtain ⟨k1, hk1, hglobal, huse⟩ := h.useAt_forward hk0
        refine ⟨lj, k1, hk1, hgroup'.trans hglobal.symm, ?_⟩
        rw [huse, hu]
        rintro ⟨rfl, hxc⟩
        rw [h.found] at hk0; cases hk0
        rw [hxc, hold] at hu; cases hu
    · obtain ⟨k0, hk0, hglobal, huse⟩ := h.useAt_cases hk
      rw [State.holdAt_congr hsame, State.holdAt_setSlot _ hn]
      by_cases hj : lj = li ∧ d = c
      · obtain ⟨rfl, rfl⟩ := hj
        rw [h.find_self] at hk; cases hk
        rw [hnew] at hu
        simp only [Option.some.injEq, Prod.mk.injEq] at hu
        obtain ⟨rfl, rfl⟩ := hu
        rw [if_pos rfl, hx]
        exact ⟨y, rfl, hgroup.trans h.global.symm, hcircuit, rfl⟩
      · rw [huse _ hj] at hu
        obtain ⟨z, hz, hrest⟩ := hcircuits lj k0 d u m hk0 hu
        rw [if_neg (by rintro rfl; rw [hfree] at hz; cases hz), hglobal]
        exact ⟨z, hz, hrest⟩

/-- Suspects other than the moved terminal serve what they served. -/
theorem GroupMove.servedBy (h : GroupMove P Q s t li g g' c term) {e : Nat × Nat} (hne : e ≠ (li, term)) {x : Circuit}
    (hx : s.servedBy e.1 e.2 = some x) (hm : x.maySuspect = true) : t.servedBy e.1 e.2 = some x := by
  by_cases hj : e.1 = li
  · rw [hj] at hx ⊢
    rw [State.servedBy_of_find h.found] at hx
    rw [State.servedBy_of_find h.find_self]
    exact h.serves _ _ (fun ht => hne (Prod.ext hj ht)) hx hm
  · rw [State.servedBy_eq] at hx ⊢
    rw [h.find, if_neg hj]
    exact hx

theorem GroupMove.suspectsSound (h : GroupMove P Q s t li g g' c term) (hQ : Q) (hs : s.SuspectsSound) :
    t.SuspectsSound := by
  obtain ⟨hlen, hnodup, hserved⟩ := hs
  refine ⟨h.suspects ▸ hlen, h.suspects ▸ hnodup, fun e he => ?_⟩
  rw [h.suspects] at he
  by_cases hne : e = (li, term)
  · subst hne
    obtain ⟨y, hy, hm⟩ := h.suspect hQ he
    exact ⟨y, by rw [State.servedBy_of_find h.find_self]; exact hy, hm⟩
  · obtain ⟨x, hx, hm⟩ := hserved e he
    exact ⟨x, h.servedBy hne hx hm, hm⟩

end

/-! ## What every core move keeps -/

theorem State.GroupsFound.congr (hs : s.GroupsFound) (hg : t.groups = s.groups) (hc : t.config = s.config) :
    t.GroupsFound := by
  unfold State.GroupsFound State.address at *
  rwa [hg, hc]

theorem State.HoldsLinked.congr (hs : s.HoldsLinked) (hg : t.groups = s.groups) (hk : t.slots = s.slots) :
    t.HoldsLinked := by
  unfold State.HoldsLinked State.holdAt at *
  rwa [hg, hk]

theorem State.SuspectsSound.congr (hs : s.SuspectsSound) (hg : t.groups = s.groups) (hl : t.suspects = s.suspects) :
    t.SuspectsSound := by
  unfold State.SuspectsSound State.servedBy at *
  rwa [hg, hl]

theorem CoreMove.circuitsSound (h : CoreMove P Q s t) (hs : s.CircuitsSound) : t.CircuitsSound := by
  cases h with
  | same h => exact ⟨hs.found.congr h.groups h.config, hs.linked.congr h.groups h.slots⟩
  | group h => exact ⟨h.groupsFound hs.found, h.holdsLinked hs⟩
  | suspects hg hk hc => exact ⟨hs.found.congr hg hc, hs.linked.congr hg hk⟩

theorem CoreMoves.circuitsSound (h : CoreMoves P Q s t) (hs : s.CircuitsSound) : t.CircuitsSound := by
  induction h with
  | refl => exact hs
  | tail _ h ih => exact h.circuitsSound ih

theorem CoreMove.suspectsSound (h : CoreMove P Q s t) (hQ : Q) (hs : s.SuspectsSound) : t.SuspectsSound := by
  cases h with
  | same h => exact hs.congr h.groups h.suspects
  | group h => exact h.suspectsSound hQ hs
  | suspects _ _ _ h => exact h hQ

/-- What the operations on circuits rest on: groups and holds sound, and the suspect list where it is followed. -/
structure State.CoreSound (Q : Prop) (s : State) : Prop where
  circuits : s.CircuitsSound
  suspects : Q → s.SuspectsSound

theorem CoreMoves.coreSound (h : CoreMoves P Q s t) (hs : s.CoreSound Q) : t.CoreSound Q := by
  induction h with
  | refl => exact hs
  | tail _ h ih => exact ⟨h.circuitsSound ih.circuits, fun hQ => h.suspectsSound hQ (ih.suspects hQ)⟩

theorem CoreMove.config (h : CoreMove P Q s t) : t.config = s.config := by
  cases h with
  | same h => exact h.config
  | group h => exact h.config
  | suspects _ _ h _ => exact h

theorem CoreMoves.config (h : CoreMoves P Q s t) : t.config = s.config := by
  induction h with
  | refl => rfl
  | tail _ h ih => exact h.config.trans ih

/-- A use that a move does not name stays, with its hold slot. -/
theorem CoreMove.use_kept (h : CoreMove P Q s t) (hs : s.CircuitsSound) {li c : Nat} {g : Group} {u : Nat × Option Nat}
    (hg : Tab.find s.groups li = some g) (hu : g.useAt c = some u) (hP : ¬ P li c u) :
    ∃ g', Tab.find t.groups li = some g' ∧ g'.global = g.global ∧ g'.useAt c = some u ∧
      ∀ k, u.2 = some k → t.slots[k]? = s.slots[k]? := by
  cases h with
  | same h => exact ⟨g, by rw [h.groups]; exact hg, rfl, hu, fun k _ => by rw [h.slots]⟩
  | suspects hgr hk hc => exact ⟨g, by rw [hgr]; exact hg, rfl, hu, fun k _ => by rw [hk]⟩
  | @group lj k0 k1 d term h =>
    obtain ⟨g', hg', hglobal, huse⟩ := h.useAt_forward hg
    by_cases hj : li = lj ∧ c = d
    · obtain ⟨rfl, rfl⟩ := hj
      rw [h.found] at hg; cases hg
      rw [h.find_self] at hg'; cases hg'
      have hkept : k1.useAt c = some u := (h.use u hu).resolve_right hP
      refine ⟨k1, h.find_self, hglobal, hkept, fun k hk => ?_⟩
      obtain ⟨v, w⟩ := u
      cases hk
      cases h.slots with
      | kept _ hslots => rw [hslots]
      | freed _ _ _ hnew => exact absurd hkept (hnew _ _)
      | granted _ _ _ _ hold => rw [hold] at hu; cases hu
    · refine ⟨g', hg', hglobal, by rw [huse _ hj]; exact hu, fun k hk => ?_⟩
      obtain ⟨v, w⟩ := u
      cases hk
      cases h.slots with
      | kept _ hslots => rw [hslots]
      | freed q n hold _ hslots =>
        rw [hslots, State.slots_freeSlot, if_neg]
        rintro rfl
        obtain ⟨h1, h2⟩ := hs.linked.slot_unique hs.found hg h.found hu hold
        exact hj ⟨h1, h2⟩
      | granted n x y hn _ _ hfree _ _ _ hslots =>
        rw [hslots, State.slots_setSlot _ hn, if_neg]
        rintro rfl
        obtain ⟨z, hz, -⟩ := (State.holdsLinked_iff.1 hs.linked).2 li g c v k hg hu
        rw [hfree] at hz; cases hz

theorem CoreMoves.use_kept (h : CoreMoves P Q s t) (hs : s.CircuitsSound) {li c : Nat} {g : Group}
    {u : Nat × Option Nat} (hg : Tab.find s.groups li = some g) (hu : g.useAt c = some u) (hP : ¬ P li c u) :
    ∃ g', Tab.find t.groups li = some g' ∧ g'.global = g.global ∧ g'.useAt c = some u ∧
      ∀ k, u.2 = some k → t.slots[k]? = s.slots[k]? := by
  induction h with
  | refl => exact ⟨g, hg, rfl, hu, fun _ _ => rfl⟩
  | tail hm h ih =>
    obtain ⟨g1, hg1, hglobal1, hu1, hk1⟩ := ih
    obtain ⟨g2, hg2, hglobal2, hu2, hk2⟩ := h.use_kept (CoreMoves.circuitsSound hm hs) hg1 hu1 hP
    exact ⟨g2, hg2, hglobal2.trans hglobal1, hu2, fun k hk => (hk2 k hk).trans (hk1 k hk)⟩

end

end Sys2Proof.Machine
end

section
/-! Settles O30 to O35: hold requests (R60 to R63), takes, drops and faults of holds (R64 to R69), and their expiry
(R70). Each answer of the hold unit is one equation of the named operation, for each way the checks can go. -/

namespace Sys2Proof.Machine

/-! ## What a hand-over of a group leaves unchanged -/

section
variable (s : State) (li : Nat) (g : Group)

@[simp] theorem State.handGroup_slots : (s.handGroup li g).slots = s.slots := by rw [State.handGroup_eq]
@[simp] theorem State.handGroup_suspects : (s.handGroup li g).suspects = s.suspects := by rw [State.handGroup_eq]
@[simp] theorem State.handGroup_clock : (s.handGroup li g).clock = s.clock := by rw [State.handGroup_eq]
@[simp] theorem State.handGroup_config : (s.handGroup li g).config = s.config := by rw [State.handGroup_eq]
@[simp] theorem State.handGroup_running : (s.handGroup li g).running = s.running := by rw [State.handGroup_eq]; rfl
@[simp] theorem State.handGroup_address : (s.handGroup li g).address = s.address := by rw [State.handGroup_eq]; rfl
@[simp] theorem State.handGroup_holdAt (k : Nat) : (s.handGroup li g).holdAt k = s.holdAt k :=
  State.holdAt_congr (State.handGroup_slots s li g) k

theorem State.find_handGroup_self : Tab.find (s.handGroup li g).groups li = some g.recomputed :=
  (handGroup_written s li g).find_self

@[simp] theorem State.freeSlot_running (k : Nat) : (s.freeSlot k).running = s.running := by
  unfold State.freeSlot; split <;> rfl

end

/-! ## Hunting in a group that takes holds (R5, R9, R10) -/

/-- Some step of a scan reaches each circuit (R9). -/
theorem exists_scan_step {w p c : Nat} (hp : p < w) (hc : c < w) : ∃ i < w, (p + i) % w = c := by
  rcases Nat.lt_or_ge c p with h | h
  · refine ⟨c + w - p, by omega, ?_⟩
    rw [show p + (c + w - p) = c + w by omega, Nat.add_mod_right, Nat.mod_eq_of_lt hc]
  · refine ⟨c - p, by omega, ?_⟩
    rw [show p + (c - p) = c by omega, Nat.mod_eq_of_lt hc]

/-- A band other than FULL and CLOSED means an IDLE circuit, so a hunt takes one (R5, R40). -/
theorem Group.Sound.exists_hunt {a li : Nat} {g : Group} (h : g.Sound a li) (hfull : g.recomputed.load.band ≠ .full)
    (hclosed : g.recomputed.load.band ≠ .closed) (suspects : List (Nat × Nat)) (lj : Nat) :
    ∃ c t, g.hunt suspects lj = some (c, t) := by
  obtain ⟨-, hlen, -, hhunt, -⟩ := h
  obtain ⟨hservice, hoccupied, hfree, hclosed', -, hfull', -, -, -, hidle⟩ := bandFromCounts g
  have hidle := (hidle hlen).1
  rw [hfree] at hidle
  have hpos : g.circuits.countP (·.isIdle) ≠ 0 := by
    intro hzero
    rw [hzero] at hidle
    by_cases hn : g.inService = 0
    · exact hclosed (hclosed' hn).2.2
    · exact hfull (hfull' (Nat.one_le_iff_ne_zero.2 hn) hidle)
  obtain ⟨x, hx, hxi⟩ := List.countP_pos_iff.1 (Nat.pos_of_ne_zero hpos)
  obtain ⟨c, hc⟩ := List.mem_iff_getElem?.1 hx
  obtain ⟨t, rfl⟩ : ∃ t, x = .idle t := by cases x <;> simp_all [Circuit.isIdle]
  have hcw : c < g.cfg.working := hlen ▸ (List.getElem?_eq_some_iff.1 hc).1
  obtain ⟨i, hi, hic⟩ := exists_scan_step hhunt hcw
  cases hhunted : g.hunt suspects lj with
  | some r => exact ⟨r.1, r.2, rfl⟩
  | none =>
    have hnone : ¬ g.circuits[(g.huntPtr + i) % g.cfg.working]? = some (.idle t) :=
      (huntOrder g suspects lj).2.1 hhunted i hi t
    rw [hic] at hnone
    exact absurd hc hnone

/-- An attempt changes the estimator only. -/
theorem Group.attempted_eq (g : Group) (now : Clock) :
    g.attempted now = { g with load := (g.attempted now).load } := rfl

theorem Group.Sound.attempted {a li : Nat} {g : Group} (h : g.Sound a li) (now : Clock) :
    (g.attempted now).recomputed.Sound a li := h

/-! ## A hold request, by the first check that denies it (R60, R61) -/

section
variable {s : State} {requester serial group prec : Nat}

theorem State.requestHold_of_notOwner (h : s.ownGroup group = none) :
    s.requestHold requester serial group prec = (s, .denied .notOwner .closed) := by
  simp only [State.requestHold, h]

variable {li : Nat} {g0 : Group} (hown : s.ownGroup group = some (li, g0))
include hown

/-- The attempt counts, then the checks of the band, the floor and the slots follow. -/
theorem State.requestHold_of_own {g : Group} (hg : g = (g0.attempted s.clock).recomputed) :
    s.requestHold requester serial group prec =
      if g.load.band = .closed then (s.handGroup li (g0.attempted s.clock), .denied .closed g.load.band)
      else if g.load.band = .full then (s.handGroup li (g0.attempted s.clock), .denied .full g.load.band)
      else if prec < g.load.floor then (s.handGroup li (g0.attempted s.clock), .denied .admission g.load.band)
      else match (s.handGroup li (g0.attempted s.clock)).lowestFreeSlot with
        | none => (s.handGroup li (g0.attempted s.clock), .denied .noSlot g.load.band)
        | some k => (s.handGroup li (g0.attempted s.clock)).grantHold li g k requester serial group := by
  subst hg
  simp only [State.requestHold, hown] <;> rfl

end

/-- The hold of a grant (R57, R61). -/
def State.holdOf (s : State) (requester serial group c : Nat) (band : Band) : Hold :=
  { requester := requester, serial := serial, group := group, circuit := c, band := band
    expiry := s.clock + BitVec.ofNat 32 (1000 * s.config.holdLifetime) }

/-- The group of a grant: the hunted circuit is HELD in the slot, and the pointer has moved past it (R9, R11). -/
def Group.granted (g : Group) (c t requester k : Nat) : Group :=
  { g with
    huntPtr := (c + 1) % g.cfg.working
    circuits := g.circuits.set c (.held t requester k false false) }

/-- A grant is its slot written and its group handed over. -/
theorem State.grantHold_of_hunt {s : State} {li : Nat} {g : Group} {k requester serial group c t : Nat} {x : Slot}
    (hhunt : g.hunt s.suspects li = some (c, t)) (hx : s.slots[k]? = some x) :
    s.grantHold li g k requester serial group =
      ((s.setSlot k { generation := x.generation + 1, hold := some (s.holdOf requester serial group c g.load.band) }
        ).handGroup li (g.granted c t requester k),
        .granted { slot := k, generation := (x.generation + 1).toNat, circuit := c, terminal := t
                   carrier := g.cfg.carrier, band := g.load.band, rating := none }) := by
  simp only [State.grantHold, hhunt, hx]
  rfl

/-- Settles O30, by the first check that denies the request. -/
theorem holdRequests : Obligations.HoldRequests := by
  intro s requester serial group prec hrun hgroups
  refine ⟨fun hnot => State.requestHold_of_notOwner (State.ownGroup_eq_none hnot), fun g0 hown hfind => ?_⟩
  intro g
  have hrequest := State.requestHold_of_own (requester := requester) (serial := serial) (prec := prec)
    (State.ownGroup_eq_some hown hfind) (rfl : g = (g0.attempted s.clock).recomputed)
  set u := s.handGroup (group % 16) (g0.attempted s.clock) with hu
  have hslots : u.slots = s.slots := State.handGroup_slots ..
  refine ⟨u, State.groupHanded hrun _ _, fun hclosed => ?_, fun hfull => ?_, fun hclosed hfull =>
    ⟨fun hlow => ?_, fun hfloor => ⟨fun hslot => ?_, fun k x hx hfree hlower => ?grant⟩⟩⟩
  · rw [hrequest, if_pos hclosed, hclosed]
  · rw [hrequest, if_neg (by rw [hfull]; decide), if_pos hfull, hfull]
  all_goals rw [if_neg hclosed, if_neg hfull] at hrequest
  · rw [hrequest, if_pos hlow]
  all_goals rw [if_neg (Nat.not_lt.2 hfloor)] at hrequest
  · rw [hrequest, State.lowestFreeSlot_eq_none fun k hk => by rw [hu, State.handGroup_holdAt]; exact hslot k hk]
  case grant =>
    have hsound := (hgroups.found.2 _ g0 hfind).2.attempted s.clock
    obtain ⟨c, t, hhunt⟩ := hsound.exists_hunt hfull hclosed s.suspects (group % 16)
    have hux : u.slots[k]? = some x := by rw [hslots]; exact hx
    have hlowest := State.lowestFreeSlot_eq_some hux hfree fun j hj => by
      rw [hu, State.handGroup_holdAt]; exact hlower j hj
    rw [hlowest] at hrequest
    have hhunt' : g.hunt u.suspects (group % 16) = some (c, t) := by
      rw [hu, State.handGroup_suspects]; exact hhunt
    have hgrant := State.grantHold_of_hunt (requester := requester) (serial := serial) (group := group) hhunt' hux
    have hhold : u.holdOf requester serial group c g.load.band = s.holdOf requester serial group c g.load.band := by
      rw [State.holdOf, hu, State.handGroup_clock, State.handGroup_config]; rfl
    rw [hhold] at hgrant
    refine ⟨c, t, _, hhunt, ?_, hrequest.trans hgrant⟩
    rw [← hslots]
    exact State.groupHanded (s := u.setSlot k _) ((State.handGroup_running s _ _).trans hrun) _ _

end Sys2Proof.Machine
end

section
/-! Settles O31 to O35: what the hold unit answers to HOLD-ASK, HOLD-TAKE, HOLD-DROP and HOLD-FAULT, and the expiry of a
hold (R62 to R70). -/

namespace Sys2Proof.Machine

/-! ## What a grant was made of -/

theorem State.lowestFreeSlot_some {s : State} {k : Nat} (h : s.lowestFreeSlot = some k) :
    k < Config.holdSlots ∧ s.holdAt k = none := by
  have hmem := List.mem_of_find?_eq_some h
  have htest := List.find?_some h
  exact ⟨List.mem_range.1 hmem, Option.isNone_iff_eq_none.1 htest⟩

/-- The parts of a grant: the hunted circuit, the free slot, and the group before the hold is counted (R60, R61). -/
structure State.Granted (s : State) (requester serial group : Nat) (u : State) (gr : Grant) (li : Nat) (g0 g : Group)
    (x : Slot) : Prop where
  own : s.ownGroup group = some (li, g0)
  attempted : g = (g0.attempted s.clock).recomputed
  notClosed : g.load.band ≠ .closed
  notFull : g.load.band ≠ .full
  hunt : g.hunt s.suspects li = some (gr.circuit, gr.terminal)
  slot : s.slots[gr.slot]? = some x
  free : x.hold = none
  generation : gr.generation = (x.generation + 1).toNat
  carrier : gr.carrier = g.cfg.carrier
  band : gr.band = g.load.band
  state : u = ((s.handGroup li (g0.attempted s.clock)).setSlot gr.slot
    { generation := x.generation + 1, hold := some (s.holdOf requester serial group gr.circuit gr.band) }).handGroup li
      (g.granted gr.circuit gr.terminal requester gr.slot)

/-- A request is granted from its parts and in no other way. -/
theorem State.requestHold_granted {s u : State} {requester serial group prec : Nat} {gr : Grant}
    (h : s.requestHold requester serial group prec = (u, .granted gr)) :
    ∃ li g0 g x, s.Granted requester serial group u gr li g0 g x := by
  cases hown : s.ownGroup group with
  | none => rw [State.requestHold_of_notOwner hown] at h; cases h
  | some p =>
    obtain ⟨li, g0⟩ := p
    obtain ⟨g, hg⟩ : ∃ g, g = (g0.attempted s.clock).recomputed := ⟨_, rfl⟩
    rw [State.requestHold_of_own hown hg] at h
    set v := s.handGroup li (g0.attempted s.clock) with hv
    by_cases hclosed : g.load.band = .closed
    · rw [if_pos hclosed] at h; exact absurd (congrArg Prod.snd h) nofun
    by_cases hfull : g.load.band = .full
    · rw [if_neg hclosed, if_pos hfull] at h; exact absurd (congrArg Prod.snd h) nofun
    by_cases hlow : prec < g.load.floor
    · rw [if_neg hclosed, if_neg hfull, if_pos hlow] at h; exact absurd (congrArg Prod.snd h) nofun
    rw [if_neg hclosed, if_neg hfull, if_neg hlow] at h
    cases hslot : v.lowestFreeSlot with
    | none => rw [hslot] at h; exact absurd (congrArg Prod.snd h) nofun
    | some k =>
      rw [hslot] at h
      obtain ⟨hk, hfree⟩ := State.lowestFreeSlot_some hslot
      have hk64 : k < 64 := hk
      have hget : v.slots[k]? = some v.slots[k] := Vector.getElem?_eq_getElem hk64
      cases hhunt : g.hunt v.suspects li with
      | none => simp only [State.grantHold, hhunt] at h; exact absurd (congrArg Prod.snd h) nofun
      | some r =>
        obtain ⟨c, t⟩ := r
        simp only at h
        rw [State.grantHold_of_hunt hhunt hget] at h
        have hhold : v.holdOf requester serial group c g.load.band = s.holdOf requester serial group c g.load.band := by
          rw [State.holdOf, hv, State.handGroup_clock, State.handGroup_config]; rfl
        rw [hhold] at h
        obtain ⟨hstate, hgr⟩ := Prod.mk.inj h
        cases hgr
        refine ⟨li, g0, g, v.slots[k], hown, hg, hclosed, hfull, ?_, ?_, ?_, rfl, rfl, rfl, hstate.symm⟩
        · rw [hv, State.handGroup_suspects] at hhunt; exact hhunt
        · rw [← hget, hv, State.handGroup_slots]
        · simpa [State.holdAt, hget] using hfree

/-- A hunted circuit is IDLE on its terminal. -/
theorem Group.idle_of_hunt {g : Group} {suspects : List (Nat × Nat)} {li c t : Nat}
    (h : g.hunt suspects li = some (c, t)) : g.circuits[c]? = some (.idle t) := by
  obtain ⟨i, -, hc, hidle, -⟩ := (huntOrder g suspects li).1 c t h
  rw [hc]
  exact hidle

/-- A grant undone: the group is as the attempt left it but for the hunt pointer. -/
theorem Group.granted_undone {g : Group} (hg : g.recomputed = g) {c t : Nat} (hx : g.circuits[c]? = some (.idle t))
    (requester k : Nat) :
    ({ (g.granted c t requester k).recomputed with
        circuits := (g.granted c t requester k).recomputed.circuits.set c (.idle t) } : Group).recomputed =
      { g with huntPtr := (c + 1) % g.cfg.working } := by
  obtain ⟨hc, hget⟩ := List.getElem?_eq_some_iff.1 hx
  have hback : (g.granted c t requester k).recomputed.circuits.set c (.idle t) = g.circuits := by
    show (g.circuits.set c _).set c (.idle t) = g.circuits
    rw [List.set_set, ← hget, List.set_getElem_self]
  rw [hback]
  conv_rhs => rw [← hg]
  rfl

/-! ## HOLD-ASK (R60 to R63) -/

theorem State.freeSlot_of_get {s : State} {k : Nat} {x : Slot} (h : s.slots[k]? = some x) :
    s.freeSlot k = s.setSlot k { x with hold := none } := by
  simp only [State.freeSlot, h]

theorem State.ownCircuit_freeSlot (s : State) (k group c : Nat) :
    (s.freeSlot k).ownCircuit group c = s.ownCircuit group c := by
  have hgroup : (s.freeSlot k).ownGroup group = s.ownGroup group := by
    unfold State.ownGroup State.address
    rw [freeSlot_groups, freeSlot_config]
  unfold State.ownCircuit
  rw [hgroup]

/-- A hold that ends with its circuit HELD in its slot releases that circuit (R14, R62, R70, R75). -/
theorem State.endHold_of_held {s : State} {k : Nat} {h : Hold} (hold : s.holdAt k = some h) {li : Nat} {g : Group}
    {t u : Nat} {bp fr : Bool} (hown : s.ownCircuit h.group h.circuit = some (li, g, .held t u k bp fr)) :
    s.endHold k = (s.freeSlot k).endUse li g h.circuit t bp fr := by
  simp only [State.endHold, hold, State.ownCircuit_freeSlot, hown, if_true]

theorem State.endUse_of_calm (s : State) (li : Nat) (g : Group) (c t : Nat) (bp : Bool) :
    s.endUse li g c t bp false =
      s.handGroup li { g with circuits := g.circuits.set c (if bp then .blocked t else .idle t) } := rfl

theorem State.endUse_of_faultWaits (s : State) (li : Nat) (g : Group) (c t : Nat) (bp : Bool) :
    s.endUse li g c t bp true = s.faultHandle li c t false := rfl

section
variable {s : State} {source serial ref group prec : Nat}

theorem State.answerAsk_of_badPrec (h : 7 < prec) :
    s.answerAsk source serial ref group prec = s.bump .badFrame := if_pos h

theorem State.answerAsk_of_denied (h : prec ≤ 7) {u : State} {reason : AttemptOutcome} {band : Band}
    (hdenied : s.requestHold source serial group prec = (u, .denied reason band)) :
    s.answerAsk source serial ref group prec = u.send source (.holdDeny serial ref group reason.code band.code) := by
  rw [State.answerAsk, if_neg (Nat.not_lt.2 h), hdenied]

variable {u : State} {gr : Grant} (h : prec ≤ 7)
  (hgranted : s.requestHold source serial group prec = (u, .granted gr)) (hrun : u.running = true)
include h hgranted hrun

theorem State.answerAsk_of_room (hroom : u.tx.length < Config.txCapacity) :
    s.answerAsk source serial ref group prec =
      { u with tx := u.tx ++ [waiting source (giveMsg serial ref group gr)] } := by
  rw [State.answerAsk, if_neg (Nat.not_lt.2 h), hgranted]
  simp only [State.offer, hrun, hroom, if_true]
  rfl

/-- A refused HOLD-GIVE ends the hold that was granted. -/
theorem State.answerAsk_of_full (hfull : Config.txCapacity ≤ u.tx.length) :
    s.answerAsk source serial ref group prec = (u.bump .txDrop).endHold gr.slot := by
  rw [State.answerAsk, if_neg (Nat.not_lt.2 h), hgranted]
  simp only [State.offer, hrun, Nat.not_lt.2 hfull, if_true, if_false]

end

theorem exec_holdAsk_of_takes {s : State} {source dest serial ref group prec : Nat} {rest : List RxFrame}
    (h : s.takes source dest (.holdAsk serial ref group prec) rest) :
    exec .holdAsk s = .next (({ s with rx := rest } : State).answerAsk source serial ref group prec) :=
  congrArg Host.Outcome.next
    (State.takeFrame_of_takes (k := fun s => s.answerAsk source serial ref group prec) h rfl)

/-- Settles O31: a refused HOLD-GIVE ends the hold it was to announce. -/
theorem holdAskAnswered : Obligations.HoldAskAnswered := by
  intro s source dest serial ref group prec rest htakes hgroups
  have hexec := exec_holdAsk_of_takes htakes
  set q : State := { s with rx := rest } with hq
  have hqrun : q.running = true := htakes.1
  refine ⟨fun hbad => hexec.trans (congrArg Host.Outcome.next (State.answerAsk_of_badPrec hbad)), fun hprec =>
    ⟨_, hexec, fun u reason band hdenied => ?denied, fun u gr hgranted => ?granted⟩⟩
  case denied =>
    rw [State.answerAsk_of_denied hprec hdenied]
    have hrunning : u.running = true := by
      have := (requestHold_edits q source serial group prec).frame.running
      rw [hdenied] at this
      exact this.trans hqrun
    exact State.offered_send hrunning _ _
  case granted =>
    obtain ⟨li, g0, g, x, hgrant⟩ := State.requestHold_granted hgranted
    have hrunning : u.running = true := by
      rw [hgrant.state, State.handGroup_running]
      exact (State.handGroup_running q _ _).trans hqrun
    refine ⟨fun hroom => State.answerAsk_of_room hprec hgranted hrunning hroom, fun hfull => ?_⟩
    rw [State.answerAsk_of_full hprec hgranted hrunning hfull]
    obtain ⟨hown, hli, hfind⟩ := ownGroup_some hgrant.own
    subst hli
    set k := gr.slot
    set gu := (g.granted gr.circuit gr.terminal source k).recomputed with hgu
    have hk : k < 64 := by
      rcases Nat.lt_or_ge k 64 with h | h
      · exact h
      · exact absurd ((Vector.getElem?_eq_none h).symm.trans hgrant.slot) (by simp)
    have hidle := Group.idle_of_hunt hgrant.hunt
    have hsound := (hgroups.found.2 _ g0 hfind).2.attempted s.clock
    rw [show (g0.attempted s.clock).recomputed = g from hgrant.attempted.symm] at hsound
    have hlt := (List.getElem?_eq_some_iff.1 hidle).1
    have hfindu : Tab.find u.groups (group % 16) = some gu := by
      rw [hgrant.state]; exact State.find_handGroup_self ..
    have hslotu : u.slots[k]? = some { generation := x.generation + 1
                                       hold := some (q.holdOf source serial group gr.circuit gr.band) } := by
      rw [hgrant.state, State.handGroup_slots, State.slots_setSlot _ hk, if_pos rfl]
    have hheld : gu.circuits[gr.circuit]? = some (.held gr.terminal source k false false) :=
      List.getElem?_set_self hlt
    have haddress : u.address = q.address := by
      rw [hgrant.state, State.handGroup_address]; exact State.handGroup_address q _ _
    set b := u.bump .txDrop with hb
    have hcircuit : b.ownCircuit group gr.circuit =
        some (group % 16, gu, .held gr.terminal source k false false) := by
      have hgroup : b.ownGroup group = some (group % 16, gu) := State.ownGroup_eq_some (hown.trans haddress.symm) hfindu
      simp only [State.ownCircuit, hgroup, hheld, Option.map_some]
      exact if_pos (hsound.lt_working hidle)
    have hholdAt : b.holdAt k = some (q.holdOf source serial group gr.circuit gr.band) := by
      show (u.slots[k]?).bind (·.hold) = _
      rw [hslotu]; rfl
    have hend := State.endHold_of_held hholdAt hcircuit
    rw [State.freeSlot_of_get (s := b) hslotu, State.endUse_of_calm] at hend
    refine ⟨_, gu, hslotu, hgrant.generation.symm, hfindu, hheld, ?_, fun g0' hg0' => ?_⟩
    · rw [hend]
      exact State.groupHanded (s := b.setSlot k _) hrunning _ _
    · rw [show Tab.find s.groups (group % 16) = some g0 from hfind] at hg0'
      cases hg0'
      rw [hend, State.find_handGroup_self]
      have hundone := Group.granted_undone (g := g) (by rw [hgrant.attempted]; rfl) hidle source k
      rw [hgrant.attempted] at hundone
      exact congrArg some (by rw [hgu, hgrant.attempted]; exact hundone)

end Sys2Proof.Machine
end

section
/-! Settles O32 to O37: HOLD-TAKE, HOLD-DROP, HOLD-FAULT and the expiry of a hold (R64 to R70), the release order and
fault handling (R15, R31 to R35), and the suspect list (R25, R28 to R30). -/

namespace Sys2Proof.Machine

section
variable {s : State} {sender slot gen group c : Nat}

@[simp] theorem State.freeSlot_suspects (s : State) (k : Nat) : (s.freeSlot k).suspects = s.suspects := by
  unfold State.freeSlot; split <;> rfl

/-! ## HOLD-TAKE (R65 to R67) -/

theorem State.takeHold_of_noCircuit (h : s.ownCircuit group c = none) :
    s.takeHold sender slot gen group c = (s, false) := by
  simp only [State.takeHold, h]

theorem State.answerTake_of_taken {u : State} (h : s.takeHold sender slot gen group c = (u, true)) :
    s.answerTake sender slot gen group c = u := by
  simp only [State.answerTake, h]

theorem State.answerTake_of_lost {u : State} (h : s.takeHold sender slot gen group c = (u, false)) :
    s.answerTake sender slot gen group c = u.send sender (.holdLost slot gen group c) := by
  simp only [State.answerTake, h]

variable {li : Nat} {g : Group}

theorem State.takeHold_of_match {t u : Nat} {bp fr : Bool}
    (hown : s.ownCircuit group c = some (li, g, .held t u slot bp fr))
        (hmatch : s.HoldMatches sender slot gen group c) :
    s.takeHold sender slot gen group c = ((s.freeSlot slot).makeBusy li g c t u bp fr, true) := by
  simp only [State.takeHold, hown, (s.matchHold_iff sender slot gen group c).2 hmatch, if_true]

theorem State.takeHold_of_idle {t : Nat} (hown : s.ownCircuit group c = some (li, g, .idle t))
    (hmatch : ¬ s.HoldMatches sender slot gen group c) :
    s.takeHold sender slot gen group c = (s.makeBusy li g c t sender false false, true) := by
  simp only [State.takeHold, hown, mt (s.matchHold_iff sender slot gen group c).1 hmatch]
  rfl

theorem State.takeHold_of_neither {x : Circuit} (hown : s.ownCircuit group c = some (li, g, x))
    (hmatch : ¬ s.HoldMatches sender slot gen group c) (hidle : x.isIdle = false) :
    s.takeHold sender slot gen group c = (s, false) := by
  simp only [State.takeHold, hown, mt (s.matchHold_iff sender slot gen group c).1 hmatch]
  cases x with
  | idle t => cases hidle
  | blocked t => rfl
  | held t u k bp fr => rfl
  | busy t u bp fr => rfl
  | faulty => rfl

/-! ## HOLD-DROP (R68, R14) -/

theorem State.dropHold_of_noCircuit (id : Option (Nat × Nat)) (h : s.ownCircuit group c = none) :
    s.dropHold sender id group c = (s.bump .staleDrops, false) := by
  simp only [State.dropHold, h]

/-- The hold id of a drop, if it names one, matches its slot (R68). -/
def State.DropMatches (s : State) (sender : Nat) (id : Option (Nat × Nat)) (group c : Nat) : Prop :=
  ∃ k gen, id = some (k, gen) ∧ s.HoldMatches sender k gen group c

theorem State.dropMatches_none : ¬ s.DropMatches sender none group c := fun ⟨_, _, h, _⟩ => nomatch h

theorem State.dropMatches_some : s.DropMatches sender (some (slot, gen)) group c ↔
    s.HoldMatches sender slot gen group c :=
  ⟨fun ⟨_, _, hid, h⟩ => by cases hid; exact h, fun h => ⟨slot, gen, rfl, h⟩⟩

theorem State.dropHold_held {t u k : Nat} {bp fr : Bool} (hown : s.ownCircuit group c = some (li, g, .held t u k bp fr))
    (id : Option (Nat × Nat)) :
    (u = sender ∧ (id = none ∨ (s.DropMatches sender id group c ∧ id.map (·.1) = some k)) →
      s.dropHold sender id group c = ((s.freeSlot k).endUse li g c t bp fr, true)) ∧
    (¬ (u = sender ∧ (id = none ∨ (s.DropMatches sender id group c ∧ id.map (·.1) = some k))) →
      s.dropHold sender id group c = (s.bump .staleDrops, false)) := by
  cases id with
  | none => simp +contextual [State.dropHold, hown]
  | some id =>
    obtain ⟨slot, gen⟩ := id
    constructor
    · rintro ⟨rfl, hid | ⟨hmatch, hslot⟩⟩
      · cases hid
      · cases hslot
        simp [State.dropHold, hown, (s.matchHold_iff ..).2 (State.dropMatches_some.1 hmatch)]
    · intro h
      simp_all [State.dropHold, State.dropMatches_some, State.matchHold_iff]

theorem State.dropHold_busy {t u : Nat} {bp fr : Bool} (hown : s.ownCircuit group c = some (li, g, .busy t u bp fr))
    (id : Option (Nat × Nat)) :
    (u = sender ∧ ¬ s.DropMatches sender id group c →
      s.dropHold sender id group c = (s.endUse li g c t bp fr, true)) ∧
    (¬ (u = sender ∧ ¬ s.DropMatches sender id group c) →
      s.dropHold sender id group c = (s.bump .staleDrops, false)) := by
  cases id with
  | none => simp +contextual [State.dropHold, hown, State.dropMatches_none]
  | some id =>
    obtain ⟨slot, gen⟩ := id
    constructor <;> intro h <;> simp_all [State.dropHold, State.dropMatches_some, State.matchHold_iff]

theorem State.dropHold_of_notInUse {x : Circuit} (hown : s.ownCircuit group c = some (li, g, x))
    (huse : x.inUse = false)
    (id : Option (Nat × Nat)) : s.dropHold sender id group c = (s.bump .staleDrops, false) := by
  simp only [State.dropHold, hown]
  cases x with
  | held t u k bp fr => cases huse
  | busy t u bp fr => cases huse
  | idle t => rfl
  | blocked t => rfl
  | faulty => rfl

/-! ## HOLD-FAULT (R69, R16) -/

theorem State.faultHold_of_match {t u : Nat} {bp fr : Bool}
    (hown : s.ownCircuit group c = some (li, g, .held t u slot bp fr))
        (hmatch : s.HoldMatches sender slot gen group c) :
    s.faultHold sender slot gen group c = (s.freeSlot slot).treatFailure li g c t bp fr := by
  simp only [State.faultHold, hown, State.matchHold_iff, hmatch, and_self, if_true]

theorem State.faultHold_of_stale (h : ∀ li g t u bp fr, s.ownCircuit group c = some (li, g, .held t u slot bp fr) →
    ¬ s.HoldMatches sender slot gen group c) : s.faultHold sender slot gen group c = s.bump .staleDrops := by
  unfold State.faultHold
  split
  · rename_i li g t u k bp fr hown
    refine if_neg fun ⟨hmatch, hk⟩ => ?_
    subst hk
    exact h li g t u bp fr hown ((s.matchHold_iff ..).1 hmatch)
  · rfl

end

section
variable (s : State) (li : Nat) (g : Group) (c t : Nat) (bp : Bool)

theorem State.treatFailure_of_faultWaits : s.treatFailure li g c t bp true = s.faultHandle li c t false := rfl

theorem State.treatFailure_of_suspect (h : (li, t) ∈ s.suspects) :
    s.treatFailure li g c t bp false = (s.removeSuspect li t).faultHandle li c t false := by
  simp [State.treatFailure, h]

theorem State.treatFailure_of_new (h : (li, t) ∉ s.suspects) : s.treatFailure li g c t bp false =
    (s.handGroup li { g with circuits := g.circuits.set c (if bp then .blocked t else .idle t) }).appendSuspect
      li t := by
  simp [State.treatFailure, h]

theorem State.removeSuspect_freeSlot (k : Nat) :
    (s.freeSlot k).removeSuspect li t = (s.removeSuspect li t).freeSlot k := by
  cases hx : s.slots[k]? with
  | none =>
    have hx' : (s.removeSuspect li t).slots[k]? = none := hx
    simp only [State.freeSlot, hx, hx']
  | some x => rw [State.freeSlot_of_get hx, State.freeSlot_of_get (s := s.removeSuspect li t) hx]; rfl

end

/-! ## The commands of the hold unit -/

section
variable {s : State} {source dest slot gen group circuit : Nat} {rest : List RxFrame}

theorem exec_holdTake_of_takes (h : s.takes source dest (.holdTake slot gen group circuit) rest) :
    exec .holdTake s = .next (({ s with rx := rest } : State).answerTake source slot gen group circuit) :=
  congrArg Host.Outcome.next
    (State.takeFrame_of_takes (k := fun s => s.answerTake source slot gen group circuit) h rfl)

theorem exec_holdDrop_of_takes {idp : Nat} (h : s.takes source dest (.holdDrop idp slot gen group circuit) rest) :
    exec .holdDrop s = .next (({ s with rx := rest } : State).answerDrop source idp slot gen group circuit) :=
  congrArg Host.Outcome.next
    (State.takeFrame_of_takes (k := fun s => s.answerDrop source idp slot gen group circuit) h rfl)

theorem exec_holdFault_of_takes (h : s.takes source dest (.holdFault slot gen group circuit) rest) :
    exec .holdFault s = .next (({ s with rx := rest } : State).faultHold source slot gen group circuit) :=
  congrArg Host.Outcome.next
    (State.takeFrame_of_takes (k := fun s => s.faultHold source slot gen group circuit) h rfl)

end

/-- Settles O32: a taken hold makes its circuit BUSY, anything else is answered HOLD-LOST. -/
theorem holdTakeTaken : Obligations.HoldTakeTaken := by
  intro s source dest slot gen group circuit rest htakes
  have hrun : ({ s with rx := rest } : State).running = true := htakes.1
  have hlost : ∀ u, ({ s with rx := rest } : State).takeHold source slot gen group circuit = (u, false) →
      u = { s with rx := rest } → ∃ t, exec .holdTake s = .next t ∧
        Offered { s with rx := rest } t source (.holdLost slot gen group circuit) := by
    rintro u hu rfl
    refine ⟨_, exec_holdTake_of_takes htakes, ?_⟩
    rw [State.answerTake_of_lost hu]
    exact State.offered_send hrun _ _
  refine ⟨fun hnone => hlost _ (State.takeHold_of_noCircuit hnone) rfl, fun li g x hown =>
    ⟨fun hmatch t u bp fr hx => ?_, fun hmatch t hx => ?_, fun hmatch hidle =>
      hlost _ (State.takeHold_of_neither hown hmatch hidle) rfl⟩⟩
  all_goals subst hx; refine ⟨_, State.groupHanded ?_ _ _, (exec_holdTake_of_takes htakes).trans ?_⟩
  · rw [State.freeSlot_running]; exact hrun
  · exact congrArg Host.Outcome.next (State.answerTake_of_taken (State.takeHold_of_match hown hmatch))
  · exact hrun
  · exact congrArg Host.Outcome.next (State.answerTake_of_taken (State.takeHold_of_idle hown hmatch))

/-- Settles O33: by slot, by user, or stale. -/
theorem holdDropTaken : Obligations.HoldDropTaken := by
  intro s source dest idp slot gen group circuit rest htakes
  have hexec := exec_holdDrop_of_takes htakes
  refine ⟨fun hbad => hexec.trans (congrArg Host.Outcome.next (if_pos hbad)), fun hidp => ?_⟩
  obtain ⟨id, hid⟩ : ∃ id : Option (Nat × Nat), id = if idp = 1 then some (slot, gen) else none := ⟨_, rfl⟩
  have hdrop : ∀ {u : State} {b : Bool}, ({ s with rx := rest } : State).dropHold source id group circuit = (u, b) →
      exec .holdDrop s = .next u := fun hu => by
    rw [hexec, State.answerDrop, if_neg (Nat.not_lt.2 hidp), ← hid, hu]
  have hnamed : ∀ k, (id = none ∨ (({ s with rx := rest } : State).DropMatches source id group circuit ∧
      id.map (·.1) = some k)) ↔ (idp = 0 ∨ (s.HoldMatches source slot gen group circuit ∧ slot = k)) := by
    intro k
    rcases Nat.le_one_iff_eq_zero_or_eq_one.1 hidp with rfl | rfl
    · simp [hid]
    · simp only [hid, if_true, State.dropMatches_some, Option.map_some, Option.some.injEq, reduceCtorEq, false_or,
        Nat.one_ne_zero]
      rfl
  have hunnamed : (¬ ({ s with rx := rest } : State).DropMatches source id group circuit) ↔
      (idp = 0 ∨ ¬ s.HoldMatches source slot gen group circuit) := by
    rcases Nat.le_one_iff_eq_zero_or_eq_one.1 hidp with rfl | rfl
    · simp [hid, State.dropMatches_none]
    · simp only [hid, if_true, State.dropMatches_some, false_or, Nat.one_ne_zero]
      rfl
  refine ⟨fun hnone => hdrop (State.dropHold_of_noCircuit (s := { s with rx := rest }) id hnone), fun li g x hown =>
    ⟨fun t u k bp fr hx => ?_, fun t u bp fr hx => ?_, fun huse =>
        hdrop (State.dropHold_of_notInUse (s := { s with rx := rest }) hown huse id)⟩⟩
  all_goals subst hx
  · obtain ⟨hends, hstale⟩ := State.dropHold_held (s := { s with rx := rest }) (sender := source) hown id
    rw [hnamed k] at hends hstale
    exact ⟨fun h => hdrop (hends h), fun h => hdrop (hstale h)⟩
  · obtain ⟨hends, hstale⟩ := State.dropHold_busy (s := { s with rx := rest }) (sender := source) hown id
    rw [hunnamed] at hends hstale
    exact ⟨fun h => hdrop (hends h), fun h => hdrop (hstale h)⟩

/-- Settles O34, by what the circuit's terminal is at the fault. -/
theorem holdFaultTaken : Obligations.HoldFaultTaken := by
  intro s source dest slot gen group circuit rest htakes
  have hexec := exec_holdFault_of_takes htakes
  refine ⟨fun hstale => hexec.trans (congrArg Host.Outcome.next (State.faultHold_of_stale hstale)),
    fun li g t u bp fr hown hmatch => ?_⟩
  have hfault := hexec.trans (congrArg Host.Outcome.next
    (State.faultHold_of_match (s := { s with rx := rest }) hown hmatch))
  have hsuspects : (({ s with rx := rest } : State).freeSlot slot).suspects = s.suspects := State.freeSlot_suspects _ _
  refine ⟨fun hfr => ?_, fun hfr hmem => ?_, fun hfr hnew => ?_⟩
  all_goals subst hfr
  · exact hfault
  · rw [State.treatFailure_of_suspect _ _ _ _ _ _ (hsuspects.symm ▸ hmem), State.removeSuspect_freeSlot] at hfault
    exact hfault
  · rw [State.treatFailure_of_new _ _ _ _ _ _ (hsuspects.symm ▸ hnew)] at hfault
    refine ⟨_, State.groupHanded ?_ _ _, hfault⟩
    rw [State.freeSlot_running]
    exact htakes.1

/-- Settles O35: an expiry that is due ends the hold of its slot. -/
theorem holdExpires : Obligations.HoldExpires := by
  intro s k
  refine ⟨fun hfree => congrArg Host.Outcome.next (by rw [hfree]), fun h hhold => ?_⟩
  have hexec : exec (.holdExpiry k) s =
      .next (if s.running && reached s.clock h.expiry then (s.endHold k).bump .holdsExpired else s) :=
    congrArg Host.Outcome.next (by rw [hhold])
  refine ⟨fun hnot => ?_, fun hrun hdue li g t u bp fr hown => ?_⟩
  · rw [hexec, if_neg]
    rw [Bool.and_eq_true, reached, decide_eq_true_iff]
    rintro ⟨hrun, hdue⟩
    rcases hnot with hnot | hnot
    · rw [hrun] at hnot; cases hnot
    · exact absurd hdue (Nat.not_lt.2 hnot)
  · rw [hexec, if_pos (by rw [Bool.and_eq_true, reached, decide_eq_true_iff]; exact ⟨hrun, hdue⟩),
      State.endHold_of_held hhold hown]

/-! ## The release order and fault handling (R15, R31 to R35) -/

/-- The demotion notice of a group whose condition turned: its new preference enters the route lists and one REACH is
offered (R2, R35, R85). -/
theorem State.evalDemotion_of_turned {s : State} {li : Nat} {g : Group} (hg : Tab.find s.groups li = some g)
    {was : Bool}
    (hturned : demoted g.terminals ≠ was) :
    s.evalDemotion li was =
      ((s.setGroup li { g with effPref := effectivePref g.cfg.preference (demoted g.terminals) }).applyOwnReach
        { g with effPref := effectivePref g.cfg.preference (demoted g.terminals) }).send Config.broadcast
          (reachMsg { g with effPref := effectivePref g.cfg.preference (demoted g.terminals) }) := by
  simp only [State.evalDemotion, hg, if_neg hturned]

theorem State.evalDemotion_of_same {s : State} {li : Nat} {g : Group} (hg : Tab.find s.groups li = some g) {was : Bool}
    (hsame : demoted g.terminals = was) : s.evalDemotion li was = s := by
  simp only [State.evalDemotion, hg, if_pos hsame]

theorem State.faultHandle_of_find {s : State} {li c t : Nat} {g : Group} (hg : Tab.find s.groups li = some g)
    (blocked : Bool) : s.faultHandle li c t blocked =
      ((s.bump .faults).handGroup li (g.faulted c t blocked)).evalDemotion li (demoted g.terminals) := by
  have hg' : Tab.find (s.bump .faults).groups li = some g := hg
  simp only [State.faultHandle, hg']

/-- The lowest SPARE terminal takes the circuit, or there is none (R32, R33). -/
theorem Group.faulted_by_spares (g : Group) (c t : Nat) (blocked : Bool) :
    g.faulted c t blocked =
      { g with circuits := (g.faulted c t blocked).circuits, terminals := (g.faulted c t blocked).terminals } ∧
    (∀ sp, (g.terminals.set t .faulty)[sp]? = some .spare →
      (∀ j < sp, (g.terminals.set t .faulty)[j]? ≠ some .spare) →
      (g.faulted c t blocked).terminals = (g.terminals.set t .faulty).set sp (.serving c) ∧
      (g.faulted c t blocked).circuits = g.circuits.set c (if blocked then .blocked sp else .idle sp)) ∧
    (TermRole.spare ∉ g.terminals.set t .faulty →
      (g.faulted c t blocked).terminals = g.terminals.set t .faulty ∧
      (g.faulted c t blocked).circuits = g.circuits.set c .faulty) := by
  rcases g.faulted_cases c t blocked with ⟨sp, hsp, he⟩ | ⟨hnone, he⟩
  · obtain ⟨hspare, hlow⟩ := lowestSpare_eq_some hsp
    rw [he]
    refine ⟨rfl, fun sp' hsp' hlow' => ?_, fun hno => absurd (List.mem_of_getElem? hspare) hno⟩
    rcases Nat.lt_trichotomy sp sp' with hlt | rfl | hlt
    · exact absurd hspare (hlow' sp hlt)
    · exact ⟨rfl, rfl⟩
    · exact absurd hsp' (hlow sp' hlt)
  · rw [he]
    exact ⟨rfl, fun sp hsp _ => absurd (List.mem_of_getElem? hsp) (lowestSpare_eq_none hnone), fun _ => ⟨rfl, rfl⟩⟩

/-- The demotion notice after the entries of group `g` have become those of `h` (R35). -/
theorem State.evalDemotion_notice {u : State} (hrun : u.running = true) {li : Nat} {g h : Group} (hcfg : h.cfg = g.cfg)
    (hu : Tab.find u.groups li = some h.recomputed) :
    (demoted h.terminals = demoted g.terminals → u.evalDemotion li (demoted g.terminals) = u) ∧
    (demoted h.terminals ≠ demoted g.terminals →
      let k : Group := { h.recomputed with
        effPref := if demoted h.terminals then min 15 (g.cfg.preference + 1) else g.cfg.preference }
      Offered (({ u with groups := Tab.put u.groups li k } : State).applyReach k.global k.effPref k.cfg.destFirst
        k.cfg.destCount) (u.evalDemotion li (demoted g.terminals)) Config.broadcast (reachMsg k)) := by
  refine ⟨fun hsame => State.evalDemotion_of_same hu hsame, fun hturned => ?_⟩
  have hk : ({ h.recomputed with
      effPref := effectivePref h.recomputed.cfg.preference (demoted h.recomputed.terminals) } : Group) =
        { h.recomputed with
          effPref := if demoted h.terminals then min 15 (g.cfg.preference + 1) else g.cfg.preference } := by
    rw [Group.recomputed_cfg, hcfg]
    rfl
  have hreach := State.evalDemotion_of_turned (was := demoted g.terminals) hu hturned
  rw [hk] at hreach
  exact State.offered_of_eq_send ((State.applyReach_only _ _ _ _ _).running.trans hrun) hreach

/-- Settles O36: the hand-over of the released or faulted entries, then the demotion notice. -/
theorem releaseOrder : Obligations.ReleaseOrder := by
  intro s li c t g bp hrun hfind
  refine ⟨State.groupHanded hrun _ _, rfl, fun blocked => ?_⟩
  obtain ⟨hkeep, hspare, hnone⟩ := g.faulted_by_spares c t blocked
  refine ⟨g.faulted c t blocked, hkeep, hspare, hnone,
    (s.bump .faults).handGroup li (g.faulted c t blocked), State.groupHanded (s := s.bump .faults) hrun _ _, ?_⟩
  rw [State.faultHandle_of_find hfind]
  exact State.evalDemotion_notice (u := (s.bump .faults).handGroup li (g.faulted c t blocked))
    ((State.handGroup_running _ _ _).trans hrun) (g.faulted_kept c t blocked).cfg
    (State.find_handGroup_self ..)

/-! ## The suspect list (R25, R28 to R30) -/

theorem State.condemn_of_serving {s : State} {li t c : Nat} {g : Group} (hg : Tab.find s.groups li = some g)
    (ht : g.terminals[t]? = some (.serving c)) :
    (∀ t', g.circuits[c]? = some (.idle t') → s.condemn li t = s.faultHandle li c t false) ∧
    (∀ t', g.circuits[c]? = some (.blocked t') → s.condemn li t = s.faultHandle li c t true) ∧
    (∀ t' u k bp fr, g.circuits[c]? = some (.held t' u k bp fr) →
      s.condemn li t = s.setGroup li { g with circuits := g.circuits.set c (.held t' u k bp true) }) ∧
    (∀ t' u bp fr, g.circuits[c]? = some (.busy t' u bp fr) →
      s.condemn li t = s.setGroup li { g with circuits := g.circuits.set c (.busy t' u bp true) }) := by
  refine ⟨fun t' hx => ?_, fun t' hx => ?_, fun t' u k bp fr hx => ?_, fun t' u bp fr hx => ?_⟩ <;>
    simp only [State.condemn, hg, ht, hx]

theorem State.evalDemotion_suspects (s : State) (li : Nat) (was : Bool) :
    (s.evalDemotion li was).suspects = s.suspects := by
  unfold State.evalDemotion
  split
  · rfl
  · dsimp only
    split
    · rfl
    · exact (send_same _ _ _).suspects.trans (applyReach_same _ _ _ _ _).suspects

theorem State.faultHandle_suspects (s : State) (li c t : Nat) (blocked : Bool) :
    (s.faultHandle li c t blocked).suspects = s.suspects := by
  unfold State.faultHandle
  dsimp only
  split
  · rfl
  · rw [State.evalDemotion_suspects, State.handGroup_suspects]; rfl

theorem State.condemn_suspects (s : State) (li t : Nat) : (s.condemn li t).suspects = s.suspects := by
  unfold State.condemn
  split
  · rfl
  · split
    · split
      · exact State.faultHandle_suspects ..
      · exact State.faultHandle_suspects ..
      all_goals rfl
    · rfl

/-- Settles O37, by the state of the circuit that the oldest suspect's terminal serves. -/
theorem suspectPromotion : Obligations.SuspectPromotion := by
  intro s li t
  refine ⟨fun hroom => ?_, fun oldest rest g c hfull hlist hfind hserving => ?_⟩
  · simp only [State.appendSuspect, if_pos hroom]
  intro v
  have happend : s.appendSuspect li t =
      { v.condemn oldest.1 oldest.2 with suspects := (v.condemn oldest.1 oldest.2).suspects ++ [(li, t)] } := by
    have hpromote : s.promoteOldest = v.condemn oldest.1 oldest.2 := by simp only [State.promoteOldest, hlist]; rfl
    simp only [State.appendSuspect, if_neg (Nat.not_lt.2 hfull), hpromote]
  have hv : Tab.find v.groups oldest.1 = some g := hfind
  obtain ⟨hidle, hblocked, hheld, hbusy⟩ := State.condemn_of_serving hv hserving
  have hsuspects : (v.condemn oldest.1 oldest.2).suspects = rest := State.condemn_suspects v _ _
  rw [hsuspects] at happend
  refine ⟨congrArg State.suspects happend, fun t' hx => ?_, fun t' hx => ?_, fun t' u k bp fr hx => ?_,
    fun t' u bp fr hx => ?_⟩
  · rw [happend, hidle t' hx]
  · rw [happend, hblocked t' hx]
  · rw [happend, hheld t' u k bp fr hx]; rfl
  · rw [happend, hbusy t' u bp fr hx]; rfl

end Sys2Proof.Machine
end

section
/-! Settles O38 to O40 and O42: selection, its attempts, the offer, and the answers to a HOLD-ASK (R91, R93, R103 to
R113, R134, R145). -/

namespace Sys2Proof.Machine

/-! ## Judging (R93, R103) -/

theorem State.judge_own {s : State} {c : Candidate} {g : Group} (hown : c.group / 16 = s.address)
    (hfind : Tab.find s.groups (c.group % 16) = some g) : s.judge c = .band g.load.band (some g.load.floor) := by
  simp only [State.judge, if_pos hown, State.ownGroup_eq_some hown hfind]

theorem State.judge_remote {s : State} {c : Candidate} (h : c.group / 16 ≠ s.address) :
    s.judge c = readView (Tab.find s.views c.group) := if_neg h

theorem readView_stale {v : ViewEntry} (h : v.stale = true) : readView (some v) = .stale := if_pos h

/-- A FRESH entry at AMBER or RED carries a floor only where its floor is of that band. -/
theorem readView_fresh {v : ViewEntry} (h : v.stale = false) :
    (v.band = .green → readView (some v) = .band .green (some 0)) ∧
    (v.band = .grace → readView (some v) = .band .grace (some 7)) ∧
    (v.band = .full ∨ v.band = .closed → readView (some v) = .band v.band (some 8)) ∧
    (v.band = .amber ∨ v.band = .red →
      (∀ fl, v.floor = some (fl, v.band) → readView (some v) = .band v.band (some fl)) ∧
      ((∀ fl, v.floor ≠ some (fl, v.band)) → readView (some v) = .band v.band none)) := by
  refine ⟨fun hb => ?_, fun hb => ?_, ?_, ?_⟩
  · simp only [readView, h, hb]; rfl
  · simp only [readView, h, hb]; rfl
  · rintro (hb | hb) <;> simp only [readView, h, hb] <;> rfl
  · rintro (hb | hb) <;> refine ⟨fun fl hfl => ?_, fun hfl => ?_⟩
    all_goals rw [hb] at hfl; cases hf : v.floor with
      | none => simp_all [readView]
      | some p => obtain ⟨fl', fb⟩ := p; simp_all [readView]

/-! ## The five passes (R104, R105) -/

/-- The first value that a function takes on an ascending list. -/
theorem findSome?_ascending {β : Type} {f : Nat → Option β} {b : β} {l : List Nat} (h : l.Pairwise (· < ·)) :
    l.findSome? f = some b ↔ ∃ k ∈ l, f k = some b ∧ ∀ j ∈ l, j < k → f j = none := by
  induction l with
  | nil => simp
  | cons a l ih =>
    obtain ⟨ha, hl⟩ := List.pairwise_cons.1 h
    rw [List.findSome?_cons]
    cases hfa : f a with
    | some d =>
      refine ⟨fun hd => ⟨a, List.mem_cons_self, hfa.trans hd, fun j hj hja => ?_⟩, fun ⟨k, hk, hfk, hlow⟩ => ?_⟩
      · rcases List.mem_cons.1 hj with rfl | hj
        · exact absurd hja (Nat.lt_irrefl _)
        · exact absurd (ha j hj) (Nat.lt_asymm hja)
      · rcases List.mem_cons.1 hk with rfl | hk
        · exact hfa.symm.trans hfk
        · rw [hlow a List.mem_cons_self (ha k hk)] at hfa; cases hfa
    | none =>
      refine (ih hl).trans ⟨fun ⟨k, hk, hfk, hlow⟩ => ⟨k, List.mem_cons_of_mem _ hk, hfk, fun j hj hjk => ?_⟩,
        fun ⟨k, hk, hfk, hlow⟩ => ⟨k, ?_, hfk, fun j hj => hlow j (List.mem_cons_of_mem _ hj)⟩⟩
      · rcases List.mem_cons.1 hj with rfl | hj
        · exact hfa
        · exact hlow j hj hjk
      · rcases List.mem_cons.1 hk with rfl | hk
        · rw [hfk] at hfa; cases hfa
        · exact hk

/-- A candidate that pass `k` would take. -/
def State.takes_pass (s : State) (b : CallBase) (c : Candidate) (k : Nat) : Prop :=
  s.eligible b c = true ∧ (s.judge c).pass = some k

theorem Judged.pass_range {j : Judged} {k : Nat} (h : j.pass = some k) : k ∈ [1, 2, 3, 4, 5] := by
  cases j with
  | band bd fl => cases bd <;> simp_all [Judged.pass]
  | stale => simp_all [Judged.pass]
  | unknown => simp_all [Judged.pass]

/-- The passes, as R104 and R105 word them. -/
theorem Judged.pass_iff (j : Judged) (prec k : Nat) :
    (j.admits prec = true ∧ j.pass = some k) ↔
      ((∃ bd fl, j = .band bd fl ∧ (∀ f, fl = some f → f ≤ prec) ∧
        ((bd = .green ∧ k = 1) ∨ (bd = .amber ∧ k = 2) ∨ (bd = .red ∧ k = 3) ∨ (bd = .grace ∧ k = 4))) ∨
        ((j = .stale ∨ j = .unknown) ∧ k = 5)) := by
  cases j with
  | band bd fl =>
    have hadmits : (Judged.band bd fl).admits prec = true ↔ ∀ f, fl = some f → f ≤ prec := by
      cases fl <;> simp [Judged.admits]
    rw [hadmits]
    cases bd <;> simp [Judged.pass, eq_comm]
  | stale => simp [Judged.pass, Judged.admits, eq_comm]
  | unknown => simp [Judged.pass, Judged.admits, eq_comm]

theorem State.pick_eq_some_iff {s : State} {b : CallBase} {c : Candidate} :
    s.pick b = some c ↔ ∃ k before after, s.routeList b.dest = before ++ c :: after ∧ s.takes_pass b c k ∧
      (∀ d ∈ before, ¬ s.takes_pass b d k) ∧ ∀ d ∈ s.routeList b.dest, ∀ j, s.takes_pass b d j → k ≤ j := by
  rw [State.pick, findSome?_ascending (by decide)]
  simp only [List.find?_eq_some_iff_append, List.find?_eq_none, Bool.and_eq_true, decide_eq_true_eq, Bool.not_eq_true',
    ← Bool.not_eq_true]
  constructor
  · rintro ⟨k, -, ⟨htakes, before, after, hlist, hbefore⟩, hlow⟩
    exact ⟨k, before, after, hlist, htakes, hbefore, fun d hd j hj =>
      Nat.le_of_not_lt fun hjk => hlow j (Judged.pass_range hj.2) hjk d hd hj⟩
  · rintro ⟨k, before, after, hlist, htakes, hbefore, hleast⟩
    exact ⟨k, Judged.pass_range htakes.2, ⟨htakes, before, after, hlist, hbefore⟩, fun j _ hjk d hd hj =>
      absurd (hleast d hd j hj) (Nat.not_le.2 hjk)⟩

theorem State.pick_eq_none_iff {s : State} {b : CallBase} :
    s.pick b = none ↔ ∀ c ∈ s.routeList b.dest, ∀ k, ¬ s.takes_pass b c k := by
  rw [State.pick, List.findSome?_eq_none_iff]
  simp only [List.find?_eq_none, Bool.and_eq_true, decide_eq_true_eq]
  exact ⟨fun h c hc k hk => h k (Judged.pass_range hk.2) c hc hk, fun h k _ c hc hk => h c hc k hk⟩

theorem State.takes_pass_iff (s : State) (b : CallBase) (c : Candidate) (k : Nat) :
    s.takes_pass b c k ↔ (c.group / 16 = s.address ∨ s.isPresent (c.group / 16) = true) ∧ c.group ∉ b.tried ∧
      ((∃ bd fl, s.judge c = .band bd fl ∧ (∀ f, fl = some f → f ≤ b.prec) ∧
        ((bd = .green ∧ k = 1) ∨ (bd = .amber ∧ k = 2) ∨ (bd = .red ∧ k = 3) ∨ (bd = .grace ∧ k = 4))) ∨
        ((s.judge c = .stale ∨ s.judge c = .unknown) ∧ k = 5)) := by
  rw [← Judged.pass_iff (s.judge c) b.prec k, State.takes_pass, State.eligible]
  simp [and_assoc]

/-- Settles O38: the passes in their order, over the list in its order. -/
theorem selectionPasses : Obligations.SelectionPasses := by
  refine ⟨fun s b => ⟨fun c g hown hfind => State.judge_own hown hfind, ?_⟩, fun s c hremote => ?_⟩
  · intro able
    have hable : able = s.takes_pass b := by
      funext c k
      exact propext (s.takes_pass_iff b c k).symm
    rw [hable]
    exact ⟨fun c => State.pick_eq_some_iff, State.pick_eq_none_iff⟩
  · rw [State.judge_remote hremote]
    refine ⟨fun hnone => by rw [hnone]; rfl, fun v hv => ?_⟩
    rw [hv]
    exact ⟨readView_stale, readView_fresh⟩

/-! ## Attempts (R105 to R108, R113) -/

section
variable {s : State} {r : Nat} {b : CallBase} {fuel : Nat}

theorem State.select_of_none (h : fuel = 0 ∨ s.pick b = none) : s.select r b fuel = s.congested r b := by
  cases fuel with
  | zero => rfl
  | succ fuel => simp only [State.select, h.resolve_left (Nat.succ_ne_zero _)]

variable {c : Candidate} (hpick : s.pick b = some c)
include hpick

section
variable (hremote : c.group / 16 ≠ s.address) (hrun : s.running = true)
include hremote hrun

theorem State.select_of_asked (hroom : s.tx.length < Config.txCapacity) : s.select r b (fuel + 1) =
    { s with
      serial := s.serial + 1
      tx := s.tx ++ [waiting (c.group / 16) (.holdAsk (s.serial + 1).toNat r c.group b.prec)]
      calls := Tab.put s.calls r (CallRecord.mk (b.trying c.group) c.group false false
        (.awaitHold (s.serial + 1) (after s.clock s.config.answerTimeout))) } := by
  have hrun' : ({ s with serial := s.serial + 1 } : State).running = true := hrun
  simp only [State.select, hpick, if_neg hremote, State.offer, hrun', if_true, if_pos hroom]
  rfl

theorem State.select_of_busFull (hfull : Config.txCapacity ≤ s.tx.length) : s.select r b (fuel + 1) =
    ({ s with serial := s.serial + 1, counters := s.counters.bump .txDrop } : State).select r
      { b.trying c.group with last := some .busFull } fuel := by
  have hrun' : ({ s with serial := s.serial + 1 } : State).running = true := hrun
  simp only [State.select, hpick, if_neg hremote, State.offer, hrun', if_true, if_neg (Nat.not_lt.2 hfull)]
  rfl

end

section
variable (hown : c.group / 16 = s.address) {u : State}
include hown

theorem State.select_of_granted {gr : Grant} (h : s.requestHold s.address 0 c.group b.prec = (u, .granted gr)) :
    s.select r b (fuel + 1) = u.offerCall r (b.trying c.group) c.group gr := by
  have h' : s.requestHold s.address 0 c.group (b.trying c.group).prec = (u, .granted gr) := h
  simp only [State.select, hpick, if_pos hown, h']

theorem State.select_of_denied {reason : AttemptOutcome} {band : Band}
    (h : s.requestHold s.address 0 c.group b.prec = (u, .denied reason band)) :
    s.select r b (fuel + 1) = u.select r { b.trying c.group with last := some reason } fuel := by
  have h' : s.requestHold s.address 0 c.group (b.trying c.group).prec = (u, .denied reason band) := h
  simp only [State.select, hpick, if_pos hown, h']

end
end

theorem OnlyQueue.clock {s t : State} (h : OnlyQueue s t) : t.clock = s.clock := by rw [h.eq]
theorem OnlyQueue.config {s t : State} (h : OnlyQueue s t) : t.config = s.config := by rw [h.eq]
theorem OnlyQueue.calls {s t : State} (h : OnlyQueue s t) : t.calls = s.calls := by rw [h.eq]

theorem State.send_only {s : State} (hrun : s.running = true) (dest : Nat) (m : Msg) : OnlyQueue s (s.send dest m) :=
  (State.offered_send hrun dest m).1

/-- Settles O39, one unfolding of selection for each outcome of the attempt. -/
theorem selectionAttempts : Obligations.SelectionAttempts := by
  refine ⟨fun s r b fuel hrun hnone => ⟨_, State.offered_send hrun _ _, ?_⟩, fun s r b fuel c hrun hpick => ?_,
    fun s r b outcome => rfl⟩
  · rw [State.select_of_none hnone]
    exact congrArg (fun calls => { (s.send b.client _).bump .routeFails with calls := Tab.del calls r })
      (State.send_only hrun b.client _).calls
  · exact ⟨fun hremote => ⟨State.select_of_asked hpick hremote hrun, State.select_of_busFull hpick hremote hrun⟩,
      fun hown => ⟨fun u gr h => State.select_of_granted hpick hown h,
        fun u reason band h => State.select_of_denied hpick hown h⟩⟩

/-! ## The offer (R110, R134, R135, R145) -/

/-- Settles O40: the quote is the charge of 60 seconds and its transit share. -/
theorem offerMade : Obligations.OfferMade := by
  intro s r group b gr hrun
  refine ⟨_, s.snapshot gr.carrier gr.band b.prec, State.offered_send hrun _ _, ?_,
    fun hnone => State.snapshot_of_find_eq_none hnone _ _, fun e he => ?_⟩
  · have hsend := State.send_only hrun b.client (.routeOffer b.tag b.attempts group gr.circuit gr.terminal gr.carrier
      gr.band.code ((s.snapshot gr.carrier gr.band b.prec).map fun sn => sn.quote))
    rw [State.offerCall, State.putRecord, hsend.clock, hsend.config, hsend.calls]
    rfl
  · refine ⟨e.mult (pricingBand s.config.exemption b.prec gr.band), usage 60 e.rate,
      charge e.setup (usage 60 e.rate) (e.mult (pricingBand s.config.exemption b.prec gr.band)), ?_,
      fun hexempt => ?_, fun hpriced => ?_, rfl, rfl⟩
    · rw [State.snapshot, he]; rfl
    · rw [pricingBand, if_pos hexempt]; rfl
    · rw [pricingBand, if_neg (Nat.not_le.2 hpriced)]
      refine ⟨?_, ?_, ?_, ?_⟩ <;> · intro hb; rw [hb]; rfl

/-! ## HOLD-GIVE, HOLD-DENY and the answer timeout (R91, R109 to R112) -/

section
variable {s : State} {ref serial group : Nat}

theorem State.awaiting_of_match {rec : CallRecord} {ser : BitVec 16} {deadline : Clock}
    (hfind : Tab.find s.calls ref = some rec) (hphase : rec.phase = .awaitHold ser deadline)
    (hser : ser.toNat = serial) (hgroup : rec.group = group) : s.awaiting ref serial group = some rec.base := by
  simp only [State.awaiting, hfind, hphase, hser, hgroup, and_self, if_true]

theorem State.awaiting_of_none (h : ∀ rec ser deadline, Tab.find s.calls ref = some rec →
    rec.phase = .awaitHold ser deadline → ¬ (ser.toNat = serial ∧ rec.group = group)) :
    s.awaiting ref serial group = none := by
  unfold State.awaiting
  split
  · rename_i rec hfind
    split
    · rename_i ser deadline hphase
      exact if_neg (h rec ser deadline hfind hphase)
    · rfl
  · rfl

/-! ### HOLD-GIVE -/

variable {source slot gen circuit terminal carrier band : Nat}

theorem State.takeGive_of_bad (h : giveInRange ref group slot gen circuit terminal carrier band = false) :
    s.takeGive source serial ref group slot gen circuit terminal carrier band = s.bump .badFrame := by
  simp only [State.takeGive, h]

section
variable (h : giveInRange ref group slot gen circuit terminal carrier band = true) {bd : Band}
  (hband : bandOfCode band = some bd)
include h hband

theorem State.takeGive_of_awaited {b : CallBase} (hsource : source = group / 16)
    (hawait : s.awaiting ref serial group = some b) :
    s.takeGive source serial ref group slot gen circuit terminal carrier band = s.offerCall ref b group
      { slot := slot, generation := gen, circuit := circuit, terminal := terminal, carrier := carrier, band := bd
        rating := none } := by
  simp only [State.takeGive, h, hband, if_pos hsource, hawait]

theorem State.takeGive_of_late (hlate : source ≠ group / 16 ∨ s.awaiting ref serial group = none) :
    s.takeGive source serial ref group slot gen circuit terminal carrier band =
      (s.send source (.holdDrop 1 slot gen group circuit)).bump .lateGrants := by
  have hnone : (if source = group / 16 then s.awaiting ref serial group else none) = none := by
    rcases hlate with hne | hnone
    · exact if_neg hne
    · rw [hnone, ite_self]
  simp only [State.takeGive, h, hband, hnone]

end

/-! ### HOLD-DENY -/

variable {reason : Nat}

theorem State.takeDeny_of_code (h : denyReasonOfCode reason = none ∨ bandOfCode band = none ∨ source ≠ group / 16) :
    s.takeDeny source serial ref group reason band = s.bump .badFrame := by
  unfold State.takeDeny
  split
  · rename_i o bd ho hbd
    rcases h with h | h | h
    · rw [h] at ho; cases ho
    · rw [h] at hbd; cases hbd
    · exact if_pos h
  · rfl

section
variable {o : AttemptOutcome} {bd : Band} (ho : denyReasonOfCode reason = some o) (hbd : bandOfCode band = some bd)
  (hsource : source = group / 16)
include ho hbd hsource

theorem State.takeDeny_of_awaited {b : CallBase} (hawait : (s.viewDeny group bd).awaiting ref serial group = some b) :
    s.takeDeny source serial ref group reason band = (s.viewDeny group bd).crankback ref b o := by
  simp only [State.takeDeny, ho, hbd, if_neg (not_not_intro hsource), hawait]

theorem State.takeDeny_of_unawaited (hawait : (s.viewDeny group bd).awaiting ref serial group = none) :
    s.takeDeny source serial ref group reason band = s.viewDeny group bd := by
  simp only [State.takeDeny, ho, hbd, if_neg (not_not_intro hsource), hawait]

end

theorem State.viewDeny_eq (s : State) (group : Nat) (bd : Band) : s.viewDeny group bd =
    { s with
      views := if group / 16 = s.address then s.views else Tab.put s.views group
        { stale := false, band := bd, floor := (Tab.find s.views group).bind (·.floor), heard := s.clock } } := by
  unfold State.viewDeny
  split <;> rfl

end

theorem denyReason_of_code {o : AttemptOutcome} (h : o.code ≤ 5) : denyReasonOfCode o.code = some o := by
  cases o with
  | notOwner | closed | full | admission | noSlot => rfl
  | noAnswer | busFull | peerAbsent | seizeFailed => exact absurd h (by decide)

theorem denyReasonOfCode_eq_none {reason : Nat} (h : ¬ (1 ≤ reason ∧ reason ≤ 5)) : denyReasonOfCode reason = none := by
  have hout : reason = 0 ∨ 6 ≤ reason := by omega
  obtain rfl | ⟨n, rfl⟩ := hout.imp_right fun h => Nat.exists_eq_add_of_le' h
  · rfl
  · rfl

/-- The bands a HOLD-GIVE may carry have a code below 4 (R109). -/
theorem bandOfCode_of_lt {band : Nat} (h : band < 4) : ∃ bd, bandOfCode band = some bd := by
  interval_cases band
  · exact ⟨.green, rfl⟩
  · exact ⟨.amber, rfl⟩
  · exact ⟨.red, rfl⟩
  · exact ⟨.grace, rfl⟩

/-! ### The commands -/

section
variable {s : State} {source dest serial ref group : Nat} {rest : List RxFrame}

theorem exec_holdGive_of_takes {slot gen circuit terminal carrier band : Nat}
    (h : s.takes source dest (.holdGive serial ref group slot gen circuit terminal carrier band) rest) :
    exec .holdGive s = .next (({ s with rx := rest } : State).takeGive source serial ref group slot gen circuit terminal
      carrier band) :=
  congrArg Host.Outcome.next (State.takeFrame_of_takes
    (k := fun s => s.takeGive source serial ref group slot gen circuit terminal carrier band) h rfl)

theorem exec_holdDeny_of_takes {reason band : Nat}
    (h : s.takes source dest (.holdDeny serial ref group reason band) rest) :
    exec .holdDeny s = .next (({ s with rx := rest } : State).takeDeny source serial ref group reason band) :=
  congrArg Host.Outcome.next (State.takeFrame_of_takes
    (k := fun s => s.takeDeny source serial ref group reason band) h rfl)

end

theorem exec_answerTimeout_of_awaiting {s : State} {r : Nat} {rec : CallRecord} {ser : BitVec 16} {deadline : Clock}
    (hfind : Tab.find s.calls r = some rec) (hphase : rec.phase = .awaitHold ser deadline) :
    exec (.answerTimeout r) s = .next (if s.running && reached s.clock deadline then
      (s.bump .noAnswerTimeouts).crankback r rec.base .noAnswer else s) := by
  refine congrArg Host.Outcome.next ?_
  simp only [hfind, hphase]

/-- Settles O42: the answers that a record in AWAIT_HOLD takes, and what becomes of the others. -/
theorem holdAnswersTaken : Obligations.HoldAnswersTaken := by
  refine ⟨?give, ?deny, fun s r => ⟨fun rec ser deadline hfind hphase => ?timeout, fun hother => ?other⟩⟩
  case give =>
    intro s source dest serial ref group slot gen circuit terminal carrier band rest htakes good
    have hexec := exec_holdGive_of_takes htakes
    have hrun : ({ s with rx := rest } : State).running = true := htakes.1
    refine ⟨fun hbad => hexec.trans (congrArg Host.Outcome.next (State.takeGive_of_bad (decide_eq_false hbad))),
      fun hgood => ?_⟩
    have hrange : giveInRange ref group slot gen circuit terminal carrier band = true := decide_eq_true hgood
    refine ⟨fun rec ser deadline bd hsource hfind hphase hser hgroup hband => ?_, fun hlate => ?_⟩
    · exact hexec.trans (congrArg Host.Outcome.next (State.takeGive_of_awaited (s := { s with rx := rest }) hrange
        (hband ▸ bandOfCode_code bd) hsource (State.awaiting_of_match hfind hphase hser hgroup)))
    · obtain ⟨bd, hbd⟩ := bandOfCode_of_lt hgood.2.2.2.2.2.2.2
      exact ⟨_, State.offered_send hrun _ _, hexec.trans (congrArg Host.Outcome.next
        (State.takeGive_of_late (s := { s with rx := rest }) hrange hbd (hlate.imp_right State.awaiting_of_none)))⟩
  case deny =>
    intro s source dest serial ref group reason band rest htakes
    have hexec := exec_holdDeny_of_takes htakes
    refine ⟨fun hbad => hexec.trans (congrArg Host.Outcome.next (State.takeDeny_of_code ?_)),
      fun o bd ho hreason hbd hsource => ?_⟩
    · by_cases hr : 1 ≤ reason ∧ reason ≤ 5
      · by_cases hb : band ≤ 5
        · exact .inr (.inr fun hs => hbad ⟨hr, hb, hs⟩)
        · exact .inr (.inl ((bandOfCode_eq_none_iff).2 (by omega)))
      · exact .inl (denyReasonOfCode_eq_none hr)
    · intro v
      subst ho hbd
      have hview : ({ s with rx := rest } : State).viewDeny group bd = v := State.viewDeny_eq _ _ _
      have hcode := denyReason_of_code hreason
      refine ⟨fun rec ser deadline hfind hphase hser hgroup => ?_, fun hnone => ?_⟩
      · have hawait := State.awaiting_of_match (s := v) hfind hphase hser hgroup
        rw [← hview] at hawait
        rw [hexec, State.takeDeny_of_awaited hcode (bandOfCode_code bd) hsource hawait, hview]
      · have hawait := State.awaiting_of_none (s := v) hnone
        rw [← hview] at hawait
        rw [hexec, State.takeDeny_of_unawaited hcode (bandOfCode_code bd) hsource hawait, hview]
  case timeout =>
    have hexec := exec_answerTimeout_of_awaiting hfind hphase
    refine ⟨fun hrun hdue => ?_, fun hnot => ?_⟩
    · rw [hexec, hrun, hdue]; rfl
    · rw [hexec, Bool.and_eq_false_iff.2 hnot]; rfl
  case other =>
    refine congrArg Host.Outcome.next ?_
    split
    · rfl
    · rename_i rec hfind
      split
      · rename_i ser deadline hphase
        exact absurd (by rw [hphase]; rfl) (hother rec hfind)
      · rfl

end Sys2Proof.Machine
end

section
/-! Settles O43 to O45: the drop at a call's end (R68, R74, R121), the seizure reports (R115 to R118) and the expiry of
an offer (R119). -/

namespace Sys2Proof

/-- A second write of a key takes the place of the first. -/
theorem Tab.put_put {α : Type} (t : Tab α) (k : Nat) (v w : α) : Tab.put (Tab.put t k v) k w = Tab.put t k w := by
  induction t with
  | nil => simp [Tab.put]
  | cons p t ih =>
    obtain ⟨j, x⟩ := p
    rcases Nat.lt_trichotomy k j with h | rfl | h
    · simp [Tab.put, h]
    · simp [Tab.put]
    · have hlt : ¬ k < j := by omega
      have hne : j ≠ k := by omega
      simp only [Tab.put, hlt, hne, if_false, ih]

namespace Machine

/-! ## The drop at a call's end (R121) -/

section
variable {s : State} {rec : CallRecord} {gr : Grant}

theorem State.endDrop_of_none (hdisputed : rec.disputed = true) (hretaken : rec.retaken = false) :
    s.endDrop rec gr = s := by
  simp [State.endDrop, hdisputed, hretaken]

section
variable (h : rec.disputed = false ∨ rec.retaken = true)
include h

theorem State.endDrop_of_remote (hremote : rec.group / 16 ≠ s.address) :
    s.endDrop rec gr = s.send (rec.group / 16) (.holdDrop 1 gr.slot gr.generation rec.group gr.circuit) := by
  rcases h with h | h <;> simp [State.endDrop, h, hremote]

theorem State.endDrop_of_own (hown : rec.group / 16 = s.address) :
    s.endDrop rec gr = (s.dropHold s.address (some (gr.slot, gr.generation)) rec.group gr.circuit).1 := by
  rcases h with h | h <;> simp [State.endDrop, h, hown]

end
end

/-- A drop by a station that is not the circuit's user is stale. -/
theorem State.dropHold_of_otherUser {s : State} {sender group c : Nat} (id : Option (Nat × Nat))
    (h : ∀ li g x, s.ownCircuit group c = some (li, g, x) → x.user ≠ some sender) :
    s.dropHold sender id group c = (s.bump .staleDrops, false) := by
  cases hown : s.ownCircuit group c with
  | none => exact State.dropHold_of_noCircuit id hown
  | some p =>
    obtain ⟨li, g, x⟩ := p
    have huser := h li g x hown
    cases x with
    | idle t => exact State.dropHold_of_notInUse hown rfl id
    | blocked t => exact State.dropHold_of_notInUse hown rfl id
    | faulty => exact State.dropHold_of_notInUse hown rfl id
    | held t u k bp fr => exact (State.dropHold_held hown id).2 fun ⟨hu, _⟩ => huser (congrArg some hu)
    | busy t u bp fr => exact (State.dropHold_busy hown id).2 fun ⟨hu, _⟩ => huser (congrArg some hu)

/-- Settles O43, by the record and the state of its circuit. -/
theorem endOfUse : Obligations.EndOfUse := by
  intro s rec gr hrun
  refine ⟨State.endDrop_of_none, fun hdrops => ⟨fun hremote => ?_, fun hown => ?_⟩⟩
  · rw [State.endDrop_of_remote hdrops hremote]
    exact State.offered_send hrun _ _
  rw [State.endDrop_of_own hdrops hown]
  have hmatches := State.dropMatches_some (s := s) (sender := s.address) (slot := gr.slot) (gen := gr.generation)
    (group := rec.group) (c := gr.circuit)
  refine ⟨fun li g t k bp fr hcircuit hmatch hslot => ?_, fun li g t bp fr hcircuit hmatch => ?_,
    fun li g t k bp fr hcircuit hmatch => ?_, fun li g t bp fr hcircuit hmatch => ?_, fun hother => ?_⟩
  · rw [(State.dropHold_held hcircuit _).1 ⟨rfl, .inr ⟨hmatches.2 hmatch, congrArg some hslot⟩⟩]
  · rw [(State.dropHold_busy hcircuit _).1 ⟨rfl, fun h => hmatch (hmatches.1 h)⟩]
  · rw [(State.dropHold_held hcircuit _).2]
    · rfl
    · rintro ⟨-, hnone | ⟨hm, hslot⟩⟩
      · cases hnone
      · exact hmatch ⟨hmatches.1 hm, Option.some.inj hslot⟩
  · rw [(State.dropHold_busy hcircuit _).2 fun ⟨_, h⟩ => h (hmatches.2 hmatch)]
    rfl
  · rw [State.dropHold_of_otherUser _ hother]
    rfl

/-! ## The match of a SEIZE-DONE (R115) -/

section
variable {s : State} {source dest tag attempt outcome : Nat} {rest : List RxFrame} {want : Nat}
  {act : State → Nat → CallRecord → Option State}
  (h : s.takes source dest (.seizeDone tag attempt outcome) rest)
include h

theorem State.seizeFrame_of_matched (hwant : outcome = want) {r : Nat} {rec : CallRecord}
    (hkey : s.recordOfKey source tag = some (r, rec)) (hattempt : rec.base.attempts = attempt) :
    s.seizeFrame want act =
      (act { s with rx := rest } r rec).getD (({ s with rx := rest } : State).bump .staleDrops) := by
  have hkey' : ({ s with rx := rest } : State).recordOfKey source tag = some (r, rec) := hkey
  refine (State.takeFrame_of_takes h (if_pos hwant)).trans ?_
  simp only [hkey', hattempt, if_true]

theorem State.seizeFrame_of_unmatched (hwant : outcome = want)
    (hkey : ∀ r rec, s.recordOfKey source tag = some (r, rec) → rec.base.attempts ≠ attempt) :
    s.seizeFrame want act = ({ s with rx := rest } : State).bump .staleDrops := by
  refine (State.takeFrame_of_takes h (if_pos hwant)).trans ?_
  dsimp only
  split
  · rename_i r rec hkey'
    exact if_neg (hkey r rec hkey')
  · rfl

theorem State.seizeFrame_of_unknown (hwant : outcome ≠ want) (hunknown : knownOutcome outcome = false) :
    s.seizeFrame want act = ({ s with rx := rest } : State).bump .staleDrops :=
  State.takeFrame_of_takes (k := fun s => s.bump .staleDrops) h
    ((if_neg hwant).trans (if_neg (by rw [hunknown]; exact Bool.false_ne_true)))

/-- A report of a known outcome that is another command's does not concern this one; any other that no record matches
is stale (R115; assumption 11). -/
theorem State.seizeFrame_of_stale (hwant : 1 ≤ want ∧ want ≤ 4)
    (hstale : (∀ r rec, s.recordOfKey source tag = some (r, rec) → rec.base.attempts ≠ attempt) ∨ outcome = 0 ∨
      4 < outcome) (hmine : outcome = want ∨ outcome = 0 ∨ 4 < outcome) :
    s.seizeFrame want act = ({ s with rx := rest } : State).bump .staleDrops := by
  rcases hmine with hmine | hmine
  · rcases hstale with hkey | hout
    · exact State.seizeFrame_of_unmatched h hmine hkey
    · omega
  · exact State.seizeFrame_of_unknown h (by omega) (decide_eq_false (by omega))

end

/-! ## SEIZED and ANSWERED (R116, R117) -/

/-- A take that finds no circuit to take changes nothing. -/
theorem State.takeHold_lost {s u : State} {sender slot gen group c : Nat}
    (h : s.takeHold sender slot gen group c = (u, false)) : u = s := by
  unfold State.takeHold at h
  split at h
  · exact (Prod.mk.inj h).1.symm
  · split at h
    · split at h
      · split at h
        · exact absurd (Prod.mk.inj h).2 (by decide)
        · exact (Prod.mk.inj h).1.symm
      · exact (Prod.mk.inj h).1.symm
    · split at h
      · exact absurd (Prod.mk.inj h).2 (by decide)
      · exact (Prod.mk.inj h).1.symm

theorem State.markRecord_of_find {s : State} {r : Nat} {rec : CallRecord} (h : Tab.find s.calls r = some rec) :
    s.markRecord r = if rec.disputed then s else
      { s with calls := Tab.put s.calls r { rec with disputed := true }, counters := s.counters.bump .disputed } := by
  simp only [State.markRecord, h]
  rfl

/-- The counters after a record has been marked disputed (R121). -/
def Counters.marked (k : Counters) (disputed : Bool) : Counters := if disputed then k else k.bump .disputed

/-- A record written and then marked is disputed, and counted where it was not before. -/
theorem State.markRecord_putRecord (s : State) (r : Nat) (rec : CallRecord) :
    (s.putRecord r rec).markRecord r =
      { s with
        calls := Tab.put s.calls r { rec with disputed := true }
        counters := s.counters.marked rec.disputed } := by
  rw [State.markRecord_of_find (Tab.find_put_self ..), Counters.marked]
  cases hd : rec.disputed with
  | true =>
    have hrec : rec = { rec with disputed := true } := by rw [← hd]
    rw [← hrec]
    rfl
  | false =>
    simp only [State.putRecord, Tab.put_put]
    rfl

/-- A RINGING record that is connected is written again, with the commit time (R117). -/
theorem State.connect_of_ringing {s : State} {r : Nat} {rec : CallRecord} {gr : Grant}
    (hfind : Tab.find s.calls r = some rec) (hphase : rec.phase = .ringing gr) :
    s.connect r = s.putRecord r { rec with phase := .connected gr s.clock } := by
  simp only [State.connect, hfind, hphase]

/-- What a seizure makes of the record: RINGING in the station state `t`, as the record `next`. -/
def State.SeizesAs (s : State) (r : Nat) (rec : CallRecord) (gr : Grant) (t : State) (next : CallRecord) : Prop :=
  s.seize r rec gr = t.putRecord r { next with phase := .ringing gr }

section
variable {s : State} {r : Nat} {rec : CallRecord} {gr : Grant}

theorem State.seize_of_sent (hrun : s.running = true) (hremote : rec.group / 16 ≠ s.address)
    (hroom : s.tx.length < Config.txCapacity) : s.SeizesAs r rec gr
      { s with tx := s.tx ++ [waiting (rec.group / 16) (.holdTake gr.slot gr.generation rec.group gr.circuit)] }
          rec := by
  simp only [State.SeizesAs, State.seize, if_neg hremote, State.offer, hrun, if_true, if_pos hroom]
  rfl

theorem State.seize_of_refused (hrun : s.running = true) (hremote : rec.group / 16 ≠ s.address)
    (hfull : Config.txCapacity ≤ s.tx.length) : s.SeizesAs r rec gr
      { s with counters := (s.counters.bump .txDrop).marked rec.disputed } { rec with disputed := true } := by
  simp only [State.SeizesAs, State.seize, if_neg hremote, State.offer, hrun, if_true, if_neg (Nat.not_lt.2 hfull)]
  exact State.markRecord_putRecord _ _ _

variable (hown : rec.group / 16 = s.address) {u : State}
include hown

theorem State.seize_of_taken (h : s.takeHold s.address gr.slot gr.generation rec.group gr.circuit = (u, true)) :
    s.SeizesAs r rec gr u { rec with retaken := rec.disputed } := by
  simp only [State.SeizesAs, State.seize, if_pos hown, h]

theorem State.seize_of_lost (h : s.takeHold s.address gr.slot gr.generation rec.group gr.circuit = (u, false)) :
    s.SeizesAs r rec gr { s with counters := s.counters.marked rec.disputed } { rec with disputed := true } := by
  simp only [State.SeizesAs, State.seize, if_pos hown, h, State.takeHold_lost h]
  exact State.markRecord_putRecord _ _ _

end

section
variable {s : State} {source dest tag attempt outcome r : Nat} {rec : CallRecord} {rest : List RxFrame}
  (h : s.takes source dest (.seizeDone tag attempt outcome) rest) (hkey : s.recordOfKey source tag = some (r, rec))
  (hattempt : rec.base.attempts = attempt)
include h hkey hattempt

/-- SEIZED and ANSWERED of a record in OFFERED, from what its seizure makes of it (R116, R117). -/
theorem exec_seized_answered_of_offered {gr : Grant} {deadline : Clock} (hphase : rec.phase = .offered gr deadline)
    {t : State} {next : CallRecord} (hseize : ({ s with rx := rest } : State).SeizesAs r rec gr t next)
    (hclock : t.clock = s.clock) :
    (outcome = 1 → exec .seized s = .next { t with calls := Tab.put t.calls r { next with phase := .ringing gr } }) ∧
    (outcome = 2 → exec .answered s =
      .next { t with calls := Tab.put t.calls r { next with phase := .connected gr s.clock } }) := by
  refine ⟨fun hout => congrArg Host.Outcome.next ?_, fun hout => congrArg Host.Outcome.next ?_⟩
  · rw [State.seizeFrame_of_matched h hout hkey hattempt]
    simp only [hphase, Option.getD_some]
    exact hseize
  · rw [State.seizeFrame_of_matched h hout hkey hattempt]
    simp only [hphase, Option.getD_some]
    rw [show ({ s with rx := rest } : State).seize r rec gr = _ from hseize,
      State.connect_of_ringing (Tab.find_put_self ..) rfl]
    simp only [State.putRecord, Tab.put_put, hclock]

end

/-- Settles O44, by the record's phase and the outcome of its seizure. -/
theorem seizureReported : Obligations.SeizureReported := by
  intro s source dest tag attempt outcome r rec rest htables htakes hkey hattempt stale marked
  have hrun : ({ s with rx := rest } : State).running = true := htakes.1
  have hmarked : ∀ k : Counters, marked k = k.marked rec.disputed := fun k => rfl
  have hoffered := @exec_seized_answered_of_offered s source dest tag attempt outcome r rec rest htakes hkey hattempt
  refine ⟨fun gr deadline hphase => ?_, fun gr hphase => ?_, fun hother => ?_⟩
  · intro becomes
    have hbecomes : ∀ t next, ({ s with rx := rest } : State).SeizesAs r rec gr t next → t.clock = s.clock →
        t.calls = s.calls → becomes t next := fun t next hseize hclock hcalls => by
      have := hoffered hphase hseize hclock
      rwa [hcalls] at this
    refine ⟨fun hremote => ⟨fun hroom => ?_, fun hfull => ?_⟩, fun hown u => ⟨fun htaken => ?_, fun hlost => ?_⟩⟩
    · exact hbecomes _ _ (State.seize_of_sent hrun hremote hroom) rfl rfl
    · exact hbecomes _ _ (State.seize_of_refused hrun hremote hfull) rfl rfl
    · have hframe := (takeHold_edits { s with rx := rest } s.address gr.slot gr.generation rec.group gr.circuit).frame
      rw [htaken] at hframe
      exact hbecomes _ _ (State.seize_of_taken (s := { s with rx := rest }) hown htaken) hframe.clock hframe.calls
    · exact hbecomes _ _ (State.seize_of_lost (s := { s with rx := rest }) hown hlost) rfl rfl
  · refine ⟨fun hout => congrArg Host.Outcome.next ?_, fun hout => congrArg Host.Outcome.next ?_⟩
    · rw [State.seizeFrame_of_matched htakes hout hkey hattempt]
      simp only [hphase, Option.getD_none]
      rfl
    · have hfind : Tab.find s.calls r = some rec := Tab.find_of_mem htables.2.2.2.2.1 (recordOfKey_some hkey).1
      rw [State.seizeFrame_of_matched htakes hout hkey hattempt]
      simp only [hphase, Option.getD_some]
      rw [State.connect_of_ringing (s := { s with rx := rest }) hfind hphase]
      rfl
  · refine ⟨fun hout => congrArg Host.Outcome.next ?_, fun hout => congrArg Host.Outcome.next ?_⟩
    all_goals
      rw [State.seizeFrame_of_matched htakes hout hkey hattempt]
      rcases hother with hnone | ⟨gr, commit, hphase⟩
      · cases hphase : rec.phase with
        | awaitHold ser deadline => rfl
        | offered gr deadline => rw [hphase] at hnone; cases hnone
        | ringing gr => rw [hphase] at hnone; cases hnone
        | connected gr commit => rw [hphase] at hnone; cases hnone
      · simp only [hphase, Option.getD_none]
        rfl

/-! ## SEIZE_FAILED, ABANDONED and expired offers (R118, R119) -/

theorem State.reportFault_of_remote {s : State} {rec : CallRecord} {gr : Grant} (h : rec.group / 16 ≠ s.address) :
    s.reportFault rec gr = s.send (rec.group / 16) (.holdFault gr.slot gr.generation rec.group gr.circuit) := if_neg h

theorem State.reportFault_of_own {s : State} {rec : CallRecord} {gr : Grant} (h : rec.group / 16 = s.address) :
    s.reportFault rec gr = s.faultHold s.address gr.slot gr.generation rec.group gr.circuit := if_pos h

theorem exec_offerTimeout_of_offered {s : State} {r : Nat} {rec : CallRecord} {gr : Grant} {deadline : Clock}
    (hfind : Tab.find s.calls r = some rec) (hphase : rec.phase = .offered gr deadline) :
    exec (.offerTimeout r) s = .next (if s.running && reached s.clock deadline then
      (((s.endDrop rec gr).send rec.base.client
        (.routeFail rec.base.tag .offerExpired rec.base.attempts rec.base.last)).bump .routeFails).freeRecord r
      else s) := by
  refine congrArg Host.Outcome.next ?_
  simp only [hfind, hphase]

theorem exec_offerTimeout_of_other {s : State} {r : Nat}
    (h : ∀ rec gr deadline, Tab.find s.calls r = some rec → rec.phase ≠ .offered gr deadline) :
    exec (.offerTimeout r) s = .next s := by
  refine congrArg Host.Outcome.next ?_
  split
  · rfl
  · rename_i rec hfind
    split
    · rename_i gr deadline hphase
      exact absurd hphase (h rec gr deadline hfind)
    · rfl

section
variable {s : State} {source dest tag attempt outcome r : Nat} {rec : CallRecord} {rest : List RxFrame}
  (h : s.takes source dest (.seizeDone tag attempt outcome) rest) (hkey : s.recordOfKey source tag = some (r, rec))
  (hattempt : rec.base.attempts = attempt)
include h hkey hattempt

theorem exec_seizeFailed_of_offered {gr : Grant} {deadline : Clock} (hphase : rec.phase = .offered gr deadline)
    (hout : outcome = 3) : exec .seizeFailed s =
      .next ((({ s with rx := rest } : State).reportFault rec gr).crankback r rec.base .seizeFailed) := by
  refine congrArg Host.Outcome.next ((State.seizeFrame_of_matched h hout hkey hattempt).trans ?_)
  simp only [hphase, Option.getD_some]

theorem exec_seizeFailed_of_other (hphase : ∀ gr deadline, rec.phase ≠ .offered gr deadline) (hout : outcome = 3) :
    exec .seizeFailed s = .next (({ s with rx := rest } : State).bump .staleDrops) := by
  refine congrArg Host.Outcome.next ((State.seizeFrame_of_matched h hout hkey hattempt).trans ?_)
  split
  · exact absurd ‹_› (hphase _ _)
  · rfl

/-- ABANDONED in OFFERED and in RINGING: the circuit's use ends and the record is freed (R118). -/
theorem exec_abandoned_of_granted {gr : Grant}
    (hphase : (∃ deadline, rec.phase = .offered gr deadline) ∨ rec.phase = .ringing gr) (hout : outcome = 4) :
    ∃ u, u = ({ s with rx := rest } : State).endDrop rec gr ∧
      exec .abandoned s = .next { u with calls := Tab.del s.calls r } := by
  refine ⟨_, rfl, congrArg Host.Outcome.next ((State.seizeFrame_of_matched h hout hkey hattempt).trans ?_)⟩
  have hcalls := (endDrop_edits { s with rx := rest } rec gr).frame.calls
  rcases hphase with ⟨deadline, hphase⟩ | hphase <;> simp only [hphase, Option.getD_some] <;>
    rw [State.freeRecord, hcalls]

theorem exec_abandoned_of_other (hphase : rec.phase.grant = none ∨ ∃ gr commit, rec.phase = .connected gr commit)
    (hout : outcome = 4) : exec .abandoned s = .next (({ s with rx := rest } : State).bump .staleDrops) := by
  refine congrArg Host.Outcome.next ((State.seizeFrame_of_matched h hout hkey hattempt).trans ?_)
  rcases hphase with hnone | ⟨gr, commit, hphase⟩
  · split
    · rename_i gr deadline hoffered; rw [hoffered] at hnone; cases hnone
    · rename_i gr hringing; rw [hringing] at hnone; cases hnone
    · rfl
  · simp only [hphase, Option.getD_none]

end

/-- Settles O45, by the command, the outcome and the record's phase. -/
theorem attemptEnds : Obligations.AttemptEnds := by
  refine ⟨?reports, fun s r => ⟨fun rec gr deadline hfind hphase => ?timeout, exec_offerTimeout_of_other⟩⟩
  case reports =>
    intro s source dest tag attempt outcome rest htakes b stale
    have hrun : b.running = true := htakes.1
    refine ⟨fun hstale => ⟨fun hother => ?_, fun hother => ?_, fun hother => ?_, fun hother => ?_⟩,
      fun r rec hkey hattempt => ⟨fun gr deadline hphase => ⟨fun hout hremote => ?_, fun hout hown => ?_,
        exec_abandoned_of_granted htakes hkey hattempt (.inl ⟨deadline, hphase⟩)⟩, fun gr hphase =>
          ⟨exec_seizeFailed_of_other htakes hkey hattempt ?_,
            exec_abandoned_of_granted htakes hkey hattempt (.inr hphase)⟩,
        fun hphase => ⟨exec_seizeFailed_of_other htakes hkey hattempt ?_,
          exec_abandoned_of_other htakes hkey hattempt hphase⟩⟩⟩
    · exact congrArg Host.Outcome.next (State.seizeFrame_of_stale htakes (by omega) hstale (by omega))
    · exact congrArg Host.Outcome.next (State.seizeFrame_of_stale htakes (by omega) hstale (by omega))
    · exact congrArg Host.Outcome.next (State.seizeFrame_of_stale htakes (by omega) hstale (by omega))
    · exact congrArg Host.Outcome.next (State.seizeFrame_of_stale htakes (by omega) hstale (by omega))
    · refine ⟨_, State.offered_send hrun _ _, (exec_seizeFailed_of_offered htakes hkey hattempt hphase hout).trans ?_⟩
      rw [State.reportFault_of_remote (s := b) hremote]
    · rw [exec_seizeFailed_of_offered htakes hkey hattempt hphase hout, State.reportFault_of_own (s := b) hown]
      rfl
    · intro gr' deadline hoffered
      rw [hphase] at hoffered
      cases hoffered
    · intro gr' deadline hoffered
      rcases hphase with hnone | ⟨gr, commit, hconnected⟩
      · rw [hoffered] at hnone; cases hnone
      · rw [hconnected] at hoffered; cases hoffered
  case timeout =>
    have hexec := exec_offerTimeout_of_offered hfind hphase
    refine ⟨fun hrun hdue => ⟨_, State.offered_send ?_ _ _, ?_⟩, fun hnot => ?_⟩
    · exact (endDrop_edits s rec gr).frame.running.trans hrun
    · rw [hexec, hrun, hdue]
      have hdrop := (endDrop_edits s rec gr).frame
      exact congrArg (fun calls => Host.Outcome.next { ((s.endDrop rec gr).send rec.base.client
          (.routeFail rec.base.tag .offerExpired rec.base.attempts rec.base.last)).bump .routeFails with
            calls := Tab.del calls r })
        ((State.send_only (hdrop.running.trans hrun) _ _).calls.trans hdrop.calls)
    · rw [hexec, Bool.and_eq_false_iff.2 hnot]; rfl

end Machine
end Sys2Proof
end

section
/-! Settles O46 to O48: the disputed mark (R120, R121) and the clears of calls (R122 to R125, R136, R139). -/

namespace Sys2Proof

/-- A write in a canonical table changes the entry of its key and no other. -/
theorem Tab.put_append_cons {α : Type} {t t' : Tab α} {k : Nat} {v w : α} (hw : Tab.wf (t ++ (k, v) :: t')) :
    Tab.put (t ++ (k, v) :: t') k w = t ++ (k, w) :: t' := by
  induction t with
  | nil => simp [Tab.put]
  | cons p t ih =>
    obtain ⟨j, x⟩ := p
    obtain ⟨hlt, hw'⟩ := List.pairwise_cons.1 hw
    have hjk : j < k := hlt (k, v) (by simp)
    simp only [List.cons_append, Tab.put, if_neg (Nat.not_lt.2 hjk.le), if_neg hjk.ne, ih hw']

/-- A canonical table whose keys are all one has one entry. -/
theorem Tab.eq_singleton {α : Type} {t : Tab α} (hw : Tab.wf t) {p : Nat × α} (hp : p ∈ t) (h : ∀ q ∈ t, q.1 = p.1) :
    t = [p] := by
  match t with
  | [x] => rw [List.mem_singleton.1 hp]
  | x :: y :: l =>
    have hlt : x.1 < y.1 := (List.pairwise_cons.1 hw).1 y (by simp)
    rw [h x (by simp), h y (by simp)] at hlt
    exact absurd hlt (Nat.lt_irrefl _)

theorem Tab.eq_cons_cons {α : Type} {t : Tab α} {p q : Nat × α} (hp : p ∈ t) (hq : q ∈ t) (hne : p.1 ≠ q.1) :
    ∃ x y l, t = x :: y :: l := by
  match t with
  | [x] => exact absurd (by rw [List.mem_singleton.1 hp, List.mem_singleton.1 hq]) hne
  | x :: y :: l => exact ⟨x, y, l, rfl⟩

namespace Machine

/-! ## HOLD-LOST (R120) -/

theorem CallRecord.lostBy_iff (rec : CallRecord) (source slot gen group circuit : Nat) :
    rec.lostBy source slot gen group circuit = true ↔ ∃ gr, rec.phase.grant = some gr ∧
      (∀ deadline, rec.phase ≠ .offered gr deadline) ∧
      rec.group = group ∧ gr.circuit = circuit ∧ gr.slot = slot ∧ gr.generation = gen ∧ group / 16 = source := by
  unfold CallRecord.lostBy
  cases hphase : rec.phase with
  | awaitHold ser deadline => simp [Phase.grant]
  | offered gr deadline => simp [Phase.grant]
  | ringing gr => simpa [Phase.grant] using fun h _ _ _ => by rw [h]
  | connected gr commit => simpa [Phase.grant] using fun h _ _ _ => by rw [h]

section
variable {s : State} {source slot gen group circuit : Nat}

theorem State.takeLost_of_none (h : (s.calls.filter fun p => p.2.lostBy source slot gen group circuit) = []) :
    s.takeLost source slot gen group circuit = s := by
  simp only [State.takeLost, h]

theorem State.takeLost_of_one {p : Nat × CallRecord}
    (h : (s.calls.filter fun p => p.2.lostBy source slot gen group circuit) = [p]) :
    s.takeLost source slot gen group circuit = s.markRecord p.1 := by
  simp only [State.takeLost, h]

/-- Of several records that match, one is marked, and a draw is used up (assumption 9). -/
theorem State.takeLost_of_several {p q : Nat × CallRecord} {l : List (Nat × CallRecord)}
    (h : (s.calls.filter fun p => p.2.lostBy source slot gen group circuit) = p :: q :: l) :
    ∃ x ∈ p :: q :: l, s.takeLost source slot gen group circuit =
      ({ s with draws := s.draws + 1 } : State).markRecord x.1 := by
  have hlt : Config.lostPick s.draws % (p :: q :: l).length < (p :: q :: l).length :=
    Nat.mod_lt _ (by simp)
  refine ⟨(p :: q :: l)[Config.lostPick s.draws % (p :: q :: l).length], List.getElem_mem _, ?_⟩
  simp only [State.takeLost, h, List.getD_eq_getElem _ _ hlt]

end

theorem exec_holdLost_of_takes {s : State} {source dest slot gen group circuit : Nat} {rest : List RxFrame}
    (h : s.takes source dest (.holdLost slot gen group circuit) rest) :
    exec .holdLost s = .next (({ s with rx := rest } : State).takeLost source slot gen group circuit) :=
  congrArg Host.Outcome.next
    (State.takeFrame_of_takes (k := fun s => s.takeLost source slot gen group circuit) h rfl)

/-! ## The marking of every record that names a circuit (R121) -/

/-- What a release under a record makes of it. -/
def CallRecord.markedFor (rec : CallRecord) (group circuit : Nat) : CallRecord :=
  if rec.names group circuit then { rec with disputed := true, retaken := false } else rec

theorem CallRecord.names_eq (rec : CallRecord) (group circuit : Nat) : rec.names group circuit =
    (decide (rec.group = group) && (rec.phase.grant.any fun gr => decide (gr.circuit = circuit))) := by
  unfold CallRecord.names
  cases rec.phase.grant <;> simp

/-- The counter after a record that may have been disputed before is marked. -/
theorem Counters.bump_disputed (k : Counters) (n : Nat) :
    ({ k.bump .disputed with disputed := min ((k.bump .disputed).disputed + n) Config.counterMax } : Counters) =
      { k with disputed := min (k.disputed + (n + 1)) Config.counterMax } := by
  have hmin : min ((k.bump .disputed).disputed + n) Config.counterMax = min
      (k.disputed + (n + 1)) Config.counterMax := by
    show min (min (k.disputed + 1) Config.counterMax + n) Config.counterMax = _
    omega
  rw [hmin]
  rfl

/-- The marking of the records of a table's rest, with its first records marked already. -/
theorem State.mark_foldl (group circuit : Nat) (l : Tab CallRecord) : ∀ (s : State) (done : Tab CallRecord),
    s.calls = done ++ l → Tab.wf s.calls → s.counters.disputed ≤ Config.counterMax →
    l.foldl (fun s p => if p.2.names group circuit then s.markReleased p.1 else s) s =
      { s with
        calls := done ++ l.map fun p => (p.1, p.2.markedFor group circuit)
        counters := { s.counters with
          disputed := min (s.counters.disputed + l.countP fun p => p.2.names group circuit && !p.2.disputed)
            Config.counterMax } } := by
  induction l with
  | nil =>
    intro s done hcalls _ hmax
    have hmin : min (s.counters.disputed + 0) Config.counterMax = s.counters.disputed := min_eq_left hmax
    simp only [List.foldl_nil, List.map_nil, List.countP_nil, ← hcalls, hmin]
  | cons p l ih =>
    intro s done hcalls hw hmax
    obtain ⟨r, rec⟩ := p
    rw [List.foldl_cons, List.map_cons, List.append_cons]
    cases hnames : rec.names group circuit with
    | false =>
      have hsame : rec.markedFor group circuit = rec := by simp [CallRecord.markedFor, hnames]
      rw [if_neg Bool.false_ne_true, ih s (done ++ [(r, rec)]) (by rw [hcalls, List.append_cons]) hw hmax, hsame,
        List.countP_cons_of_neg (by simp [hnames])]
    | true =>
      have hmarked : rec.markedFor group circuit = { rec with disputed := true, retaken := false } := by
        simp [CallRecord.markedFor, hnames]
      rw [hcalls] at hw
      have hfind : Tab.find s.calls r = some rec := hcalls ▸ Tab.find_of_mem hw (by simp)
      have hput : Tab.put s.calls r { rec with disputed := true, retaken := false } =
          (done ++ [(r, rec.markedFor group circuit)]) ++ l := by
        rw [hcalls, Tab.put_append_cons hw, hmarked, List.append_cons]
      have hw' : Tab.wf (Tab.put s.calls r { rec with disputed := true, retaken := false }) :=
        Tab.wf_put (hcalls ▸ hw) _ _
      rw [if_pos rfl]
      cases hd : rec.disputed with
      | true =>
        have hstep : s.markReleased r = { s with calls := (done ++ [(r, rec.markedFor group circuit)]) ++ l } := by
          simp only [State.markReleased, hfind, hd, if_true, State.putRecord, hput]
        rw [hput] at hw'
        rw [hstep, ih { s with calls := _ } _ rfl hw' hmax, List.countP_cons_of_neg (by simp [hd])]
      | false =>
        have hstep : s.markReleased r =
            { s with
              calls := (done ++ [(r, rec.markedFor group circuit)]) ++ l, counters := s.counters.bump .disputed } := by
          simp only [State.markReleased, hfind, hd, State.putRecord, hput]
          rfl
        have hmax' : (s.counters.bump .disputed).disputed ≤ Config.counterMax := min_le_right _ _
        rw [hput] at hw'
        rw [hstep, ih { s with calls := _, counters := s.counters.bump .disputed } _ rfl hw' hmax',
            Counters.bump_disputed,
          List.countP_cons_of_pos (by simp [hd, hnames])]

theorem State.markCircuit_eq {s : State} (hw : Tab.wf s.calls) (hmax : s.counters.disputed ≤ Config.counterMax)
    (group circuit : Nat) : s.markCircuit group circuit = { s with
      calls := s.calls.map fun p => (p.1, p.2.markedFor group circuit)
      counters := { s.counters with
        disputed := min (s.counters.disputed + s.calls.countP fun p => p.2.names group circuit && !p.2.disputed)
          Config.counterMax } } :=
  State.mark_foldl group circuit s.calls s [] rfl hw hmax

/-- Settles O46, by how many records the HOLD-LOST matches. -/
theorem disputeMarks : Obligations.DisputeMarks := by
  refine ⟨?lost, fun s group circuit hw hmax => ?marking⟩
  case marking =>
    intro names
    have hnames : ∀ rec : CallRecord, names rec = rec.names group circuit := fun rec =>
      (rec.names_eq group circuit).symm
    simp only [hnames]
    exact State.markCircuit_eq hw hmax group circuit
  case lost =>
    intro s source dest slot gen group circuit rest htakes htables lost marking
    have hexec := exec_holdLost_of_takes htakes
    have hw : Tab.wf s.calls := htables.2.2.2.2.1
    have hlost : ∀ rec : CallRecord, rec.lostBy source slot gen group circuit = true ↔ lost rec := fun rec =>
      rec.lostBy_iff source slot gen group circuit
    set q : State := { s with rx := rest } with hq
    set matched := q.calls.filter fun p => p.2.lostBy source slot gen group circuit with hmatched
    have hmem : ∀ p, p ∈ matched ↔ p ∈ s.calls ∧ lost p.2 := fun p => by
      rw [hmatched, List.mem_filter, hlost]
    have hmark : ∀ p ∈ matched, q.markRecord p.1 = marking p.1 p.2 := fun p hp =>
      State.markRecord_of_find (s := q) (Tab.find_of_mem hw ((hmem p).1 hp).1)
    refine ⟨fun hnone => ?_, fun r rec hfind hrec hone => ?_, fun p hp p' hp' hne hlp hlp' => ?_⟩
    · rw [hexec, State.takeLost_of_none]
      exact List.eq_nil_iff_forall_not_mem.2 fun p hp => hnone p ((hmem p).1 hp).1 ((hmem p).1 hp).2
    · have hr : (r, rec) ∈ matched := (hmem _).2 ⟨Tab.mem_of_find hfind, hrec⟩
      have hsingle : matched = [(r, rec)] := Tab.eq_singleton (Tab.wf_filter hw _) hr fun p hp =>
        hone p ((hmem p).1 hp).1 ((hmem p).1 hp).2
      rw [hexec, State.takeLost_of_one hsingle]
      exact congrArg Host.Outcome.next (hmark _ hr)
    · obtain ⟨x, y, l, hm⟩ := Tab.eq_cons_cons ((hmem p).2 ⟨hp, hlp⟩) ((hmem p').2 ⟨hp', hlp'⟩) hne
      obtain ⟨z, hz, htake⟩ := State.takeLost_of_several hm
      have hzm := (hmem z).1 (hm ▸ hz)
      have hfind := Tab.find_of_mem hw hzm.1
      refine ⟨z.1, z.2, hfind, hzm.2, ?_⟩
      rw [hexec, htake, State.markRecord_of_find (s := { q with draws := s.draws + 1 }) hfind]
      refine congrArg Host.Outcome.next ?_
      show _ = { (if z.2.disputed = true then q else _) with draws := s.draws + 1 }
      split <;> rfl

end Machine
end Sys2Proof
end

section
/-! Settles O47 and O48: the clears of calls (R122 to R125, R136, R139 to R142). -/

namespace Sys2Proof.Machine

theorem exec_callClear_of_takes {s : State} {source dest tag group circuit : Nat} {rest : List RxFrame}
    (h : s.takes source dest (.callClear tag group circuit) rest) :
    exec .callClear s = .next (({ s with rx := rest } : State).takeClear source tag group circuit) :=
  congrArg Host.Outcome.next
    (State.takeFrame_of_takes (k := fun s => s.takeClear source tag group circuit) h rfl)

section
variable {s : State} {client tag group circuit : Nat}

theorem State.takeClear_of_badGroup (h : 511 < group) : s.takeClear client tag group circuit = s.bump .badFrame :=
  if_pos h

variable (h : group ≤ 511)
include h

theorem State.takeClear_of_connected {r : Nat} {rec : CallRecord} {gr : Grant} {commit : Clock}
    (hkey : s.recordOfKey client tag = some (r, rec)) (hphase : rec.phase = .connected gr commit) :
    s.takeClear client tag group circuit = s.clearConnected r rec gr commit := by
  rw [State.takeClear, if_neg (Nat.not_lt.2 h)]
  simp only [hkey, hphase]

theorem State.takeClear_of_unanswered {r : Nat} {rec : CallRecord} (hkey : s.recordOfKey client tag = some (r, rec))
    (hphase : ∀ gr commit, rec.phase ≠ .connected gr commit) :
    s.takeClear client tag group circuit = s.clearUnanswered r rec := by
  rw [State.takeClear, if_neg (Nat.not_lt.2 h)]
  cases hp : rec.phase with
  | connected gr commit => exact absurd hp (hphase gr commit)
  | _ => simp only [hkey, hp]

theorem State.takeClear_of_orphan (hkey : s.recordOfKey client tag = none) :
    s.takeClear client tag group circuit = s.clearOrphan client tag group circuit := by
  rw [State.takeClear, if_neg (Nat.not_lt.2 h)]
  simp only [hkey]

end

/-! ## The clear of a connected call -/

/-- The charge pipeline of a clear, stage by stage (R136, R139 to R142). -/
theorem State.posting_stages (s : State) (rec : CallRecord) (gr : Grant) (commit : Clock) : ∃ d c t,
    d = min (((s.clock - commit).toNat + 999) / 1000) 65535 ∧ (gr.rating = none → c = 0 ∧ t = 0) ∧
    (∀ sn, gr.rating = some sn → c = ((sn.setup + (d * sn.rate + 128) / 256) * sn.mult + 2048) / 4096 ∧
      t = (c * s.config.transitFraction + 32768) / 65536) ∧
    s.posting rec gr commit =
      { seconds := d, charge := c, transit := t, disputed := rec.disputed, unrated := gr.rating.isNone } := by
  unfold State.posting
  cases gr.rating with
  | none => exact ⟨_, 0, 0, rfl, fun _ => ⟨rfl, rfl⟩, fun sn h => (nomatch h), rfl⟩
  | some sn =>
    exact ⟨_, _, _, rfl, fun h => (nomatch h), fun sn' h => by cases h; exact ⟨rfl, rfl⟩, rfl⟩

theorem clearFlags_connected (gr : Grant) (disputed : Bool) : clearFlags gr.rating.isNone disputed false false =
    (if gr.rating = none then 1 else 0) + (if disputed then 2 else 0) := by
  cases gr.rating <;> cases disputed <;> rfl

theorem State.post_frame (s : State) (o w : Nat) (p : Posting) :
    (s.post o w p).calls = s.calls ∧ (s.post o w p).running = s.running := by
  rw [State.post_eq]
  exact ⟨rfl, rfl⟩

/-- A frame sent after the end of a circuit's use, and the record freed. -/
theorem State.freed_after_endDrop {s : State} (hrun : s.running = true) (rec : CallRecord) (gr : Grant) (r dest : Nat)
    (m : Msg) : ((s.endDrop rec gr).send dest m).freeRecord r =
      { (s.endDrop rec gr).send dest m with calls := Tab.del s.calls r } := by
  have hdrop := (endDrop_edits s rec gr).frame
  rw [State.freeRecord, (State.send_only (hdrop.running.trans hrun) dest m).calls, hdrop.calls]

/-- Settles O47: what the clear posts is the pipeline's, and the drop, the answer and the freed record follow. -/
theorem clearConnected : Obligations.ClearConnected := by
  intro s source dest tag group circuit r rec gr commit rest htakes hgroup hkey hphase
  set b : State := { s with rx := rest } with hb
  obtain ⟨d, c, t, hd, hunrated, hrated, hposting⟩ := b.posting_stages rec gr commit
  set p := b.posting rec gr commit with hp
  set u := b.post rec.base.origin gr.carrier p with hu
  obtain ⟨hcalls, hrunu⟩ := b.post_frame rec.base.origin gr.carrier p
  have hrun : u.running = true := hrunu.trans htakes.1
  have hdrop : (u.endDrop rec gr).running = true := (endDrop_edits u rec gr).frame.running.trans hrun
  refine ⟨d, c, t, (u.endDrop rec gr).send rec.base.client (.clearDone rec.base.tag c t d
    ((if gr.rating = none then 1 else 0) + (if rec.disputed then 2 else 0))), hd, hunrated, hrated, ?_, ?_⟩
  · rw [← hposting]
    exact State.offered_send hdrop _ _
  · rw [exec_callClear_of_takes htakes, State.takeClear_of_connected hgroup (s := b) hkey hphase, State.clearConnected,
      State.freed_after_endDrop hrun, hcalls]
    refine congrArg (fun m => Host.Outcome.next
      { (u.endDrop rec gr).send rec.base.client m with calls := Tab.del s.calls r }) ?_
    rw [← hp, hposting, ← clearFlags_connected]

/-! ## Unanswered and orphan clears -/

/-- The state in which an unanswered clear is answered: a granted circuit's use has ended (R123). -/
def State.endGranted (s : State) (rec : CallRecord) : State :=
  match rec.phase.grant with
  | some gr => s.endDrop rec gr
  | none => s

theorem State.endGranted_of_grant (s : State) {rec : CallRecord} {gr : Grant} (h : rec.phase.grant = some gr) :
    s.endGranted rec = s.endDrop rec gr := by
  simp only [State.endGranted, h]

theorem State.endGranted_of_none (s : State) {rec : CallRecord} (h : rec.phase.grant = none) :
    s.endGranted rec = s := by
  simp only [State.endGranted, h]

theorem State.endGranted_frame (s : State) (rec : CallRecord) :
    (s.endGranted rec).running = s.running ∧ (s.endGranted rec).calls = s.calls := by
  cases hgrant : rec.phase.grant with
  | none => rw [s.endGranted_of_none hgrant]; exact ⟨rfl, rfl⟩
  | some gr =>
    rw [s.endGranted_of_grant hgrant]
    exact ⟨(endDrop_edits s rec gr).frame.running, (endDrop_edits s rec gr).frame.calls⟩

theorem State.clearUnanswered_eq (s : State) (r : Nat) (rec : CallRecord) : s.clearUnanswered r rec =
    ((s.endGranted rec).send rec.base.client
      (.clearDone rec.base.tag 0 0 0 (clearFlags false rec.disputed true false))).freeRecord r := rfl

theorem CallFrame.running {s t : State} (h : CallFrame s t) : t.running = s.running := by rw [h.eq]; rfl

/-- The use of the circuit that an orphan clear names, ended here or at its owner (R124). -/
def State.endOrphan (s : State) (group circuit : Nat) : State :=
  if group / 16 = s.address then
    match s.dropHold s.address none group circuit with
    | (s, true) => s.markCircuit group circuit
    | (s, false) => s
  else s.send (group / 16) (.holdDrop 0 0 0 group circuit)

theorem State.clearOrphan_eq (s : State) (client tag group circuit : Nat) : s.clearOrphan client tag group circuit =
    ((s.bump .orphanClears).endOrphan group circuit).send client
      (.clearDone tag 0 0 0 (clearFlags false false false true)) := rfl

theorem State.endOrphan_running (s : State) (group circuit : Nat) :
    (s.endOrphan group circuit).running = s.running := by
  unfold State.endOrphan
  split
  · have hdrop := (dropHold_edits s s.address none group circuit).frame.running
    split
    · rename_i u hu
      rw [hu] at hdrop
      exact (markCircuit_callFrame u group circuit).running.trans hdrop
    · rename_i u hu
      rw [hu] at hdrop
      exact hdrop
  · exact (send_edits s _ _).frame.running

section
variable {s : State} {group circuit : Nat} (hown : group / 16 = s.address)
include hown

theorem State.endOrphan_of_released {u : State} (h : s.dropHold s.address none group circuit = (u, true)) :
    s.endOrphan group circuit = u.markCircuit group circuit := by
  rw [State.endOrphan, if_pos hown, h]

theorem State.endOrphan_of_stale {u : State} (h : s.dropHold s.address none group circuit = (u, false)) :
    s.endOrphan group circuit = u := by
  rw [State.endOrphan, if_pos hown, h]

end

/-- Settles O48, by the record that the clear's key finds. -/
theorem clearOther : Obligations.ClearOther := by
  intro s source dest tag group circuit rest htakes b
  have hexec := exec_callClear_of_takes htakes
  have hrun : b.running = true := htakes.1
  refine ⟨fun hbad => hexec.trans (congrArg Host.Outcome.next (State.takeClear_of_badGroup hbad)), fun hgroup =>
    ⟨fun r rec hkey hphase => ?unanswered, fun hkey => ?orphan⟩⟩
  case unanswered =>
    obtain ⟨hrunu, hcalls⟩ := b.endGranted_frame rec
    refine ⟨b.endGranted rec, _, b.endGranted_of_none, fun gr hgr => b.endGranted_of_grant hgr,
      State.offered_send (hrunu.trans hrun) _ _, ?_⟩
    rw [hexec, State.takeClear_of_unanswered hgroup (s := b) hkey hphase, State.clearUnanswered_eq, State.freeRecord,
      (State.send_only (hrunu.trans hrun) _ _).calls, hcalls]
    have hflags : clearFlags false rec.disputed true false = (if rec.disputed then 2 else 0) + 4 := by
      cases rec.disputed <;> rfl
    rw [hflags]
  case orphan =>
    intro o
    have hruno : o.running = true := hrun
    have hrunu : (o.endOrphan group circuit).running = true := (o.endOrphan_running group circuit).trans hruno
    refine ⟨o.endOrphan group circuit, _, State.offered_send hrunu _ _, ?_, fun hremote => ?_, fun hown =>
      ⟨fun li g t k bp fr hcircuit => ?_, fun li g t bp fr hcircuit => ?_, fun hother => ?_⟩⟩
    · rw [hexec, State.takeClear_of_orphan hgroup (s := b) hkey, State.clearOrphan_eq]
      rfl
    · rw [State.endOrphan, if_neg (show group / 16 ≠ o.address from hremote)]
      exact State.offered_send hruno _ _
    · exact State.endOrphan_of_released (s := o) hown ((State.dropHold_held (s := o) hcircuit none).1 ⟨rfl, .inl rfl⟩)
    · exact State.endOrphan_of_released (s := o) hown
        ((State.dropHold_busy (s := o) hcircuit none).1 ⟨rfl, State.dropMatches_none⟩)
    · exact State.endOrphan_of_stale (s := o) hown (State.dropHold_of_otherUser (s := o) none hother)

end Sys2Proof.Machine
end

section
/-! Settles O49 to O51: CIRCUIT-CONTROL (R17 to R20, R34, R35). -/

namespace Sys2Proof.Machine

/-! ## The frame of a control command and its target check (R17) -/

section
variable {s : State} {source dest group action number : Nat}
  {act : State → Nat → Group → Nat → State × Bool}

theorem State.controlFrame_of_takes {want : Nat} {rest : List RxFrame}
    (h : s.takes source dest (.circuitControl group action number) rest)
    (hmine : action = want ∨ knownAction action = false) :
    s.controlFrame want act = ({ s with rx := rest } : State).control source dest group action number act :=
  State.takeFrame_of_takes (k := fun s => s.control source dest group action number act) h (if_pos hmine)

theorem State.control_of_foreign (hdest : dest = Config.broadcast) (hgroup : group / 16 ≠ s.address) :
    s.control source dest group action number act = s := if_pos ⟨hdest, hgroup⟩

/-- The numbers that an action may name: terminals for RESTORE, circuits for the others (R17). -/
def controlBound (action : Nat) (g : Group) : Nat :=
  if action = 4 then g.cfg.working + g.cfg.spares else g.cfg.working

variable (hdest : ¬ (dest = Config.broadcast ∧ group / 16 ≠ s.address))
include hdest

theorem State.control_of_noGroup (h : s.ownGroup group = none) : s.control source dest group action number act =
    s.answerControl source .badTarget group action number := by
  rw [State.control, if_neg hdest, h]

variable {li : Nat} {g : Group} (hown : s.ownGroup group = some (li, g))
include hown

theorem State.control_of_noNumber (h : knownAction action = false ∨ controlBound action g ≤ number) :
    s.control source dest group action number act = s.answerControl source .badTarget group action number := by
  rw [State.control, if_neg hdest, hown]
  exact if_pos (h.imp_left fun h => by rw [h]; rfl)

theorem State.control_of_acted (hknown : knownAction action = true) (hnumber : number < controlBound action g)
    {u : State} {changed : Bool} (hact : act s li g number = (u, changed)) :
    s.control source dest group action number act =
      u.answerControl source (if changed then .ok else .noChange) group action number := by
  rw [State.control, if_neg hdest, hown]
  refine (if_neg ?_).trans ?_
  · rintro (h | h)
    · rw [hknown] at h; cases h
    · exact absurd hnumber (Nat.not_lt.2 h)
  · cases changed <;> simp only [hact] <;> rfl

end

theorem knownAction_eq_false {action : Nat} (h : action = 0 ∨ 4 < action) : knownAction action = false :=
  decide_eq_false (by omega)

/-- Each of the four commands runs its own effect on the frames of its action and of those that have no name. -/
theorem exec_control_of_takes {s : State} {source dest group action number : Nat} {rest : List RxFrame} {c : Instr}
    (htakes : s.takes source dest (.circuitControl group action number) rest)
    (hc : (c = .block ∧ action = 1) ∨ (c = .unblock ∧ action = 2) ∨ (c = .forceRelease ∧ action = 3) ∨
      (c = .restore ∧ action = 4) ∨
      ((action = 0 ∨ 4 < action) ∧ (c = .block ∨ c = .unblock ∨ c = .forceRelease ∨ c = .restore))) :
    ∃ act, exec c s = .next (({ s with rx := rest } : State).control source dest group action number act) := by
  have hcommand : ∀ want act, exec c s = .next (s.controlFrame want act) →
      (action = want ∨ knownAction action = false) →
      ∃ act, exec c s = .next (({ s with rx := rest } : State).control source dest group action number act) :=
    fun want act hexec hmine => ⟨act, hexec.trans (congrArg Host.Outcome.next
        (State.controlFrame_of_takes htakes hmine))⟩
  rcases hc with ⟨rfl, ha⟩ | ⟨rfl, ha⟩ | ⟨rfl, ha⟩ | ⟨rfl, ha⟩ | ⟨ha, rfl | rfl | rfl | rfl⟩
  · exact hcommand 1 _ rfl (.inl ha)
  · exact hcommand 2 _ rfl (.inl ha)
  · exact hcommand 3 _ rfl (.inl ha)
  · exact hcommand 4 _ rfl (.inl ha)
  · exact hcommand 1 _ rfl (.inr (knownAction_eq_false ha))
  · exact hcommand 2 _ rfl (.inr (knownAction_eq_false ha))
  · exact hcommand 3 _ rfl (.inr (knownAction_eq_false ha))
  · exact hcommand 4 _ rfl (.inr (knownAction_eq_false ha))

/-- Settles O49: the target check comes before any effect, so it is the same for the four commands. -/
theorem controlTargets : Obligations.ControlTargets := by
  intro s source dest group action number rest c htakes hc
  obtain ⟨act, hexec⟩ := exec_control_of_takes htakes hc
  set q : State := { s with rx := rest } with hq
  have hrun : q.running = true := htakes.1
  refine ⟨fun hdest hgroup => hexec.trans (congrArg Host.Outcome.next (State.control_of_foreign hdest hgroup)),
    fun hdest hbad => ⟨_, hexec, ?_⟩⟩
  have hanswer : q.control source dest group action number act =
      q.answerControl source .badTarget group action number := by
    cases hown : q.ownGroup group with
    | none => exact State.control_of_noGroup hdest hown
    | some p =>
      obtain ⟨li, g⟩ := p
      obtain ⟨haddress, rfl, hfind⟩ := ownGroup_some hown
      refine State.control_of_noNumber hdest hown ?_
      rcases hbad with hbad | hbad | hbad | hbad | hbad
      · exact absurd haddress hbad
      · rw [show Tab.find s.groups (group % 16) = some g from hfind] at hbad; cases hbad
      · exact .inl (knownAction_eq_false (.inl hbad))
      · exact .inl (knownAction_eq_false (.inr hbad))
      · obtain ⟨hcircuits, hterminals⟩ := hbad g hfind
        by_cases hfour : action = 4
        · exact .inr (by rw [controlBound, if_pos hfour]; exact hterminals hfour)
        · by_cases hlow : action ≤ 3
          · exact .inr (by rw [controlBound, if_neg hfour]; exact hcircuits hlow)
          · exact .inl (knownAction_eq_false (.inr (by omega)))
  rw [hanswer]
  exact State.offered_send hrun _ _

/-- What a command answers when its target is there, from what its effect does. -/
theorem exec_control_answers {s : State} {source dest group action number : Nat} {rest : List RxFrame} {e : Instr}
    {act : State → Nat → Group → Nat → State × Bool} (hexec : exec e s = .next (s.controlFrame action act))
    (htakes : s.takes source dest (.circuitControl group action number) rest) (hknown : knownAction action = true)
    (hown : group / 16 = s.address) {g : Group} (hfind : Tab.find s.groups (group % 16) = some g)
    (hnumber : number < controlBound action g) {u : State} {changed : Bool}
    (hact : act { s with rx := rest } (group % 16) g number = (u, changed)) (hrun : u.running = true) :
    ∃ t, exec e s = .next t ∧ Offered u t source
      (.mgmtDone 53 (if changed then .ok else .noChange) (.circuit group action number)) := by
  refine ⟨_, hexec.trans (congrArg Host.Outcome.next (State.controlFrame_of_takes htakes (.inl rfl))), ?_⟩
  rw [State.control_of_acted (s := { s with rx := rest }) (fun h => h.2 hown)
      (State.ownGroup_eq_some (s := { s with rx := rest }) hown hfind) hknown
    hnumber hact]
  exact State.offered_send hrun _ _

/-! ## BLOCK and UNBLOCK (R18, R19) -/

section
variable {s : State} {li c : Nat} {g : Group} {x : Circuit} (hx : g.circuits[c]? = some x)
include hx

theorem blockCircuit_cases :
    (∀ t, x = .idle t →
      blockCircuit s li g c = (s.handGroup li { g with circuits := g.circuits.set c (.blocked t) }, true)) ∧
    (∀ t u k fr, x = .held t u k false fr → blockCircuit s li g c =
      (s.setGroup li { g with circuits := g.circuits.set c (.held t u k true fr) }, true)) ∧
    (∀ t u fr, x = .busy t u false fr → blockCircuit s li g c =
      (s.setGroup li { g with circuits := g.circuits.set c (.busy t u true fr) }, true)) ∧
    ((∃ t u k fr, x = .held t u k true fr) ∨ (∃ t u fr, x = .busy t u true fr) ∨ x.isBlocked = true ∨
      x.isFaulty = true → blockCircuit s li g c = (s, false)) := by
  refine ⟨?_, ?_, ?_, ?_⟩
  · rintro t rfl; simp only [blockCircuit, hx]
  · rintro t u k fr rfl; simp only [blockCircuit, hx]
  · rintro t u fr rfl; simp only [blockCircuit, hx]
  · rintro (⟨t, u, k, fr, rfl⟩ | ⟨t, u, fr, rfl⟩ | hblocked | hfaulty)
    · simp only [blockCircuit, hx]
    · simp only [blockCircuit, hx]
    · cases x with
      | blocked t => simp only [blockCircuit, hx]
      | _ => cases hblocked
    · cases x with
      | faulty => simp only [blockCircuit, hx]
      | _ => cases hfaulty

theorem unblockCircuit_cases :
    (∀ t, x = .blocked t →
      unblockCircuit s li g c = (s.handGroup li { g with circuits := g.circuits.set c (.idle t) }, true)) ∧
    (∀ t u k fr, x = .held t u k true fr → unblockCircuit s li g c =
      (s.setGroup li { g with circuits := g.circuits.set c (.held t u k false fr) }, true)) ∧
    (∀ t u fr, x = .busy t u true fr → unblockCircuit s li g c =
      (s.setGroup li { g with circuits := g.circuits.set c (.busy t u false fr) }, true)) ∧
    ((∃ t u k fr, x = .held t u k false fr) ∨ (∃ t u fr, x = .busy t u false fr) ∨ x.isIdle = true ∨
      x.isFaulty = true → unblockCircuit s li g c = (s, false)) := by
  refine ⟨?_, ?_, ?_, ?_⟩
  · rintro t rfl; simp only [unblockCircuit, hx]
  · rintro t u k fr rfl; simp only [unblockCircuit, hx]
  · rintro t u fr rfl; simp only [unblockCircuit, hx]
  · rintro (⟨t, u, k, fr, rfl⟩ | ⟨t, u, fr, rfl⟩ | hidle | hfaulty)
    · simp only [unblockCircuit, hx]
    · simp only [unblockCircuit, hx]
    · cases x with
      | idle t => simp only [unblockCircuit, hx]
      | _ => cases hidle
    · cases x with
      | faulty => simp only [unblockCircuit, hx]
      | _ => cases hfaulty

end

/-- Settles O50: each effect is a hand-over, a flag written, or nothing. -/
theorem blockUnblock : Obligations.BlockUnblock := by
  intro s source dest group action c g x rest htakes hown hfind hc hx answers writes flags
  set q : State := { s with rx := rest } with hq
  have hrun : q.running = true := htakes.1
  have hanswers : ∀ {e : Instr} {act : State → Nat → Group → Nat → State × Bool} {u : State} {changed : Bool},
      exec e s = .next (s.controlFrame action act) → 1 ≤ action ∧ action ≤ 3 →
      act q (group % 16) g c = (u, changed) → u.running = true →
      answers e u (if changed then .ok else .noChange) := fun hexec hact heq hrunu =>
    exec_control_answers hexec htakes (decide_eq_true (by omega)) hown hfind
      (by rw [controlBound, if_neg (by omega)]; exact hc) heq hrunu
  have hhanded : ∀ y : Circuit,
      (q.handGroup (group % 16) { g with circuits := g.circuits.set c y }).running = true := fun y =>
    (State.handGroup_running q _ _).trans hrun
  refine ⟨fun haction => ?_, fun haction => ?_⟩
  · subst haction
    obtain ⟨hidle, hheld, hbusy, hnone⟩ := blockCircuit_cases (s := q) (li := group % 16) hx
    exact ⟨fun t h => ⟨_, hanswers rfl (by omega) (hidle t h) (hhanded _), State.groupHanded hrun _ _⟩,
      fun t u k fr h => hanswers rfl (by omega) (hheld t u k fr h) hrun,
      fun t u fr h => hanswers rfl (by omega) (hbusy t u fr h) hrun,
      fun h => hanswers rfl (by omega) (hnone h) hrun⟩
  · subst haction
    obtain ⟨hblocked, hheld, hbusy, hnone⟩ := unblockCircuit_cases (s := q) (li := group % 16) hx
    exact ⟨fun t h => ⟨_, hanswers rfl (by omega) (hblocked t h) (hhanded _), State.groupHanded hrun _ _⟩,
      fun t u k fr h => hanswers rfl (by omega) (hheld t u k fr h) hrun,
      fun t u fr h => hanswers rfl (by omega) (hbusy t u fr h) hrun,
      fun h => hanswers rfl (by omega) (hnone h) hrun⟩

/-! ## FORCE-RELEASE and RESTORE (R20, R34, R35) -/

section
variable {s : State} {li c : Nat} {g : Group}

theorem forceCircuit_of_held {t u k : Nat} {bp fr : Bool} (hx : g.circuits[c]? = some (.held t u k bp fr)) :
    forceCircuit s li g c = (((s.freeSlot k).endUse li g c t bp fr).markForced u g.global c, true) := by
  simp only [forceCircuit, hx]

theorem forceCircuit_of_busy {t u : Nat} {bp fr : Bool} (hx : g.circuits[c]? = some (.busy t u bp fr)) :
    forceCircuit s li g c = ((s.endUse li g c t bp fr).markForced u g.global c, true) := by
  simp only [forceCircuit, hx]

theorem forceCircuit_of_notInUse {x : Circuit} (hx : g.circuits[c]? = some x) (huse : x.inUse = false) :
    forceCircuit s li g c = (s, false) := by
  cases x with
  | held t u k bp fr => cases huse
  | busy t u bp fr => cases huse
  | _ => simp only [forceCircuit, hx]

theorem restoreTerminal_of_faulty {t : Nat} (ht : g.terminals[t]? = some .faulty) : restoreTerminal s li g t =
    ((s.handGroup li (g.restoredTerminal t)).evalDemotion li (demoted g.terminals), true) := by
  simp only [restoreTerminal, ht]

theorem restoreTerminal_of_other {t : Nat} (ht : g.terminals[t]? ≠ some .faulty) :
    restoreTerminal s li g t = (s, false) := by
  unfold restoreTerminal
  split
  · exact absurd ‹_› ht
  · rfl

end

/-- The marking after a release by force, by the user the circuit had (R20). -/
theorem State.markForced_of_address {s v : State} (haddress : v.address = s.address) {g : Group} {group : Nat}
    (hglobal : g.global = group) (user c : Nat) :
    v.markForced user g.global c = if user = s.address then v.markCircuit group c else v := by
  rw [State.markForced, haddress, hglobal]

theorem State.markForced_running (s : State) (user group c : Nat) :
    (s.markForced user group c).running = s.running := by
  unfold State.markForced
  split
  · exact (markCircuit_callFrame s group c).running
  · rfl

/-- A FAULTY terminal serves the lowest FAULTY circuit, or is SPARE where there is none (R34). -/
theorem Group.restored_by_faulty (g : Group) (t : Nat) :
    (∀ c, g.circuits[c]? = some .faulty → (∀ j < c, g.circuits[j]? ≠ some .faulty) → g.restoredTerminal t =
      { g with circuits := g.circuits.set c (.idle t), terminals := g.terminals.set t (.serving c) }) ∧
    (Circuit.faulty ∉ g.circuits → g.restoredTerminal t = { g with terminals := g.terminals.set t .spare }) := by
  rcases g.restored_cases t with ⟨c, hlow, he⟩ | ⟨hnone, he⟩
  · have hfaulty := lowestFaulty_eq_some hlow
    refine ⟨fun c' hc' hlow' => ?_, fun hno => absurd (List.mem_of_getElem? hfaulty) hno⟩
    rcases Nat.lt_trichotomy c c' with hlt | rfl | hlt
    · exact absurd hfaulty (hlow' c hlt)
    · exact he
    · obtain ⟨_, _, hleast⟩ := List.findIdx?_eq_some_iff_getElem.1 hlow
      obtain ⟨hl, hget⟩ := List.getElem?_eq_some_iff.1 hc'
      exact absurd (by rw [hget]; rfl) (hleast c' hlt)
  · exact ⟨fun c hc _ => absurd (List.mem_of_getElem? hc) (lowestFaulty_eq_none hnone), fun _ => he⟩

/-- Settles O51, by the circuit's state and by the terminal's role. -/
theorem forceRestore : Obligations.ForceRestore := by
  intro s source dest group action n g rest htakes hgroups hown hfind b answers
  have hrun : b.running = true := htakes.1
  have hglobal : g.global = group := by
    have hsound := (hgroups.found.2 _ g hfind).2.1
    omega
  refine ⟨fun haction hn => ?force, fun haction hn => ?restore⟩
  case force =>
    subst haction
    have hanswers : ∀ {u : State} {changed : Bool}, forceCircuit b (group % 16) g n = (u, changed) →
        u.running = true → answers .forceRelease u (if changed then .ok else .noChange) := fun heq hrunu =>
      exec_control_answers rfl htakes rfl hown hfind (by rw [controlBound, if_neg (by decide)]; exact hn) heq hrunu
    have hreleased : ∀ {v : State} {user : Nat}, CircuitFrame b v →
        forceCircuit b (group % 16) g n = (v.markForced user g.global n, true) →
        answers .forceRelease (if user = s.address then v.markCircuit group n else v) .ok :=
            fun {v user} hframe heq => by
      have hanswer := hanswers heq ((State.markForced_running _ _ _ _).trans (hframe.running.trans hrun))
      rwa [State.markForced_of_address (s := s) hframe.address hglobal] at hanswer
    refine ⟨fun t u k bp fr hx => ?_, fun t u bp fr hx => ?_, fun x hx huse => ?_⟩
    · refine hreleased ?_ (forceCircuit_of_held hx)
      have hfind' : Tab.find (b.freeSlot k).groups (group % 16) = some g := by rw [freeSlot_groups]; exact hfind
      exact (freeSlot_edits b k).frame.trans (endUse_edits (b.freeSlot k) hfind' n t bp fr).frame
    · exact hreleased (endUse_edits b hfind n t bp fr).frame (forceCircuit_of_busy hx)
    · exact hanswers (forceCircuit_of_notInUse hx huse) hrun
  case restore =>
    subst haction
    have hanswers : ∀ {u : State} {changed : Bool}, restoreTerminal b (group % 16) g n = (u, changed) →
        u.running = true → answers .restore u (if changed then .ok else .noChange) := fun heq hrunu =>
      exec_control_answers rfl htakes rfl hown hfind (by rw [controlBound, if_pos rfl]; exact hn) heq hrunu
    refine ⟨fun hother => hanswers (restoreTerminal_of_other hother) hrun, fun hfaulty => ?_⟩
    obtain ⟨hserves, hspare⟩ := g.restored_by_faulty n
    set h := g.restoredTerminal n
    set u := b.handGroup (group % 16) h
    have hrunu : u.running = true := (State.handGroup_running _ _ _).trans hrun
    obtain ⟨hsame, hturned⟩ := State.evalDemotion_notice hrunu (g.restoredTerminal_kept n).cfg
      (State.find_handGroup_self b (group % 16) h)
    exact ⟨h, u, u.evalDemotion (group % 16) (demoted g.terminals), hserves, hspare, State.groupHanded hrun _ _, hsame,
      hturned, hanswers (restoreTerminal_of_faulty hfaulty)
        ((evalDemotion_edits u _ _).frame.running.trans hrunu)⟩

end Sys2Proof.Machine
end

section
/-! Settles O21: the census (R188, R189) and the notices of a peer's absence or restart (R75, R76, R94, R126). What the
notices keep is said of each operation they run: which circuits stay BUSY, which candidates and holds there can be. -/

namespace Sys2Proof.Machine

/-! ## No candidate of a peer comes back (R94) -/

/-- No route list and no own group record names a group of the peer. -/
def State.Without (peer : Nat) (s : State) : Prop :=
  (∀ p ∈ s.routes, ∀ c ∈ p.2, c.group / 16 ≠ peer) ∧ ∀ p ∈ s.groups, p.2.global / 16 ≠ peer

theorem State.Without.routeList {peer : Nat} {s : State} (h : s.Without peer) {d : Nat} {c : Candidate}
    (hc : c ∈ s.routeList d) : c.group / 16 ≠ peer := by
  unfold State.routeList at hc
  cases hf : Tab.find s.routes d with
  | none => simp [hf] at hc
  | some l => exact h.1 _ (Tab.mem_of_find hf) c (by simpa [hf] using hc)

theorem CircuitEdits.without {peer : Nat} {s t : State} (h : CircuitEdits s t) (hs : s.Without peer) :
    t.Without peer := by
  induction h with
  | refl => exact hs
  | tail _ h ih =>
    obtain ⟨hroutes, hgroups⟩ := ih
    cases h with
    | group li g g0 h0 hc _ =>
      refine ⟨hroutes, fun p hp => ?_⟩
      rcases Tab.mem_put hp with rfl | hp
      · rw [hc.global]; exact hgroups _ (Tab.mem_of_find h0)
      · exact hgroups p hp
    | route c d _ hown =>
      refine ⟨fun p hp e he => ?_, hgroups⟩
      rcases Tab.mem_put hp with rfl | hp
      · rcases mem_enterCandidate he with rfl | he
        · obtain ⟨q, hq, hgroup, -⟩ := hown
          rw [hgroup]; exact hgroups q hq
        · exact State.Without.routeList ⟨hroutes, hgroups⟩ he
      · exact hroutes p hp e he
    | prune gone =>
      refine ⟨fun p hp c hc => ?_, hgroups⟩
      obtain ⟨q, hq, hcq⟩ := mem_pruneRoutes hp hc
      exact hroutes q hq c hcq
    | _ => exact ⟨hroutes, hgroups⟩

/-! ## BUSY circuits and the count of expired holds -/

/-- Every BUSY circuit stays as it is, and no hold counts as expired. -/
structure BusyKept (s t : State) : Prop where
  busy : ∀ li g, Tab.find s.groups li = some g → ∃ g', Tab.find t.groups li = some g' ∧
    ∀ (c : Nat) (x : Circuit), x.isBusy = true → g.circuits[c]? = some x → g'.circuits[c]? = some x
  expired : t.counters.holdsExpired = s.counters.holdsExpired

theorem BusyKept.of_groups {s t : State} (hgroups : t.groups = s.groups)
    (hexpired : t.counters.holdsExpired = s.counters.holdsExpired) : BusyKept s t :=
  ⟨fun li g hg => ⟨g, by rw [hgroups]; exact hg, fun _ _ _ hx => hx⟩, hexpired⟩

theorem BusyKept.refl (s : State) : BusyKept s s := .of_groups rfl rfl

theorem BusyKept.trans {s t u : State} (h : BusyKept s t) (h' : BusyKept t u) : BusyKept s u := by
  refine ⟨fun li g hg => ?_, h'.expired.trans h.expired⟩
  obtain ⟨g', hg', hkept⟩ := h.busy li g hg
  obtain ⟨g'', hg'', hkept'⟩ := h'.busy li g' hg'
  exact ⟨g'', hg'', fun c x hx hc => hkept' c x hx (hkept c x hx hc)⟩

theorem offer_busyKept (s : State) (d : Nat) (m : Msg) : BusyKept s (s.offer d m).1 := by
  refine .of_groups (offer_same s d m).groups ?_
  unfold State.offer
  repeat' split
  all_goals rfl

theorem send_busyKept (s : State) (d : Nat) (m : Msg) : BusyKept s (s.send d m) := offer_busyKept s d m

theorem offerLoad_busyKept (s : State) (group : Nat) : BusyKept s (s.offerLoad group) := by
  refine .of_groups (offerLoad_same s group).groups ?_
  unfold State.offerLoad
  repeat' split
  all_goals rfl

theorem enterReach_expired (s : State) (c : Candidate) (d : Nat) :
    (s.enterReach c d).counters.holdsExpired = s.counters.holdsExpired := by
  unfold State.enterReach
  dsimp only
  split <;> rfl

theorem applyReach_busyKept (s : State) (group pref first count : Nat) :
    BusyKept s (s.applyReach group pref first count) := by
  refine .of_groups (applyReach_groups ..) ?_
  have hfold : ∀ (l : List Nat) (s : State), (l.foldl (fun s d => s.enterReach { group := group, pref := pref } d)
      s).counters.holdsExpired = s.counters.holdsExpired := by
    intro l
    induction l with
    | nil => exact fun s => rfl
    | cons d l ih => exact fun s => (ih _).trans (enterReach_expired s _ d)
  exact hfold _ s

/-- A group record is written with its BUSY circuits as they were. -/
theorem setGroup_busyKept {s : State} {li : Nat} {g g' : Group} (hg : Tab.find s.groups li = some g)
    (h : ∀ (c : Nat) (x : Circuit), x.isBusy = true → g.circuits[c]? = some x → g'.circuits[c]? = some x) :
    BusyKept s (s.setGroup li g') := by
  refine ⟨fun lj k hk => ?_, rfl⟩
  by_cases hj : lj = li
  · subst hj
    rw [hg] at hk
    cases hk
    exact ⟨g', Tab.find_put_self .., h⟩
  · exact ⟨k, (Tab.find_put_ne _ _ hj).trans hk, fun _ _ _ hx => hx⟩

theorem handGroup_busyKept {s : State} {li : Nat} {g g' : Group} (hg : Tab.find s.groups li = some g)
    (h : ∀ (c : Nat) (x : Circuit), x.isBusy = true → g.circuits[c]? = some x → g'.circuits[c]? = some x) :
    BusyKept s (s.handGroup li g') := by
  have hset := setGroup_busyKept (g' := g'.recomputed) hg h
  unfold State.handGroup
  dsimp only
  split
  · exact hset.trans (offerLoad_busyKept _ _)
  · exact hset

theorem evalDemotion_busyKept (s : State) (li : Nat) (was : Bool) : BusyKept s (s.evalDemotion li was) := by
  unfold State.evalDemotion
  split
  · exact .refl s
  · rename_i g hg
    dsimp only
    split
    · exact .refl s
    · refine .trans (.trans ?_ (applyReach_busyKept _ _ _ _ _)) (send_busyKept _ _ _)
      exact setGroup_busyKept hg fun _ _ _ hx => hx

/-- One circuit that is not BUSY is rewritten, and every BUSY one is another. -/
theorem busy_of_rewritten {l l' : List Circuit} {c : Nat} {y z : Circuit} (hy : l[c]? = some y)
    (hbusy : y.isBusy = false) (hget : ∀ j, l'[j]? = if j = c then some z else l[j]?) (j : Nat) (x : Circuit)
    (hx : x.isBusy = true) (hj : l[j]? = some x) : l'[j]? = some x := by
  rw [hget, if_neg]
  · exact hj
  · rintro rfl
    rw [hy] at hj
    cases hj
    rw [hbusy] at hx
    cases hx

section
variable {s : State} {li c : Nat} {g : Group} {y : Circuit} (hg : Tab.find s.groups li = some g)
  (hy : g.circuits[c]? = some y) (hbusy : y.isBusy = false)
include hg hy hbusy

theorem faultHandle_busyKept (t : Nat) (blocked : Bool) : BusyKept s (s.faultHandle li c t blocked) := by
  obtain ⟨z, -, hget⟩ := g.faulted_get (t := t) hy blocked
  rw [State.faultHandle_of_find hg]
  have hbump : BusyKept s (s.bump .faults) := .of_groups rfl rfl
  exact (hbump.trans (handGroup_busyKept (s := s.bump .faults) hg (busy_of_rewritten hy hbusy hget))).trans
    (evalDemotion_busyKept _ _ _)

theorem endUse_busyKept (t : Nat) (bp fr : Bool) : BusyKept s (s.endUse li g c t bp fr) := by
  cases fr with
  | true => exact faultHandle_busyKept hg hy hbusy t false
  | false =>
    rw [State.endUse_of_calm]
    exact handGroup_busyKept hg (busy_of_rewritten hy hbusy fun j => getElem?_set_circuit hy _ j)

end

theorem freeSlot_busyKept (s : State) (k : Nat) : BusyKept s (s.freeSlot k) := by
  refine .of_groups (freeSlot_groups s k) ?_
  unfold State.freeSlot
  split <;> rfl

theorem endHold_busyKept (s : State) (k : Nat) : BusyKept s (s.endHold k) := by
  have hfree := freeSlot_busyKept s k
  unfold State.endHold
  split
  · exact .refl s
  · dsimp only
    split
    · rename_i li g t u k' bp fr hcircuit
      obtain ⟨hown, -, hx⟩ := ownCircuit_some hcircuit
      split
      · exact hfree.trans (endUse_busyKept (ownGroup_some hown).2.2 hx rfl t bp fr)
      · exact hfree
    · exact hfree

/-- A denied request has counted the attempt, or named no group here (R60). -/
theorem State.requestHold_denied {s u : State} {requester serial group prec : Nat} {reason : AttemptOutcome}
    {band : Band}
    (h : s.requestHold requester serial group prec = (u, .denied reason band)) :
    u = s ∨ ∃ li g0, s.ownGroup group = some (li, g0) ∧ u = s.handGroup li (g0.attempted s.clock) := by
  cases hown : s.ownGroup group with
  | none =>
    rw [State.requestHold_of_notOwner hown] at h
    exact .inl (Prod.mk.inj h).1.symm
  | some p =>
    obtain ⟨li, g0⟩ := p
    refine .inr ⟨li, g0, rfl, ?_⟩
    rw [State.requestHold_of_own hown rfl] at h
    split at h
    · exact (Prod.mk.inj h).1.symm
    · split at h
      · exact (Prod.mk.inj h).1.symm
      · split at h
        · exact (Prod.mk.inj h).1.symm
        · split at h
          · exact (Prod.mk.inj h).1.symm
          · unfold State.grantHold at h
            split at h
            · exact absurd (Prod.mk.inj h).2 nofun
            · exact (Prod.mk.inj h).1.symm

theorem requestHold_busyKept {s u : State} {requester serial group prec : Nat} {answer : HoldAnswer}
    (h : s.requestHold requester serial group prec = (u, answer)) : BusyKept s u := by
  have hattempt : ∀ {li g0}, s.ownGroup group = some (li, g0) → BusyKept s (s.handGroup li (g0.attempted s.clock)) :=
    fun hown => handGroup_busyKept (ownGroup_some hown).2.2 fun _ _ _ hx => hx
  cases answer with
  | denied reason band =>
    rcases State.requestHold_denied h with rfl | ⟨li, g0, hown, rfl⟩
    · exact .refl _
    · exact hattempt hown
  | granted gr =>
    obtain ⟨li, g0, g, x, hgrant⟩ := State.requestHold_granted h
    have hidle := Group.idle_of_hunt hgrant.hunt
    have hg : Tab.find (s.handGroup li (g0.attempted s.clock)).groups li = some g := by
      rw [State.find_handGroup_self, hgrant.attempted]
    rw [hgrant.state]
    set v := s.handGroup li (g0.attempted s.clock)
    have hslot : ∀ y, BusyKept v (v.setSlot gr.slot y) := fun y => .of_groups rfl rfl
    refine (hattempt hgrant.own).trans ((hslot _).trans (handGroup_busyKept (g := g) hg ?_))
    exact busy_of_rewritten hidle rfl fun j => getElem?_set_circuit hidle _ j

/-! ## Selection while a peer's groups are in no list (R94, R126) -/

/-- The own holds grow: no hold ends, and every new one is this station's. -/
structure HoldsGrow (s t : State) : Prop where
  kept : ∀ k h, s.holdAt k = some h → t.holdAt k = some h
  own : ∀ k h, t.holdAt k = some h → s.holdAt k = some h ∨ h.requester = s.address

theorem HoldsGrow.of_slots {s t : State} (h : t.slots = s.slots) : HoldsGrow s t :=
  ⟨fun k x hx => by rw [State.holdAt_congr h]; exact hx, fun k x hx => .inl (by rwa [State.holdAt_congr h] at hx)⟩

theorem State.Granted.slot_lt {s u : State} {requester serial group li : Nat} {gr : Grant} {g0 g : Group} {x : Slot}
    (h : s.Granted requester serial group u gr li g0 g x) : gr.slot < 64 := by
  rcases Nat.lt_or_ge gr.slot 64 with hlt | hge
  · exact hlt
  · exact absurd ((Vector.getElem?_eq_none hge).symm.trans h.slot) (by simp)

/-- A request of this station's own call adds its own hold at most. -/
theorem requestHold_holdsGrow {s u : State} {serial group prec : Nat} {answer : HoldAnswer}
    (h : s.requestHold s.address serial group prec = (u, answer)) : HoldsGrow s u := by
  cases answer with
  | denied reason band =>
    rcases State.requestHold_denied h with rfl | ⟨li, g0, hown, rfl⟩
    · exact .of_slots rfl
    · exact .of_slots (State.handGroup_slots ..)
  | granted gr =>
    obtain ⟨li, g0, g, x, hgrant⟩ := State.requestHold_granted h
    have hfree : s.holdAt gr.slot = none := by rw [State.holdAt, hgrant.slot]; exact hgrant.free
    have hget : ∀ j, u.holdAt j = if j = gr.slot then some (s.holdOf s.address serial group gr.circuit gr.band)
        else s.holdAt j := fun j => by
      rw [hgrant.state, State.handGroup_holdAt, State.holdAt_setSlot _ hgrant.slot_lt, State.handGroup_holdAt]
    refine ⟨fun k y hy => ?_, fun k y hy => ?_⟩
    · rw [hget, if_neg]
      · exact hy
      · rintro rfl
        rw [hfree] at hy; cases hy
    · rw [hget] at hy
      split at hy
      · cases hy; exact .inr rfl
      · exact .inl hy

/-- What the failing of attempts keeps. -/
structure AttemptsKept (peer : Nat) (s t : State) : Prop where
  config : t.config = s.config
  views : t.views = s.views
  busy : BusyKept s t
  holds : HoldsGrow s t
  without : s.Without peer → t.Without peer

section
variable {peer : Nat} {s t u : State}

theorem AttemptsKept.refl (s : State) : AttemptsKept peer s s := ⟨rfl, rfl, .refl s, .of_slots rfl, id⟩

theorem AttemptsKept.address (h : AttemptsKept peer s t) : t.address = s.address := by
  unfold State.address; rw [h.config]

theorem AttemptsKept.trans (h : AttemptsKept peer s t) (h' : AttemptsKept peer t u) : AttemptsKept peer s u :=
  ⟨h'.config.trans h.config, h'.views.trans h.views, h.busy.trans h'.busy,
    ⟨fun k x hx => h'.holds.kept k x (h.holds.kept k x hx), fun k x hx => by
      rcases h'.holds.own k x hx with hx | hx
      · exact h.holds.own k x hx
      · exact .inr (hx.trans h.address)⟩, fun hs => h'.without (h.without hs)⟩

theorem CircuitEdits.attemptsKept (h : CircuitEdits s t) (hbusy : BusyKept s t) (hholds : HoldsGrow s t) :
    AttemptsKept peer s t := ⟨h.frame.config, h.frame.views, hbusy, hholds, h.without⟩

theorem offer_attemptsKept (s : State) (d : Nat) (m : Msg) : AttemptsKept peer s (s.offer d m).1 :=
  (offer_edits s d m).attemptsKept (offer_busyKept s d m) (.of_slots (offer_same s d m).slots)

theorem requestHold_attemptsKept {serial group prec : Nat} {answer : HoldAnswer}
    (h : s.requestHold s.address serial group prec = (u, answer)) : AttemptsKept peer s u := by
  have hedits := requestHold_edits s s.address serial group prec
  rw [h] at hedits
  exact hedits.attemptsKept (requestHold_busyKept h) (requestHold_holdsGrow h)

/-- A change of call records, serial and draws alone. -/
theorem AttemptsKept.calls (calls : Tab CallRecord) (serial : Serial) :
    AttemptsKept peer s { s with calls := calls, serial := serial } :=
  ⟨rfl, rfl, .of_groups rfl rfl, .of_slots rfl, id⟩

end

/-- Selection has ended for record `r`: every other record is as it was, and `r` does not await the peer. -/
structure Selected (peer r : Nat) (s t : State) : Prop where
  kept : AttemptsKept peer s t
  others : ∀ j, j ≠ r → Tab.find t.calls j = Tab.find s.calls j
  self : ∀ rec, Tab.find t.calls r = some rec → rec.awaits peer = false

section
variable {peer r : Nat} {s t u : State}

theorem Selected.after (h : AttemptsKept peer s t) (hcalls : t.calls = s.calls) (h' : Selected peer r t u) :
    Selected peer r s u :=
  ⟨h.trans h'.kept, fun j hj => by rw [h'.others j hj, hcalls], h'.self⟩

theorem Selected.of_put {rec : CallRecord} (h : rec.awaits peer = false) : Selected peer r s (s.putRecord r rec) :=
  ⟨AttemptsKept.calls _ _, fun j hj => Tab.find_put_ne _ _ hj, fun rec' hrec' => by
    rw [State.putRecord, Tab.find_put_self] at hrec'; cases hrec'; exact h⟩

theorem Selected.of_free : Selected peer r s (s.freeRecord r) :=
  ⟨AttemptsKept.calls _ _, fun j hj => by rw [State.freeRecord, Tab.find_del, if_neg hj], fun rec hrec => by
    rw [State.freeRecord, Tab.find_del, if_pos rfl] at hrec; cases hrec⟩

theorem bump_attemptsKept (s : State) {k : Counter} (hk : k ≠ .holdsExpired) : AttemptsKept peer s (s.bump k) :=
  (bump_edits s k).attemptsKept (.of_groups rfl (by cases k <;> first | rfl | exact absurd rfl hk)) (.of_slots rfl)

theorem offerCall_selected (s : State) (r : Nat) (b : CallBase) (group : Nat) (gr : Grant) :
    Selected peer r s (s.offerCall r b group gr) :=
  .after (offer_attemptsKept s _ _) (offer_edits s _ _).frame.calls (.of_put rfl)

theorem congested_selected (s : State) (r : Nat) (b : CallBase) : Selected peer r s (s.congested r b) :=
  .after ((offer_attemptsKept s _ _).trans (bump_attemptsKept _ (by decide))) (offer_edits s _ _).frame.calls .of_free

/-- The asking of a remote candidate: HOLD-ASK under a new serial, taken by the transmit queue or not (R107). -/
theorem State.select_of_offer {b : CallBase} {c : Candidate} {fuel : Nat} (hpick : s.pick b = some c)
    (hremote : c.group / 16 ≠ s.address) {sent : Bool} (h : ({ s with serial := s.serial + 1 } : State).offer
      (c.group / 16) (.holdAsk (s.serial + 1).toNat r c.group b.prec) = (u, sent)) :
    s.select r b (fuel + 1) =
      if sent then u.putRecord r
        { base := b.trying c.group, group := c.group, disputed := false, retaken := false
          phase := .awaitHold (s.serial + 1) (after u.clock u.config.answerTimeout) }
      else u.select r { b.trying c.group with last := some .busFull } fuel := by
  have hserial : u.serial = s.serial + 1 := by
    have hframe := (offer_edits { s with serial := s.serial + 1 } (c.group / 16)
      (.holdAsk (s.serial + 1).toNat r c.group b.prec)).frame.eq
    rw [h] at hframe
    exact congrArg State.serial hframe
  have h' : ({ s with serial := s.serial + 1 } : State).offer (c.group / 16)
    (.holdAsk (s.serial + 1).toNat r c.group (b.trying c.group).prec) = (u, sent) := h
  cases sent <;> simp only [State.select, hpick, if_neg hremote, h', hserial] <;> rfl

/-- Selection with no candidate of the peer in a list does not ask the peer. -/
theorem select_selected {b : CallBase} {fuel : Nat} (hs : s.Without peer) :
    Selected peer r s (s.select r b fuel) := by
  induction fuel generalizing s b with
  | zero => exact congested_selected s r b
  | succ fuel ih =>
    cases hpick : s.pick b with
    | none => rw [State.select_of_none (.inr hpick)]; exact congested_selected s r b
    | some c =>
      have hpeer : c.group / 16 ≠ peer := hs.routeList (pick_eligible hpick).1
      by_cases hown : c.group / 16 = s.address
      · cases hrequest : s.requestHold s.address 0 c.group b.prec with
        | mk u answer =>
          have hkept := requestHold_attemptsKept (peer := peer) hrequest
          have hframe := (requestHold_edits s s.address 0 c.group b.prec).frame
          rw [hrequest] at hframe
          cases answer with
          | granted gr =>
            rw [State.select_of_granted hpick hown hrequest]
            exact .after hkept hframe.calls (offerCall_selected ..)
          | denied reason band =>
            rw [State.select_of_denied hpick hown hrequest]
            exact .after hkept hframe.calls (ih (hkept.without hs))
      · cases hoffer : ({ s with serial := s.serial + 1 } : State).offer (c.group / 16)
            (.holdAsk (s.serial + 1).toNat r c.group b.prec) with
        | mk u sent =>
          have hserial : AttemptsKept peer s { s with serial := s.serial + 1 } := AttemptsKept.calls s.calls _
          have hoffered := offer_attemptsKept (peer := peer) { s with serial := s.serial + 1 } (c.group / 16)
            (.holdAsk (s.serial + 1).toNat r c.group b.prec)
          have hframe := (offer_edits { s with serial := s.serial + 1 } (c.group / 16)
            (.holdAsk (s.serial + 1).toNat r c.group b.prec)).frame
          rw [hoffer] at hoffered hframe
          rw [State.select_of_offer hpick hown hoffer]
          cases sent with
          | true => exact .after (hserial.trans hoffered) hframe.calls (.of_put (decide_eq_false hpeer))
          | false => exact .after (hserial.trans hoffered) hframe.calls (ih (hoffered.without hs))

theorem failAttempt_selected (hs : s.Without peer) {rec : CallRecord} (hfind : Tab.find s.calls r = some rec)
    (hawaits : rec.awaits peer = true) : Selected peer r s (s.failAttempt r) := by
  unfold CallRecord.awaits at hawaits
  split at hawaits
  · rename_i ser deadline hphase
    have hfail : s.failAttempt r = s.crankback r rec.base .peerAbsent := by simp only [State.failAttempt, hfind, hphase]
    rw [hfail]
    exact select_selected hs
  · cases hawaits

end

/-- The records of a list fail their attempts one after another; those that await the peer do not await it after. -/
theorem failAttempts_foldl {peer : Nat} (l : List Nat) (hnodup : l.Nodup) {s : State} (hs : s.Without peer)
    (hl : ∀ r ∈ l, ∃ rec, Tab.find s.calls r = some rec ∧ rec.awaits peer = true) :
    AttemptsKept peer s (l.foldl (fun s r => s.failAttempt r) s) ∧
    (∀ r, r ∉ l → Tab.find (l.foldl (fun s r => s.failAttempt r) s).calls r = Tab.find s.calls r) ∧
    ∀ r ∈ l, ∀ rec, Tab.find (l.foldl (fun s r => s.failAttempt r) s).calls r = some rec → rec.awaits peer = false := by
  induction l generalizing s with
  | nil => exact ⟨.refl s, fun r _ => rfl, fun r hr => absurd hr (by simp)⟩
  | cons r l ih =>
    obtain ⟨hr, hnodup⟩ := List.nodup_cons.1 hnodup
    obtain ⟨rec, hfind, hawaits⟩ := hl r List.mem_cons_self
    have hone := failAttempt_selected hs hfind hawaits
    obtain ⟨hkept, hothers, hself⟩ := ih hnodup (hone.kept.without hs) fun j hj => by
      rw [hone.others j (ne_of_mem_of_not_mem hj hr)]
      exact hl j (List.mem_cons_of_mem _ hj)
    rw [List.foldl_cons]
    refine ⟨hone.kept.trans hkept, fun j hj => ?_, fun j hj => ?_⟩
    · rw [List.mem_cons, not_or] at hj
      rw [hothers j hj.2, hone.others j hj.1]
    · rcases List.mem_cons.1 hj with rfl | hj
      · rw [hothers j hr]
        exact hone.self
      · exact hself j hj

/-- No record awaits the peer after its attempts have failed, and every record that did not is as it was (R126). -/
theorem failAttempts_spec {peer : Nat} {s : State} (hw : Tab.wf s.calls) (hs : s.Without peer) :
    AttemptsKept peer s (s.failAttempts peer) ∧
    (∀ r rec, Tab.find (s.failAttempts peer).calls r = some rec → rec.awaits peer = false) ∧
    ∀ r rec, Tab.find s.calls r = some rec → rec.awaits peer = false →
      Tab.find (s.failAttempts peer).calls r = some rec := by
  set l := (s.calls.filter fun p => p.2.awaits peer).map (·.1) with hl
  have hmem : ∀ r, r ∈ l ↔ ∃ rec, Tab.find s.calls r = some rec ∧ rec.awaits peer = true := fun r => by
    rw [hl, List.mem_map]
    refine ⟨fun ⟨p, hp, hr⟩ => ?_, fun ⟨rec, hfind, hawaits⟩ =>
      ⟨(r, rec), List.mem_filter.2 ⟨Tab.mem_of_find hfind, hawaits⟩, rfl⟩⟩
    obtain ⟨hp, hawaits⟩ := List.mem_filter.1 hp
    exact ⟨p.2, hr ▸ Tab.find_of_mem hw hp, hawaits⟩
  obtain ⟨hkept, hothers, hself⟩ := failAttempts_foldl l (nodup_keys_of_wf (Tab.wf_filter hw _)) hs
    fun r hr => (hmem r).1 hr
  refine ⟨hkept, fun r rec hfind => ?_, fun r rec hfind hawaits => ?_⟩
  · by_cases hr : r ∈ l
    · exact hself r hr rec hfind
    · have hfind' : Tab.find s.calls r = some rec := (hothers r hr).symm.trans hfind
      exact Bool.eq_false_iff.2 fun hawaits => hr ((hmem r).2 ⟨rec, hfind', hawaits⟩)
  · refine (hothers r fun hr => ?_).trans hfind
    obtain ⟨rec', hfind', hawaits'⟩ := (hmem r).1 hr
    rw [hfind] at hfind'
    cases hfind'
    rw [hawaits] at hawaits'; cases hawaits'

/-! ## The holds of a peer (R75, R76) -/

theorem State.evalDemotion_slots (s : State) (li : Nat) (was : Bool) : (s.evalDemotion li was).slots = s.slots := by
  unfold State.evalDemotion
  split
  · rfl
  · dsimp only
    split
    · rfl
    · exact (send_same _ _ _).slots.trans (applyReach_same _ _ _ _ _).slots

theorem State.faultHandle_slots (s : State) (li c t : Nat) (blocked : Bool) :
    (s.faultHandle li c t blocked).slots = s.slots := by
  unfold State.faultHandle
  dsimp only
  split
  · rfl
  · rw [State.evalDemotion_slots, State.handGroup_slots]; rfl

theorem State.endUse_slots (s : State) (li : Nat) (g : Group) (c t : Nat) (bp fr : Bool) :
    (s.endUse li g c t bp fr).slots = s.slots := by
  cases fr with
  | true => exact State.faultHandle_slots ..
  | false => exact State.handGroup_slots ..

/-- The end of a hold frees its slot and no other. -/
theorem State.endHold_holdAt (s : State) (k j : Nat) : (s.endHold k).holdAt j = if j = k then none else s.holdAt j := by
  cases hhold : s.holdAt k with
  | none =>
    simp only [State.endHold, hhold]
    split
    · rename_i hj; rw [hj, hhold]
    · rfl
  | some h =>
    have hslots : (s.endHold k).slots = (s.freeSlot k).slots := by
      simp only [State.endHold, hhold]
      split
      · split
        · exact State.endUse_slots ..
        · rfl
      · rfl
    rw [State.holdAt_congr hslots, State.holdAt_freeSlot]

/-- A slot is freed where the peer holds it. -/
def State.freeIfOf (s : State) (peer k : Nat) : State :=
  match s.holdAt k with
  | some h => if h.requester = peer then s.endHold k else s
  | none => s

theorem State.freeHoldsOf_eq (s : State) (peer : Nat) :
    s.freeHoldsOf peer = (List.range Config.holdSlots).foldl (fun s k => s.freeIfOf peer k) s := rfl

theorem State.freeIfOf_holdAt (s : State) (peer k j : Nat) : (s.freeIfOf peer k).holdAt j =
    if j = k then (s.holdAt j).filter fun h => decide (h.requester ≠ peer) else s.holdAt j := by
  cases hhold : s.holdAt k with
  | none =>
    have hsame : s.freeIfOf peer k = s := by simp only [State.freeIfOf, hhold]
    rw [hsame]
    split
    · rename_i hj; rw [hj, hhold]; rfl
    · rfl
  | some h =>
    by_cases hpeer : h.requester = peer
    · have hend : s.freeIfOf peer k = s.endHold k := by simp only [State.freeIfOf, hhold, if_pos hpeer]
      rw [hend, State.endHold_holdAt]
      split
      · rename_i hj; rw [hj, hhold, Option.filter_some, if_neg (by simpa using hpeer)]
      · rfl
    · have hsame : s.freeIfOf peer k = s := by simp only [State.freeIfOf, hhold, if_neg hpeer]
      rw [hsame]
      split
      · rename_i hj; rw [hj, hhold, Option.filter_some, if_pos (by simpa using hpeer)]
      · rfl

theorem freeIfOf_busyKept (s : State) (peer k : Nat) : BusyKept s (s.freeIfOf peer k) := by
  unfold State.freeIfOf
  split
  · split
    · exact endHold_busyKept s k
    · exact .refl s
  · exact .refl s

/-- The slots of a list are freed where the peer holds them. -/
theorem freeHolds_foldl (peer : Nat) (l : List Nat) (s : State) :
    BusyKept s (l.foldl (fun s k => s.freeIfOf peer k) s) ∧
    ∀ k, (l.foldl (fun s k => s.freeIfOf peer k) s).holdAt k =
      if k ∈ l then (s.holdAt k).filter fun h => decide (h.requester ≠ peer) else s.holdAt k := by
  induction l generalizing s with
  | nil => exact ⟨.refl s, fun k => rfl⟩
  | cons j l ih =>
    obtain ⟨hbusy, hholds⟩ := ih (s.freeIfOf peer j)
    refine ⟨(freeIfOf_busyKept s peer j).trans hbusy, fun k => ?_⟩
    rw [List.foldl_cons, hholds, State.freeIfOf_holdAt]
    by_cases hkj : k = j <;> by_cases hkl : k ∈ l <;> simp [hkj, hkl]

/-- The peer holds no hold after its notice, and every other hold is as it was (R75). -/
theorem freeHoldsOf_holdAt (s : State) (peer k : Nat) :
    (s.freeHoldsOf peer).holdAt k = (s.holdAt k).filter fun h => decide (h.requester ≠ peer) := by
  rw [State.freeHoldsOf_eq, (freeHolds_foldl peer _ s).2]
  split
  · rfl
  · rename_i hk
    have hnone : s.slots[k]? = none := Vector.getElem?_eq_none (by simpa using hk)
    simp [State.holdAt, hnone]

theorem freeHoldsOf_busyKept (s : State) (peer : Nat) : BusyKept s (s.freeHoldsOf peer) :=
  (freeHolds_foldl peer _ s).1

/-! ## The notices (R188, R189) -/

theorem forgetPeer_without {s : State} {peer : Nat} (h : ∀ p ∈ s.groups, p.2.global / 16 ≠ peer) :
    (s.forgetPeer peer).Without peer := by
  refine ⟨fun p hp c hc => ?_, h⟩
  obtain ⟨q, -, he⟩ := List.mem_filterMap.1 hp
  dsimp only at he
  split at he
  · cases he
  · cases he
    simpa using (List.mem_filter.1 hc).2

theorem forgetPeer_views (s : State) (peer g : Nat) :
    Tab.find (s.forgetPeer peer).views g = if g / 16 = peer then none else Tab.find s.views g := by
  have hfind := Tab.find_filter_key s.views (fun k => decide (k / 16 ≠ peer)) g
  by_cases hg : g / 16 = peer
  · rw [if_pos hg]
    exact hfind.trans (if_neg (by simpa using hg))
  · rw [if_neg hg]
    exact hfind.trans (if_pos (by simpa using hg))

/-- Settles O21: the notices are taken apart, each by what its operation keeps. -/
theorem censusEvents : Obligations.CensusEvents := by
  refine ⟨⟨?present, fun s peer => ⟨fun heard hheard hrun hpeer hlate => ?_, fun hnot => ?_⟩⟩,
    fun s peer htables hgroups hpeer => ?notices⟩
  case present =>
    intro s source dest code rest htakes hsource
    have hexec : exec .present s = .next (({ s with rx := rest } : State).takePresent source code) :=
      congrArg Host.Outcome.next (State.takeFrame_of_takes (k := fun s => s.takePresent source code) htakes rfl)
    have hother : ({ s with rx := rest } : State).takePresent source code =
        if code = Station.listen.code then ((({ s with rx := rest } : State).peerGone source).setOfReach).setOfLoads
        else if code = Station.active.code then { s with rx := rest }
        else ({ s with rx := rest } : State).bump .badFrame := if_neg hsource
    refine ⟨fun hcode => ?_, fun hlisten hactive => ?_, fun hcode => ?_⟩
    · subst hcode; rw [hexec, hother]; rfl
    · rw [hexec, hother, if_neg (show code ≠ Station.listen.code from hlisten),
        if_neg (show code ≠ Station.active.code from hactive)]
      rfl
    · subst hcode; rw [hexec, hother]; rfl
  · refine congrArg Host.Outcome.next ?_
    simp only [hheard]
    exact if_pos (by rw [ageExceeds_eq, hrun, decide_eq_true hpeer, decide_eq_true hlate]; rfl)
  · refine congrArg Host.Outcome.next ?_
    split
    · rfl
    · rename_i heard hheard
      refine if_neg ?_
      simp only [Bool.and_eq_true, decide_eq_true_eq, ageExceeds_eq]
      rintro ⟨⟨hrun, hpeer⟩, hlate⟩
      rcases hnot with hnone | hstopped | hown | ⟨heard', hheard', hage⟩
      · rw [hheard] at hnone; cases hnone
      · rw [hrun] at hstopped; cases hstopped
      · exact hpeer hown
      · rw [hheard] at hheard'
        cases hheard'
        exact absurd hlate (Nat.not_lt.2 hage)
  case notices =>
    set v := s.forgetPeer peer
    have hwithout : v.Without peer := forgetPeer_without fun p hp => by
      have hlt := (hgroups.2 p hp).1
      have hglobal := (hgroups.2 p hp).2.1
      omega
    obtain ⟨hkept, hawaits, hothers⟩ := failAttempts_spec (s := v) htables.2.2.2.2.1 hwithout
    set w := v.failAttempts peer
    have hedits := freeHoldsOf_edits w peer
    have hbusy : BusyKept s (w.freeHoldsOf peer) :=
      BusyKept.trans (t := v) (.of_groups rfl rfl) (hkept.busy.trans (freeHoldsOf_busyKept w peer))
    have hpeer' : s.address ≠ peer := Ne.symm hpeer
    rw [show s.peerGone peer = w.freeHoldsOf peer from rfl]
    rw [hedits.frame.views, hkept.views, hedits.frame.calls]
    refine ⟨fun d c hc => (hedits.without (hkept.without hwithout)).routeList hc, forgetPeer_views s peer, hawaits,
      hothers, fun k h hk => ?_, fun k h hk hreq => ?_, fun li g c t u bp fr hg hx => ?_, hbusy.expired⟩
    · rw [freeHoldsOf_holdAt, Option.filter_eq_some_iff] at hk
      exact of_decide_eq_true (p := h.requester ≠ peer) hk.2
    · rw [freeHoldsOf_holdAt, hkept.holds.kept k h hk]
      simp [hreq]
    · obtain ⟨g', hg', hcircuits⟩ := hbusy.busy li g hg
      exact ⟨g', hg', hcircuits c _ rfl hx⟩

end Sys2Proof.Machine
end

section
/-! Each operation of the circuit, fault and hold units as a chain of core moves, with the uses that it ends. -/

namespace Sys2Proof.Machine

section
variable {P : Nat → Nat → Nat × Option Nat → Prop} {Q : Prop} {s : State}

/-- Groups sound, and the suspect list where it is followed: what a change of one circuit entry rests on. -/
structure State.EntriesSound (Q : Prop) (s : State) : Prop where
  found : s.GroupsFound
  suspects : Q → s.SuspectsSound

theorem State.CoreSound.entries (hs : s.CoreSound Q) : s.EntriesSound Q := ⟨hs.circuits.found, hs.suspects⟩

theorem State.EntriesSound.find_sound (hs : s.EntriesSound Q) {li : Nat} {g : Group}
    (hg : Tab.find s.groups li = some g) : g.Sound s.address li := (hs.found.2 li g hg).2

theorem State.CoreSound.find_sound (hs : s.CoreSound Q) {li : Nat} {g : Group} (hg : Tab.find s.groups li = some g) :
    g.Sound s.address li := hs.entries.find_sound hg

/-- The terminal of a circuit that may not be suspect is not on the suspect list (R23). -/
theorem State.SuspectsSound.not_mem (h : s.SuspectsSound) {li : Nat} {g : Group} (hg : Tab.find s.groups li = some g)
    (hsound : g.Sound s.address li) {c t : Nat} {x : Circuit} (hx : g.circuits[c]? = some x)
    (ht : x.terminal = some t) (hm : x.maySuspect = false) : (li, t) ∉ s.suspects := by
  intro hmem
  obtain ⟨y, hy, hym⟩ := h.2.2 _ hmem
  rw [State.servedBy_of_find hg, hsound.serves_of hx ht] at hy
  cases hy
  rw [hm] at hym; cases hym

/-! ## One circuit and its slot -/

/-- The slot that a circuit carries, if it carries one, has been freed; groups, suspects and configuration are as they
were (R57). -/
structure SlotFreed (s s1 : State) (x : Circuit) : Prop where
  groups : s1.groups = s.groups
  suspects : s1.suspects = s.suspects
  config : s1.config = s.config
  slots : (x.Slotless ∧ s1.slots = s.slots) ∨ ∃ u k, x.use = some (u, some k) ∧ s1.slots = (s.freeSlot k).slots

theorem SlotFreed.self {x : Circuit} (h : x.Slotless) : SlotFreed s s x := ⟨rfl, rfl, rfl, .inl ⟨h, rfl⟩⟩

theorem freeSlot_slots_congr {s t : State} (h : t.slots = s.slots) (k : Nat) :
    (t.freeSlot k).slots = (s.freeSlot k).slots := by
  unfold State.freeSlot State.setSlot
  rw [h]; split <;> simp [h]

theorem SlotFreed.free (s : State) (t u k : Nat) (bp fr : Bool) : SlotFreed s (s.freeSlot k) (.held t u k bp fr) :=
  ⟨freeSlot_groups s k, State.freeSlot_suspects s k, freeSlot_config s k, .inr ⟨u, k, rfl, rfl⟩⟩

theorem SlotFreed.slotsFollow {s1 u : State} {x y : Circuit} (h : SlotFreed s s1 x) {g g' : Group} {c : Nat}
    (hx : g.circuits[c]? = some x) (hy : g'.circuits[c]? = some y) (hys : y.Slotless) (hu : u.slots = s1.slots) :
    SlotsFollow s u g g' c := by
  have hnew : ∀ v k, g'.useAt c ≠ some (v, some k) := fun v k => by rw [Group.useAt_eq hy]; exact hys v k
  rcases h.slots with ⟨hxs, hslots⟩ | ⟨v, k, hold, hslots⟩
  · refine .kept (fun v k => ⟨fun h => absurd h (hnew v k), fun h => ?_⟩) (hu.trans hslots)
    rw [Group.useAt_eq hx] at h
    exact absurd h (hxs v k)
  · exact .freed v k (by rw [Group.useAt_eq hx]; exact hold) hnew (hu.trans hslots)

theorem SlotsFollow.of_use_eq {u : State} {g g' : Group} {c : Nat} (h : g'.useAt c = g.useAt c)
    (hu : u.slots = s.slots) : SlotsFollow s u g g' c :=
  .kept (fun v k => by rw [h]) hu

/-- A record written after the slot has been freed. -/
theorem GroupWritten.find_of_freed {s1 u : State} {x : Circuit} (h : SlotFreed s s1 x) {li : Nat} {g : Group}
    (w : GroupWritten s1 u li g) (j : Nat) : Tab.find u.groups j = if j = li then some g else Tab.find s.groups j := by
  rw [w.find, h.groups]

/-- The slot stays freed when a suspect is removed on both sides. -/
theorem SlotFreed.removeSuspect {s1 : State} {x : Circuit} (h : SlotFreed s s1 x) (li t : Nat) :
    SlotFreed (s.removeSuspect li t) (s1.removeSuspect li t) x := by
  refine ⟨h.groups, ?_, h.config, ?_⟩
  · show List.filter _ s1.suspects = List.filter _ s.suspects
    rw [h.suspects]
  · rcases h.slots with ⟨hx, hslots⟩ | ⟨u, k, hx, hslots⟩
    · exact .inl ⟨hx, hslots⟩
    · exact .inr ⟨u, k, hx, hslots.trans (freeSlot_slots_congr (s := s.removeSuspect li t) (t := s) rfl k)⟩

section
variable {s1 u : State} {li c t : Nat} {g g' : Group} {x y : Circuit}

/-- One circuit entry is rewritten on its terminal. -/
theorem circuit_move (hs : s.EntriesSound Q) (hg : Tab.find s.groups li = some g) (hx : g.circuits[c]? = some x)
    (ht : x.terminal = some t) (hfind : ∀ j, Tab.find u.groups j = if j = li then some g' else Tab.find s.groups j)
    (hsuspects : u.suspects = s.suspects) (hconfig : u.config = s.config) (hsound : g'.Sound s.address li)
    (hglobal : g'.global = g.global) (hcircuits : g'.circuits = g.circuits.set c y)
    (hterminals : g'.terminals = g.terminals) (huse : ∀ v, x.use = some v → y.use = some v ∨ P li c v)
    (hslots : SlotsFollow s u g g' c) (hsus : Q → (li, t) ∈ s.suspects → y.maySuspect = true) :
    GroupMove P Q s u li g g' c t := by
  have hget : ∀ j, g'.circuits[j]? = if j = c then some y else g.circuits[j]? := by
    rw [hcircuits]; exact getElem?_set_circuit hx y
  have hc : g'.circuits[c]? = some y := by rw [hget, if_pos rfl]
  have hserves : ∀ t', g'.serves t' = (g.setCircuit c y).serves t' := fun t' => by
    unfold Group.serves; rw [hterminals, hcircuits]
  refine ⟨hg, hfind, hsuspects, hconfig, hglobal, hsound, fun j hj => ?_, fun v hv => ?_,
    hslots, fun t' z hne hz _ => ?_, fun hQ hmem => ⟨y, ?_, hsus hQ hmem⟩⟩
  · rw [Group.useAt, hget, if_neg hj]; rfl
  · rw [Group.useAt_eq hx] at hv
    rw [Group.useAt_eq hc]
    exact huse v hv
  · rw [hserves]
    exact (hs.find_sound hg).serves_setCircuit hx ht y hne hz
  · rw [hserves]
    exact (hs.find_sound hg).serves_setCircuit_self hx ht

/-- A circuit is rewritten and its counts are handed over, its slot freed before (R5, R15). -/
theorem hand_move (hs : s.EntriesSound Q) (hfreed : SlotFreed s s1 x) (hg : Tab.find s.groups li = some g)
    (hx : g.circuits[c]? = some x) (ht : x.terminal = some t) (hy : y.terminal = some t) (hys : y.Slotless)
    (huse : ∀ v, x.use = some v → y.use = some v ∨ P li c v) (hsus : Q → (li, t) ∈ s.suspects → y.maySuspect = true) :
    GroupMove P Q s (s1.handGroup li (g.setCircuit c y)) li g (g.setCircuit c y).recomputed c t := by
  have w := handGroup_written s1 li (g.setCircuit c y)
  have hsound : (g.setCircuit c y).recomputed.Sound s.address li := (hs.find_sound hg).setCircuit hx ht hy
  refine circuit_move hs hg hx ht (w.find_of_freed hfreed) (w.suspects.trans hfreed.suspects)
    (w.config.trans hfreed.config) hsound rfl rfl rfl huse ?_ hsus
  exact hfreed.slotsFollow hx (y := y) (by rw [Group.recomputed_circuits, Group.setCircuit_get hx, if_pos rfl]) hys
    w.slots

/-- A flag of a circuit in use changes; its counts do not (R18, R19, R30). -/
theorem flag_move (hs : s.EntriesSound Q) (hg : Tab.find s.groups li = some g) (hx : g.circuits[c]? = some x)
    (ht : x.terminal = some t) (hy : y.terminal = some t) (huse : y.use = x.use)
    (hsus : Q → (li, t) ∈ s.suspects → y.maySuspect = true) :
    GroupMove P Q s (s.setGroup li (g.setCircuit c y)) li g (g.setCircuit c y) c t := by
  have w := setGroup_written s li (g.setCircuit c y)
  have hsound : (g.setCircuit c y).Sound s.address li := (hs.find_sound hg).setCircuit hx ht hy
  refine circuit_move hs hg hx ht w.find w.suspects w.config hsound rfl rfl rfl
    (fun v hv => .inl (huse.trans hv)) (.of_use_eq ?_ rfl) hsus
  rw [Group.useAt_eq hx, Group.useAt_eq (x := y) (by rw [Group.setCircuit_get hx, if_pos rfl]), huse]

/-- The circuit of a faulty terminal is out of use. -/
theorem Group.useAt_faultTaken (hx : g.circuits[c]? = some x) (b : Bool) : (g.faultTaken c t b).useAt c = none := by
  obtain ⟨y, hy, hget⟩ := g.faulted_get (t := t) hx b
  rw [Group.useAt, Group.faultTaken_circuits, hget, if_pos rfl]
  exact hy

/-- A terminal is FAULTY and its circuit moves to a spare, or is FAULTY (R31 to R33). -/
theorem fault_move (hs : s.EntriesSound Q) (hg : Tab.find s.groups li = some g) (hx : g.circuits[c]? = some x)
    (ht : x.terminal = some t) (b : Bool)
    (hfind : ∀ j, Tab.find u.groups j = if j = li then some (g.faultTaken c t b) else Tab.find s.groups j)
    (hsuspects : u.suspects = s.suspects) (hconfig : u.config = s.config) (huse : ∀ v, x.use = some v → P li c v)
    (hslots : SlotsFollow s u g (g.faultTaken c t b) c) (hsus : Q → (li, t) ∉ s.suspects) :
    GroupMove P Q s u li g (g.faultTaken c t b) c t := by
  have hsound := hs.find_sound hg
  obtain ⟨y, hy, hget⟩ := g.faulted_get (t := t) hx b
  refine ⟨hg, hfind, hsuspects, hconfig, Group.faultTaken_global .., hsound.faultTaken hx ht b, fun j hj => ?_,
    fun v hv => .inr (huse v ?_), hslots, fun t' z hne hz _ => hsound.serves_faulted hx ht b hne hz,
    fun hQ hmem => absurd hmem (hsus hQ)⟩
  · rw [Group.useAt, Group.faultTaken_circuits, hget, if_neg hj]; rfl
  · rwa [Group.useAt_eq hx] at hv

/-- Fault handling of the terminal of a circuit whose slot has been freed (R31). -/
theorem faultHandle_move (hs : s.EntriesSound Q) (hfreed : SlotFreed s s1 x) (hg : Tab.find s.groups li = some g)
    (hx : g.circuits[c]? = some x) (ht : x.terminal = some t) (b : Bool) (huse : ∀ v, x.use = some v → P li c v)
    (hsus : Q → (li, t) ∉ s.suspects) :
    GroupMove P Q s (s1.faultHandle li c t b) li g (g.faultTaken c t b) c t := by
  have hsound := hs.find_sound hg
  have w := faultHandle_written (s := s1) (by rw [hfreed.groups]; exact hg) hsound.2.2.2.2.2.2 c t b
  obtain ⟨y, hy, hget⟩ := g.faulted_get (t := t) hx b
  have hc : (g.faultTaken c t b).circuits[c]? = some y := by
    rw [Group.faultTaken_circuits, hget, if_pos rfl]
  exact fault_move hs hg hx ht b (w.find_of_freed hfreed) (w.suspects.trans hfreed.suspects)
    (w.config.trans hfreed.config) huse (hfreed.slotsFollow hx hc (Circuit.slotless_of_use_none hy) w.slots) hsus

theorem Circuit.slotless_freed (bp : Bool) (t : Nat) : (if bp then Circuit.blocked t else .idle t).Slotless := by
  cases bp <;> exact Circuit.slotless_of_use_none rfl

theorem Circuit.terminal_freed (bp : Bool) (t : Nat) :
    (if bp then Circuit.blocked t else .idle t).terminal = some t := by cases bp <;> rfl

theorem Circuit.maySuspect_freed (bp : Bool) (t : Nat) :
    (if bp then Circuit.blocked t else .idle t).maySuspect = true := by cases bp <;> rfl

theorem Circuit.maySuspect_of_faultWaits (h : x.faultWaits = true) : x.maySuspect = false := by
  cases x with
  | held t u k bp fr => simp only [Circuit.faultWaits] at h; rw [Circuit.maySuspect, h]; rfl
  | busy t u bp fr => rfl
  | idle t => cases h
  | blocked t => cases h
  | faulty => cases h

/-- The release order (R15). -/
theorem endUse_move (hs : s.EntriesSound Q) (hfreed : SlotFreed s s1 x) (hg : Tab.find s.groups li = some g)
    (hx : g.circuits[c]? = some x) (ht : x.terminal = some t) (bp : Bool) {fr : Bool} (hfr : x.faultWaits = fr)
    (huse : ∀ v, x.use = some v → P li c v) : CoreMove P Q s (s1.endUse li g c t bp fr) := by
  cases fr with
  | true =>
    exact .group (faultHandle_move hs hfreed hg hx ht false huse fun hQ =>
      (hs.suspects hQ).not_mem hg (hs.find_sound hg) hx ht (Circuit.maySuspect_of_faultWaits hfr))
  | false =>
    exact .group (hand_move hs hfreed hg hx ht (Circuit.terminal_freed bp t) (Circuit.slotless_freed bp t)
      (fun v hv => .inr (huse v hv)) fun _ _ => Circuit.maySuspect_freed bp t)

/-- A suspect entry leaves (R26, R27). -/
theorem removeSuspect_move (hs : s.CoreSound Q) (li t : Nat) : CoreMove P Q s (s.removeSuspect li t) :=
  .suspects rfl rfl rfl fun hQ => by
    obtain ⟨hlen, hnodup, hserved⟩ := hs.suspects hQ
    exact ⟨(List.length_filter_le _ _).trans hlen, hnodup.filter _,
      fun e he => hserved e (List.mem_filter.1 he).1⟩

theorem State.not_mem_removeSuspect (s : State) (li t : Nat) : (li, t) ∉ (s.removeSuspect li t).suspects :=
  fun h => of_decide_eq_true (List.mem_filter.1 h).2 rfl

/-- A circuit becomes BUSY and its terminal is verified (R12, R13, R27). -/
theorem makeBusy_moves (hs : s.CoreSound Q) (hfreed : SlotFreed s s1 x) (hg : Tab.find s.groups li = some g)
    (hx : g.circuits[c]? = some x) (ht : x.terminal = some t) (user : Nat) (bp fr : Bool)
    (huse : ∀ v, x.use = some v → P li c v) : CoreMoves P Q s (s1.makeBusy li g c t user bp fr) := by
  have hremove : CoreMove P Q s (s.removeSuspect li t) := removeSuspect_move hs li t
  have hs' := hremove.one.coreSound hs
  have hfreed' := hfreed.removeSuspect li t
  have w := handGroup_written s1 li (g.setCircuit c (.busy t user bp fr))
  have hsound : (g.setCircuit c (.busy t user bp fr)).recomputed.Sound s.address li :=
    (hs.find_sound hg).setCircuit hx ht rfl
  refine hremove.one.tail (.group (circuit_move (y := .busy t user bp fr) hs'.entries hg hx ht
      (w.find_of_freed hfreed) ?_
    (w.config.trans hfreed.config) hsound rfl rfl rfl (fun v hv => .inr (huse v hv))
    (hfreed'.slotsFollow hx (y := .busy t user bp fr) ?_ (Circuit.slotless_busy _ _ _ _) w.slots)
    fun _ hmem => absurd hmem (s.not_mem_removeSuspect li t)))
  · show List.filter _ (s1.handGroup li _).suspects = List.filter _ s.suspects
    rw [w.suspects, hfreed.suspects]
  · rw [Group.recomputed_circuits, Group.setCircuit_get hx, if_pos rfl]

end

/-! ## The suspect list (R25 to R30) -/

section
variable {li t : Nat}

/-- A condemned terminal that is off the list changes the circuit it serves, if it serves one (R28 to R30). -/
theorem condemn_cases (hs : s.CoreSound Q) (hoff : Q → (li, t) ∉ s.suspects) :
    s.condemn li t = s ∨ ∃ g g' c, GroupMove P Q s (s.condemn li t) li g g' c t := by
  cases hg : Tab.find s.groups li with
  | none => exact .inl (by simp only [State.condemn, hg])
  | some g =>
    cases hrole : g.terminals[t]? with
    | none => exact .inl (by simp only [State.condemn, hg, hrole])
    | some role =>
      cases role with
      | spare => exact .inl (by simp only [State.condemn, hg, hrole])
      | faulty => exact .inl (by simp only [State.condemn, hg, hrole])
      | serving c =>
        obtain ⟨x, hx, ht⟩ := (hs.find_sound hg).terminal_of_serving hrole
        obtain ⟨hidle, hblocked, hheld, hbusy⟩ := State.condemn_of_serving hg hrole
        refine .inr ⟨g, ?_⟩
        cases x with
        | idle t' =>
          rw [hidle t' hx]
          exact ⟨_, c, faultHandle_move hs.entries (.self (Circuit.slotless_of_use_none rfl)) hg hx ht false
            (fun v hv => nomatch hv) hoff⟩
        | blocked t' =>
          rw [hblocked t' hx]
          exact ⟨_, c, faultHandle_move hs.entries (.self (Circuit.slotless_of_use_none rfl)) hg hx ht true
            (fun v hv => nomatch hv) hoff⟩
        | held t' u k bp fr =>
          rw [hheld t' u k bp fr hx]
          exact ⟨_, c, flag_move hs.entries hg hx ht (y := .held t' u k bp true) ht rfl fun hQ hmem =>
              absurd hmem (hoff hQ)⟩
        | busy t' u bp fr =>
          rw [hbusy t' u bp fr hx]
          exact ⟨_, c, flag_move hs.entries hg hx ht (y := .busy t' u bp true) ht rfl fun hQ hmem =>
              absurd hmem (hoff hQ)⟩
        | faulty => cases ht

/-- The promotion of the oldest suspect: one entry less, and every other suspect's circuit as it was (R28). -/
theorem promoteOldest_moves (hs : s.CoreSound Q) :
    CoreMoves P Q s s.promoteOldest ∧ s.promoteOldest.suspects = s.suspects.tail ∧
    ∀ e x, s.suspects.head? ≠ some e → s.servedBy e.1 e.2 = some x → x.maySuspect = true →
      s.promoteOldest.servedBy e.1 e.2 = some x := by
  cases hlist : s.suspects with
  | nil =>
    have hsame : s.promoteOldest = s := by simp only [State.promoteOldest, hlist]
    rw [hsame]
    exact ⟨.refl, hlist, fun e x _ hx _ => hx⟩
  | cons o rest =>
    set v : State := { s with suspects := rest, counters := s.counters.bump .suspectsPromoted } with hv
    have hpromote : s.promoteOldest = v.condemn o.1 o.2 := by simp only [State.promoteOldest, hlist]; rfl
    have hfirst : CoreMove P Q s v := .suspects rfl rfl rfl fun hQ => by
      obtain ⟨hlen, hnodup, hserved⟩ := hs.suspects hQ
      rw [hlist] at hlen hnodup hserved
      exact ⟨(Nat.le_succ _).trans hlen, (List.nodup_cons.1 hnodup).2, fun e he =>
        hserved e (List.mem_cons_of_mem _ he)⟩
    have hoff : Q → (o.1, o.2) ∉ v.suspects := fun hQ => by
      have hnodup := (hs.suspects hQ).2.1
      rw [hlist] at hnodup
      exact (List.nodup_cons.1 hnodup).1
    rw [hpromote]
    refine ⟨?_, State.condemn_suspects v _ _, fun e x hne hx hm => ?_⟩
    · rcases condemn_cases (P := P) (hfirst.one.coreSound hs) hoff with hsame | ⟨g, g', c, hmove⟩
      · rw [hsame]; exact hfirst.one
      · exact hfirst.one.tail (.group hmove)
    · have hne' : e ≠ (o.1, o.2) := fun he => hne (congrArg some he.symm)
      rcases condemn_cases (P := P) (hfirst.one.coreSound hs) hoff with hsame | ⟨g, g', c, hmove⟩
      · rw [hsame]; exact hx
      · exact hmove.servedBy hne' (s := v) hx hm

/-- A terminal that is off the list and may be suspect joins it (R25). -/
theorem appendSuspect_moves (hs : s.CoreSound Q) (hoff : Q → (li, t) ∉ s.suspects)
    (hserved : Q → ∃ y, s.servedBy li t = some y ∧ y.maySuspect = true) : CoreMoves P Q s (s.appendSuspect li t) := by
  have hjoin : ∀ v : State, CoreMoves P Q s v → (Q → v.suspects.length < Config.suspectCapacity) →
      (Q → (li, t) ∉ v.suspects) → (Q → ∃ y, v.servedBy li t = some y ∧ y.maySuspect = true) →
      CoreMoves P Q s { v with suspects := v.suspects ++ [(li, t)] } := fun v hmoves hlen hnew hserves =>
    hmoves.tail <| .suspects rfl rfl rfl fun hQ => by
      obtain ⟨-, hnodup, hall⟩ := (hmoves.coreSound hs).suspects hQ
      refine ⟨?_, ?_, fun e he => ?_⟩
      · have hlen := hlen hQ
        simp only [List.length_append, List.length_singleton]
        omega
      · refine List.nodup_append.2 ⟨hnodup, by simp, fun e he d hd => ?_⟩
        rintro rfl
        rw [List.mem_singleton.1 hd] at he
        exact hnew hQ he
      · rcases List.mem_append.1 he with he | he
        · exact hall e he
        · rw [List.mem_singleton.1 he]; exact hserves hQ
  unfold State.appendSuspect
  dsimp only
  split
  · rename_i hroom
    exact hjoin s .refl (fun _ => hroom) hoff hserved
  · rename_i hfull
    obtain ⟨hmoves, hsuspects, hkept⟩ := promoteOldest_moves (P := P) hs
    refine hjoin _ hmoves (fun hQ => ?_) (fun hQ hmem => ?_) fun hQ => ?_
    · have hlen := (hs.suspects hQ).1
      rw [hsuspects, List.length_tail]
      have hcap : 0 < Config.suspectCapacity := by decide
      omega
    · rw [hsuspects] at hmem
      exact hoff hQ (List.mem_of_mem_tail hmem)
    · obtain ⟨y, hy, hm⟩ := hserved hQ
      exact ⟨y, hkept (li, t) y (fun hhead => hoff hQ (List.mem_of_mem_head? hhead)) hy hm, hm⟩

end

/-! ## The hold unit -/

section
variable {li c t : Nat} {g : Group}

/-- A seizure failure on a circuit that has just left HELD (R16, R25, R26, R30). -/
theorem treatFailure_moves {u k : Nat} {bp fr : Bool} (hs : s.CoreSound Q) (hg : Tab.find s.groups li = some g)
    (hx : g.circuits[c]? = some (.held t u k bp fr)) (huse : P li c (u, some k)) :
    CoreMoves P Q s ((s.freeSlot k).treatFailure li g c t bp fr) := by
  have hfreed := SlotFreed.free s t u k bp fr
  have hsound := hs.find_sound hg
  have huse' : ∀ v, (Circuit.held t u k bp fr).use = some v → P li c v := fun v hv => by cases hv; exact huse
  cases fr with
  | true =>
    exact CoreMove.one (.group (faultHandle_move hs.entries hfreed hg hx rfl false huse' fun hQ =>
      (hs.suspects hQ).not_mem hg hsound hx rfl rfl))
  | false =>
    by_cases hmem : (li, t) ∈ s.suspects
    · rw [State.treatFailure_of_suspect _ _ _ _ _ _ (by rw [State.freeSlot_suspects]; exact hmem)]
      have hremove : CoreMove P Q s (s.removeSuspect li t) := removeSuspect_move hs li t
      exact hremove.one.tail (.group (faultHandle_move (hremove.one.coreSound hs).entries (hfreed.removeSuspect li t) hg
          hx rfl
        false huse' fun _ => s.not_mem_removeSuspect li t))
    · rw [State.treatFailure_of_new _ _ _ _ _ _ (by rw [State.freeSlot_suspects]; exact hmem)]
      have hmove : GroupMove P Q s _ li g _ c t := hand_move hs.entries hfreed hg hx rfl (Circuit.terminal_freed bp t)
        (Circuit.slotless_freed bp t) (fun v hv => .inr (huse' v hv)) fun _ _ => Circuit.maySuspect_freed bp t
      have hhand : CoreMoves P Q s _ := CoreMove.one (.group hmove)
      refine hhand.trans (appendSuspect_moves (hhand.coreSound hs) (fun _ => ?_) fun _ =>
        ⟨_, ?_, Circuit.maySuspect_freed bp t⟩)
      · rw [hmove.suspects]; exact hmem
      · rw [State.servedBy_of_find hmove.find_self]
        exact hsound.serves_setCircuit_self hx rfl

/-- A hold names the HELD circuit of its slot (R11, R57). -/
theorem State.CircuitsSound.circuit_of_hold (hs : s.CircuitsSound) {k : Nat} {h : Hold} (hk : s.holdAt k = some h) :
    ∃ li g t bp fr, Tab.find s.groups li = some g ∧ g.circuits[h.circuit]? = some (.held t h.requester k bp fr) ∧
      s.ownCircuit h.group h.circuit = some (li, g, .held t h.requester k bp fr) := by
  obtain ⟨li, g, t, bp, fr, hg, hgroup, hx⟩ := hs.linked.1 k h hk
  exact ⟨li, g, t, bp, fr, hg, hx, by rw [hgroup]; exact hs.found.ownCircuit hg hx⟩

/-- A HELD circuit that a hold id names is held by the sender (R57, R58). -/
theorem State.CircuitsSound.user_of_match (hs : s.CircuitsSound) {sender slot gen group : Nat} {x : Circuit}
    (hown : s.ownCircuit group c = some (li, g, x)) (hmatch : s.HoldMatches sender slot gen group c) :
    ∃ t bp fr, x = .held t sender slot bp fr := by
  obtain ⟨y, h, hy, hhold, -, hgroup, hcircuit, hreq⟩ := hmatch
  have hk : s.holdAt slot = some h := by rw [State.holdAt, hy]; exact hhold
  obtain ⟨li', g', t, bp, fr, -, -, hown'⟩ := hs.circuit_of_hold hk
  rw [hgroup, hcircuit, hown] at hown'
  cases hown'
  exact ⟨t, bp, fr, by rw [hreq]⟩

/-- The end of a hold releases its circuit (R14, R62, R70, R75). -/
theorem endHold_moves (hs : s.CoreSound Q) (k : Nat)
    (huse : ∀ h li, s.holdAt k = some h → P li h.circuit (h.requester, some k)) : CoreMoves P Q s (s.endHold k) := by
  cases hk : s.holdAt k with
  | none =>
    have hsame : s.endHold k = s := by simp only [State.endHold, hk]
    rw [hsame]
  | some h =>
    obtain ⟨li, g, t, bp, fr, hg, hx, hown⟩ := hs.circuits.circuit_of_hold hk
    rw [State.endHold_of_held hk hown]
    exact (endUse_move hs.entries (.free s t _ k bp fr) hg hx rfl bp rfl fun v hv => by
      cases hv
      exact huse h li hk).one

theorem freeHoldsOf_moves (hs : s.CoreSound Q) (peer : Nat) (huse : ∀ li c k, P li c (peer, some k)) :
    CoreMoves P Q s (s.freeHoldsOf peer) := by
  rw [State.freeHoldsOf_eq]
  generalize List.range Config.holdSlots = l
  induction l generalizing s with
  | nil => exact .refl
  | cons k l ih =>
    have hone : CoreMoves P Q s (s.freeIfOf peer k) := by
      unfold State.freeIfOf
      split
      · rename_i h hk
        split
        · rename_i hreq
          refine endHold_moves hs k fun h' li hk' => ?_
          rw [hk] at hk'
          cases hk'
          rw [hreq]
          exact huse li h.circuit k
        · exact .refl
      · exact .refl
    exact hone.trans (ih (hone.coreSound hs))

variable {sender group : Nat}

/-- A take by slot or by name (R65, R66, R73). -/
theorem takeHold_moves {slot gen : Nat} (hs : s.CoreSound Q)
    (huse : ∀ li, s.HoldMatches sender slot gen group c → P li c (sender, some slot)) : CoreMoves P Q s
        (s.takeHold sender slot gen group c).1 := by
  cases hown : s.ownCircuit group c with
  | none => rw [State.takeHold_of_noCircuit hown]
  | some p =>
    obtain ⟨li, g, x⟩ := p
    obtain ⟨hfound, -, hx⟩ := ownCircuit_some hown
    have hg := (ownGroup_some hfound).2.2
    by_cases hmatch : s.HoldMatches sender slot gen group c
    · obtain ⟨t, bp, fr, rfl⟩ := hs.circuits.user_of_match hown hmatch
      rw [State.takeHold_of_match hown hmatch]
      exact makeBusy_moves hs (.free s t _ slot bp fr) hg hx rfl _ _ _ fun v hv => by
        cases hv; exact huse li hmatch
    · cases hidle : x.isIdle with
      | false => rw [State.takeHold_of_neither hown hmatch hidle]
      | true =>
        cases x with
        | idle t =>
          rw [State.takeHold_of_idle hown hmatch]
          exact makeBusy_moves hs (.self (Circuit.slotless_of_use_none rfl)) hg hx rfl _ _ _ fun v hv => nomatch hv
        | _ => cases hidle

/-- A drop by slot or by user (R14, R68). -/
theorem dropHold_moves (hs : s.CoreSound Q) (id : Option (Nat × Nat))
    (huse : ∀ li g k, s.ownGroup group = some (li, g) → P li c (sender, k)) :
    CoreMoves P Q s (s.dropHold sender id group c).1 := by
  have hstale : CoreMoves P Q s (s.bump .staleDrops) := (bump_same s _).moves
  cases hown : s.ownCircuit group c with
  | none => rw [State.dropHold_of_noCircuit id hown]; exact hstale
  | some p =>
    obtain ⟨li, g, x⟩ := p
    obtain ⟨hfound, -, hx⟩ := ownCircuit_some hown
    have hg := (ownGroup_some hfound).2.2
    cases x with
    | held t u k bp fr =>
      obtain ⟨hends, hnot⟩ := State.dropHold_held (sender := sender) hown id
      by_cases h : u = sender ∧ (id = none ∨ (s.DropMatches sender id group c ∧ id.map (·.1) = some k))
      · rw [hends h]
        obtain ⟨rfl, -⟩ := h
        exact (endUse_move hs.entries (.free s t u k bp fr) hg hx rfl bp rfl
          fun v hv => by cases hv; exact huse li g _ hfound).one
      · rw [hnot h]; exact hstale
    | busy t u bp fr =>
      obtain ⟨hends, hnot⟩ := State.dropHold_busy (sender := sender) hown id
      by_cases h : u = sender ∧ ¬ s.DropMatches sender id group c
      · rw [hends h]
        obtain ⟨rfl, -⟩ := h
        exact (endUse_move hs.entries (.self (Circuit.slotless_busy t u bp fr)) hg hx rfl bp rfl
          fun v hv => by cases hv; exact huse li g _ hfound).one
      · rw [hnot h]; exact hstale
    | idle t => rw [State.dropHold_of_notInUse hown rfl]; exact hstale
    | blocked t => rw [State.dropHold_of_notInUse hown rfl]; exact hstale
    | faulty => rw [State.dropHold_of_notInUse hown rfl]; exact hstale

/-- A reported seizure failure (R69, R74). -/
theorem faultHold_moves {slot gen : Nat} (hs : s.CoreSound Q)
    (huse : ∀ li, s.HoldMatches sender slot gen group c → P li c (sender, some slot)) :
    CoreMoves P Q s (s.faultHold sender slot gen group c) := by
  by_cases hmatch : s.HoldMatches sender slot gen group c
  · cases hown : s.ownCircuit group c with
    | none =>
      rw [State.faultHold_of_stale fun li g t u bp fr h => by rw [hown] at h; cases h]
      exact (bump_same s _).moves
    | some p =>
      obtain ⟨li, g, x⟩ := p
      obtain ⟨hfound, -, hx⟩ := ownCircuit_some hown
      obtain ⟨t, bp, fr, rfl⟩ := hs.circuits.user_of_match hown hmatch
      rw [State.faultHold_of_match hown hmatch]
      exact treatFailure_moves hs (ownGroup_some hfound).2.2 hx (huse li hmatch)
  · rw [State.faultHold_of_stale fun _ _ _ _ _ _ _ => hmatch]
    exact (bump_same s _).moves

end
end

end Sys2Proof.Machine
end

section
/-! The grants, the control commands and the operations of the call unit as chains of core moves. -/

namespace Sys2Proof.Machine

section
variable {P : Nat → Nat → Nat × Option Nat → Prop} {Q : Prop} {s : State}

/-! ## Grants (R60 to R62) -/

/-- A group record is rewritten with its circuits and terminals as they were. -/
theorem rewrite_move {u : State} {li : Nat} {g g' : Group} (hs : s.CoreSound Q) (hg : Tab.find s.groups li = some g)
    (w : GroupWritten s u li g') (hsound : g'.Sound s.address li) (hglobal : g'.global = g.global)
    (hcircuits : g'.circuits = g.circuits) (hterminals : g'.terminals = g.terminals) : CoreMove P Q s u := by
  have huse : ∀ c, g'.useAt c = g.useAt c := fun c => by rw [Group.useAt, hcircuits]; rfl
  have hserves : ∀ t, g'.serves t = g.serves t := fun t => by unfold Group.serves; rw [hterminals, hcircuits]
  refine .group (c := 0) (term := 0) ⟨hg, w.find, w.suspects, w.config, hglobal, hsound, fun j _ => huse j,
    fun v hv => .inl ((huse 0).trans hv), .of_use_eq (huse 0) w.slots, fun t x _ hx _ => (hserves t).trans hx,
    fun hQ hmem => ?_⟩
  obtain ⟨y, hy, hm⟩ := (hs.suspects hQ).2.2 _ hmem
  rw [State.servedBy_of_find hg] at hy
  exact ⟨y, (hserves 0).trans hy, hm⟩

/-- An attempt is counted (R46). -/
theorem attempted_move {li : Nat} {g : Group} (hs : s.CoreSound Q) (hg : Tab.find s.groups li = some g) :
    CoreMove P Q s (s.handGroup li (g.attempted s.clock)) :=
  rewrite_move hs hg (handGroup_written s li _) ((hs.find_sound hg).attempted s.clock) rfl rfl rfl

/-- The global number of an own group's record is the number that named it (R1). -/
theorem State.CoreSound.global_eq (hs : s.CoreSound Q) {group li : Nat} {g : Group}
    (hown : s.ownGroup group = some (li, g)) : g.global = group := by
  obtain ⟨haddress, rfl, hg⟩ := ownGroup_some hown
  have hglobal := (hs.find_sound hg).1
  omega

theorem Group.Sound.granted {a li : Nat} {g : Group} (h : g.Sound a li) {c t : Nat}
    (hx : g.circuits[c]? = some (.idle t)) (requester k : Nat) : (g.granted c t requester k).recomputed.Sound a li := by
  have hpos : 0 < g.cfg.working := Nat.zero_lt_of_lt (h.lt_working hx)
  exact (h.setCircuit hx rfl (y := .held t requester k false false) rfl).setHunt (Nat.mod_lt _ hpos)

/-- A request for a hold ends no use (R60, R61). -/
theorem requestHold_moves {requester serial group prec : Nat} (hs : s.CoreSound Q) {u : State} {answer : HoldAnswer}
    (h : s.requestHold requester serial group prec = (u, answer)) : CoreMoves P Q s u := by
  cases answer with
  | denied reason band =>
    rcases State.requestHold_denied h with rfl | ⟨li, g0, hown, rfl⟩
    · exact .refl
    · exact (attempted_move hs (ownGroup_some hown).2.2).one
  | granted gr =>
    obtain ⟨li, g0, g, x, hgrant⟩ := State.requestHold_granted h
    have hattempt : CoreMoves P Q s _ := (attempted_move hs (ownGroup_some hgrant.own).2.2).one
    have hglobal : g.global = group := 
      (congrArg Group.global hgrant.attempted).trans (show g0.global = group from hs.global_eq hgrant.own)
    rw [hgrant.state]
    set v := s.handGroup li (g0.attempted s.clock)
    have hv : v.CoreSound Q := hattempt.coreSound hs
    have hg : Tab.find v.groups li = some g := by rw [State.find_handGroup_self, hgrant.attempted]
    have hidle := Group.idle_of_hunt hgrant.hunt
    have hfree : v.holdAt gr.slot = none := by
      rw [State.handGroup_holdAt, State.holdAt, hgrant.slot]; exact hgrant.free
    have w := handGroup_written
      (v.setSlot gr.slot { generation := x.generation + 1
                           hold := some (s.holdOf requester serial group gr.circuit gr.band) })
      li (g.granted gr.circuit gr.terminal requester gr.slot)
    have hget : (g.granted gr.circuit gr.terminal requester gr.slot).recomputed.circuits[gr.circuit]? =
        some (.held gr.terminal requester gr.slot false false) := by
      rw [Group.recomputed_circuits]
      exact (getElem?_set_circuit hidle _ _).trans (if_pos rfl)
    refine hattempt.tail (.group (circuit_move hv.entries hg hidle rfl (w.find_of_freed ⟨rfl, rfl, rfl, .inl
      ⟨Circuit.slotless_of_use_none (x := .idle gr.terminal) rfl, rfl⟩⟩) w.suspects w.config
          ((hv.find_sound hg).granted hidle _ _) rfl rfl rfl
      (fun v hv => nomatch hv) ?_ fun _ _ => rfl))
    exact .granted gr.slot _ (s.holdOf requester serial group gr.circuit gr.band) hgrant.slot_lt (Group.useAt_eq hidle)
        (Group.useAt_eq hget) hfree rfl hglobal.symm rfl
      w.slots

/-- HOLD-ASK: a grant that could not be sent is ended again (R62). -/
theorem answerAsk_moves {sender serial ref group prec : Nat} (hs : s.CoreSound Q)
    (huse : ∀ li c k, P li c (sender, some k)) : CoreMoves P Q s (s.answerAsk sender serial ref group prec) := by
  unfold State.answerAsk
  split
  · exact (bump_same s _).moves
  · cases hrequest : s.requestHold sender serial group prec with
    | mk u answer =>
      have hmoves : CoreMoves P Q s u := requestHold_moves hs hrequest
      cases answer with
      | denied reason band => exact hmoves.trans (send_same u _ _).moves
      | granted gr =>
        have hoffer := offer_same u sender (giveMsg serial ref group gr)
        dsimp only
        split
        · rename_i v hv
          rw [hv] at hoffer
          exact hmoves.trans hoffer.moves
        · rename_i v hv
          rw [hv] at hoffer
          have hoffered : CoreMoves P Q s v := hmoves.trans hoffer.moves
          refine hoffered.trans (endHold_moves (hoffered.coreSound hs) gr.slot fun h li hk => ?_)
          obtain ⟨lj, g0, g, x, hgrant⟩ := State.requestHold_granted hrequest
          have hhold : u.holdAt gr.slot = some (s.holdOf sender serial group gr.circuit gr.band) := by
            rw [hgrant.state, State.handGroup_holdAt, State.holdAt_setSlot _ hgrant.slot_lt, if_pos rfl]
          rw [State.holdAt_congr hoffer.slots, hhold] at hk
          cases hk
          exact huse li _ gr.slot

theorem answerTake_moves {sender slot gen group c : Nat} (hs : s.CoreSound Q)
    (huse : ∀ li, P li c (sender, some slot)) : CoreMoves P Q s (s.answerTake sender slot gen group c) := by
  have hmoves : CoreMoves P Q s _ := takeHold_moves (gen := gen) (group := group) hs fun li _ => huse li
  unfold State.answerTake
  split
  · rename_i u hu
    rw [hu] at hmoves
    exact hmoves
  · rename_i u hu
    rw [hu] at hmoves
    exact hmoves.trans (send_same _ _ _).moves

theorem answerDrop_moves {sender idp slot gen group c : Nat} (hs : s.CoreSound Q)
    (huse : ∀ li k, P li c (sender, k)) : CoreMoves P Q s (s.answerDrop sender idp slot gen group c) := by
  unfold State.answerDrop
  split
  · exact (bump_same s _).moves
  · exact dropHold_moves hs _ fun li _ k _ => huse li k

/-! ## CIRCUIT-CONTROL (R18 to R20, R34) -/

theorem markReleased_same (s : State) (r : Nat) : CoreSame s (s.markReleased r) := by
  unfold State.markReleased
  split
  · exact ⟨rfl, rfl, rfl, rfl⟩
  · dsimp only
    split <;> exact ⟨rfl, rfl, rfl, rfl⟩

theorem markCircuit_same (s : State) (group circuit : Nat) : CoreSame s (s.markCircuit group circuit) :=
  CoreSame.foldl (fun s p => by
    split
    · exact markReleased_same s _
    · exact ⟨rfl, rfl, rfl, rfl⟩) _ s

theorem markForced_same (s : State) (user group circuit : Nat) : CoreSame s (s.markForced user group circuit) := by
  unfold State.markForced
  split
  · exact markCircuit_same s group circuit
  · exact ⟨rfl, rfl, rfl, rfl⟩

section
variable {li : Nat} {g : Group} (hs : s.CoreSound Q) (hg : Tab.find s.groups li = some g)
include hs hg

theorem blockCircuit_moves (c : Nat) : CoreMoves P Q s (blockCircuit s li g c).1 := by
  unfold blockCircuit
  split
  · rename_i t hx
    exact CoreMove.one (.group (hand_move hs.entries (.self (Circuit.slotless_of_use_none rfl)) hg hx rfl
      (y := .blocked t) rfl (Circuit.slotless_of_use_none rfl) (fun v hv => nomatch hv) fun _ _ => rfl))
  · rename_i t u k fr hx
    exact CoreMove.one (.group (flag_move hs.entries hg hx rfl (y := .held t u k true fr) rfl rfl fun hQ hmem => by
      obtain ⟨y, hy, hm⟩ := (hs.suspects hQ).2.2 _ hmem
      rw [State.servedBy_of_find hg, (hs.find_sound hg).serves_of hx rfl] at hy
      cases hy
      exact hm))
  · rename_i t u fr hx
    exact CoreMove.one (.group (flag_move hs.entries hg hx rfl (y := .busy t u true fr) rfl rfl fun hQ hmem => by
      exact absurd hmem ((hs.suspects hQ).not_mem hg (hs.find_sound hg) hx rfl rfl)))
  · exact .refl

theorem unblockCircuit_moves (c : Nat) : CoreMoves P Q s (unblockCircuit s li g c).1 := by
  unfold unblockCircuit
  split
  · rename_i t hx
    exact CoreMove.one (.group (hand_move hs.entries (.self (Circuit.slotless_of_use_none rfl)) hg hx rfl
      (y := .idle t) rfl (Circuit.slotless_of_use_none rfl) (fun v hv => nomatch hv) fun _ _ => rfl))
  · rename_i t u k fr hx
    exact CoreMove.one (.group (flag_move hs.entries hg hx rfl (y := .held t u k false fr) rfl rfl fun hQ hmem => by
      obtain ⟨y, hy, hm⟩ := (hs.suspects hQ).2.2 _ hmem
      rw [State.servedBy_of_find hg, (hs.find_sound hg).serves_of hx rfl] at hy
      cases hy
      exact hm))
  · rename_i t u fr hx
    exact CoreMove.one (.group (flag_move hs.entries hg hx rfl (y := .busy t u false fr) rfl rfl fun hQ hmem => by
      exact absurd hmem ((hs.suspects hQ).not_mem hg (hs.find_sound hg) hx rfl rfl)))
  · exact .refl

theorem restoreTerminal_moves (t : Nat) : CoreMoves P Q s (restoreTerminal s li g t).1 := by
  have hsound := hs.find_sound hg
  by_cases ht : g.terminals[t]? = some .faulty
  · rw [restoreTerminal_of_faulty ht]
    have w := restore_written (s := s) (li := li) hsound.2.2.2.2.2.2 t
    have hoff : Q → (li, t) ∉ s.suspects := fun hQ hmem => by
      obtain ⟨y, hy, -⟩ := (hs.suspects hQ).2.2 _ hmem
      rw [State.servedBy_of_find hg] at hy
      obtain ⟨c, hc, -⟩ := Group.serves_eq_some_iff.1 hy
      rw [ht] at hc; cases hc
    obtain ⟨c, huse, hnone⟩ : ∃ c, (∀ j, j ≠ c → (g.restoreTaken t).useAt j = g.useAt j) ∧
        (g.restoreTaken t).useAt c = g.useAt c := by
      rcases g.restored_cases t with ⟨c, hlow, he⟩ | ⟨-, he⟩
      · have hx := lowestFaulty_eq_some hlow
        have hget : ∀ j, (g.restoreTaken t).circuits[j]? = if j = c then some (.idle t) else g.circuits[j]? :=
            fun j => by
          rw [Group.restoreTaken_circuits, he]; exact getElem?_set_circuit hx _ j
        refine ⟨c, fun j hj => by rw [Group.useAt, hget, if_neg hj]; rfl, ?_⟩
        rw [Group.useAt_eq hx, Group.useAt, hget, if_pos rfl]; rfl
      · exact ⟨0, fun j _ => by rw [Group.useAt, Group.restoreTaken_circuits, he]; rfl,
          by rw [Group.useAt, Group.restoreTaken_circuits, he]; rfl⟩
    refine CoreMove.one (.group (c := c) (term := t) ⟨hg, w.find, w.suspects, w.config, Group.restoreTaken_global ..,
      hsound.restoreTaken ht, huse, fun v hv => .inl (hnone.trans hv), .of_use_eq hnone w.slots,
      fun t' x hne hx hm => ?_, fun hQ hmem => absurd hmem (hoff hQ)⟩)
    refine Group.serves_restored hne hx ?_
    cases x <;> first | rfl | cases hm
  · rw [restoreTerminal_of_other ht]

theorem forceCircuit_moves (c : Nat) (huse : ∀ v, P li c v) : CoreMoves P Q s (forceCircuit s li g c).1 := by
  unfold forceCircuit
  split
  · rename_i t u k bp fr hx
    exact (endUse_move hs.entries (.free s t u k bp fr) hg hx rfl bp rfl fun v _ => huse v).one.trans
      (markForced_same _ _ _ _).moves
  · rename_i t u bp fr hx
    exact (endUse_move hs.entries (.self (Circuit.slotless_busy t u bp fr)) hg hx rfl bp rfl fun v _ =>
        huse v).one.trans
      (markForced_same _ _ _ _).moves
  · exact .refl

/-- The last-announced triple of a group is written (R48). -/
theorem setAnnounced_move (x : Triple) :
    CoreMove P Q s (s.setGroup li { g with load := { g.load with announced := x } }) :=
  rewrite_move hs hg (setGroup_written s li _)
    (by have h := hs.find_sound hg; exact h) rfl rfl rfl

end
end

/-! ## The call unit -/

section
variable {P : Nat → Nat → Nat × Option Nat → Prop} {Q : Prop} {s : State}

theorem putRecord_same (s : State) (r : Nat) (rec : CallRecord) : CoreSame s (s.putRecord r rec) := ⟨rfl, rfl, rfl, rfl⟩

theorem freeRecord_same (s : State) (r : Nat) : CoreSame s (s.freeRecord r) := ⟨rfl, rfl, rfl, rfl⟩

theorem markRecord_same (s : State) (r : Nat) : CoreSame s (s.markRecord r) := by
  unfold State.markRecord
  split
  · exact ⟨rfl, rfl, rfl, rfl⟩
  · split <;> exact ⟨rfl, rfl, rfl, rfl⟩

theorem connect_same (s : State) (r : Nat) : CoreSame s (s.connect r) := by
  unfold State.connect
  split
  · split <;> exact ⟨rfl, rfl, rfl, rfl⟩
  · exact ⟨rfl, rfl, rfl, rfl⟩

theorem offerCall_same (s : State) (r : Nat) (b : CallBase) (group : Nat) (gr : Grant) :
    CoreSame s (s.offerCall r b group gr) := (send_same s _ _).trans (putRecord_same _ _ _)

theorem congested_same (s : State) (r : Nat) (b : CallBase) : CoreSame s (s.congested r b) :=
  ((send_same s _ _).trans (bump_same _ _)).trans (freeRecord_same _ _)

/-- Selection ends no use (R105 to R108). -/
theorem select_moves (hs : s.CoreSound Q) (r : Nat) (b : CallBase) (fuel : Nat) : CoreMoves P Q s
    (s.select r b fuel) := by
  induction fuel generalizing s b with
  | zero => exact (congested_same s r b).moves
  | succ fuel ih =>
    cases hpick : s.pick b with
    | none => rw [State.select_of_none (.inr hpick)]; exact (congested_same s r b).moves
    | some c =>
      by_cases hown : c.group / 16 = s.address
      · cases hrequest : s.requestHold s.address 0 c.group b.prec with
        | mk u answer =>
          have hmoves : CoreMoves P Q s u := requestHold_moves hs hrequest
          cases answer with
          | granted gr =>
            rw [State.select_of_granted hpick hown hrequest]
            exact hmoves.trans (offerCall_same ..).moves
          | denied reason band =>
            rw [State.select_of_denied hpick hown hrequest]
            exact hmoves.trans (ih (hmoves.coreSound hs) _)
      · cases hoffer : ({ s with serial := s.serial + 1 } : State).offer (c.group / 16)
            (.holdAsk (s.serial + 1).toNat r c.group b.prec) with
        | mk u sent =>
          have hserial : CoreSame s { s with serial := s.serial + 1 } := ⟨rfl, rfl, rfl, rfl⟩
          have hoffered := hserial.trans (offer_same _ (c.group / 16) (.holdAsk (s.serial + 1).toNat r c.group b.prec))
          rw [hoffer] at hoffered
          rw [State.select_of_offer hpick hown hoffer]
          cases sent with
          | true => exact hoffered.moves.trans (putRecord_same _ _ _).moves
          | false =>
            have hmoves : CoreMoves P Q s u := hoffered.moves
            exact hmoves.trans (ih (hmoves.coreSound hs) _)

theorem failAttempt_moves (hs : s.CoreSound Q) (r : Nat) : CoreMoves P Q s (s.failAttempt r) := by
  unfold State.failAttempt
  split
  · exact .refl
  · split
    · exact select_moves hs _ _ _
    · exact .refl

theorem failAttempts_moves (hs : s.CoreSound Q) (peer : Nat) : CoreMoves P Q s (s.failAttempts peer) := by
  unfold State.failAttempts
  generalize (s.calls.filter fun p => p.2.awaits peer).map (·.1) = l
  induction l generalizing s with
  | nil => exact .refl
  | cons r l ih =>
    have hone : CoreMoves P Q s (s.failAttempt r) := failAttempt_moves hs r
    exact hone.trans (ih (hone.coreSound hs))

theorem peerGone_moves (hs : s.CoreSound Q) (peer : Nat) (huse : ∀ li c k, P li c (peer, some k)) :
    CoreMoves P Q s (s.peerGone peer) := by
  have hforget : CoreMoves P Q s (s.forgetPeer peer) := CoreSame.moves ⟨rfl, rfl, rfl, rfl⟩
  have hfail : CoreMoves P Q s ((s.forgetPeer peer).failAttempts peer) :=
    hforget.trans (failAttempts_moves (hforget.coreSound hs) peer)
  exact hfail.trans (freeHoldsOf_moves (hfail.coreSound hs) peer huse)

section
variable {rec : CallRecord} {gr : Grant}

theorem seize_moves (hs : s.CoreSound Q) (r : Nat) (huse : ∀ li, P li gr.circuit (s.address, some gr.slot)) :
    CoreMoves P Q s (s.seize r rec gr) := by
  unfold State.seize
  split
  · have htake : CoreMoves P Q s _ := takeHold_moves (gen := gr.generation) (group := rec.group) hs fun li _ => huse li
    split
    · rename_i u hu
      rw [hu] at htake
      exact htake.trans (putRecord_same _ _ _).moves
    · rename_i u hu
      rw [hu] at htake
      exact htake.trans ((putRecord_same _ _ _).trans (markRecord_same _ _)).moves
  · have hoffer := offer_same s (rec.group / 16) (.holdTake gr.slot gr.generation rec.group gr.circuit)
    split
    · rename_i u hu
      rw [hu] at hoffer
      exact (hoffer.trans (putRecord_same _ _ _)).moves
    · rename_i u hu
      rw [hu] at hoffer
      exact (hoffer.trans ((putRecord_same _ _ _).trans (markRecord_same _ _))).moves

theorem endDrop_moves (hs : s.CoreSound Q)
    (huse : ∀ li g k, s.ownGroup rec.group = some (li, g) → P li gr.circuit (s.address, k)) :
    CoreMoves P Q s (s.endDrop rec gr) := by
  unfold State.endDrop
  split
  · exact .refl
  · split
    · exact dropHold_moves hs _ huse
    · exact (send_same s _ _).moves

theorem reportFault_moves (hs : s.CoreSound Q) (huse : ∀ li,
    s.HoldMatches s.address gr.slot gr.generation rec.group gr.circuit → P li gr.circuit (s.address, some gr.slot)) :
    CoreMoves P Q s (s.reportFault rec gr) := by
  unfold State.reportFault
  split
  · exact faultHold_moves hs huse
  · exact (send_same s _ _).moves

end
end

end Sys2Proof.Machine
end

section
/-! The resets and the load records: what the releases of a reset, a good read and the entry to LISTEN keep of groups,
holds and suspects. -/

namespace Sys2Proof.Machine

/-! ## Load records (R5, R39) -/

theorem State.LoadSound.listening (s : State) : s.listening.LoadSound := by
  intro p hp
  obtain ⟨q, -, rfl⟩ := List.mem_map.1 hp
  exact Group.recomputed_restarted _ _

/-- A load record follows its counts after every elementary change. -/
theorem Edit.loadSound {s t : State} (h : Edit s t) (hs : s.LoadSound) : t.LoadSound := by
  cases h with
  | circuit _ h =>
    cases h with
    | group li g g0 h0 hc hl =>
      intro p hp
      rcases Tab.mem_put hp with rfl | hp
      · exact hl (hs _ (Tab.mem_of_find h0))
      · exact hs p hp
    | _ => exact hs
  | reach f rest =>
    intro p hp
    rw [applyReach_frame] at hp
    exact hs p hp
  | listen => exact State.LoadSound.listening s
  | hunts =>
    intro p hp
    obtain ⟨q, hq, rfl⟩ := List.mem_map.1 hp
    exact congrArg (fun g : Group => { g with huntPtr := 0 }) (hs q hq)
  | clear => intro p hp; cases hp
  | power => intro p hp; cases hp
  | _ => exact hs

theorem step_loadSound {s t : State} (hstep : step s = .next t) (hs : s.LoadSound) : t.LoadSound := by
  rcases step_edits hstep with he | ⟨image, rest, -, -, -, -, rfl⟩
  · exact he.keeps (fun _ _ => Edit.loadSound) hs
  · obtain ⟨u, -, hreaches⟩ := readGood_parts { s with pending := rest, reading := false } image
    exact hreaches.edits.keeps (fun _ _ => Edit.loadSound) (State.LoadSound.listening u.afterReleases)

/-! ## Group records rewritten alike -/

/-- Every group record is rewritten by one function, which keeps circuits and terminals. -/
structure GroupsMapped (s t : State) (f : Group → Group) : Prop where
  find : ∀ li, Tab.find t.groups li = (Tab.find s.groups li).map f
  circuits : ∀ g, (f g).circuits = g.circuits
  terminals : ∀ g, (f g).terminals = g.terminals
  suspects : t.suspects = s.suspects
  config : t.config = s.config

section
variable {Q : Prop} {s t : State} {f : Group → Group} (h : GroupsMapped s t f)
include h

theorem GroupsMapped.find_some {li : Nat} {k : Group} (hk : Tab.find t.groups li = some k) :
    ∃ g, Tab.find s.groups li = some g ∧ f g = k := Option.map_eq_some_iff.1 ((h.find li).symm.trans hk)

theorem GroupsMapped.serves (g : Group) (t' : Nat) : (f g).serves t' = g.serves t' := by
  unfold Group.serves
  rw [h.terminals, h.circuits]

theorem GroupsMapped.useAt (g : Group) (c : Nat) : (f g).useAt c = g.useAt c := by
  rw [Group.useAt, h.circuits]
  rfl

theorem GroupsMapped.servedBy (li t' : Nat) : t.servedBy li t' = s.servedBy li t' := by
  rw [State.servedBy_eq, State.servedBy_eq, h.find]
  cases Tab.find s.groups li with
  | none => rfl
  | some g => exact h.serves g t'

theorem GroupsMapped.suspectsSound : t.SuspectsSound ↔ s.SuspectsSound := by
  simp only [State.SuspectsSound, h.suspects, h.servedBy]

theorem GroupsMapped.address : t.address = s.address := congrArg EngineConfig.address h.config

theorem GroupsMapped.entriesSound (hs : s.EntriesSound Q)
    (hf : ∀ g li, g.Sound s.address li → (f g).Sound s.address li) : t.EntriesSound Q := by
  refine ⟨⟨h.address ▸ hs.found.1, fun li k hk => ?_⟩, fun hQ => h.suspectsSound.2 (hs.suspects hQ)⟩
  obtain ⟨g, hg, rfl⟩ := h.find_some hk
  rw [h.address]
  exact ⟨(hs.found.2 li g hg).1, hf g li (hs.find_sound hg)⟩

theorem GroupsMapped.holdsLinked (hs : s.HoldsLinked) (hglobal : ∀ g, (f g).global = g.global)
    (hslots : t.slots = s.slots) : t.HoldsLinked := by
  obtain ⟨hholds, hcircuits⟩ := State.holdsLinked_iff.1 hs
  refine State.holdsLinked_iff.2 ⟨fun k x hk => ?_, fun li k c u n hk hu => ?_⟩
  · rw [State.holdAt_congr hslots] at hk
    obtain ⟨li, g, hg, hgroup, hu⟩ := hholds k x hk
    exact ⟨li, f g, by rw [h.find, hg]; rfl, hgroup.trans (hglobal g).symm, (h.useAt g _).trans hu⟩
  · obtain ⟨g, hg, rfl⟩ := h.find_some hk
    rw [h.useAt] at hu
    rw [State.holdAt_congr hslots, hglobal]
    exact hcircuits li g c u n hg hu

theorem GroupsMapped.coreSound (hs : s.CoreSound Q) (hf : ∀ g li, g.Sound s.address li → (f g).Sound s.address li)
    (hglobal : ∀ g, (f g).global = g.global) (hslots : t.slots = s.slots) : t.CoreSound Q :=
  have hentries := h.entriesSound hs.entries hf
  ⟨⟨hentries.found, h.holdsLinked hs.circuits.linked hglobal hslots⟩, hentries.suspects⟩

end

theorem CoreSame.mapped {s t u : State} {f : Group → Group} (h : GroupsMapped s t f) (h' : CoreSame t u) :
    GroupsMapped s u f :=
  ⟨fun li => by rw [h'.groups]; exact h.find li, h.circuits, h.terminals, h'.suspects.trans h.suspects,
    h'.config.trans h.config⟩

theorem CoreSame.coreSound {Q : Prop} {s t : State} (h : CoreSame s t) (hs : s.CoreSound Q) : t.CoreSound Q :=
  (h.moves (P := fun _ _ _ => False)).coreSound hs

/-! ## Entry to LISTEN (R183) -/

theorem applyOwnReaches_same (s : State) (groups : Tab Group) : CoreSame s (s.applyOwnReaches groups) :=
  CoreSame.foldl (fun s _ => applyReach_same s _ _ _ _) _ s

theorem enterListen_mapped (s : State) : GroupsMapped s s.enterListen fun g => g.restarted s.clock :=
  CoreSame.mapped (t := s.listening)
    ⟨fun li => Tab.find_mapVal s.groups (fun _ g => g.restarted s.clock) li, fun _ => rfl, fun _ => rfl, rfl, rfl⟩
    ((applyOwnReaches_same s.listening _).trans (send_same _ _ _))

theorem enterListen_slots (s : State) : s.enterListen.slots = s.slots :=
  ((applyOwnReaches_same s.listening s.listening.groups).trans (send_same _ _ _)).slots

theorem State.CoreSound.enterListen {Q : Prop} {s : State} (hs : s.CoreSound Q) : s.enterListen.CoreSound Q :=
  (enterListen_mapped s).coreSound hs (fun _ _ h => h) (fun _ => rfl) (enterListen_slots s)

/-! ## A hold table without holds (R59) -/

theorem holdAt_emptySlots {s : State} (h : s.slots = emptySlots) (k : Nat) : s.holdAt k = none := by
  rw [State.holdAt, h, emptySlots]
  by_cases hk : k < 64
  · rw [Vector.getElem?_eq_getElem hk, Vector.getElem_replicate]; rfl
  · rw [Vector.getElem?_eq_none (by omega)]; rfl

theorem State.holdsLinked_of_none {s : State} (hslots : s.slots = emptySlots)
    (hnone : ∀ li g c u k, Tab.find s.groups li = some g → g.useAt c ≠ some (u, some k)) : s.HoldsLinked :=
  State.holdsLinked_iff.2 ⟨fun k x hk => (by rw [holdAt_emptySlots hslots] at hk; cases hk),
    fun li g c u k hg hu => absurd hu (hnone li g c u k hg)⟩

theorem freeSlot_emptySlots {s : State} (h : s.slots = emptySlots) (k : Nat) : (s.freeSlot k).slots = emptySlots := by
  apply Vector.ext
  intro j hj
  have hget := State.slots_freeSlot s k j
  rw [h] at hget
  have hrep : ∀ j, j < 64 → emptySlots[j]? = some { generation := 0, hold := none } := fun j hj => by
    rw [emptySlots, Vector.getElem?_eq_getElem hj, Vector.getElem_replicate]
  have hsame : (s.freeSlot k).slots[j]? = emptySlots[j]? := by
    rw [hget]
    split
    · rename_i hjk
      rw [← hjk, hrep j hj]; rfl
    · rfl
  rwa [Vector.getElem?_eq_getElem hj, Vector.getElem?_eq_getElem hj, Option.some.injEq] at hsame

/-! ## The releases of a reset -/

theorem Circuit.inUse_terminal {x : Circuit} (h : x.inUse = true) : ∃ t, x.terminal = some t := by
  cases x with
  | held t => exact ⟨t, rfl⟩
  | busy t => exact ⟨t, rfl⟩
  | _ => cases h

theorem Circuit.released_freed {x : Circuit} (h : x.inUse = true) {t : Nat} (ht : x.terminal = some t) :
    x.released.terminal = some t ∧ x.released.use = none ∧ x.released.maySuspect = true := by
  cases x with
  | held t' u k bp fr => cases ht; cases bp <;> exact ⟨rfl, rfl, rfl⟩
  | busy t' u bp fr => cases ht; cases bp <;> exact ⟨rfl, rfl, rfl⟩
  | _ => cases h

/-- The record that a reset leaves of a group, after fault handling of one of its circuits. -/
theorem Group.settled_afterFault (g : Group) (c t : Nat) :
    (g.afterFault c t).settled = g.settled.faultTaken c t false := by
  have hsettled : (g.afterFault c t).settled = (g.faulted c t false).recomputed.settled := by
    unfold Group.afterFault
    split <;> rfl
  rw [hsettled, Group.faultTaken]
  rcases g.faulted_cases c t false with ⟨sp, hsp, h⟩ | ⟨hsp, h⟩ <;>
    rcases g.settled.faulted_cases c t false with ⟨sp', hsp', h'⟩ | ⟨hsp', h'⟩
  · cases hsp.symm.trans hsp'
    rw [h, h']
    rfl
  · cases hsp.symm.trans hsp'
  · cases hsp.symm.trans hsp'
  · rw [h, h']
    rfl

theorem State.find_afterReleases (u : State) (li : Nat) :
    Tab.find u.afterReleases.groups li = (Tab.find u.groups li).map Group.settled :=
  Tab.find_mapVal u.groups (fun _ g => g.settled) li

theorem GroupRewritten.find_afterReleases {u v : State} {li : Nat} {g : Group} (h : GroupRewritten u v li g) (j : Nat) :
    Tab.find v.afterReleases.groups j = if j = li then some g.settled else Tab.find u.afterReleases.groups j := by
  rw [State.find_afterReleases, State.find_afterReleases, h.find]
  split <;> rfl

/-- Without holds, a circuit that leaves its use leaves no slot behind. -/
theorem SlotsFollow.of_empty {s t : State} (hs : s.slots = emptySlots) (ht : t.slots = emptySlots) {g g' : Group}
    {c : Nat} (hnew : g'.useAt c = none) : SlotsFollow s t g g' c := by
  by_cases hheld : ∃ u k, g.useAt c = some (u, some k)
  · obtain ⟨u, k, hold⟩ := hheld
    exact .freed u k hold (fun v j hv => by rw [hnew] at hv; cases hv) (ht.trans (freeSlot_emptySlots hs k).symm)
  · exact .kept (fun u k => ⟨fun hv => (by rw [hnew] at hv; cases hv), fun hv => absurd ⟨u, k, hv⟩ hheld⟩)
      (ht.trans hs.symm)

section
variable {Q : Prop} {u : State}

/-- What one release keeps of the state that the reset makes of it. -/
theorem release_entriesSound (hrun : u.running = false) (hw : Tab.wf u.groups)
    (hs : u.afterReleases.EntriesSound Q) (li c : Nat) : (u.release li c).afterReleases.EntriesSound Q := by
  by_cases huse : ∃ g x, Tab.find u.groups li = some g ∧ g.circuits[c]? = some x ∧ x.inUse = true
  · obtain ⟨g, x, hg, hx, huse⟩ := huse
    obtain ⟨t, ht⟩ := Circuit.inUse_terminal huse
    have hgs : Tab.find u.afterReleases.groups li = some g.settled := by rw [State.find_afterReleases, hg]; rfl
    have hmove : ∃ g', GroupMove (fun _ _ _ => True) Q u.afterReleases (u.release li c).afterReleases li g.settled g'
        c t := by
      cases hwait : x.faultWaits with
      | false =>
        obtain ⟨hterminal, hnone, hmay⟩ := Circuit.released_freed huse ht
        have hwrite := setGroup_rewritten hw hg (g.setCircuit c x.released).recomputed
        rw [release_of_calm hg hx hrun huse hwait]
        refine ⟨_, circuit_move hs hgs hx ht hwrite.find_afterReleases rfl rfl
          ((hs.find_sound hgs).setCircuit hx ht hterminal) rfl rfl rfl (fun _ _ => .inr trivial)
          (.of_empty rfl rfl ?_) fun _ _ => hmay⟩
        exact (Group.useAt_eq (Group.setCircuit_get hx x.released c |>.trans (if_pos rfl))).trans hnone
      | true =>
        obtain ⟨t', ht', hrelease⟩ := release_of_faultWaits hg hx hwait
        cases ht.symm.trans ht'
        have hwrite := faultHandle_rewritten hrun hw hg c t
        rw [hrelease]
        refine ⟨_, fault_move hs hgs hx ht false (fun j => ?_) ?_ ?_ (fun _ _ => trivial)
          (.of_empty rfl rfl (Group.useAt_faultTaken (g := g.settled) hx false)) fun hQ => (hs.suspects hQ).not_mem hgs
            (hs.find_sound hgs) hx ht (Circuit.maySuspect_of_faultWaits hwait)⟩
        · rw [hwrite.find_afterReleases, Group.settled_afterFault]
        · show (u.faultHandle li c t false).suspects = u.suspects
          rw [hwrite.frame]
        · show (u.faultHandle li c t false).config = u.config
          rw [hwrite.frame]
    obtain ⟨g', hmove⟩ := hmove
    exact ⟨hmove.groupsFound hs.found, fun hQ => hmove.suspectsSound hQ (hs.suspects hQ)⟩
  · rw [release_of_not_inUse fun g x hg hx => Bool.not_eq_true _ ▸ fun hu => huse ⟨g, x, hg, hx, hu⟩]
    exact hs

theorem releases_entriesSound (l : List (Nat × Nat)) (hrun : u.running = false) (hw : Tab.wf u.groups)
    (hs : u.afterReleases.EntriesSound Q) :
    (l.foldl (fun s p => s.release p.1 p.2) u).afterReleases.EntriesSound Q := by
  induction l generalizing u with
  | nil => exact hs
  | cons p l ih =>
    have hkeeps : ReleasesKeep (fun _ => True) u (u.release p.1 p.2) := release_keeps hrun hw trivial p.2
    exact ih (hkeeps.frame.running.trans hrun) hkeeps.wf (release_entriesSound hrun hw hs p.1 p.2)

theorem releaseGroups_entriesSound (indices : List Nat) (test : Circuit → Bool) (hrun : u.running = false)
    (hw : Tab.wf u.groups) (hs : u.afterReleases.EntriesSound Q) :
    (u.releaseGroups indices test).afterReleases.EntriesSound Q :=
  have h := releases_entriesSound (u.resetOrder indices test) hrun hw hs
  ⟨h.found, h.suspects⟩

/-- After the releases of a reset no circuit is HELD, where the test names every HELD circuit of the groups that may
have one. -/
theorem Released.not_held {v : State} {indices : List Nat} {test : Circuit → Bool}
    (h : Released (u.resetOrder indices test) u v) (htest : ∀ x, x.isHeld = true → test x = true)
    (hout : ∀ li g c w k, Tab.find u.groups li = some g → g.useAt c = some (w, some k) → li ∈ indices)
    {li : Nat} {g : Group} (hg : Tab.find v.groups li = some g) (c w k : Nat) : g.useAt c ≠ some (w, some k) := by
  intro hheld
  obtain ⟨t, bp, fr, hx⟩ := Group.useAt_eq_held_iff.1 hheld
  obtain ⟨g0, hg0⟩ := find_of_keys h.keys hg
  obtain ⟨g', hg', hby, -, -⟩ := h.group li g0 hg0
  cases hg.symm.trans hg'
  have hlt : c < g0.circuits.length := hby.circuits ▸ (List.getElem?_eq_some_iff.1 hx).1
  obtain ⟨y, hy⟩ : ∃ y, g0.circuits[c]? = some y := ⟨_, List.getElem?_eq_getElem hlt⟩
  by_cases hdone : (li, c) ∈ u.resetOrder indices test
  · cases hwait : y.faultWaits with
    | false =>
      have hfreed := hx.symm.trans (hby.freed hy hdone hwait)
      cases y with
      | held t' u' k' bp' fr' => cases bp' <;> cases hfreed
      | busy t' u' bp' fr' => cases bp' <;> cases hfreed
      | _ => cases hfreed
    | true =>
      rcases hby.moved hy hdone hwait with ⟨sp, -, -, hidle⟩ | ⟨hfaulty, -⟩
      · cases hx.symm.trans hidle
      · cases hx.symm.trans hfaulty
  · cases hx.symm.trans (hby.untouched hy hdone)
    exact hdone (State.mem_resetOrder.2 ⟨hout li g0 c w k hg0 (Group.useAt_eq hy), g0, _, hg0, hy, htest _ rfl⟩)

/-- A sound record is sound when a reset has settled it. -/
theorem Group.Sound.settled {g : Group} {a li : Nat} (h : g.Sound a li) : g.settled.Sound a li := by
  obtain ⟨hglobal, hcircuits, hterminals, hhunt, hnames, hspare, -⟩ := h
  exact ⟨hglobal, hcircuits, hterminals, Nat.zero_lt_of_lt hhunt, hnames, hspare, rfl⟩

theorem afterReleases_mapped (u : State) : GroupsMapped u u.afterReleases Group.settled :=
  ⟨u.find_afterReleases, fun _ => rfl, fun _ => rfl, rfl, rfl⟩

/-- The hold table is emptied with the HELD circuits released (R8, R59). -/
theorem State.CoreSound.emptyHolds (hs : u.CoreSound Q) (hrun : u.running = false) (hw : Tab.wf u.groups) :
    u.emptyHolds.CoreSound Q := by
  have hgroups : u.GroupsSound := hs.circuits.found.groupsSound hw
  obtain ⟨v, hv, heq⟩ := State.emptyHolds_released hrun hw hgroups
  have hafter := releaseGroups_entriesSound (u.groups.map (·.1)) (·.isHeld) hrun hw
    ((afterReleases_mapped u).entriesSound hs.entries fun _ _ => Group.Sound.settled)
  have hback : GroupsMapped u.emptyHolds (u.releaseGroups (u.groups.map (·.1)) (·.isHeld)).afterReleases
      Group.settled := ⟨State.find_afterReleases _, fun _ => rfl, fun _ => rfl, rfl, rfl⟩
  refine ⟨⟨⟨hback.address ▸ hafter.found.1, fun li g hg => ?_⟩, ?_⟩,
    fun hQ => hback.suspectsSound.1 (hafter.suspects hQ)⟩
  · obtain ⟨hli, hsettled⟩ := hafter.found.2 li g.settled (by rw [hback.find, hg]; rfl)
    rw [heq] at hg
    obtain ⟨g0, hg0⟩ := find_of_keys hv.keys hg
    obtain ⟨g', hg', -, hfields, hpref⟩ := hv.group li g0 hg0
    cases (show Tab.find v.groups li = some g from hg).symm.trans hg'
    obtain ⟨hglobal, hcircuits, hterminals, -, hnames, hspare, -⟩ := hsettled
    have hhunt := (hs.find_sound hg0).2.2.2.1
    rw [← hback.address]
    refine ⟨hli, hglobal, hcircuits, hterminals, ?_, hnames, hspare, hpref (hgroups.prefFollows hg0)⟩
    rw [hfields.huntPtr, hfields.cfg]
    exact hhunt
  · rw [heq]
    refine State.holdsLinked_of_none rfl fun li g c w k hg => ?_
    exact hv.not_held (fun _ h => h) (fun li g _ _ _ hg _ => exists_find_iff_mem_keys.1 ⟨g, hg⟩) hg c w k

theorem State.CoreSound.quiet (hs : u.CoreSound Q) (st : Station) : (u.quiet st).CoreSound Q :=
  CoreSame.coreSound (s := u) ⟨rfl, rfl, rfl, rfl⟩ hs

/-- An address conflict (R190). -/
theorem State.CoreSound.halt (hs : u.CoreSound Q) (hw : Tab.wf u.groups) : u.halt.CoreSound Q :=
  (hs.quiet .halted).emptyHolds (State.quiet_not_running _ (by decide)) hw

/-- A group whose next hunt starts at circuit 0 (R8). -/
def Group.rewound (g : Group) : Group := { g with huntPtr := 0 }

theorem Group.Sound.rewound {g : Group} {a li : Nat} (h : g.Sound a li) : g.rewound.Sound a li :=
  h.setHunt (Nat.zero_lt_of_lt h.2.2.2.1)

/-- A soft reset (R185). -/
theorem State.CoreSound.softReset (hs : u.CoreSound Q) (hw : Tab.wf u.groups) : u.softReset.CoreSound Q := by
  have hempty := (hs.quiet .starting).emptyHolds (State.quiet_not_running _ (by decide)) hw
  have hmapped : GroupsMapped (u.quiet .starting).emptyHolds
      { (u.quiet .starting).emptyHolds with
        groups := (u.quiet .starting).emptyHolds.groups.map fun p => (p.1, p.2.rewound) } Group.rewound :=
    ⟨fun li => Tab.find_mapVal _ (fun _ g => Group.rewound g) li, fun _ => rfl, fun _ => rfl, rfl, rfl⟩
  exact (hmapped.coreSound hempty (fun _ _ => Group.Sound.rewound) (fun _ => rfl) rfl).enterListen

end

/-! ## The reads of the configuration (R7, R180, R181) -/

theorem getElem?_map_range {α : Type} (f : Nat → α) (n c : Nat) :
    ((List.range n).map f)[c]? = if c < n then some (f c) else none := by
  rw [List.getElem?_map]
  split
  · rename_i h; rw [List.getElem?_range h]; rfl
  · rename_i h; rw [List.getElem?_eq_none (by rw [List.length_range]; omega)]; rfl

theorem builtGroup_sound {address li : Nat} {cfg : GroupConfig} (hcfg : cfg.InRange) (now : Clock) :
    (builtGroup address li cfg now).Sound address li := by
  refine ⟨rfl, by simp [builtGroup], by simp [builtGroup], hcfg.2.1.1, fun c t => ?_, ?_, ?_⟩
  · show (((List.range cfg.working).map Circuit.idle)[c]?).bind Circuit.terminal = some t ↔
      ((List.range cfg.working).map TermRole.serving ++ List.replicate cfg.spares TermRole.spare)[t]? =
        some (TermRole.serving c)
    rw [getElem?_map_range, List.getElem?_append, List.length_map, List.length_range, getElem?_map_range,
      List.getElem?_replicate]
    grind [Circuit.terminal_idle]
  · rintro ⟨hfaulty, -⟩
    obtain ⟨c, -, hc⟩ := List.mem_map.1 (show Circuit.faulty ∈ (List.range cfg.working).map Circuit.idle from hfaulty)
    cases hc
  · show cfg.preference = effectivePref cfg.preference (demoted (builtGroup address li cfg now).terminals)
    rw [show demoted (builtGroup address li cfg now).terminals = false from demoted_builtTerminals _ _]
    rfl

theorem builtGroup_not_held (address li : Nat) (cfg : GroupConfig) (now : Clock) (c : Nat) (u : Nat × Option Nat) :
    (builtGroup address li cfg now).useAt c ≠ some u := by
  intro h
  obtain ⟨x, hx, hu⟩ := Group.useAt_eq_some_iff.1 h
  obtain ⟨t, -, rfl⟩ := List.mem_map.1 (show x ∈ (List.range cfg.working).map Circuit.idle from List.mem_of_getElem? hx)
  cases hu

section
variable {Q : Prop} {s : State} {image : List Byte}

/-- A continued group, with the fields of the new image (R7). -/
theorem Group.Sound.continued {g : Group} {a li : Nat} (h : g.Sound a li) {cfg : GroupConfig}
    (hc : continues (some g) cfg = true) (address : Nat) :
    ({ g with cfg := cfg, global := 16 * address + li } : Group).settled.Sound address li := by
  obtain ⟨-, hcircuits, hterminals, hhunt, hnames, hspare, -⟩ := h
  obtain ⟨g', hg', hworking, hspares⟩ := continues_iff.1 hc
  cases hg'
  refine ⟨rfl, hcircuits.trans hworking, ?_, ?_, hnames, hspare, rfl⟩
  · show g.terminals.length = cfg.working + cfg.spares
    rw [hterminals, hworking, hspares]
  · show 0 < cfg.working
    rw [← hworking]
    exact Nat.zero_lt_of_lt hhunt

/-- The established groups, as the reset is to settle them: sound, with the suspects of the continued ones (R7,
R24). -/
theorem State.CoreSound.configured (hs : s.CoreSound Q) (haddress : field image 0 1 ≤ 31) :
    (s.configured image).afterReleases.EntriesSound Q := by
  refine ⟨⟨haddress, fun li g hg => ?_⟩, fun hQ => ?_⟩
  · rw [State.find_afterReleases, Option.map_eq_some_iff] at hg
    obtain ⟨k, hk, rfl⟩ := hg
    obtain ⟨cfg, hcfg, rfl⟩ := State.of_find_configured hk
    obtain ⟨hli, hrange⟩ := mem_withinBudget hcfg
    refine ⟨hli, ?_⟩
    rcases establishedGroup_cases (Tab.find s.groups li) (field image 0 1) li cfg s.clock with
      ⟨g0, h0, hc, he⟩ | ⟨-, he⟩ <;> rw [he]
    · exact (hs.find_sound h0).continued (by rw [← h0]; exact hc) _
    · exact (builtGroup_sound hrange s.clock).settled
  · refine (afterReleases_mapped _).suspectsSound.2 ?_
    obtain ⟨hlen, hnodup, hserved⟩ := hs.suspects hQ
    refine ⟨(List.length_filter_le _ _).trans hlen, hnodup.filter _, fun e he => ?_⟩
    obtain ⟨hmem, hany⟩ := List.mem_filter.1 he
    obtain ⟨⟨li, cfg⟩, hkept, hli⟩ := List.any_eq_true.1 hany
    obtain ⟨hcfg, hc⟩ := List.mem_filter.1 hkept
    have hli : li = e.1 := of_decide_eq_true hli
    subst hli
    obtain ⟨x, hx, hm⟩ := hserved e hmem
    refine ⟨x, ?_, hm⟩
    rw [State.servedBy_of_find (State.find_configured hcfg)]
    rcases establishedGroup_cases (Tab.find s.groups e.1) (field image 0 1) e.1 cfg s.clock with
      ⟨g0, h0, -, he⟩ | ⟨hnot, -⟩
    · rw [he]
      rw [State.servedBy_of_find h0] at hx
      exact hx
    · exact absurd (hnot.symm.trans hc) Bool.false_ne_true

/-- A good read (R181 to R183). -/
theorem State.CoreSound.readGood (hs : s.CoreSound Q) (hstation : s.station = .starting)
    (haddress : field image 0 1 ≤ 31) : (s.readGood image).CoreSound Q := by
  have hrun := State.configured_not_running (image := image) hstation
  have hafter : (s.readReleased image).afterReleases.EntriesSound Q :=
    releaseGroups_entriesSound _ _ hrun (s.configured_wf image) (hs.configured haddress)
  have hlinked : ∀ li ∈ (s.continuedGroups image).map (·.1), ∀ g,
      Tab.find (s.configured image).groups li = some g → g.Linked := by
    intro li hli g hg
    obtain ⟨cfg, hcfg, rfl⟩ := State.of_find_configured hg
    rcases establishedGroup_cases (Tab.find s.groups li) (field image 0 1) li cfg s.clock with
      ⟨g0, h0, -, he⟩ | ⟨hc, -⟩
    · rw [he]; exact (hs.find_sound h0).linked
    · exact absurd (hc.symm.trans ((State.mem_continued_iff hcfg).1 hli)) Bool.false_ne_true
  have hnodup : ((s.continuedGroups image).map (·.1)).Nodup :=
    (nodup_keys_of_wf (configuredGroups_wf image)).sublist (List.filter_sublist.map _)
  obtain ⟨u, hu, heq⟩ := released_releaseGroups (test := (·.inUse)) hrun (s.configured_wf image) hnodup
    (fun _ h => h) hlinked
  rw [State.readGood_eq]
  refine State.CoreSound.enterListen ⟨⟨hafter.found, State.holdsLinked_of_none rfl fun li k c w n hk => ?_⟩,
    hafter.suspects⟩
  obtain ⟨g, hg, rfl⟩ := (afterReleases_mapped _).find_some hk
  rw [(afterReleases_mapped (s.readReleased image)).useAt]
  have hgu : Tab.find u.groups li = some g := by
    rw [State.readReleased, heq] at hg; exact hg
  refine hu.not_held (fun x h => by rw [Circuit.inUse, h]; rfl) (fun li g c w k hg hheld => ?_) hgu c w n
  obtain ⟨cfg, hcfg, rfl⟩ := State.of_find_configured hg
  rw [State.mem_continued_iff hcfg]
  rcases establishedGroup_cases (Tab.find s.groups li) (field image 0 1) li cfg s.clock with ⟨-, -, hc, -⟩ | ⟨-, he⟩
  · exact hc
  · rw [he] at hheld
    exact absurd hheld (builtGroup_not_held _ _ _ _ _ _)

/-- No groups, no holds and no suspects. -/
theorem State.coreSound_nil (haddress : s.address ≤ 31) (hgroups : s.groups = []) (hslots : s.slots = emptySlots)
    (hsuspects : s.suspects = []) : s.CoreSound Q := by
  have hnone : ∀ li g, Tab.find s.groups li ≠ some g := fun li g h => by rw [hgroups] at h; cases h
  refine ⟨⟨⟨haddress, fun li g hg => absurd hg (hnone li g)⟩,
    State.holdsLinked_of_none hslots fun li g _ _ _ hg => absurd hg (hnone li g)⟩, fun _ => ?_⟩
  rw [State.SuspectsSound, hsuspects]
  exact ⟨Nat.zero_le _, .nil, fun e he => nomatch he⟩

/-- A failed read (R180). -/
theorem State.CoreSound.readFailed (hs : s.CoreSound Q) : s.readFailed.CoreSound Q :=
  State.coreSound_nil (s := s.readFailed) hs.circuits.found.1 rfl rfl rfl

end

end Sys2Proof.Machine
end

section
/-! Settles O59: every command but the resets is a chain of core moves, and a reset keeps groups, holds and suspects
sound. -/

namespace Sys2Proof.Machine

/-! ## Operations that touch no circuit -/

/-- A state that differs elsewhere before the operation. -/
theorem CoreSame.before {s u t : State} (h : CoreSame u t) (hgroups : u.groups = s.groups) (hslots : u.slots = s.slots)
    (hsuspects : u.suspects = s.suspects) (hconfig : u.config = s.config) : CoreSame s t :=
  CoreSame.trans ⟨hgroups, hslots, hsuspects, hconfig⟩ h

theorem post_same (s : State) (o w : Nat) (p : Posting) : CoreSame s (s.post o w p) := by
  unfold State.post
  dsimp only
  split <;> exact ⟨rfl, rfl, rfl, rfl⟩

theorem refresh_same (s : State) (source : Nat) : CoreSame s (s.refresh source) := by
  unfold State.refresh
  split <;> exact ⟨rfl, rfl, rfl, rfl⟩

theorem admitFrame_same (s : State) (w : WireFrame) : CoreSame s (s.admitFrame w) := by
  unfold State.admitFrame
  split
  · exact bump_same s _
  · split
    · exact bump_same s _
    · split
      · exact bump_same s _
      · split
        · dsimp only
          split
          · exact (bump_same s _).trans (send_same _ _ _)
          · exact bump_same s _
        · split
          · exact ⟨rfl, rfl, rfl, rfl⟩
          · exact bump_same s _

theorem takeGive_same (s : State) (source serial ref group slot generation circuit terminal carrier band : Nat) :
    CoreSame s (s.takeGive source serial ref group slot generation circuit terminal carrier band) := by
  unfold State.takeGive
  split
  · split
    · exact offerCall_same s _ _ _ _
    · exact (send_same s _ _).trans (bump_same _ _)
  · exact bump_same s _

theorem viewDeny_same (s : State) (group : Nat) (band : Band) : CoreSame s (s.viewDeny group band) := by
  unfold State.viewDeny
  split <;> exact ⟨rfl, rfl, rfl, rfl⟩

theorem takeLost_same (s : State) (source slot generation group circuit : Nat) :
    CoreSame s (s.takeLost source slot generation group circuit) := by
  unfold State.takeLost
  split
  · exact ⟨rfl, rfl, rfl, rfl⟩
  · exact markRecord_same s _
  · exact (markRecord_same _ _).before rfl rfl rfl rfl

theorem takeLoad_same (s : State) (source group band floor surge free : Nat) :
    CoreSame s (s.takeLoad source group band floor surge free) := by
  unfold State.takeLoad
  split
  · split <;> exact ⟨rfl, rfl, rfl, rfl⟩
  · exact bump_same s _

theorem takeReach_same (s : State) (source group carrier pref first count : Nat) :
    CoreSame s (s.takeReach source group carrier pref first count) := by
  unfold State.takeReach
  split
  · exact bump_same s _
  · split
    · exact ⟨rfl, rfl, rfl, rfl⟩
    · split
      · exact applyReach_same s _ _ _ _
      · exact bump_same s _

theorem takeRateSet_same (s : State) (source carrier setup rate green amber red grace : Nat) :
    CoreSame s (s.takeRateSet source carrier setup rate green amber red grace) := by
  unfold State.takeRateSet
  split
  · exact send_same s _ _
  · exact (send_same _ _ _).before rfl rfl rfl rfl

theorem takeRateClear_same (s : State) (source carrier : Nat) : CoreSame s (s.takeRateClear source carrier) := by
  unfold State.takeRateClear
  split
  · exact send_same s _ _
  · split
    · exact (send_same _ _ _).before rfl rfl rfl rfl
    · exact send_same s _ _

theorem takePeriodClose_same (s : State) (source : Nat) : CoreSame s (s.takePeriodClose source) := by
  unfold State.takePeriodClose
  split
  · exact send_same s _ _
  · exact (send_same _ _ _).before rfl rfl rfl rfl

theorem takeTallyAck_same (s : State) (source period : Nat) : CoreSame s (s.takeTallyAck source period) := by
  unfold State.takeTallyAck
  split
  · split
    · exact (send_same _ _ _).before rfl rfl rfl rfl
    · exact send_same s _ _
  · exact send_same s _ _

/-! ## Commands that take a frame -/

section
variable {P : Nat → Nat → Nat × Option Nat → Prop} {Q : Prop} {s : State}

/-- The state as the frame has left the receive queue. -/
theorem State.CoreSound.dequeued (hs : s.CoreSound Q) (rest : List RxFrame) :
    ({ s with rx := rest } : State).CoreSound Q :=
  CoreSame.coreSound (s := s) ⟨rfl, rfl, rfl, rfl⟩ hs

theorem dequeued_moves (s : State) (rest : List RxFrame) : CoreMoves P Q s { s with rx := rest } :=
  CoreSame.moves ⟨rfl, rfl, rfl, rfl⟩

theorem takeFrame_moves (hs : s.CoreSound Q) {act : RxFrame → Option (State → State)}
    (h : ∀ f rest k, s.rx = f :: rest → act f = some k → ∀ t : State, t.CoreSound Q → t.config = s.config →
      CoreMoves P Q t (k t)) :
    CoreMoves P Q s (s.takeFrame act) := by
  unfold State.takeFrame
  split
  · exact .refl
  · rename_i f rest hrx
    split
    · exact .refl
    · rename_i k hk
      dsimp only
      split
      · exact (dequeued_moves s rest).trans (h f rest k hrx hk _ (hs.dequeued rest) rfl)
      · exact dequeued_moves s rest

theorem control_moves (source dest group action number : Nat)
    {act : State → Nat → Group → Nat → State × Bool}
    (h : ∀ li g, Tab.find s.groups li = some g → CoreMoves P Q s (act s li g number).1) :
    CoreMoves P Q s (s.control source dest group action number act) := by
  unfold State.control
  split
  · exact .refl
  · split
    · exact (send_same s _ _).moves
    · rename_i li g hown
      by_cases hbad : !knownAction action ∨
          (if action = 4 then g.cfg.working + g.cfg.spares else g.cfg.working) ≤ number
      · rw [if_pos hbad]
        exact (send_same s _ _).moves
      · rw [if_neg hbad]
        have hact := h li g (ownGroup_some hown).2.2
        split <;> rename_i u hu <;> rw [hu] at hact <;> exact hact.trans (send_same _ _ _).moves

theorem controlFrame_moves (hs : s.CoreSound Q) (want : Nat) {act : State → Nat → Group → Nat → State × Bool}
    (h : ∀ t : State, t.CoreSound Q → ∀ li g n, Tab.find t.groups li = some g → CoreMoves P Q t (act t li g n).1) :
    CoreMoves P Q s (s.controlFrame want act) := by
  refine takeFrame_moves hs fun f rest k _ hk t ht _ => ?_
  split at hk
  · split at hk
    · cases hk
      exact control_moves _ _ _ _ _ fun li g => h t ht li g _
    · cases hk
  · cases hk

theorem seizeFrame_moves (hs : s.CoreSound Q) (want : Nat) {act : State → Nat → CallRecord → Option State}
    (h : ∀ t : State, t.CoreSound Q → ∀ r rec u, act t r rec = some u → CoreMoves P Q t u) :
    CoreMoves P Q s (s.seizeFrame want act) := by
  refine takeFrame_moves hs fun f rest k _ hk t ht _ => ?_
  split at hk
  · split at hk
    · cases hk
      dsimp only
      split
      · rename_i r rec _
        split
        · cases hact : act t r rec with
          | none => exact (bump_same t _).moves
          | some u => exact h t ht r rec u hact
        · exact (bump_same t _).moves
      · exact (bump_same t _).moves
    · split at hk
      · cases hk
      · cases hk; exact (bump_same t _).moves
  · cases hk

/-! ## Commands that end no use and touch no call record -/

/-- The commands that end no use of a circuit and touch no call record. -/
def Instr.calm : Instr → Bool
  | .bprstReleased | .listenDeadline | .announceDeadline | .reachDeadline | .stalenessEvent _ | .frameReceived ..
  | .busIdleContention _ | .bitMismatch | .frameSent | .load | .reach | .probe | .rateSet | .rateClear | .periodClose
  | .tallyRead | .tallyAck | .statusRead | .block | .unblock | .restore => true
  | _ => false

theorem announce_moves (hs : s.CoreSound Q) (b : TxBody) : CoreMoves P Q s (s.announce b) := by
  unfold State.announce
  split
  · exact .refl
  · split
    · rename_i hown
      exact (setAnnounced_move hs (ownGroup_some hown).2.2 _).one
    · exact .refl

theorem exec_calm_moves {c : Instr} {t : State} (hc : Instr.calm c = true) (h : exec c s = .next t)
    (hs : s.CoreSound Q) :
    CoreMoves P Q s t := by
  cases c <;> cases hc <;> simp only [exec] at h <;> cases h
  case bprstReleased => split <;> exact CoreSame.moves ⟨rfl, rfl, rfl, rfl⟩
  case listenDeadline =>
    split
    · exact .refl
    · split
      · extract_lets s1 s2
        have h2 : CoreSame s s2 := ⟨rfl, rfl, rfl, rfl⟩
        exact (((h2.trans (send_same s2 _ _)).trans (setOfReach_same _)).trans (setOfLoads_same _)).moves
      · exact .refl
  case announceDeadline =>
    split
    · exact .refl
    · split
      · have h1 := announceSet_same s
        exact CoreSame.moves ⟨h1.groups, h1.slots, h1.suspects, h1.config⟩
      · exact .refl
  case reachDeadline =>
    split
    · exact .refl
    · split
      · have h1 := setOfReach_same s
        exact CoreSame.moves ⟨h1.groups, h1.slots, h1.suspects, h1.config⟩
      · exact .refl
  case stalenessEvent g =>
    split
    · exact .refl
    · split
      · extract_lets s1
        have h1 : CoreSame s s1 := ⟨rfl, rfl, rfl, rfl⟩
        split
        · exact (h1.trans (send_same _ _ _)).moves
        · exact h1.moves
      · exact .refl
  case frameReceived w ended =>
    split
    · exact .refl
    · split
      · exact (bump_same s _).moves
      · extract_lets s1
        have h1 : CoreSame s s1 := refresh_same s _
        split
        · exact (h1.trans (admitFrame_same s1 w)).moves
        · exact h1.moves
  case busIdleContention others =>
    split
    · split
      · exact .refl
      · split
        · exact .refl
        · split
          · rename_i i _ _ e _ _
            extract_lets w
            have h1 : CoreSame s { s with tx := s.tx.set i { e with onLine := some w } } := ⟨rfl, rfl, rfl, rfl⟩
            exact h1.moves.trans (announce_moves (h1.coreSound hs) _)
          · exact .refl
    · exact .refl
  case bitMismatch => exact CoreSame.moves ⟨rfl, rfl, rfl, rfl⟩
  case frameSent => exact CoreSame.moves ⟨rfl, rfl, rfl, rfl⟩
  case block => exact controlFrame_moves hs _ fun t ht li g n hg => blockCircuit_moves ht hg n
  case unblock => exact controlFrame_moves hs _ fun t ht li g n hg => unblockCircuit_moves ht hg n
  case restore => exact controlFrame_moves hs _ fun t ht li g n hg => restoreTerminal_moves ht hg n
  case load =>
    exact takeFrame_moves hs fun f rest k _ hk t _ _ => by
      split at hk <;> cases hk
      exact (takeLoad_same ..).moves
  case reach =>
    exact takeFrame_moves hs fun f rest k _ hk t _ _ => by
      split at hk <;> cases hk
      exact (takeReach_same ..).moves
  case probe =>
    exact takeFrame_moves hs fun f rest k _ hk t _ _ => by
      split at hk <;> cases hk
      dsimp only
      split
      · exact (offerLoad_same ..).moves
      · exact .refl
  case rateSet =>
    exact takeFrame_moves hs fun f rest k _ hk t _ _ => by
      split at hk <;> cases hk
      exact (takeRateSet_same ..).moves
  case rateClear =>
    exact takeFrame_moves hs fun f rest k _ hk t _ _ => by
      split at hk <;> cases hk
      exact (takeRateClear_same ..).moves
  case periodClose =>
    exact takeFrame_moves hs fun f rest k _ hk t _ _ => by
      split at hk <;> cases hk
      exact (takePeriodClose_same ..).moves
  case tallyRead =>
    exact takeFrame_moves hs fun f rest k _ hk t _ _ => by
      split at hk <;> cases hk
      exact (send_same ..).moves
  case tallyAck =>
    exact takeFrame_moves hs fun f rest k _ hk t _ _ => by
      split at hk <;> cases hk
      exact (takeTallyAck_same ..).moves
  case statusRead =>
    exact takeFrame_moves hs fun f rest k _ hk t _ _ => by
      split at hk <;> cases hk
      exact (send_same ..).moves

/-! ## Commands that may end uses -/

theorem takeDeny_moves (hs : s.CoreSound Q) (source serial ref group reason band : Nat) :
    CoreMoves P Q s (s.takeDeny source serial ref group reason band) := by
  unfold State.takeDeny
  split
  · split
    · exact (bump_same s _).moves
    · rename_i b _ _ _
      have hview := viewDeny_same s group b
      dsimp only
      split
      · exact hview.moves.trans (select_moves (hview.coreSound hs) _ _ _)
      · exact hview.moves
  · exact (bump_same s _).moves

theorem takeRouteAsk_moves (hs : s.CoreSound Q) (client tag dest prec origin : Nat) :
    CoreMoves P Q s (s.takeRouteAsk client tag dest prec origin) := by
  unfold State.takeRouteAsk
  split
  · exact (bump_same s _).moves
  · split
    · exact (send_same s _ _).moves
    · split
      · exact (send_same s _ _).moves
      · split
        · exact (send_same s _ _).moves
        · split
          · exact (send_same s _ _).moves
          · split
            · exact (send_same s _ _).moves
            · exact select_moves hs _ _ _

end

/-- Any use may end. -/
abbrev anyUse : Nat → Nat → Nat × Option Nat → Prop := fun _ _ _ => True

section
variable {Q : Prop} {s : State}

theorem clearConnected_moves (hs : s.CoreSound Q) (r : Nat) (rec : CallRecord) (gr : Grant) (commit : Clock) :
    CoreMoves anyUse Q s (s.clearConnected r rec gr commit) := by
  have hpost := post_same s rec.base.origin gr.carrier (s.posting rec gr commit)
  have hdrop : CoreMoves anyUse Q s ((s.post rec.base.origin gr.carrier (s.posting rec gr commit)).endDrop rec gr) :=
    hpost.moves.trans (endDrop_moves (hpost.coreSound hs) fun _ _ _ _ => trivial)
  exact hdrop.trans ((send_same _ _ _).trans (freeRecord_same _ _)).moves

theorem clearUnanswered_moves (hs : s.CoreSound Q) (r : Nat) (rec : CallRecord) :
    CoreMoves anyUse Q s (s.clearUnanswered r rec) := by
  rw [State.clearUnanswered_eq]
  have hdrop : CoreMoves anyUse Q s (s.endGranted rec) := by
    unfold State.endGranted
    split
    · exact endDrop_moves hs fun _ _ _ _ => trivial
    · exact .refl
  exact hdrop.trans ((send_same _ _ _).trans (freeRecord_same _ _)).moves

theorem clearOrphan_moves (hs : s.CoreSound Q) (client tag group circuit : Nat) :
    CoreMoves anyUse Q s (s.clearOrphan client tag group circuit) := by
  have hbump := bump_same s .orphanClears
  have horphan : CoreMoves anyUse Q (s.bump .orphanClears) ((s.bump .orphanClears).endOrphan group circuit) := by
    have hdrop : CoreMoves anyUse Q (s.bump .orphanClears) _ :=
      dropHold_moves (sender := (s.bump .orphanClears).address) (group := group) (c := circuit)
          (hbump.coreSound hs) none
        fun _ _ _ _ => trivial
    unfold State.endOrphan
    split
    · split <;> rename_i u hu <;> rw [hu] at hdrop
      · exact hdrop.trans (markCircuit_same u group circuit).moves
      · exact hdrop
    · exact (send_same _ _ _).moves
  rw [State.clearOrphan_eq]
  exact (hbump.moves.trans horphan).trans (send_same _ _ _).moves

theorem takeClear_moves (hs : s.CoreSound Q) (client tag group circuit : Nat) :
    CoreMoves anyUse Q s (s.takeClear client tag group circuit) := by
  unfold State.takeClear
  split
  · exact (bump_same s _).moves
  · split
    · split
      · exact clearConnected_moves hs _ _ _ _
      · exact clearUnanswered_moves hs _ _
    · exact clearOrphan_moves hs _ _ _ _

/-- The commands that clear the call table or rewrite every group: the resets and the census frame that may be one. -/
def Instr.resets : Instr → Bool
  | .powerOn | .bprstAsserted | .configReadComplete _ | .stationReset | .present => true
  | _ => false

theorem exec_use_moves {c : Instr} {t : State} (hcalm : Instr.calm c = false) (hc : Instr.resets c = false)
    (h : exec c s = .next t) (hs : s.CoreSound Q) : CoreMoves anyUse Q s t := by
  cases c <;> cases hcalm <;> cases hc <;> simp only [exec] at h <;> cases h
  case holdAsk =>
    exact takeFrame_moves hs fun f rest k _ hk t ht _ => by
      split at hk <;> cases hk
      exact answerAsk_moves ht fun _ _ _ => trivial
  case holdTake =>
    exact takeFrame_moves hs fun f rest k _ hk t ht _ => by
      split at hk <;> cases hk
      exact answerTake_moves ht fun _ => trivial
  case holdDrop =>
    exact takeFrame_moves hs fun f rest k _ hk t ht _ => by
      split at hk <;> cases hk
      exact answerDrop_moves ht fun _ _ => trivial
  case holdFault =>
    exact takeFrame_moves hs fun f rest k _ hk t ht _ => by
      split at hk <;> cases hk
      exact faultHold_moves ht fun _ _ => trivial
  case holdExpiry k =>
    split
    · exact .refl
    · split
      · exact (endHold_moves hs k fun _ _ _ => trivial).trans (bump_same _ _).moves
      · exact .refl
  case holdGive =>
    exact takeFrame_moves hs fun f rest k _ hk t _ _ => by
      split at hk <;> cases hk
      exact (takeGive_same ..).moves
  case holdDeny =>
    exact takeFrame_moves hs fun f rest k _ hk t ht _ => by
      split at hk <;> cases hk
      exact takeDeny_moves ht _ _ _ _ _ _
  case holdLost =>
    exact takeFrame_moves hs fun f rest k _ hk t _ _ => by
      split at hk <;> cases hk
      exact (takeLost_same ..).moves
  case answerTimeout r =>
    split
    · exact .refl
    · split
      · split
        · have hbump := bump_same s .noAnswerTimeouts
          exact hbump.moves.trans (select_moves (hbump.coreSound hs) _ _ _)
        · exact .refl
      · exact .refl
  case routeAsk =>
    exact takeFrame_moves hs fun f rest k _ hk t ht _ => by
      split at hk <;> cases hk
      exact takeRouteAsk_moves ht _ _ _ _ _
  case seized =>
    refine seizeFrame_moves hs _ fun t ht r rec u ha => ?_
    split at ha <;> cases ha
    exact seize_moves ht r fun _ => trivial
  case answered =>
    refine seizeFrame_moves hs _ fun t ht r rec u ha => ?_
    split at ha <;> cases ha
    · exact (seize_moves ht r fun _ => trivial).trans (connect_same _ _).moves
    · exact (connect_same _ _).moves
  case seizeFailed =>
    refine seizeFrame_moves hs _ fun t ht r rec u ha => ?_
    split at ha <;> cases ha
    rename_i gr _ _
    have hreport : CoreMoves anyUse Q t (t.reportFault rec gr) := reportFault_moves ht fun _ _ => trivial
    exact hreport.trans (select_moves (hreport.coreSound ht) _ _ _)
  case abandoned =>
    refine seizeFrame_moves hs _ fun t ht r rec u ha => ?_
    split at ha <;> cases ha <;>
      exact (endDrop_moves ht fun _ _ _ _ => trivial).trans (freeRecord_same _ _).moves
  case offerTimeout r =>
    split
    · exact .refl
    · split
      · split
        · exact (endDrop_moves hs fun _ _ _ _ => trivial).trans
            (((send_same _ _ _).trans (bump_same _ _)).trans (freeRecord_same _ _)).moves
        · exact .refl
      · exact .refl
  case callClear =>
    exact takeFrame_moves hs fun f rest k _ hk t ht _ => by
      split at hk <;> cases hk
      exact takeClear_moves ht _ _ _ _
  case forceRelease =>
    exact controlFrame_moves hs _ fun t ht li g n hg => forceCircuit_moves ht hg n fun _ => trivial
  case absenceEvent p =>
    split
    · exact .refl
    · split
      · have hroster : CoreSame s { s with roster := Tab.del s.roster p } := ⟨rfl, rfl, rfl, rfl⟩
        exact hroster.moves.trans (peerGone_moves (hroster.coreSound hs) p fun _ _ _ => trivial)
      · exact .refl

theorem exec_moves {c : Instr} {t : State} (hc : Instr.resets c = false) (h : exec c s = .next t)
    (hs : s.CoreSound Q) : CoreMoves anyUse Q s t := by
  cases hcalm : Instr.calm c with
  | true => exact exec_calm_moves hcalm h hs
  | false => exact exec_use_moves hcalm hc h hs

/-! ## The resets, and every step -/

/-- What a taken frame does is done to a state with the same groups, holds and suspects. -/
theorem takeFrame_coreSound (hs : s.CoreSound Q) (hw : Tab.wf s.groups) {act : RxFrame → Option (State → State)}
    (h : ∀ f k, act f = some k → ∀ t : State, t.CoreSound Q → Tab.wf t.groups → (k t).CoreSound Q) :
    (s.takeFrame act).CoreSound Q := by
  unfold State.takeFrame
  split
  · exact hs
  · rename_i f rest _
    split
    · exact hs
    · rename_i k hk
      dsimp only
      split
      · exact h f k hk _ (hs.dequeued rest) hw
      · exact hs.dequeued rest

theorem takePresent_coreSound (hs : s.CoreSound Q) (hw : Tab.wf s.groups) (source code : Nat) :
    (s.takePresent source code).CoreSound Q := by
  unfold State.takePresent
  split
  · exact hs.halt hw
  · split
    · have hgone : CoreMoves anyUse Q s (s.peerGone source) := peerGone_moves hs source fun _ _ _ => trivial
      exact ((setOfReach_same _).trans (setOfLoads_same _)).coreSound (hgone.coreSound hs)
    · split
      · exact hs
      · exact (bump_same s _).coreSound hs

theorem reset_coreSound {c : Instr} {t : State} (hc : Instr.resets c = true) (h : exec c s = .next t)
    (hs : s.CoreSound Q) (hw : Tab.wf s.groups) : t.CoreSound Q := by
  cases c <;> cases hc <;> simp only [exec] at h <;> cases h
  case powerOn => exact State.coreSound_nil (Nat.zero_le _) rfl rfl rfl
  case bprstAsserted => exact CoreSame.coreSound (s := s) ⟨rfl, rfl, rfl, rfl⟩ hs
  case configReadComplete image =>
    split
    · rename_i hstarting
      simp only [Bool.and_eq_true, decide_eq_true_eq] at hstarting
      have hread : ({ s with reading := false } : State).CoreSound Q :=
        CoreSame.coreSound (s := s) ⟨rfl, rfl, rfl, rfl⟩ hs
      dsimp only
      split
      · rename_i hgood
        exact hread.readGood hstarting.1 (imageGood_iff.1 hgood).2.2
      · exact hread.readFailed
    · exact hs
  case stationReset =>
    refine takeFrame_coreSound hs hw fun f k hk t ht htw => ?_
    split at hk <;> cases hk
    exact ht.softReset htw
  case present =>
    refine takeFrame_coreSound hs hw fun f k hk t ht htw => ?_
    split at hk <;> cases hk
    exact takePresent_coreSound ht htw _ _

theorem exec_coreSound {c : Instr} {t : State} (h : exec c s = .next t) (hs : s.CoreSound Q) (hw : Tab.wf s.groups) :
    t.CoreSound Q := by
  cases hc : Instr.resets c with
  | false => exact (exec_moves hc h hs).coreSound hs
  | true => exact reset_coreSound hc h hs hw

theorem step_coreSound {t : State} (h : step s = .next t) (hs : s.CoreSound Q) (hw : Tab.wf s.groups) :
    t.CoreSound Q := by
  unfold step at h
  split at h
  · cases h
    unfold State.tick
    split
    · exact hs
    · exact CoreSame.coreSound (s := s) ⟨rfl, rfl, rfl, rfl⟩ hs
  · rename_i c rest _
    exact exec_coreSound h (CoreSame.coreSound (s := s) ⟨rfl, rfl, rfl, rfl⟩ hs) hw

end

/-- The tables stay in their canonical form. -/
theorem stepKept_tablesSound : StepKept State.TablesSound where
  edit := Edit.tablesSound
  configured {s} image _ hs := hs.withGroups (s.configured_wf image)
  afterReleases hs := hs.withGroups (Tab.wf_mapVal hs.2.1 fun _ g => g.settled)
  listening {s} hs :=
    ⟨List.pairwise_singleton _ _, Tab.wf_mapVal hs.2.1 fun _ g => g.restarted s.clock, .nil, .nil, hs.2.2.2.2⟩

/-- Settles O59: a load record follows its counts after every elementary change; groups, holds and suspects follow each
other through every operation on circuits, and through the resets. -/
theorem stepKeepsGroups : Obligations.StepKeepsGroups := by
  have hsound : ∀ s t : State, s.TablesSound → s.GroupsSound → s.HoldsLinked → s.SuspectsSound → step s = .next t →
      t.CoreSound True := fun s t htables hgroups hlinked hsuspects hstep =>
    step_coreSound hstep ⟨⟨hgroups.found, hlinked⟩, fun _ => hsuspects⟩ htables.2.1
  refine ⟨fun s t htables hconfig hgroups hload hlinked hsuspects hstep => ⟨?_, step_loadSound hstep hload⟩,
    fun s t htables hconfig hgroups hlinked hsuspects hstep => ?_⟩
  · exact (hsound s t htables hgroups hlinked hsuspects hstep).circuits.found.groupsSound
      (stepKept_tablesSound.step hstep htables).2.1
  · have h := hsound s t htables hgroups hlinked hsuspects hstep
    exact ⟨h.circuits.linked, h.suspects trivial⟩

end Sys2Proof.Machine
end

section
/-! The circuits that back own calls (R110, R116, R117, R121): what keeps them, and what a grant, a seizure, a drop and
a marking make of them. Records are named by their numbers, and `keep` says which of them are followed: while a command
works on one record, that record is not. -/

namespace Sys2Proof.Machine

/-- The record of a call on an own group is to drop the circuit of its grant at its end (R121). -/
structure CallRecord.Claims (rec : CallRecord) (a : Nat) (gr : Grant) : Prop where
  grant : rec.phase.grant = some gr
  own : rec.group / 16 = a
  drops : rec.dropsAtEnd = true

/-- The use of its circuit that a record rests on: HELD in its slot before the seizure, and BUSY after it. -/
def CallRecord.useOf (rec : CallRecord) (a : Nat) (gr : Grant) : Nat × Option Nat :=
  (a, if rec.phase.seized then none else some gr.slot)

theorem CallRecord.useOf_seized {rec : CallRecord} (h : rec.phase.seized = true) (a : Nat) (gr : Grant) :
    rec.useOf a gr = (a, none) := by rw [CallRecord.useOf, h]; rfl

theorem CallRecord.useOf_offered {rec : CallRecord} (h : rec.phase.seized = false) (a : Nat) (gr : Grant) :
    rec.useOf a gr = (a, some gr.slot) := by rw [CallRecord.useOf, h]; rfl

theorem CallRecord.not_claims_of_not_drops {rec : CallRecord} (h : rec.dropsAtEnd = false) {a : Nat} {gr : Grant} :
    ¬ rec.Claims a gr := fun hc => by rw [hc.drops] at h; cases h

theorem CallRecord.not_claims_of_remote {rec : CallRecord} {a : Nat} (h : rec.group / 16 ≠ a) {gr : Grant} :
    ¬ rec.Claims a gr := fun hc => h hc.own

theorem Group.useAt_eq_busy_iff {g : Group} {c u : Nat} :
    g.useAt c = some (u, none) ↔ ∃ t bp fr, g.circuits[c]? = some (.busy t u bp fr) := by
  rw [Group.useAt_eq_some_iff]
  constructor
  · rintro ⟨x, hx, hu⟩
    obtain ⟨t, bp, fr, rfl⟩ := Circuit.use_eq_busy_iff.1 hu
    exact ⟨t, bp, fr, hx⟩
  · rintro ⟨t, bp, fr, hx⟩
    exact ⟨_, hx, rfl⟩

section
variable {s t : State} {rec : CallRecord} {gr : Grant}

/-- A record is backed by the use of its circuit, and before the seizure by its hold id. -/
theorem State.backs_iff (hs : s.GroupsFound) : s.Backs rec gr ↔
    ∃ g, Tab.find s.groups (rec.group % 16) = some g ∧ g.global = rec.group ∧
      g.useAt gr.circuit = some (rec.useOf s.address gr) ∧
      (rec.phase.seized = false → s.HoldMatches s.address gr.slot gr.generation rec.group gr.circuit) := by
  cases hseized : rec.phase.seized with
  | true =>
    rw [CallRecord.useOf_seized hseized]
    simp only [State.Backs, hseized, if_true, Group.useAt_eq_busy_iff]
    constructor
    · rintro ⟨li, g, term, bp, fr, hown⟩
      obtain ⟨hg, hglobal, hx, rfl⟩ := hs.of_ownCircuit hown
      exact ⟨g, hg, hglobal, ⟨term, bp, fr, hx⟩, nofun⟩
    · rintro ⟨g, hg, hglobal, ⟨term, bp, fr, hx⟩, -⟩
      exact ⟨_, g, term, bp, fr, hglobal ▸ hs.ownCircuit hg hx⟩
  | false =>
    rw [CallRecord.useOf_offered hseized]
    simp only [State.Backs, hseized, Group.useAt_eq_held_iff]
    constructor
    · rintro ⟨li, g, term, bp, fr, hown, hmatch⟩
      obtain ⟨hg, hglobal, hx, rfl⟩ := hs.of_ownCircuit hown
      exact ⟨g, hg, hglobal, ⟨term, bp, fr, hx⟩, fun _ => hmatch⟩
    · rintro ⟨g, hg, hglobal, ⟨term, bp, fr, hx⟩, hmatch⟩
      exact ⟨_, g, term, bp, fr, hglobal ▸ hs.ownCircuit hg hx, hmatch trivial⟩

/-- Every followed record that claims its circuit is backed, and no two claim one circuit. -/
structure State.BackedOn (keep : Nat → Prop) (s : State) : Prop where
  backs : ∀ {r rec gr}, keep r → Tab.find s.calls r = some rec → rec.Claims s.address gr → s.Backs rec gr
  unique : ∀ {r rec gr r' rec' gr'}, keep r → keep r' → Tab.find s.calls r = some rec →
    Tab.find s.calls r' = some rec' → rec.Claims s.address gr → rec'.Claims s.address gr' → rec.group = rec'.group →
    gr.circuit = gr'.circuit → r = r'

/-- All records are followed. -/
abbrev State.Backed (s : State) : Prop := s.BackedOn fun _ => True

/-- All records but one are followed. -/
abbrev State.BackedBut (r : Nat) (s : State) : Prop := s.BackedOn (· ≠ r)

theorem State.callsBacked_iff (hw : Tab.wf s.calls) : s.CallsBacked ↔ s.Backed := by
  constructor
  · rintro ⟨hbacks, hunique⟩
    refine ⟨fun _ hrec hc => hbacks _ (Tab.mem_of_find hrec) _ hc.grant hc.own hc.drops,
      fun _ _ hrec hrec' hc hc' hgroup hcircuit => ?_⟩
    exact hunique _ (Tab.mem_of_find hrec) _ (Tab.mem_of_find hrec') _ _ hc.grant hc'.grant hc.own hgroup hcircuit
      hc.drops hc'.drops
  · intro h
    refine ⟨fun p hp gr hgr hown hdrops => h.backs trivial (Tab.find_of_mem hw hp) ⟨hgr, hown, hdrops⟩,
      fun p hp q hq gr gr' hgr hgr' hown hgroup hcircuit hdrops hdrops' => ?_⟩
    exact h.unique trivial trivial (Tab.find_of_mem hw hp) (Tab.find_of_mem hw hq) ⟨hgr, hown, hdrops⟩
      ⟨hgr', hgroup ▸ hown, hdrops'⟩ hgroup hcircuit

theorem State.Backed.but (h : s.Backed) (r : Nat) : s.BackedBut r :=
  ⟨fun _ => h.backs trivial, fun _ _ => h.unique trivial trivial⟩

theorem State.backed_of_noCalls (h : s.calls = []) : s.Backed :=
  ⟨fun _ hrec => (by rw [h] at hrec; cases hrec), fun _ _ hrec => (by rw [h] at hrec; cases hrec)⟩

/-! ## What keeps the backing -/

/-- Every followed claim is an old one. -/
def CallsFollow (keep : Nat → Prop) (s t : State) : Prop :=
  ∀ r rec gr, keep r → Tab.find t.calls r = some rec → rec.Claims s.address gr →
    ∃ rec0, Tab.find s.calls r = some rec0 ∧ rec0.Claims s.address gr ∧ rec0.group = rec.group ∧
      rec0.phase.seized = rec.phase.seized

theorem CallsFollow.of_calls {keep : Nat → Prop} (h : t.calls = s.calls) : CallsFollow keep s t :=
  fun _ rec _ _ hrec hc => ⟨rec, h ▸ hrec, hc, rfl, rfl⟩

section
variable {keep : Nat → Prop} {P : Nat → Nat → Nat × Option Nat → Prop} {Q : Prop}

/-- A record is backed where its circuit's use has not ended. -/
theorem State.Backs.moves {rec0 : CallRecord} (h : s.Backs rec0 gr) (hm : CoreMoves P Q s t) (hs : s.CircuitsSound)
    (hgroup : rec0.group = rec.group) (hseized : rec0.phase.seized = rec.phase.seized)
    (hP : ¬ P (rec.group % 16) gr.circuit (rec.useOf s.address gr)) : t.Backs rec gr := by
  obtain ⟨g, hg, hglobal, huse, hmatch⟩ := (State.backs_iff hs.found).1 h
  have hu : rec0.useOf s.address gr = rec.useOf s.address gr := by rw [CallRecord.useOf, hseized]; rfl
  rw [hgroup] at hg hglobal hmatch
  rw [hu] at huse
  rw [hseized] at hmatch
  obtain ⟨g', hg', hglobal', huse', hslots⟩ := hm.use_kept hs hg huse hP
  have haddress : t.address = s.address := congrArg EngineConfig.address hm.config
  refine (State.backs_iff (hm.circuitsSound hs).found).2 ⟨g', hg', hglobal'.trans hglobal, haddress ▸ huse',
      fun hno => ?_⟩
  obtain ⟨x, hold, hx, hrest⟩ := hmatch hno
  rw [haddress]
  exact ⟨x, hold, (hslots gr.slot (by rw [CallRecord.useOf_offered hno])).trans hx, hrest⟩

theorem State.Backs.same (h : s.Backs rec gr) (hsame : CoreSame s t) (hs : s.CircuitsSound) : t.Backs rec gr :=
  h.moves (P := fun _ _ _ => False) (Q := False) hsame.moves hs rfl rfl id

theorem State.BackedOn.follow (hb : s.BackedOn keep) (hm : CoreMoves P Q s t) (hs : s.CircuitsSound)
    (hf : CallsFollow keep s t) (hP : ∀ r rec gr, keep r → Tab.find t.calls r = some rec → rec.Claims s.address gr →
      ¬ P (rec.group % 16) gr.circuit (rec.useOf s.address gr)) : t.BackedOn keep := by
  have haddress : t.address = s.address := congrArg EngineConfig.address hm.config
  refine ⟨fun {r rec gr} hr hrec hc => ?_, fun {r rec gr r' rec' gr'} hr hr' hrec hrec' hc hc' hgroup hcircuit => ?_⟩
  · rw [haddress] at hc
    obtain ⟨rec0, hrec0, hc0, hgroup, hseized⟩ := hf r rec gr hr hrec hc
    exact (hb.backs hr hrec0 hc0).moves hm hs hgroup hseized (hP r rec gr hr hrec hc)
  · rw [haddress] at hc hc'
    obtain ⟨rec0, hrec0, hc0, hgroup0, -⟩ := hf r rec gr hr hrec hc
    obtain ⟨rec0', hrec0', hc0', hgroup0', -⟩ := hf r' rec' gr' hr' hrec' hc'
    exact hb.unique hr hr' hrec0 hrec0' hc0 hc0' (hgroup0.trans (hgroup.trans hgroup0'.symm)) hcircuit

/-- No use ends. -/
abbrev noUse : Nat → Nat → Nat × Option Nat → Prop := fun _ _ _ => False

/-- No use ends and no call record changes. -/
theorem State.BackedOn.calm (hb : s.BackedOn keep) (hm : CoreMoves noUse Q s t) (hs : s.CircuitsSound)
    (hcalls : t.calls = s.calls) : t.BackedOn keep :=
  hb.follow hm hs (.of_calls hcalls) fun _ _ _ _ _ _ h => h

theorem State.BackedOn.same (hb : s.BackedOn keep) (h : CoreSame s t) (hs : s.CircuitsSound)
    (hcalls : t.calls = s.calls) : t.BackedOn keep :=
  hb.calm (Q := False) h.moves hs hcalls

/-- The uses of other stations. -/
def usesOfOthers (a : Nat) : Nat → Nat → Nat × Option Nat → Prop := fun _ _ u => u.1 ≠ a

/-- Only uses of other stations end. -/
theorem State.BackedOn.others (hb : s.BackedOn keep) (hm : CoreMoves (usesOfOthers s.address) Q s t)
    (hs : s.CircuitsSound) (hcalls : t.calls = s.calls) : t.BackedOn keep :=
  hb.follow hm hs (.of_calls hcalls) fun _ _ _ _ _ _ h => h rfl

end

/-- The followed record is written. -/
theorem State.BackedOn.put {r : Nat} (hb : s.BackedBut r) (hnew : ∀ gr, rec.Claims s.address gr → s.Backs rec gr ∧
    ∀ r' rec' gr', r' ≠ r → Tab.find s.calls r' = some rec' → rec'.Claims s.address gr' → rec'.group = rec.group →
      gr'.circuit ≠ gr.circuit) : (s.putRecord r rec).Backed := by
  have hfind : ∀ j, Tab.find (s.putRecord r rec).calls j = if j = r then some rec else Tab.find s.calls j := fun j =>
    Tab.find_put _ _ _ _
  refine ⟨fun {j rec1 gr1} _ hrec hc => ?_, fun {j rec1 gr1 j' rec1' gr1'} _ _ hrec hrec' hc hc' hgroup hcircuit => ?_⟩
  · rw [hfind] at hrec
    split at hrec
    · cases hrec; exact (hnew gr1 hc).1
    · rename_i hj; exact hb.backs hj hrec hc
  · rw [hfind] at hrec hrec'
    split at hrec <;> split at hrec'
    · rename_i hj hj'; exact hj.trans hj'.symm
    · rename_i _ hj'
      cases hrec
      exact absurd hcircuit.symm ((hnew gr1 hc).2 j' rec1' gr1' hj' hrec' hc' hgroup.symm)
    · rename_i hj _
      cases hrec'
      exact absurd hcircuit ((hnew gr1' hc').2 j rec1 gr1 hj hrec hc hgroup)
    · rename_i hj hj'
      exact hb.unique hj hj' hrec hrec' hc hc' hgroup hcircuit

/-- The record is written so that it claims nothing. -/
theorem State.BackedOn.putIdle {r : Nat} (hb : s.BackedBut r) (hno : ∀ gr, ¬ rec.Claims s.address gr) :
    (s.putRecord r rec).Backed :=
  hb.put fun gr hc => absurd hc (hno gr)

/-- The record is freed. -/
theorem State.BackedOn.free {r : Nat} (hb : s.BackedBut r) : (s.freeRecord r).Backed := by
  have hfind : ∀ {j rec}, Tab.find (s.freeRecord r).calls j = some rec → j ≠ r ∧ Tab.find s.calls j = some rec := by
    intro j rec hrec
    rw [State.freeRecord, Tab.find_del] at hrec
    split at hrec
    · cases hrec
    · exact ⟨‹_›, hrec⟩
  exact ⟨fun _ hrec hc => hb.backs (hfind hrec).1 (hfind hrec).2 hc,
    fun _ _ hrec hrec' => hb.unique (hfind hrec).1 (hfind hrec').1 (hfind hrec).2 (hfind hrec').2⟩

end

end Sys2Proof.Machine
end

section
/-! What the operations of the call unit make of the backing: a grant backs its record, a drop ends only the use that
its record claims, a seizure moves its record on, and a marking ends claims only. -/

namespace Sys2Proof.Machine

section
variable {s u : State} {r : Nat} {rec : CallRecord} {gr : Grant}

/-! ## Grants and selection (R105 to R110) -/

/-- A record offered with a grant of this station's own hold unit is backed, and its circuit was IDLE before. -/
theorem State.Granted.backs {serial group li : Nat} {g0 g : Group} {x : Slot}
    (h : s.Granted s.address serial group u gr li g0 g x) (hs : s.GroupsFound) (hu : u.GroupsFound)
    (haddress : u.address = s.address) {gr' : Grant} (hgroup : rec.group = group) (hseized : rec.phase.seized = false)
    (hslot : gr'.slot = gr.slot) (hgeneration : gr'.generation = gr.generation) (hcircuit : gr'.circuit = gr.circuit) :
    u.Backs rec gr' := by
  obtain ⟨hown, hli, hg0⟩ := ownGroup_some h.own
  have hglobal : g0.global = group := by
    have := (hs.2 li g0 hg0).2.1
    omega
  have hidle := Group.idle_of_hunt h.hunt
  rw [State.backs_iff hu]
  refine ⟨(g.granted gr.circuit gr.terminal s.address gr.slot).recomputed, ?_, ?_, ?_, fun _ => ?_⟩
  · rw [h.state, hgroup, ← hli]
    exact (handGroup_written _ li _).find_self
  · rw [hgroup, ← hglobal, h.attempted]
    rfl
  · rw [CallRecord.useOf_offered hseized, hslot, hcircuit, haddress]
    refine Group.useAt_eq (x := .held gr.terminal s.address gr.slot false false) ?_
    rw [Group.recomputed_circuits]
    exact (getElem?_set_circuit hidle _ _).trans (if_pos rfl)
  · refine ⟨{ generation := x.generation + 1, hold := some (s.holdOf s.address serial group gr.circuit gr.band) },
      _, ?_,
      rfl, ?_, hgroup.symm, hcircuit.symm, haddress.symm⟩
    · rw [h.state, State.handGroup_slots, State.slots_setSlot _ h.slot_lt, if_pos hslot]
    · rw [hgeneration]; exact h.generation.symm

theorem State.Granted.useAt_none {serial group li requester : Nat} {g0 g : Group} {x : Slot}
    (h : s.Granted requester serial group u gr li g0 g x) :
    Tab.find s.groups (group % 16) = some g0 ∧ g0.useAt gr.circuit = none := by
  obtain ⟨-, hli, hg0⟩ := ownGroup_some h.own
  have hidle := Group.idle_of_hunt h.hunt
  rw [h.attempted] at hidle
  exact ⟨hli ▸ hg0, Group.useAt_eq (x := .idle gr.terminal) hidle⟩

/-- No backed record claims a circuit that is not in use. -/
theorem State.BackedOn.not_claimed {keep : Nat → Prop} (hb : s.BackedOn keep) (hs : s.GroupsFound) {g : Group} {c : Nat}
    {r' : Nat} {rec' : CallRecord} {gr' : Grant} (hr : keep r') (hrec : Tab.find s.calls r' = some rec')
    (hc : rec'.Claims s.address gr') (hg : Tab.find s.groups (rec'.group % 16) = some g) (hidle : g.useAt c = none) :
    gr'.circuit ≠ c := by
  rintro rfl
  obtain ⟨g', hg', -, huse, -⟩ := (State.backs_iff hs).1 (hb.backs hr hrec hc)
  cases hg.symm.trans hg'
  rw [hidle] at huse
  cases huse

theorem send_address (s : State) (d : Nat) (m : Msg) : (s.send d m).address = s.address :=
  (send_edits s d m).frame.address

theorem send_calls (s : State) (d : Nat) (m : Msg) : (s.send d m).calls = s.calls := (send_edits s d m).frame.calls

theorem State.BackedOn.send {keep : Nat → Prop} (hb : s.BackedOn keep) (hs : s.CircuitsSound) (d : Nat) (m : Msg) :
    (s.send d m).BackedOn keep :=
  hb.same (send_same s d m) hs (send_calls s d m)

theorem State.BackedOn.congested (hb : s.BackedBut r) (hs : s.CircuitsSound) (b : CallBase) :
    (s.congested r b).Backed :=
  State.BackedOn.free (hb.same ((send_same s _ _).trans (bump_same _ .routeFails)) hs (send_calls s _ _))

/-- The selection of one record backs it, or ends it (R105 to R113). -/
theorem select_backed (hs : s.CoreSound False) (hb : s.BackedBut r) (b : CallBase) (fuel : Nat) :
    (s.select r b fuel).Backed := by
  induction fuel generalizing s b with
  | zero => exact hb.congested hs.circuits b
  | succ fuel ih =>
    cases hpick : s.pick b with
    | none => rw [State.select_of_none (.inr hpick)]; exact hb.congested hs.circuits b
    | some c =>
      by_cases hown : c.group / 16 = s.address
      · cases hrequest : s.requestHold s.address 0 c.group b.prec with
        | mk u answer =>
          have hmoves : CoreMoves noUse False s u := requestHold_moves hs hrequest
          have hcalls : u.calls = s.calls := by
            have h := (requestHold_edits s s.address 0 c.group b.prec).frame.calls
            rw [hrequest] at h
            exact h
          have hu := hmoves.coreSound hs
          have hbu : u.BackedBut r := hb.calm hmoves hs.circuits hcalls
          cases answer with
          | denied reason band =>
            rw [State.select_of_denied hpick hown hrequest]
            exact ih hu hbu _
          | granted gr =>
            rw [State.select_of_granted hpick hown hrequest]
            obtain ⟨li, g0, g, x, hgrant⟩ := State.requestHold_granted hrequest
            have haddress : u.address = s.address := congrArg EngineConfig.address hmoves.config
            obtain ⟨hg0, hidle⟩ := hgrant.useAt_none
            have hsend := send_same u (b.trying c.group).client
            refine State.BackedOn.put (hbu.send hu.circuits _ _) fun gr1 hc => ⟨?_, ?_⟩
            · have hgr := hc.grant
              cases hgr
              exact (hgrant.backs hs.circuits.found hu.circuits.found haddress rfl rfl rfl rfl rfl).same (hsend _)
                hu.circuits
            · intro r' rec' gr' hr' hrec' hc' hgroup
              have hgr := hc.grant
              cases hgr
              rw [send_calls, hcalls] at hrec'
              rw [send_address, haddress] at hc'
              exact hb.not_claimed hs.circuits.found hr' hrec' hc' (by rw [hgroup]; exact hg0) hidle
      · cases hoffer : ({ s with serial := s.serial + 1 } : State).offer (c.group / 16)
            (.holdAsk (s.serial + 1).toNat r c.group b.prec) with
        | mk u sent =>
          have hserial : CoreSame s { s with serial := s.serial + 1 } := ⟨rfl, rfl, rfl, rfl⟩
          have hsame := hserial.trans (offer_same _ (c.group / 16) (.holdAsk (s.serial + 1).toNat r c.group b.prec))
          have hcalls := (offer_edits ({ s with serial := s.serial + 1 } : State) (c.group / 16)
            (.holdAsk (s.serial + 1).toNat r c.group b.prec)).frame.calls
          rw [hoffer] at hsame hcalls
          have hbu : u.BackedBut r := hb.same hsame hs.circuits hcalls
          rw [State.select_of_offer hpick hown hoffer]
          cases sent with
          | true => exact hbu.putIdle fun _ hc => nomatch hc.grant
          | false => exact ih (hsame.coreSound hs) hbu _

/-! ## Markings (R121) -/

theorem CallRecord.Claims.of_marked {a : Nat} (h : ({ rec with disputed := true } : CallRecord).Claims a gr) :
    rec.Claims a gr := by
  obtain ⟨hgrant, hown, hdrops⟩ := h
  have hretaken : rec.retaken = true := hdrops
  exact ⟨hgrant, hown, by rw [CallRecord.dropsAtEnd, hretaken, Bool.or_true]⟩

theorem markRecord_follow (keep : Nat → Prop) (s : State) (r : Nat) : CallsFollow keep s (s.markRecord r) := by
  cases hrec : Tab.find s.calls r with
  | none =>
    have hsame : s.markRecord r = s := by simp only [State.markRecord, hrec]
    rw [hsame]
    exact .of_calls rfl
  | some rec =>
    rw [State.markRecord_of_find hrec]
    split
    · exact .of_calls rfl
    · intro j recj gr _ hj hc
      change Tab.find (Tab.put s.calls r { rec with disputed := true }) j = some recj at hj
      rw [Tab.find_put] at hj
      split at hj
      · rename_i hjr
        cases hj
        exact ⟨rec, hjr ▸ hrec, hc.of_marked, rfl, rfl⟩
      · exact ⟨recj, hj, hc, rfl, rfl⟩

theorem State.BackedOn.markRecord {keep : Nat → Prop} (hb : s.BackedOn keep) (hs : s.CircuitsSound) (r : Nat) :
    (s.markRecord r).BackedOn keep :=
  hb.follow (markRecord_same s r).moves hs (markRecord_follow keep s r) (P := noUse) (Q := False)
    fun _ _ _ _ _ _ h => h

theorem connect_follow (keep : Nat → Prop) (s : State) (r : Nat) : CallsFollow keep s (s.connect r) := by
  unfold State.connect
  split
  · rename_i rec hrec
    split
    · rename_i gr0 hphase
      intro j recj gr _ hj hc
      change Tab.find (Tab.put s.calls r _) j = some recj at hj
      rw [Tab.find_put] at hj
      split at hj
      · rename_i hjr
        cases hj
        have hgrant : some gr0 = some gr := hc.grant
        refine ⟨rec, hjr ▸ hrec, ⟨?_, hc.own, hc.drops⟩, rfl, ?_⟩
        · rw [hphase]; exact hgrant
        · rw [hphase]; rfl
      · exact ⟨recj, hj, hc, rfl, rfl⟩
    · exact .of_calls rfl
  · exact .of_calls rfl

theorem State.BackedOn.connect {keep : Nat → Prop} (hb : s.BackedOn keep) (hs : s.CircuitsSound) (r : Nat) :
    (s.connect r).BackedOn keep :=
  hb.follow (connect_same s r).moves hs (connect_follow keep s r) (P := noUse) (Q := False)
    fun _ _ _ _ _ _ h => h

end

end Sys2Proof.Machine
end

section
/-! The ends of use and the seizures of own calls (R74, R116, R118, R121): each touches only the circuit of its record,
or marks the records that name what it releases. -/

namespace Sys2Proof.Machine

section
variable {s u : State} {r : Nat} {rec : CallRecord} {gr : Grant}

/-! ## The drop at a record's end (R121) -/

theorem endDrop_calls (s : State) (rec : CallRecord) (gr : Grant) : (s.endDrop rec gr).calls = s.calls :=
  (endDrop_edits s rec gr).frame.calls

/-- Two own groups of one local index are one group (R1). -/
theorem group_eq_of_mod {a g h : Nat} (hg : g / 16 = a) (hh : h / 16 = a) (hmod : g % 16 = h % 16) : g = h := by omega

/-- The drop at a record's end ends only the use that the record claims. -/
theorem endDrop_backedBut (hb : s.Backed) (hs : s.CoreSound False) (hrec : Tab.find s.calls r = some rec)
    (hgrant : rec.phase.grant = some gr) : (s.endDrop rec gr).BackedBut r := by
  cases hdrops : rec.dropsAtEnd with
  | false =>
    have hsame : s.endDrop rec gr = s := by
      simp only [CallRecord.dropsAtEnd, Bool.or_eq_false_iff, Bool.not_eq_false'] at hdrops
      exact State.endDrop_of_none hdrops.1 hdrops.2
    rw [hsame]
    exact hb.but r
  | true =>
    have hmoves : CoreMoves (fun li c _ => li = rec.group % 16 ∧ c = gr.circuit ∧ rec.group / 16 = s.address) False s
        (s.endDrop rec gr) := endDrop_moves hs fun li g k hfound =>
      have hown := ownGroup_some hfound
      ⟨hown.2.1, rfl, hown.1⟩
    refine (hb.but r).follow hmoves hs.circuits (.of_calls (endDrop_calls s rec gr)) ?_
    rintro r' rec' gr' hr' hrec' hc' ⟨hli, hcircuit, hown⟩
    rw [endDrop_calls] at hrec'
    exact hr' (hb.unique trivial trivial hrec' hrec hc' ⟨hgrant, hown, hdrops⟩ (group_eq_of_mod hc'.own hown hli)
      hcircuit)

/-! ## The slot of a record's hold id (R57, R58) -/

/-- A hold id that matches names a circuit of an own group (R57). -/
theorem State.CircuitsSound.own_of_match (hs : s.CircuitsSound) {sender slot gen group c : Nat}
    (h : s.HoldMatches sender slot gen group c) : group / 16 = s.address := by
  obtain ⟨x, hold, hx, hhold, -, hgroup, -, -⟩ := h
  obtain ⟨li, g, -, -, -, hg, hglobal, -⟩ := hs.linked.1 slot hold (by rw [State.holdAt, hx]; exact hhold)
  obtain ⟨hli, hsound⟩ := hs.found.2 li g hg
  have := hsound.1
  omega

/-- The use that a record's hold id names. -/
def State.slotUse (s : State) (rec : CallRecord) (gr : Grant) : Nat → Nat → Nat × Option Nat → Prop :=
  fun _ _ w => w = (s.address, some gr.slot) ∧ s.HoldMatches s.address gr.slot gr.generation rec.group gr.circuit

/-- The hold id of a disputed offer has not come round again on its slot (R57). -/
def State.IdFresh (s : State) (rec : CallRecord) (gr : Grant) : Prop :=
  rec.group / 16 = s.address → rec.dropsAtEnd = false →
    ¬ s.HoldMatches s.address gr.slot gr.generation rec.group gr.circuit

section
variable (hb : s.Backed) (hs : s.CoreSound False) (hrec : Tab.find s.calls r = some rec)
  (hgrant : rec.phase.grant = some gr) (hid : s.IdFresh rec gr)
include hb hs hrec hgrant hid

/-- Where only the use that a record's hold id names has ended, every other record is backed. -/
theorem slotUse_backedBut (hm : CoreMoves (s.slotUse rec gr) False s u) (hcalls : u.calls = s.calls) :
    u.BackedBut r := by
  refine (hb.but r).follow hm hs.circuits (.of_calls hcalls) ?_
  rintro r' rec' gr' hr' hrec' hc' ⟨huse, hmatch⟩
  rw [hcalls] at hrec'
  have hown := hs.circuits.own_of_match hmatch
  have hdrops : rec.dropsAtEnd = true := by
    cases h : rec.dropsAtEnd with
    | true => rfl
    | false => exact absurd hmatch (hid hown h)
  cases hseized : rec'.phase.seized with
  | true => rw [CallRecord.useOf_seized hseized] at huse; cases huse
  | false =>
    rw [CallRecord.useOf_offered hseized] at huse
    have hslot : gr'.slot = gr.slot := Option.some.inj (Prod.mk.inj huse).2
    obtain ⟨-, -, -, -, hmatch'⟩ := (State.backs_iff hs.circuits.found).1 (hb.backs trivial hrec' hc')
    obtain ⟨x, h, hx, hh, -, hgroup, hcircuit, -⟩ := hmatch
    obtain ⟨x', h', hx', hh', -, hgroup', hcircuit', -⟩ := hmatch' hseized
    rw [hslot] at hx'
    cases hx.symm.trans hx'
    cases hh.symm.trans hh'
    exact hr' (hb.unique trivial trivial hrec' hrec hc' ⟨hgrant, hown, hdrops⟩ (hgroup'.symm.trans hgroup)
      (hcircuit'.symm.trans hcircuit))

theorem reportFault_backedBut : (s.reportFault rec gr).BackedBut r :=
  slotUse_backedBut hb hs hrec hgrant hid (reportFault_moves hs fun _ hmatch => ⟨rfl, hmatch⟩)
    (reportFault_edits s rec gr).frame.calls

end

/-! ## Seizures (R73, R116) -/

/-- The circuit that a take has made BUSY. -/
theorem State.takeHold_taken (hs : s.CoreSound False) {slot gen group c : Nat}
    (h : s.takeHold s.address slot gen group c = (u, true)) :
    (s.HoldMatches s.address slot gen group c ∨
      ∃ g, Tab.find s.groups (group % 16) = some g ∧ g.useAt c = none) ∧
    ∃ g, Tab.find u.groups (group % 16) = some g ∧ g.global = group ∧ g.useAt c = some (s.address, none) := by
  cases hown : s.ownCircuit group c with
  | none => rw [State.takeHold_of_noCircuit hown] at h; exact absurd (congrArg Prod.snd h) nofun
  | some p =>
    obtain ⟨li, g, x⟩ := p
    obtain ⟨hg, hglobal, hx, hli⟩ := hs.circuits.found.of_ownCircuit hown
    have hbusy : ∀ (s1 : State) (t bp fr), u = s1.makeBusy li g c t s.address bp fr →
        ∃ g, Tab.find u.groups (group % 16) = some g ∧ g.global = group ∧ g.useAt c = some (s.address, none) := by
      rintro s1 t bp fr rfl
      refine ⟨(g.setCircuit c (.busy t s.address bp fr)).recomputed, ?_, hglobal, ?_⟩
      · rw [← hli]
        exact (handGroup_written s1 li _).find_self
      · refine Group.useAt_eq (x := .busy t s.address bp fr) ?_
        rw [Group.recomputed_circuits, Group.setCircuit_get hx, if_pos rfl]
    by_cases hmatch : s.HoldMatches s.address slot gen group c
    · obtain ⟨t, bp, fr, rfl⟩ := hs.circuits.user_of_match hown hmatch
      rw [State.takeHold_of_match hown hmatch] at h
      exact ⟨.inl hmatch, hbusy _ t bp fr (congrArg Prod.fst h).symm⟩
    · cases hidle : x.isIdle with
      | false => rw [State.takeHold_of_neither hown hmatch hidle] at h; exact absurd (congrArg Prod.snd h) nofun
      | true =>
        cases x with
        | idle t =>
          rw [State.takeHold_of_idle hown hmatch] at h
          exact ⟨.inr ⟨g, hli ▸ hg, Group.useAt_eq hx⟩, hbusy _ t false false (congrArg Prod.fst h).symm⟩
        | _ => cases hidle

/-- SEIZED in OFFERED moves the record on with its circuit (R116). -/
theorem seize_backed (hb : s.Backed) (hs : s.CoreSound False) (hrec : Tab.find s.calls r = some rec) {deadline : Clock}
    (hphase : rec.phase = .offered gr deadline) (hid : s.IdFresh rec gr) : (s.seize r rec gr).Backed := by
  have hgrant : rec.phase.grant = some gr := by rw [hphase]; rfl
  have hseized : rec.phase.seized = false := by rw [hphase]; rfl
  by_cases hown : rec.group / 16 = s.address
  · cases htake : s.takeHold s.address gr.slot gr.generation rec.group gr.circuit with
    | mk u taken =>
      cases taken with
      | false =>
        have hdrops : rec.dropsAtEnd = false := by
          refine Bool.not_eq_true _ ▸ fun hdrops => ?_
          obtain ⟨li, g, t, bp, fr, h⟩ := hb.backs trivial hrec ⟨hgrant, hown, hdrops⟩
          rw [hseized, if_neg Bool.false_ne_true] at h
          rw [State.takeHold_of_match h.1 h.2] at htake
          exact absurd (congrArg Prod.snd htake) nofun
        rw [show s.seize r rec gr = _ from State.seize_of_lost hown htake]
        have hsame : CoreSame s { s with counters := s.counters.marked rec.disputed } := ⟨rfl, rfl, rfl, rfl⟩
        refine ((hb.but r).same hsame hs.circuits rfl).putIdle fun _ => CallRecord.not_claims_of_not_drops ?_
        exact (Bool.or_eq_false_iff.1 hdrops).2
      | true =>
        have hmoves : CoreMoves (s.slotUse rec gr) False s u := by
          have h : CoreMoves (s.slotUse rec gr) False s _ := takeHold_moves (slot := gr.slot) (gen := gr.generation)
            (group := rec.group) (c := gr.circuit) hs fun _ hmatch => ⟨rfl, hmatch⟩
          rwa [htake] at h
        have hcalls : u.calls = s.calls := by
          have h := (takeHold_edits s s.address gr.slot gr.generation rec.group gr.circuit).frame.calls
          rwa [htake] at h
        have haddress : u.address = s.address := congrArg EngineConfig.address hmoves.config
        obtain ⟨hbefore, g, hg, hglobal, huse⟩ := State.takeHold_taken hs htake
        rw [show s.seize r rec gr = _ from State.seize_of_taken hown htake]
        refine (slotUse_backedBut hb hs hrec hgrant hid hmoves hcalls).put fun gr1 hc => ?_
        cases hc.grant
        refine ⟨(State.backs_iff (hmoves.circuitsSound hs.circuits).found).2
          ⟨g, hg, hglobal, huse.trans (by rw [haddress]; rfl), nofun⟩, fun r' rec' gr' hr' hrec' hc' hgroup => ?_⟩
        rw [hcalls] at hrec'
        rw [haddress] at hc'
        rcases hbefore with hmatch | ⟨g0, hg0, hidle⟩
        · have hdrops : rec.dropsAtEnd = true := by
            cases h : rec.dropsAtEnd with
            | true => rfl
            | false => exact absurd hmatch (hid hown h)
          exact fun hcircuit => hr' (hb.unique trivial trivial hrec' hrec hc' ⟨hgrant, hown, hdrops⟩ hgroup hcircuit)
        · exact hb.not_claimed hs.circuits.found trivial hrec' hc'
            (by rw [show rec'.group = rec.group from hgroup]; exact hg0) hidle
  · have hoffer := offer_same s (rec.group / 16) (.holdTake gr.slot gr.generation rec.group gr.circuit)
    have hcalls := (offer_edits s (rec.group / 16) (.holdTake gr.slot gr.generation rec.group gr.circuit)).frame.calls
    have hput : ∀ v : State, CoreSame s v → v.calls = s.calls →
        (v.putRecord r { rec with phase := .ringing gr }).Backed := fun v hv hcalls =>
      ((hb.but r).same hv hs.circuits hcalls).putIdle fun _ => CallRecord.not_claims_of_remote
        (by rw [show v.address = s.address from congrArg EngineConfig.address hv.config]; exact hown)
    unfold State.seize
    rw [if_neg hown]
    split <;> rename_i v hv <;> rw [hv] at hoffer hcalls
    · exact hput v hoffer hcalls
    · exact (hput v hoffer hcalls).markRecord ((hoffer.trans (putRecord_same _ _ _)).coreSound hs).circuits r

/-! ## Releases under a record (R20, R121, R124) -/

/-- The records after a circuit's marking. -/
theorem mark_foldl_calls (group circuit : Nat) (l : Tab CallRecord) : ∀ (s : State) (done : Tab CallRecord),
    s.calls = done ++ l → Tab.wf s.calls →
    (l.foldl (fun s p => if p.2.names group circuit then s.markReleased p.1 else s) s).calls =
      done ++ l.map fun p => (p.1, p.2.markedFor group circuit) := by
  induction l with
  | nil => intro s done hcalls _; exact hcalls
  | cons p l ih =>
    intro s done hcalls hw
    obtain ⟨r, rec⟩ := p
    rw [List.foldl_cons, List.map_cons, List.append_cons]
    cases hnames : rec.names group circuit with
    | false =>
      have hsame : rec.markedFor group circuit = rec := by simp [CallRecord.markedFor, hnames]
      rw [if_neg Bool.false_ne_true, hsame]
      exact ih s _ (by rw [hcalls, List.append_cons]) hw
    | true =>
      have hmarked : rec.markedFor group circuit = { rec with disputed := true, retaken := false } := by
        simp [CallRecord.markedFor, hnames]
      have hfind : Tab.find s.calls r = some rec := Tab.find_of_mem hw (by rw [hcalls]; simp)
      have hcalled : (s.markReleased r).calls = Tab.put s.calls r { rec with disputed := true, retaken := false } := by
        simp only [State.markReleased, hfind]
        split <;> rfl
      rw [if_pos rfl]
      refine ih _ _ ?_ (by rw [hcalled]; exact Tab.wf_put hw _ _)
      rw [hcalled, hmarked, hcalls, Tab.put_append_cons (hcalls ▸ hw), List.append_cons]

theorem markCircuit_calls (hw : Tab.wf s.calls) (group circuit : Nat) :
    (s.markCircuit group circuit).calls = s.calls.map fun p => (p.1, p.2.markedFor group circuit) :=
  mark_foldl_calls group circuit s.calls s [] rfl hw

/-- A record that still claims its circuit after a marking was not marked. -/
theorem claims_of_markCircuit (hw : Tab.wf s.calls) {group circuit a : Nat}
    (hrec : Tab.find (s.markCircuit group circuit).calls r = some rec) (hc : rec.Claims a gr) :
    Tab.find s.calls r = some rec ∧ ¬ (rec.group = group ∧ gr.circuit = circuit) := by
  rw [markCircuit_calls hw, Tab.find_mapVal s.calls fun _ rec => rec.markedFor group circuit,
    Option.map_eq_some_iff] at hrec
  obtain ⟨rec0, hrec0, rfl⟩ := hrec
  cases hnames : rec0.names group circuit with
  | true =>
    have hmarked : rec0.markedFor group circuit = { rec0 with disputed := true, retaken := false } := by
      simp [CallRecord.markedFor, hnames]
    rw [hmarked] at hc
    exact absurd hc (CallRecord.not_claims_of_not_drops rfl)
  | false =>
    have hsame : rec0.markedFor group circuit = rec0 := by simp [CallRecord.markedFor, hnames]
    rw [hsame] at hc ⊢
    refine ⟨hrec0, fun ⟨hgroup, hcircuit⟩ => ?_⟩
    simp [CallRecord.names, hc.grant, hgroup, hcircuit] at hnames

/-- Where one circuit's use has ended and the records that name it are marked, every record that claims is backed. -/
theorem markCircuit_backed (hb : s.Backed) (hs : s.CoreSound False) (hw : Tab.wf s.calls) {group c : Nat}
    (hown : group / 16 = s.address)
    (hm : CoreMoves (fun li d _ => li = group % 16 ∧ d = c) False s u) (hcalls : u.calls = s.calls) :
    (u.markCircuit group c).Backed := by
  have hwu : Tab.wf u.calls := hcalls ▸ hw
  refine hb.follow (hm.trans (markCircuit_same u group c).moves) hs.circuits (fun j recj grj _ hj hc => ?_) ?_
  · rw [← hcalls]
    exact ⟨recj, (claims_of_markCircuit hwu hj hc).1, hc, rfl, rfl⟩
  · rintro j recj grj - hj hc ⟨hli, hcircuit⟩
    exact (claims_of_markCircuit hwu hj hc).2 ⟨group_eq_of_mod hc.own hown hli, hcircuit⟩

/-- A drop that releases nothing is counted, and changes nothing else. -/
theorem State.dropHold_stale {sender group c : Nat} {id : Option (Nat × Nat)}
    (h : s.dropHold sender id group c = (u, false)) : u = s.bump .staleDrops := by
  cases hown : s.ownCircuit group c with
  | none => rw [State.dropHold_of_noCircuit id hown] at h; exact (congrArg Prod.fst h).symm
  | some p =>
    obtain ⟨li, g, x⟩ := p
    cases x with
    | held t v k bp fr =>
      obtain ⟨hends, hnot⟩ := State.dropHold_held (sender := sender) hown id
      by_cases hp : v = sender ∧ (id = none ∨ (s.DropMatches sender id group c ∧ id.map (·.1) = some k))
      · rw [hends hp] at h; exact absurd (congrArg Prod.snd h) nofun
      · rw [hnot hp] at h; exact (congrArg Prod.fst h).symm
    | busy t v bp fr =>
      obtain ⟨hends, hnot⟩ := State.dropHold_busy (sender := sender) hown id
      by_cases hp : v = sender ∧ ¬ s.DropMatches sender id group c
      · rw [hends hp] at h; exact absurd (congrArg Prod.snd h) nofun
      · rw [hnot hp] at h; exact (congrArg Prod.fst h).symm
    | idle t => rw [State.dropHold_of_notInUse hown rfl] at h; exact (congrArg Prod.fst h).symm
    | blocked t => rw [State.dropHold_of_notInUse hown rfl] at h; exact (congrArg Prod.fst h).symm
    | faulty => rw [State.dropHold_of_notInUse hown rfl] at h; exact (congrArg Prod.fst h).symm

theorem bump_backed {keep : Nat → Prop} (hb : s.BackedOn keep) (hs : s.CircuitsSound) (k : Counter) :
    (s.bump k).BackedOn keep :=
  hb.same (bump_same s k) hs rfl

/-- An orphan clear marks the records whose circuit it releases (R124). -/
theorem clearOrphan_backed (hb : s.Backed) (hs : s.CoreSound False) (hw : Tab.wf s.calls)
    (client tag group circuit : Nat) : (s.clearOrphan client tag group circuit).Backed := by
  rw [State.clearOrphan_eq]
  have hbump := bump_same s .orphanClears
  have hb1 : (s.bump .orphanClears).Backed := bump_backed hb hs.circuits _
  have hs1 : (s.bump .orphanClears).CoreSound False := hbump.coreSound hs
  have hw1 : Tab.wf (s.bump .orphanClears).calls := hw
  generalize s.bump .orphanClears = v at hb1 hs1 hw1
  have horphan : (v.endOrphan group circuit).Backed ∧ (v.endOrphan group circuit).CircuitsSound := by
    by_cases hown : group / 16 = v.address
    · have hmoves : CoreMoves (fun li d _ => li = group % 16 ∧ d = circuit) False v
          (v.dropHold v.address none group circuit).1 :=
        dropHold_moves hs1 none fun li g k hfound => ⟨(ownGroup_some hfound).2.1, rfl⟩
      have hcalls := (dropHold_edits v v.address none group circuit).frame.calls
      cases hdrop : v.dropHold v.address none group circuit with
      | mk w released =>
        rw [hdrop] at hmoves hcalls
        cases released with
        | true =>
          rw [State.endOrphan_of_released hown hdrop]
          exact ⟨markCircuit_backed hb1 hs1 hw1 hown hmoves hcalls,
            ((markCircuit_same w group circuit).coreSound (hmoves.coreSound hs1)).circuits⟩
        | false =>
          rw [State.endOrphan_of_stale hown hdrop, State.dropHold_stale hdrop]
          exact ⟨bump_backed hb1 hs1.circuits _, ((bump_same v _).coreSound hs1).circuits⟩
    · have hsend : v.endOrphan group circuit = v.send (group / 16) (.holdDrop 0 0 0 group circuit) := if_neg hown
      rw [hsend]
      exact ⟨hb1.send hs1.circuits _ _, ((send_same v _ _).coreSound hs1).circuits⟩
  exact horphan.1.send horphan.2 _ _

/-- A release by force marks the records of an own call on the circuit (R20). -/
theorem forceCircuit_backed (hb : s.Backed) (hs : s.CoreSound False) (hw : Tab.wf s.calls) {li : Nat} {g : Group}
    (hg : Tab.find s.groups li = some g) (c : Nat) : (forceCircuit s li g c).1.Backed := by
  obtain ⟨hli, hsound⟩ := hs.circuits.found.2 li g hg
  have hglobal := hsound.1
  have hown : g.global / 16 = s.address := by omega
  have hmod : li = g.global % 16 := by omega
  have hmark : ∀ (v : State) (x : Circuit) (w : Nat × Option Nat), g.circuits[c]? = some x → x.use = some w →
      CoreMoves (fun lj d _ => lj = g.global % 16 ∧ d = c) False s v → v.calls = s.calls →
      (v.markForced w.1 g.global c).Backed := by
    intro v x w hx hw' hm hcalls
    have haddress : v.address = s.address := congrArg EngineConfig.address hm.config
    rw [State.markForced_of_address haddress rfl]
    split
    · exact markCircuit_backed hb hs hw hown hm hcalls
    · rename_i huser
      refine hb.follow hm hs.circuits (.of_calls hcalls) ?_
      rintro j recj grj - hj hc ⟨hlj, rfl⟩
      rw [hcalls] at hj
      obtain ⟨g', hg', -, huse, -⟩ := (State.backs_iff hs.circuits.found).1 (hb.backs trivial hj hc)
      rw [hlj, ← hmod, hg] at hg'
      cases hg'
      rw [Group.useAt_eq hx, hw'] at huse
      cases huse
      exact huser rfl
  cases hx : g.circuits[c]? with
  | none =>
    have hsame : forceCircuit s li g c = (s, false) := by simp only [forceCircuit, hx]
    rw [hsame]
    exact hb
  | some x =>
    cases x with
    | held t v k bp fr =>
      rw [forceCircuit_of_held hx]
      refine hmark _ _ (v, some k) hx rfl (endUse_move hs.entries (.free s t v k bp fr) hg hx rfl bp rfl
        fun _ _ => ⟨hmod, rfl⟩).one ?_
      have hedits : CircuitEdits s _ :=
        (freeSlot_edits s k).trans (endUse_edits (s.freeSlot k) (by simpa using hg) c t bp fr)
      exact hedits.frame.calls
    | busy t v bp fr =>
      rw [forceCircuit_of_busy hx]
      exact hmark _ _ (v, none) hx rfl (endUse_move hs.entries (.self (Circuit.slotless_busy t v bp fr)) hg hx rfl
        bp rfl fun _ _ => ⟨hmod, rfl⟩).one (endUse_edits s hg c t bp fr).frame.calls
    | idle t => rw [forceCircuit_of_notInUse hx rfl]; exact hb
    | blocked t => rw [forceCircuit_of_notInUse hx rfl]; exact hb
    | faulty => rw [forceCircuit_of_notInUse hx rfl]; exact hb

end

end Sys2Proof.Machine
end

section
/-! Settles O60: each command leaves every own call backed. A command either ends uses of other stations only, or
works on one record and the use that this record claims, or marks the records of what it releases, or clears the call
table. -/

namespace Sys2Proof.Machine

/-! ## Commands that touch no call record -/

section
variable {s : State}

theorem takeFrame_calls {act : RxFrame → Option (State → State)}
    (h : ∀ f k, act f = some k → ∀ t : State, (k t).calls = t.calls) : (s.takeFrame act).calls = s.calls := by
  unfold State.takeFrame
  split
  · rfl
  · split
    · rfl
    · rename_i k hk
      dsimp only
      split
      · exact h _ k hk _
      · rfl

theorem control_calls (source dest group action number : Nat) {act : State → Nat → Group → Nat → State × Bool}
    (h : ∀ li g n, Tab.find s.groups li = some g → (act s li g n).1.calls = s.calls) :
    (s.control source dest group action number act).calls = s.calls := by
  unfold State.control
  split
  · rfl
  · split
    · exact send_calls s _ _
    · rename_i li g hown
      by_cases hbad : !knownAction action ∨
          (if action = 4 then g.cfg.working + g.cfg.spares else g.cfg.working) ≤ number
      · rw [if_pos hbad]
        exact send_calls s _ _
      · rw [if_neg hbad]
        have hact := h li g number (ownGroup_some hown).2.2
        split <;> rename_i u hu <;> rw [hu] at hact <;> exact (send_calls u _ _).trans hact

theorem controlFrame_calls (want : Nat) {act : State → Nat → Group → Nat → State × Bool}
    (h : ∀ (t : State) li g n, Tab.find t.groups li = some g → (act t li g n).1.calls = t.calls) :
    (s.controlFrame want act).calls = s.calls := by
  refine takeFrame_calls fun f k hk t => ?_
  split at hk
  · split at hk
    · cases hk
      exact control_calls _ _ _ _ _ (h t)
    · cases hk
  · cases hk

theorem admitFrame_calls (s : State) (w : WireFrame) : (s.admitFrame w).calls = s.calls := by
  unfold State.admitFrame
  split
  · rfl
  · split
    · rfl
    · split
      · rfl
      · split
        · dsimp only
          split
          · exact send_calls _ _ _
          · rfl
        · split <;> rfl

theorem exec_calm_calls {c : Instr} {t : State} (hc : Instr.calm c = true) (h : exec c s = .next t) :
    t.calls = s.calls := by
  cases c <;> cases hc <;> simp only [exec] at h <;> cases h
  case bprstReleased => split <;> rfl
  case listenDeadline =>
    split
    · rfl
    · split
      · exact ((setOfLoads_edits _).frame.calls.trans (setOfReach_edits _).frame.calls).trans (send_calls _ _ _)
      · rfl
  case announceDeadline =>
    split
    · rfl
    · split
      · exact (announceSet_edits s).frame.calls
      · rfl
  case reachDeadline =>
    split
    · rfl
    · split
      · exact (setOfReach_edits s).frame.calls
      · rfl
  case stalenessEvent g =>
    split
    · rfl
    · split
      · dsimp only
        split
        · exact send_calls _ _ _
        · rfl
      · rfl
  case frameReceived w ended =>
    split
    · rfl
    · split
      · rfl
      · have hrefresh : (s.refresh (frameSource w)).calls = s.calls := by
          unfold State.refresh
          split <;> rfl
        dsimp only
        split
        · exact (admitFrame_calls _ w).trans hrefresh
        · exact hrefresh
  case busIdleContention others =>
    split
    · split
      · rfl
      · split
        · rfl
        · split
          · exact (announce_edits _ _).frame.calls
          · rfl
    · rfl
  case bitMismatch => rfl
  case frameSent => rfl
  case block => exact controlFrame_calls _ fun t li g n hg => (blockCircuit_edits t li g n hg).frame.calls
  case unblock => exact controlFrame_calls _ fun t li g n hg => (unblockCircuit_edits t li g n hg).frame.calls
  case restore => exact controlFrame_calls _ fun t li g n hg => (restoreTerminal_edits t li g n hg).frame.calls
  case load =>
    refine takeFrame_calls fun f k hk t => ?_
    split at hk <;> cases hk
    simp only [State.takeLoad]
    split
    · split <;> rfl
    · rfl
  case reach =>
    refine takeFrame_calls fun f k hk t => ?_
    split at hk <;> cases hk
    simp only [State.takeReach]
    split
    · rfl
    · split
      · rfl
      · split
        · rw [applyReach_frame]
        · rfl
  case probe =>
    refine takeFrame_calls fun f k hk t => ?_
    split at hk <;> cases hk
    dsimp only
    split
    · exact (offerLoad_edits t _).frame.calls
    · rfl
  case rateSet =>
    refine takeFrame_calls fun f k hk t => ?_
    split at hk <;> cases hk
    simp only [State.takeRateSet]
    split <;> exact send_calls _ _ _
  case rateClear =>
    refine takeFrame_calls fun f k hk t => ?_
    split at hk <;> cases hk
    simp only [State.takeRateClear]
    split
    · exact send_calls _ _ _
    · split <;> exact send_calls _ _ _
  case periodClose =>
    refine takeFrame_calls fun f k hk t => ?_
    split at hk <;> cases hk
    simp only [State.takePeriodClose]
    split <;> exact send_calls _ _ _
  case tallyRead =>
    refine takeFrame_calls fun f k hk t => ?_
    split at hk <;> cases hk
    exact send_calls _ _ _
  case tallyAck =>
    refine takeFrame_calls fun f k hk t => ?_
    split at hk <;> cases hk
    simp only [State.takeTallyAck]
    split
    · split <;> exact send_calls _ _ _
    · exact send_calls _ _ _
  case statusRead =>
    refine takeFrame_calls fun f k hk t => ?_
    split at hk <;> cases hk
    exact send_calls _ _ _

end

/-! ## What the commands of the call unit rest on -/

/-- Own calls are backed, and the hold id of no disputed offer has come round again (R57, R121). -/
structure State.Backing (s : State) : Prop where
  core : s.CoreSound False
  backed : s.Backed
  calls : Tab.wf s.calls
  fresh : ∀ {r rec gr deadline}, Tab.find s.calls r = some rec → rec.phase = .offered gr deadline → s.IdFresh rec gr

section
variable {s : State} (hs : s.Backing)
include hs

/-- Only the queues and the clock differ. -/
theorem State.Backing.congr {t : State} (h : CoreSame s t) (hcalls : t.calls = s.calls) : t.Backing := by
  refine ⟨h.coreSound hs.core, hs.backed.same h hs.core.circuits hcalls, hcalls ▸ hs.calls,
    fun hrec hphase hown hdrops hmatch => ?_⟩
  have haddress : t.address = s.address := congrArg EngineConfig.address h.config
  rw [haddress] at hown hmatch
  refine hs.fresh (hcalls ▸ hrec) hphase hown hdrops ?_
  obtain ⟨x, hold, hx, hrest⟩ := hmatch
  exact ⟨x, hold, by rw [← h.slots]; exact hx, hrest⟩

theorem State.Backing.sent {t : State} (h : CoreSame s t) (hcalls : t.calls = s.calls) : t.Backed :=
  (hs.congr h hcalls).backed

variable (hrx : ∀ f ∈ s.rx, f.source ≠ s.address)
include hrx

theorem takeFrame_backed {act : RxFrame → Option (State → State)}
    (h : ∀ f k, act f = some k → ∀ t : State, t.Backing → f.source ≠ t.address → (k t).Backed) :
    (s.takeFrame act).Backed := by
  unfold State.takeFrame
  split
  · exact hs.backed
  · rename_i f rest hqueue
    split
    · exact hs.backed
    · rename_i k hk
      have ht : ({ s with rx := rest } : State).Backing := hs.congr ⟨rfl, rfl, rfl, rfl⟩ rfl
      dsimp only
      split
      · exact h f k hk _ ht (hrx f (hqueue ▸ List.mem_cons_self))
      · exact ht.backed

theorem seizeFrame_backed (want : Nat) {act : State → Nat → CallRecord → Option State}
    (h : ∀ t : State, t.Backing → ∀ r rec u, Tab.find t.calls r = some rec → act t r rec = some u → u.Backed) :
    (s.seizeFrame want act).Backed := by
  refine takeFrame_backed hs hrx fun f k hk t ht _ => ?_
  have hstale : (t.bump .staleDrops).Backed := bump_backed ht.backed ht.core.circuits _
  split at hk
  · split at hk
    · cases hk
      dsimp only
      split
      · rename_i r rec hkey
        split
        · cases hact : act t r rec with
          | none => exact hstale
          | some u => exact h t ht r rec u (Tab.find_of_mem ht.calls (recordOfKey_some hkey).1) hact
        · exact hstale
      · exact hstale
    · split at hk
      · cases hk
      · cases hk; exact hstale
  · cases hk

end

section
variable {s : State} (hs : s.Backing)
include hs

theorem crankback_backed (r : Nat) (b : CallBase) (o : AttemptOutcome) : (s.crankback r b o).Backed :=
  select_backed hs.core (hs.backed.but r) _ _

/-! ## The commands of the call unit -/

/-- A record takes the offer of another station's grant only (R109). -/
theorem takeGive_backed {source : Nat} (hsource : source ≠ s.address)
    (serial ref group slot generation circuit terminal carrier band : Nat) :
    (s.takeGive source serial ref group slot generation circuit terminal carrier band).Backed := by
  unfold State.takeGive
  split
  · split
    · rename_i b hb
      have hremote : group / 16 ≠ s.address := by
        split at hb
        · rename_i h; rw [← h]; exact hsource
        · cases hb
      refine State.BackedOn.putIdle ((hs.backed.but ref).send hs.core.circuits _ _) fun gr => ?_
      rw [send_address]
      exact CallRecord.not_claims_of_remote hremote
    · exact hs.sent ((send_same s _ _).trans (bump_same _ _)) (send_calls s _ _)
  · exact bump_backed hs.backed hs.core.circuits _

theorem takeDeny_backed (source serial ref group reason band : Nat) :
    (s.takeDeny source serial ref group reason band).Backed := by
  unfold State.takeDeny
  split
  · split
    · exact bump_backed hs.backed hs.core.circuits _
    · rename_i b _ _ _
      have hview : (s.viewDeny group b).Backing := hs.congr (viewDeny_same s group b) (by
        unfold State.viewDeny
        split <;> rfl)
      dsimp only
      split
      · exact crankback_backed hview _ _ _
      · exact hview.backed
  · exact bump_backed hs.backed hs.core.circuits _

theorem takeLost_backed (source slot generation group circuit : Nat) :
    (s.takeLost source slot generation group circuit).Backed := by
  unfold State.takeLost
  split
  · exact hs.backed
  · exact hs.backed.markRecord hs.core.circuits _
  · have hdraw : ({ s with draws := s.draws + 1 } : State).Backing := hs.congr ⟨rfl, rfl, rfl, rfl⟩ rfl
    exact hdraw.backed.markRecord hdraw.core.circuits _

theorem takeRouteAsk_backed (client tag dest prec origin : Nat) :
    (s.takeRouteAsk client tag dest prec origin).Backed := by
  have hrefuse : ∀ code, (s.refuseRoute client tag code).Backed := fun code => hs.backed.send hs.core.circuits _ _
  unfold State.takeRouteAsk
  split
  · exact bump_backed hs.backed hs.core.circuits _
  · split
    · exact hrefuse _
    · split
      · exact hrefuse _
      · split
        · exact hrefuse _
        · split
          · exact hrefuse _
          · split
            · exact hrefuse _
            · exact select_backed hs.core (hs.backed.but _) _ _

section
variable {r : Nat} {rec : CallRecord} (hrec : Tab.find s.calls r = some rec)
include hrec

/-- The use of a record ends, frames are sent, and the record is freed. -/
theorem endDrop_free_backed {gr : Grant} (hgrant : rec.phase.grant = some gr) {t : State}
    (h : CoreSame (s.endDrop rec gr) t) (hcalls : t.calls = (s.endDrop rec gr).calls) : (t.freeRecord r).Backed := by
  have hmoves : CoreMoves anyUse False s (s.endDrop rec gr) := endDrop_moves hs.core fun _ _ _ _ => trivial
  exact State.BackedOn.free ((endDrop_backedBut hs.backed hs.core hrec hgrant).same h
    (hmoves.coreSound hs.core).circuits hcalls)

theorem clearUnanswered_backed : (s.clearUnanswered r rec).Backed := by
  rw [State.clearUnanswered_eq]
  cases hgrant : rec.phase.grant with
  | none =>
    rw [State.endGranted_of_none s hgrant]
    exact State.BackedOn.free ((hs.backed.but r).send hs.core.circuits _ _)
  | some gr =>
    rw [State.endGranted_of_grant s hgrant]
    exact endDrop_free_backed hs hrec hgrant (send_same _ _ _) (send_calls _ _ _)

theorem clearConnected_backed {gr : Grant} {commit : Clock} (hphase : rec.phase = .connected gr commit) :
    (s.clearConnected r rec gr commit).Backed := by
  have hpost : (s.post rec.base.origin gr.carrier (s.posting rec gr commit)).Backing :=
    hs.congr (post_same s _ _ _) (by
      unfold State.post
      dsimp only
      split <;> rfl)
  have hcalls : (s.post rec.base.origin gr.carrier (s.posting rec gr commit)).calls = s.calls := by
    unfold State.post
    dsimp only
    split <;> rfl
  exact endDrop_free_backed hpost (hcalls ▸ hrec) (by rw [hphase]; rfl) (send_same _ _ _) (send_calls _ _ _)

end

theorem takeClear_backed (client tag group circuit : Nat) : (s.takeClear client tag group circuit).Backed := by
  unfold State.takeClear
  split
  · exact bump_backed hs.backed hs.core.circuits _
  · split
    · rename_i r rec hkey
      have hrec : Tab.find s.calls r = some rec := Tab.find_of_mem hs.calls (recordOfKey_some hkey).1
      split
      · exact clearConnected_backed hs hrec ‹_›
      · exact clearUnanswered_backed hs hrec
    · exact clearOrphan_backed hs.backed hs.core hs.calls _ _ _ _

end

/-! ## Peers (R75, R76, R126) -/

theorem failAttempt_backed {s : State} (hb : s.Backed) (hs : s.CoreSound False) (r : Nat) :
    (s.failAttempt r).Backed := by
  unfold State.failAttempt
  split
  · exact hb
  · split
    · exact select_backed hs (hb.but r) _ _
    · exact hb

theorem failAttempts_backed {s : State} (hb : s.Backed) (hs : s.CoreSound False) (peer : Nat) :
    (s.failAttempts peer).Backed := by
  unfold State.failAttempts
  generalize (s.calls.filter fun p => p.2.awaits peer).map (·.1) = l
  induction l generalizing s with
  | nil => exact hb
  | cons r l ih =>
    have hone : CoreMoves noUse False s (s.failAttempt r) := failAttempt_moves hs r
    exact ih (failAttempt_backed hb hs r) (hone.coreSound hs)

/-- A peer's absence or restart ends no use of an own call. -/
theorem peerGone_backed {s : State} (hb : s.Backed) (hs : s.CoreSound False) {peer : Nat} (hpeer : peer ≠ s.address) :
    (s.peerGone peer).Backed := by
  have hforget : CoreSame s (s.forgetPeer peer) := ⟨rfl, rfl, rfl, rfl⟩
  have hs1 := hforget.coreSound hs
  have hmoves : CoreMoves noUse False (s.forgetPeer peer) ((s.forgetPeer peer).failAttempts peer) :=
    failAttempts_moves hs1 peer
  have hb2 := failAttempts_backed (hb.same hforget hs.circuits rfl) hs1 peer
  have hs2 := hmoves.coreSound hs1
  have haddress : ((s.forgetPeer peer).failAttempts peer).address = s.address :=
    congrArg EngineConfig.address hmoves.config
  exact hb2.others (freeHoldsOf_moves hs2 peer fun _ _ _ => by rw [haddress]; exact hpeer) hs2.circuits
    (freeHoldsOf_edits _ peer).frame.calls

theorem takePresent_backed {s : State} (hs : s.Backing) {source : Nat} (hsource : source ≠ s.address) (code : Nat) :
    (s.takePresent source code).Backed := by
  unfold State.takePresent
  rw [if_neg hsource]
  split
  · have hmoves : CoreMoves anyUse False s (s.peerGone source) := peerGone_moves hs.core source fun _ _ _ => trivial
    exact (peerGone_backed hs.backed hs.core hsource).same ((setOfReach_same _).trans (setOfLoads_same _))
      (hmoves.coreSound hs.core).circuits ((setOfLoads_edits _).frame.calls.trans (setOfReach_edits _).frame.calls)
  · split
    · exact hs.backed
    · exact bump_backed hs.backed hs.core.circuits _

/-! ## Every command -/

/-- The commands that clear the call table. -/
def Instr.clearsCalls : Instr → Bool
  | .powerOn | .bprstAsserted | .configReadComplete _ | .stationReset => true
  | _ => false

theorem softReset_calls (s : State) : s.softReset.calls = [] :=
  have hempty : (s.quiet .starting).emptyHolds.calls = [] := (emptyHolds_edits (s.quiet .starting)).frame.calls
  (enterListen_circuitEdits _).frame.calls.trans hempty

theorem readGood_calls (s : State) (image : List Byte) : (s.readGood image).calls = s.calls := by
  obtain ⟨u, hreleases, hreaches⟩ := readGood_parts s image
  exact hreaches.frame.calls.trans hreleases.frame.calls

section
variable {s t : State} (hs : s.Backing)
include hs

theorem control_force_backed (source dest group action number : Nat) :
    (s.control source dest group action number forceCircuit).Backed := by
  have hanswer : ∀ code, (s.answerControl source code group action number).Backed := fun _ =>
    hs.backed.send hs.core.circuits _ _
  unfold State.control
  split
  · exact hs.backed
  · split
    · exact hanswer _
    · rename_i li g hown
      have hg := (ownGroup_some hown).2.2
      by_cases hbad : !knownAction action ∨
          (if action = 4 then g.cfg.working + g.cfg.spares else g.cfg.working) ≤ number
      · rw [if_pos hbad]
        exact hanswer _
      · rw [if_neg hbad]
        have hmoves : CoreMoves anyUse False s _ := forceCircuit_moves hs.core hg number fun _ => trivial
        have hforced := forceCircuit_backed hs.backed hs.core hs.calls hg number
        split <;> rename_i v hv <;> rw [hv] at hmoves hforced <;>
          exact hforced.send (hmoves.circuitsSound hs.core.circuits) _ _

variable (hrx : ∀ f ∈ s.rx, f.source ≠ s.address)
include hrx

/-- A reset leaves no call, or is not due. -/
theorem reset_backed {c : Instr} (hc : Instr.clearsCalls c = true) (h : exec c s = .next t) (hkept : s.KeptInState) :
    t.Backed := by
  cases c <;> cases hc <;> simp only [exec] at h <;> cases h
  case powerOn => exact State.backed_of_noCalls rfl
  case bprstAsserted => exact State.backed_of_noCalls rfl
  case configReadComplete image =>
    split
    · rename_i hstarting
      simp only [Bool.and_eq_true, decide_eq_true_eq] at hstarting
      have hnone : s.calls = [] := hkept.2.1 (by rw [hstarting.1]; decide)
      dsimp only
      split
      · exact State.backed_of_noCalls ((readGood_calls _ image).trans hnone)
      · exact State.backed_of_noCalls rfl
    · exact hs.backed
  case stationReset =>
    exact takeFrame_backed hs hrx fun f k hk u _ _ => by
      split at hk <;> cases hk
      exact State.backed_of_noCalls (softReset_calls u)

theorem forceRelease_backed : (s.controlFrame 3 forceCircuit).Backed := by
  refine takeFrame_backed hs hrx fun f k hk u hu _ => ?_
  split at hk
  · split at hk
    · cases hk
      exact control_force_backed hu _ _ _ _ _
    · cases hk
  · cases hk

/-- The commands that work on holds and calls. -/
theorem exec_use_backed {c : Instr} (hcalm : Instr.calm c = false) (hc : Instr.clearsCalls c = false)
    (h : exec c s = .next t) (hexpiry : ∀ k, c = .holdExpiry k → ∀ r rec gr deadline, Tab.find s.calls r = some rec →
      rec.phase = .offered gr deadline → rec.group / 16 = s.address → gr.slot ≠ k) : t.Backed := by
  cases c <;> cases hcalm <;> cases hc <;> simp only [exec] at h <;> cases h
  case holdAsk =>
    exact takeFrame_backed hs hrx fun f k hk u hu hsource => by
      split at hk <;> cases hk
      exact hu.backed.others (answerAsk_moves hu.core fun _ _ _ => hsource) hu.core.circuits
        (answerAsk_edits ..).frame.calls
  case holdTake =>
    exact takeFrame_backed hs hrx fun f k hk u hu hsource => by
      split at hk <;> cases hk
      exact hu.backed.others (answerTake_moves hu.core fun _ => hsource) hu.core.circuits
        (answerTake_edits ..).frame.calls
  case holdDrop =>
    exact takeFrame_backed hs hrx fun f k hk u hu hsource => by
      split at hk <;> cases hk
      exact hu.backed.others (answerDrop_moves hu.core fun _ _ => hsource) hu.core.circuits
        (answerDrop_edits ..).frame.calls
  case holdFault =>
    exact takeFrame_backed hs hrx fun f k hk u hu hsource => by
      split at hk <;> cases hk
      exact hu.backed.others (faultHold_moves hu.core fun _ _ => hsource) hu.core.circuits
        (faultHold_edits ..).frame.calls
  case holdExpiry k =>
    split
    · exact hs.backed
    · split
      · have hmoves : CoreMoves (fun _ _ w => w.2 = some k) False s (s.endHold k) :=
          endHold_moves hs.core k fun _ _ _ => rfl
        have hcalls : (s.endHold k).calls = s.calls := (endHold_edits s k).frame.calls
        refine bump_backed (hs.backed.follow hmoves hs.core.circuits (.of_calls hcalls) ?_)
          (hmoves.circuitsSound hs.core.circuits) _
        intro r rec gr _ hrec hclaims huse
        rw [hcalls] at hrec
        obtain ⟨hgrant, hown, -⟩ := hclaims
        cases hphase : rec.phase with
        | awaitHold => rw [hphase] at hgrant; cases hgrant
        | offered gr' deadline =>
          rw [hphase] at hgrant
          cases hgrant
          rw [CallRecord.useOf_offered (by rw [hphase]; rfl)] at huse
          exact hexpiry k rfl r rec gr deadline hrec hphase hown (Option.some.inj huse)
        | ringing => rw [CallRecord.useOf_seized (by rw [hphase]; rfl)] at huse; cases huse
        | connected => rw [CallRecord.useOf_seized (by rw [hphase]; rfl)] at huse; cases huse
      · exact hs.backed
  case holdGive =>
    exact takeFrame_backed hs hrx fun f k hk u hu hsource => by
      split at hk <;> cases hk
      exact takeGive_backed hu hsource _ _ _ _ _ _ _ _ _
  case holdDeny =>
    exact takeFrame_backed hs hrx fun f k hk u hu _ => by
      split at hk <;> cases hk
      exact takeDeny_backed hu _ _ _ _ _ _
  case holdLost =>
    exact takeFrame_backed hs hrx fun f k hk u hu _ => by
      split at hk <;> cases hk
      exact takeLost_backed hu _ _ _ _ _
  case answerTimeout r =>
    split
    · exact hs.backed
    · split
      · split
        · exact crankback_backed (hs.congr (bump_same s .noAnswerTimeouts) rfl) _ _ _
        · exact hs.backed
      · exact hs.backed
  case routeAsk =>
    exact takeFrame_backed hs hrx fun f k hk u hu _ => by
      split at hk <;> cases hk
      exact takeRouteAsk_backed hu _ _ _ _ _
  case seized =>
    refine seizeFrame_backed hs hrx _ fun u hu r rec v hrec ha => ?_
    split at ha <;> cases ha
    exact seize_backed hu.backed hu.core hrec ‹_› (hu.fresh hrec ‹_›)
  case answered =>
    refine seizeFrame_backed hs hrx _ fun u hu r rec v hrec ha => ?_
    split at ha <;> cases ha
    · rename_i gr _ hphase
      have hmoves : CoreMoves anyUse False u (u.seize r rec gr) := seize_moves hu.core r fun _ => trivial
      exact (seize_backed hu.backed hu.core hrec hphase (hu.fresh hrec hphase)).connect
        (hmoves.circuitsSound hu.core.circuits) r
    · exact hu.backed.connect hu.core.circuits r
  case seizeFailed =>
    refine seizeFrame_backed hs hrx _ fun u hu r rec v hrec ha => ?_
    split at ha <;> cases ha
    rename_i gr _ hphase
    have hmoves : CoreMoves anyUse False u (u.reportFault rec gr) := reportFault_moves hu.core fun _ _ => trivial
    exact select_backed (hmoves.coreSound hu.core)
      (reportFault_backedBut hu.backed hu.core hrec (by rw [hphase]; rfl) (hu.fresh hrec hphase)) _ _
  case abandoned =>
    refine seizeFrame_backed hs hrx _ fun u hu r rec v hrec ha => ?_
    split at ha <;> cases ha <;> rename_i hphase <;>
      exact endDrop_free_backed hu hrec (by rw [hphase]; rfl) ⟨rfl, rfl, rfl, rfl⟩ rfl
  case offerTimeout r =>
    split
    · exact hs.backed
    · rename_i rec hrec
      split
      · rename_i hphase
        split
        · exact endDrop_free_backed hs hrec (by rw [hphase]; rfl) ((send_same _ _ _).trans (bump_same _ _))
            (send_calls _ _ _)
        · exact hs.backed
      · exact hs.backed
  case callClear =>
    exact takeFrame_backed hs hrx fun f k hk u hu _ => by
      split at hk <;> cases hk
      exact takeClear_backed hu _ _ _ _
  case forceRelease => exact forceRelease_backed hs hrx
  case absenceEvent p =>
    split
    · exact hs.backed
    · split
      · rename_i hdue
        simp only [Bool.and_eq_true, decide_eq_true_eq] at hdue
        have hroster : ({ s with roster := Tab.del s.roster p } : State).Backing := hs.congr ⟨rfl, rfl, rfl, rfl⟩ rfl
        exact peerGone_backed hroster.backed hroster.core hdue.1.2
      · exact hs.backed
  case present =>
    exact takeFrame_backed hs hrx fun f k hk u hu hsource => by
      split at hk <;> cases hk
      exact takePresent_backed hu hsource _

theorem exec_backed {c : Instr} (h : exec c s = .next t) (hkept : s.KeptInState)
    (hexpiry : ∀ k, c = .holdExpiry k → ∀ r rec gr deadline, Tab.find s.calls r = some rec →
      rec.phase = .offered gr deadline → rec.group / 16 = s.address → gr.slot ≠ k) : t.Backed := by
  cases hcalm : Instr.calm c with
  | true =>
    exact hs.backed.calm (exec_calm_moves (P := noUse) hcalm h hs.core) hs.core.circuits (exec_calm_calls hcalm h)
  | false =>
    cases hc : Instr.clearsCalls c with
    | true => exact reset_backed hs hrx hc h hkept
    | false => exact exec_use_backed hs hrx hcalm hc h hexpiry

end

/-- Settles O60: the command at the front of the queue leaves every own call backed; a backed call that is not disputed
and has been seized has its circuit BUSY. -/
theorem stepKeepsBacking : Obligations.StepKeepsBacking := by
  intro s t hkept htables hgroups hlinked hbacked hrx hexpiry hfresh hstep
  have hw : Tab.wf s.calls := htables.2.2.2.2.1
  have hs : s.Backing := ⟨⟨⟨hgroups.found, hlinked⟩, False.elim⟩, (State.callsBacked_iff hw).1 hbacked, hw,
    fun hrec hphase hown hdrops => hfresh _ (Tab.mem_of_find hrec) _ _ hphase hown hdrops⟩
  have ht : t.Backed := by
    unfold step at hstep
    split at hstep
    · cases hstep
      unfold State.tick
      split
      · exact hs.backed
      · exact hs.sent ⟨rfl, rfl, rfl, rfl⟩ rfl
    · rename_i c rest hpending
      refine exec_backed (hs.congr (t := { s with pending := rest }) ⟨rfl, rfl, rfl, rfl⟩ rfl) hrx hstep hkept ?_
      rintro k rfl r rec gr deadline hrec hphase hown
      exact hexpiry k rest hpending _ (Tab.mem_of_find hrec) gr deadline hphase hown
  have hwt : Tab.wf t.calls := (stepKept_tablesSound.step hstep htables).2.2.2.2.1
  refine ⟨(State.callsBacked_iff hwt).2 ht, fun p hp gr hgr hseized hown hdisputed => ?_⟩
  have hdrops : p.2.dropsAtEnd = true := by rw [CallRecord.dropsAtEnd, hdisputed]; rfl
  obtain ⟨li, g, term, bp, fr, hbusy⟩ := ht.backs trivial (Tab.find_of_mem hwt hp) ⟨hgr, hown, hdrops⟩
  rw [if_pos hseized] at hbusy
  exact ⟨li, g, term, bp, fr, hbusy⟩

end Sys2Proof.Machine
end
